-- ==== Sys2Proof/Word.lean ====
section
/-! DEFINITION. The word and byte types of the machine (00_scope.md R7, R10). -/

namespace Sys2Proof

/-- A register value or an address: 64 bits (R7). -/
abbrev Word := BitVec 64

/-- One byte of memory or of an instruction. -/
abbrev Byte := BitVec 8

/-- A 4-bit register index of an operand descriptor (R21, R22, R125). -/
abbrev RegIndex := BitVec 4

end Sys2Proof
end

