-- ==== Sys2Proof/Syntax.lean ====
section
/-! DEFINITION. The instructions of the root set as syntax: one constructor of `Instr` per row of
spec/opcode_table.json (30_encoding.md R120 to R137). -/

namespace Sys2Proof

/-- Operand size codes 0 to 3, `.b .w .d .l` (R123). -/
inductive Size where
  | b | w | d | l
deriving DecidableEq, Repr

/-- The width in bits of a size (R123). -/
def Size.bits : Size → Nat
  | .b => 8
  | .w => 16
  | .d => 32
  | .l => 64

/-- `bytes(w)`: the width in bytes of a size (R10, R123). -/
def Size.bytes : Size → Nat
  | .b => 1
  | .w => 2
  | .d => 4
  | .l => 8

/-- The two operand families an instruction can carry once decoded (R124, R161). -/
inductive Family where
  | integral | control
deriving DecidableEq, Repr

/-- The addressing modes (R127). -/
inductive Mode where
  | absolute | immediate | indirect | register
deriving DecidableEq, Repr

/-- The three instruction forms: no operand, one operand, two operands (R121). -/
inductive Form where
  | n0 | n1 | n2
deriving DecidableEq, Repr

/-- The root opcodes, one per value of the opcode map (R136). -/
inductive Opcode where
  | brk | nop | mov | add | sub | cmp | asl | asr | lsl | lsr | push | pop
  | bra | beq | bne | bcs | bcc | bmi | bpl | bvs | bvc | call | ret | rti | rte | sys
deriving DecidableEq, Repr

/-- The offset of an Indirect operand (R128, R131, R132). -/
inductive Offset where
  /-- `rel = 0`: no extra byte. -/
  | none
  /-- `rel = 1`: the offset register's index and the shift. -/
  | registerRelative (index shift : BitVec 4)
  /-- `rel = 2`: a signed 8-bit displacement. -/
  | absoluteRelative (disp : Byte)
deriving DecidableEq, Repr

/-- An operand as the instruction's bytes give it (R125 to R132). Absolute and Immediate operands do
not use the descriptor's register nibble (R143): it is kept as `spare`, so that no bit of an encoding
is dropped. -/
inductive Operand where
  | absolute (spare : BitVec 4) (address : Word)
  | immediate (spare : BitVec 4) (value : Word)
  | indirect (base : RegIndex) (offset : Offset)
  | register (reg : RegIndex)
deriving DecidableEq, Repr

/-- The root instruction set (R136): one constructor per row of spec/opcode_table.json, in its order.
Operands stand destination first (R120). `movCr` is the Control-family MOV, always of size long
(R211). -/
inductive Instr where
  | brk
  | nop
  | mov (size : Size) (dst src : Operand)
  | movCr (dst src : Operand)
  | add (size : Size) (dst src : Operand)
  | sub (size : Size) (dst src : Operand)
  | cmp (size : Size) (dst src : Operand)
  | asl (size : Size) (dst src : Operand)
  | asr (size : Size) (dst src : Operand)
  | lsl (size : Size) (dst src : Operand)
  | lsr (size : Size) (dst src : Operand)
  | push (size : Size) (op : Operand)
  | pop (size : Size) (op : Operand)
  | bra (size : Size) (op : Operand)
  | beq (size : Size) (op : Operand)
  | bne (size : Size) (op : Operand)
  | bcs (size : Size) (op : Operand)
  | bcc (size : Size) (op : Operand)
  | bmi (size : Size) (op : Operand)
  | bpl (size : Size) (op : Operand)
  | bvs (size : Size) (op : Operand)
  | bvc (size : Size) (op : Operand)
  | call (size : Size) (op : Operand)
  | ret
  | rti
  | rte
  | sys
deriving DecidableEq, Repr

end Sys2Proof
end

