-- ==== Sys2Proof/Config.lean ====
section
/-! DEFINITION. What the platform fixes (00_scope.md R8): the parameters, their default values, and
the host's answers, which are opaque constants. A `Config` is plain data; every state carries the one
its machine was built with, and no step changes it. -/

namespace Sys2Proof

/-- `BYTE_ORDER` (R8, D1). -/
inductive ByteOrder where
  | be | le
deriving DecidableEq, Repr

/-- The bus of a region (R60, R65). -/
inductive Bus where
  | coherentRam | flash | hardware
deriving DecidableEq, Repr

/-- A valid entry of the region table: the range `[start, stop)`, its capability flags and its bus
(R60). -/
structure Region where
  start : Word
  stop : Word
  readable : Bool
  writable : Bool
  executable : Bool
  cacheable : Bool
  nonVolatile : Bool
  hardwareMapped : Bool
  bus : Bus
deriving DecidableEq, Repr

/-- `MODE_CODES`: the addressing mode of each code 0 to 3 (R127, D2). -/
structure ModeCodes where
  code0 : Mode
  code1 : Mode
  code2 : Mode
  code3 : Mode
deriving DecidableEq, Repr

/-- One route of `INT_ROUTE`: peripheral `source` drives `line` of `core` (R331). -/
structure IntRoute where
  source : Nat
  core : Nat
  line : Nat
deriving DecidableEq, Repr

/-- One byte operation on the hardware bus (R73). -/
inductive HwEvent where
  | read (core address : Nat) (value : Byte)
  | write (core address : Nat) (value : Byte)
deriving DecidableEq, Repr

/-- One effect of a syscall handler: what R302 lets a handler do, and nothing else. -/
inductive SysAction where
  /-- Write d0 to d7, a0 to a6 or sp (the Integral map, R21), all 64 bits. -/
  | setReg (reg : RegIndex) (value : Word)
  /-- Write the flags C V Z N X. -/
  | setFlags (c v z n x : Bool)
  /-- Read `n` bytes through the MMU, kind read; the host receives them. -/
  | load (address : Word) (n : Nat)
  /-- Write bytes through the MMU, kind write. -/
  | store (address : Word) (bytes : List Byte)
deriving DecidableEq, Repr

/-- The parameters of the hardware (R8). -/
structure Config where
  /-- `LINE_SIZE`, in bytes. -/
  lineSize : Nat
  /-- `NUM_LINES` of each core's cache. -/
  numLines : Nat
  /-- `REGION_TABLE`: `NUM_REGIONS` = 16 entries, invalid or a region (R60). -/
  regions : Vector (Option Region) 16
  /-- `VT_BASE`. -/
  vtBase : Word
  /-- `CB_RESERVED_END`: the core neither reads nor writes up to there on its own (R352). -/
  cbReservedEnd : Word
  /-- `NUM_CORES`. -/
  numCores : Nat
  /-- `NUM_DECODER_SLOTS`. -/
  numDecoderSlots : Nat
  /-- `DQ_CAPACITY`, in bytes. -/
  dqCapacity : Nat
  /-- `DQ_RECORD_BYTES`. -/
  dqRecordBytes : Nat
  /-- `BYTE_ORDER`. -/
  byteOrder : ByteOrder
  /-- `OPCODE_MAP`, as data (R136, D8). -/
  opcodeMap : List (Byte × Opcode)
  /-- `MODE_CODES`. -/
  modeCodes : ModeCodes
  /-- `EXT_MASK`: the high nibble of the extension opcodes (R138). -/
  extMask : BitVec 4
  /-- `EXTENSIONS`: the registered extension opcode bytes (R138). -/
  extensions : List Byte
  /-- The ids that `SYSCALL_TABLE` has a handler for (R302). -/
  syscallIds : List Word
  /-- `INT_ROUTE` (R331). -/
  intRoute : List IntRoute
  /-- `REFUSE_MMU_ENABLE` (R37). -/
  refuseMmuEnable : Bool
  /-- `BRANCH_IMM_ONLY` (R260). -/
  branchImmOnly : Bool
deriving DecidableEq, Repr

/-- `DQ_HEADER_BYTES` (R8). -/
def Config.dqHeaderBytes : Nat := 4

/-- The default `OPCODE_MAP` (R136). -/
def Config.rootOpcodes : List (Byte × Opcode) :=
  [ (0x00, .brk), (0x01, .nop),
    (0x20, .mov), (0x21, .add), (0x22, .sub), (0x23, .cmp),
    (0x30, .asl), (0x31, .asr), (0x32, .lsl), (0x33, .lsr),
    (0x40, .push), (0x41, .pop),
    (0x50, .bra), (0x51, .beq), (0x52, .bne), (0x53, .bcs), (0x54, .bcc),
    (0x55, .bmi), (0x56, .bpl), (0x57, .bvs), (0x58, .bvc),
    (0x60, .call), (0x61, .ret), (0x62, .rti), (0x63, .rte), (0x70, .sys) ]

/-- Region 0 of the default `REGION_TABLE`: coherent, cacheable RAM `[0, ramSize)` with R, W and X
(D33). -/
def Config.ramRegion (ramSize : Word) : Region :=
  { start := 0, stop := ramSize, readable := true, writable := true, executable := true,
    cacheable := true, nonVolatile := false, hardwareMapped := false, bus := .coherentRam }

/-- The default `REGION_TABLE` for a given `RAM_SIZE` (D33). -/
def Config.ramOnly (ramSize : Word) : Vector (Option Region) 16 :=
  #v[some (Config.ramRegion ramSize), none, none, none, none, none, none, none,
     none, none, none, none, none, none, none, none]

/-- Every parameter at the value of R8's table. The ones R8 gives no value are DESIGN CHOICES:
`DQ_RECORD_BYTES` is 64 (log 4), `SYSCALL_TABLE` has no id, so that every SYS raises IllegalInstruction
(log 27), and `INT_ROUTE` has no route (log 28). -/
def Config.default : Config :=
  { lineSize := 64
    numLines := 8
    regions := Config.ramOnly 0x100000
    vtBase := 0
    cbReservedEnd := 0x1000
    numCores := 1
    numDecoderSlots := 1
    dqCapacity := 1024
    dqRecordBytes := 64
    byteOrder := .be
    opcodeMap := Config.rootOpcodes
    modeCodes := ⟨.absolute, .immediate, .indirect, .register⟩
    extMask := 0xF
    extensions := []
    syscallIds := []
    intRoute := []
    refuseMmuEnable := false
    branchImmOnly := false }

/-- `HW_READ(core, x, history)` (R73): the byte the host answers when `core` reads address `x` of a
Hardware region after the hardware-bus operations of `history`. FREE VALUE (log 6): nothing
constrains it. -/
opaque Config.hwRead : (core x : Nat) → (history : List HwEvent) → Byte

end Sys2Proof
end

