-- ==== Sys2Proof/WellFormed.lean ====
section
/-! DEFINITION. Which terms of `Instr` an encoding can carry (30_encoding.md R129, R134): an
immediate that the instruction's bytes hold fits the operand size, and an immediate that they do not
hold (`imm(dst)` of MOV, the operand of POP) is 0. -/

namespace Sys2Proof

/-- An operand whose immediate, if it is one, is read from the instruction's bytes: it is
`zext_64` of `size` bits (R134). -/
def Operand.fits (size : Size) : Operand → Bool
  | .immediate _ v => decide (v.toNat < 2 ^ size.bits)
  | _ => true

/-- An operand whose immediate, if it is one, is not part of the instruction (R129). -/
def Operand.unread : Operand → Bool
  | .immediate _ v => decide (v = 0)
  | _ => true

/-- The instruction has an encoding. -/
def Instr.wellFormed : Instr → Bool
  | .brk | .nop | .ret | .rti | .rte | .sys => true
  | .mov size dst src => dst.unread && src.fits size
  | .movCr dst src => dst.unread && src.fits .l
  | .add size dst src | .sub size dst src | .cmp size dst src
  | .asl size dst src | .asr size dst src | .lsl size dst src | .lsr size dst src =>
      dst.fits size && src.fits size
  | .pop _ op => op.unread
  | .push size op | .bra size op | .beq size op | .bne size op | .bcs size op | .bcc size op
  | .bmi size op | .bpl size op | .bvs size op | .bvc size op | .call size op => op.fits size

end Sys2Proof
end

