-- ==== Sys2Proof/Decode.lean ====
section
/-! DEFINITION. How bytes spell an instruction (30_encoding.md): the fields of the opcode, metadata
and descriptor bytes, the decoder over a list of bytes, and after it the encoder. The tick-by-tick
decoder (Machine/Decoder.lean) reads the same bytes through the same field functions. -/

namespace Sys2Proof

/-! ### Byte order -/

/-- `Σ b_j · 2^(8j)`: the first byte is the least significant. -/
def leNat : List Byte → Nat
  | [] => 0
  | b :: bs => b.toNat + 256 * leNat bs

/-- The low `n` bytes of `v`, least significant first. -/
def leBytes : Nat → Nat → List Byte
  | 0, _ => []
  | n + 1, v => BitVec.ofNat 8 v :: leBytes n (v / 256)

/-- The value of a multi-byte field or datum, in `BYTE_ORDER` (R71, R130). -/
def assemble (order : ByteOrder) (bs : List Byte) : Nat :=
  match order with
  | .be => leNat bs.reverse
  | .le => leNat bs

/-- The low `8n` bits of `v` as `n` bytes at increasing addresses, in `BYTE_ORDER` (R71). -/
def split (order : ByteOrder) (n v : Nat) : List Byte :=
  match order with
  | .be => (leBytes n v).reverse
  | .le => leBytes n v

/-! ### Fields -/

/-- Bits 7:4 of an opcode, descriptor or relative-descriptor byte (R125, R131, R138). -/
def highNibble (b : Byte) : BitVec 4 := b.extractLsb' 4 4

/-- Bits 3:0 of a relative-descriptor byte (R131). -/
def lowNibble (b : Byte) : BitVec 4 := b.extractLsb' 0 4

/-- The size of code 0 to 3 (R123). -/
def Size.ofCode (code : BitVec 2) : Size :=
  match code.toNat with
  | 0 => .b
  | 1 => .w
  | 2 => .d
  | _ => .l

/-- The code of a size (R123). -/
def Size.code : Size → BitVec 2
  | .b => 0
  | .w => 1
  | .d => 2
  | .l => 3

/-- The code of a family (R124). -/
def Family.code : Family → BitVec 2
  | .integral => 0
  | .control => 1

/-- The addressing mode of a code (R127). -/
def Config.modeOf (cfg : Config) (code : BitVec 2) : Mode :=
  match code.toNat with
  | 0 => cfg.modeCodes.code0
  | 1 => cfg.modeCodes.code1
  | 2 => cfg.modeCodes.code2
  | _ => cfg.modeCodes.code3

/-- The code of an addressing mode: the first one that stands for it (R127). -/
def Config.modeCode (cfg : Config) (m : Mode) : BitVec 2 :=
  if cfg.modeCodes.code0 = m then 0
  else if cfg.modeCodes.code1 = m then 1
  else if cfg.modeCodes.code2 = m then 2
  else 3

/-- The root opcode of a byte, if the opcode map has one (R136). -/
def Config.opcodeOf (cfg : Config) (b : Byte) : Option Opcode :=
  (cfg.opcodeMap.find? fun e => e.1 = b).map Prod.snd

/-- The byte of a root opcode (0 where the map has none, which `Config.codesOk` rules out). -/
def Config.opcodeByte (cfg : Config) (op : Opcode) : Byte :=
  ((cfg.opcodeMap.find? fun e => e.2 = op).map Prod.fst).getD 0

/-- The byte is in the extension space (R138). -/
def Config.isExtension (cfg : Config) (b : Byte) : Bool :=
  decide (highNibble b = cfg.extMask)

/-- The form of each opcode (R136, R137). -/
def Opcode.form : Opcode → Form
  | .brk | .nop | .ret | .rti | .rte | .sys => .n0
  | .push | .pop | .bra | .beq | .bne | .bcs | .bcc | .bmi | .bpl | .bvs | .bvc | .call => .n1
  | .mov | .add | .sub | .cmp | .asl | .asr | .lsl | .lsr => .n2

/-- The opcodes whose destination is read at decode (R137). -/
def Opcode.readsDst : Opcode → Bool
  | .add | .sub | .cmp | .asl | .asr | .lsl | .lsr => true
  | _ => false

/-- The one-operand opcodes read their operand, but for POP (R129, R166). -/
def Opcode.readsOperand : Opcode → Bool
  | .pop => false
  | _ => true

/-- The operand size of a metadata byte (R122). -/
def metaSize (md : Byte) : Size := Size.ofCode (md.extractLsb' 0 2)

/-- The family field of a metadata byte (R122). -/
def metaFamilyCode (md : Byte) : BitVec 2 := md.extractLsb' 4 2

/-- The family of a metadata byte that passed the checks of R140. -/
def metaFamily (md : Byte) : Family := if metaFamilyCode md = 1 then .control else .integral

/-- The `mode` field of a descriptor byte, through `MODE_CODES` (R125). -/
def Config.descMode (cfg : Config) (d : Byte) : Mode := cfg.modeOf (d.extractLsb' 0 2)

/-- The `rel` field of a descriptor byte (R125, R128). -/
def descRel (d : Byte) : BitVec 2 := d.extractLsb' 2 2

/-! ### Decoding -/

/-- Why a list of bytes is no instruction. The machine raises IllegalInstruction for all but
`truncated` (a fetch that cannot be made, R171) and `registeredExtension` (refused, R305). -/
inductive DecodeError where
  | truncated
  | unknownOpcode (b : Byte)
  | unregisteredExtension (b : Byte)
  | registeredExtension (b : Byte)
  | reservedMetadata
  | illegalFamily
  | controlNotMov
  | controlNotLong
  | reservedRelative
  | relativeNotIndirect
deriving DecidableEq, Repr

/-- The checks of R140 on the metadata byte and the descriptor bytes (destination first), in that
rule's order: the first that fails. -/
def headError (cfg : Config) (op : Opcode) (md : Byte) (ds : List Byte) : Option DecodeError :=
  if md.extractLsb' 2 2 ≠ 0 ∨ md.extractLsb' 6 2 ≠ 0 then some .reservedMetadata
  else if 2 ≤ (metaFamilyCode md).toNat then some .illegalFamily
  else if metaFamilyCode md = 1 ∧ op ≠ .mov then some .controlNotMov
  else if metaFamilyCode md = 1 ∧ metaSize md ≠ .l then some .controlNotLong
  else if ds.any (fun d => decide (descRel d = 3)) then some .reservedRelative
  else if ds.any (fun d => decide (descRel d ≠ 0 ∧ cfg.descMode d ≠ .indirect)) then
    some .relativeNotIndirect
  else none

/-- The first `n` bytes and the rest. -/
def takeBytes : Nat → List Byte → Option (List Byte × List Byte)
  | 0, bs => some ([], bs)
  | _ + 1, [] => none
  | n + 1, b :: bs => (takeBytes n bs).map fun r => (b :: r.1, r.2)

/-- `ext(d)`: the operand a descriptor byte gives with its extra bytes, an immediate still to come
(R121, R131, R132). -/
def parseExt (cfg : Config) (d : Byte) (bs : List Byte) : Option (Operand × List Byte) :=
  match cfg.descMode d with
  | .absolute =>
    (takeBytes 8 bs).map fun r =>
      (.absolute (highNibble d) (BitVec.ofNat 64 (assemble cfg.byteOrder r.1)), r.2)
  | .immediate => some (.immediate (highNibble d) 0, bs)
  | .register => some (.register (highNibble d), bs)
  | .indirect =>
    if descRel d = 0 then some (.indirect (highNibble d) .none, bs)
    else (takeBytes 1 bs).map fun r =>
      let rd := r.1.headD 0
      if descRel d = 1 then
        (.indirect (highNibble d) (.registerRelative (highNibble rd) (lowNibble rd)), r.2)
      else (.indirect (highNibble d) (.absoluteRelative rd), r.2)

/-- `imm(d)`, if the operand is Immediate and the instruction reads it (R129). -/
def parseImm (cfg : Config) (reads : Bool) (size : Size) (o : Operand) (bs : List Byte) :
    Option (Operand × List Byte) :=
  match o with
  | .immediate spare v =>
    if reads then
      (takeBytes size.bytes bs).map fun r =>
        (.immediate spare (BitVec.ofNat 64 (assemble cfg.byteOrder r.1)), r.2)
    else some (.immediate spare v, bs)
  | o => some (o, bs)

/-- The instruction of an opcode, a family, a size and its operands; a form without an operand ignores
it (R136). -/
def Opcode.build (op : Opcode) (family : Family) (size : Size) (dst src : Operand) : Instr :=
  match op with
  | .brk => .brk
  | .nop => .nop
  | .mov => match family with
    | .integral => .mov size dst src
    | .control => .movCr dst src
  | .add => .add size dst src
  | .sub => .sub size dst src
  | .cmp => .cmp size dst src
  | .asl => .asl size dst src
  | .asr => .asr size dst src
  | .lsl => .lsl size dst src
  | .lsr => .lsr size dst src
  | .push => .push size dst
  | .pop => .pop size dst
  | .bra => .bra size dst
  | .beq => .beq size dst
  | .bne => .bne size dst
  | .bcs => .bcs size dst
  | .bcc => .bcc size dst
  | .bmi => .bmi size dst
  | .bpl => .bpl size dst
  | .bvs => .bvs size dst
  | .bvc => .bvc size dst
  | .call => .call size dst
  | .ret => .ret
  | .rti => .rti
  | .rte => .rte
  | .sys => .sys

/-- The bytes after the descriptor of a one-operand instruction: `ext`, then `imm` (R121). -/
def parseTail1 (cfg : Config) (op : Opcode) (md d : Byte) (bs : List Byte) :
    Option (Instr × List Byte) :=
  match parseExt cfg d bs with
  | none => none
  | some (o, bs) =>
    match parseImm cfg op.readsOperand (metaSize md) o bs with
    | none => none
    | some (o, bs) => some (op.build (metaFamily md) (metaSize md) o (.register 0), bs)

/-- The bytes after the descriptors of a two-operand instruction: `ext(dst)`, `ext(src)`, `imm(src)`,
`imm(dst)` (R121). -/
def parseTail2 (cfg : Config) (op : Opcode) (md d0 d1 : Byte) (bs : List Byte) :
    Option (Instr × List Byte) :=
  match parseExt cfg d0 bs with
  | none => none
  | some (dst, bs) =>
    match parseExt cfg d1 bs with
    | none => none
    | some (src, bs) =>
      match parseImm cfg true (metaSize md) src bs with
      | none => none
      | some (src, bs) =>
        match parseImm cfg op.readsDst (metaSize md) dst bs with
        | none => none
        | some (dst, bs) => some (op.build (metaFamily md) (metaSize md) dst src, bs)

/-- The instruction at the head of a list of bytes, with the bytes after it (R120 to R140); total, and
an error names why there is none. -/
def decode (cfg : Config) : List Byte → Except DecodeError (Instr × List Byte)
  | [] => .error .truncated
  | b :: bs =>
    if cfg.isExtension b then
      if b ∈ cfg.extensions then .error (.registeredExtension b)
      else .error (.unregisteredExtension b)
    else
      match cfg.opcodeOf b with
      | none => .error (.unknownOpcode b)
      | some op =>
        match op.form, bs with
        | .n0, bs => .ok (op.build .integral .b (.register 0) (.register 0), bs)
        | .n1, md :: d :: bs =>
          match headError cfg op md [d] with
          | some e => .error e
          | none =>
            match parseTail1 cfg op md d bs with
            | none => .error .truncated
            | some r => .ok r
        | .n2, md :: d0 :: d1 :: bs =>
          match headError cfg op md [d0, d1] with
          | some e => .error e
          | none =>
            match parseTail2 cfg op md d0 d1 bs with
            | none => .error .truncated
            | some r => .ok r
        | .n1, _ => .error .truncated
        | .n2, _ => .error .truncated

/-! ### Encoding -/

/-- The opcode of an instruction (R136). -/
def Instr.opcode : Instr → Opcode
  | .brk => .brk
  | .nop => .nop
  | .mov .. => .mov
  | .movCr .. => .mov
  | .add .. => .add
  | .sub .. => .sub
  | .cmp .. => .cmp
  | .asl .. => .asl
  | .asr .. => .asr
  | .lsl .. => .lsl
  | .lsr .. => .lsr
  | .push .. => .push
  | .pop .. => .pop
  | .bra .. => .bra
  | .beq .. => .beq
  | .bne .. => .bne
  | .bcs .. => .bcs
  | .bcc .. => .bcc
  | .bmi .. => .bmi
  | .bpl .. => .bpl
  | .bvs .. => .bvs
  | .bvc .. => .bvc
  | .call .. => .call
  | .ret => .ret
  | .rti => .rti
  | .rte => .rte
  | .sys => .sys

/-- The operand size of an instruction; code 0 for the forms without one (R161). -/
def Instr.size : Instr → Size
  | .brk | .nop | .ret | .rti | .rte | .sys => .b
  | .movCr .. => .l
  | .mov s .. | .add s .. | .sub s .. | .cmp s .. | .asl s .. | .asr s .. | .lsl s .. | .lsr s ..
  | .push s _ | .pop s _ | .bra s _ | .beq s _ | .bne s _ | .bcs s _ | .bcc s _ | .bmi s _
  | .bpl s _ | .bvs s _ | .bvc s _ | .call s _ => s

/-- The operand family of an instruction (R124). -/
def Instr.family : Instr → Family
  | .movCr .. => .control
  | _ => .integral

/-- The first operand: the destination, or the single operand (R120). -/
def Instr.first : Instr → Option Operand
  | .brk | .nop | .ret | .rti | .rte | .sys => none
  | .movCr o _ | .mov _ o _ | .add _ o _ | .sub _ o _ | .cmp _ o _ | .asl _ o _ | .asr _ o _
  | .lsl _ o _ | .lsr _ o _ | .push _ o | .pop _ o | .bra _ o | .beq _ o | .bne _ o | .bcs _ o
  | .bcc _ o | .bmi _ o | .bpl _ o | .bvs _ o | .bvc _ o | .call _ o => some o

/-- The second operand: the source of a two-operand form (R120). -/
def Instr.second : Instr → Option Operand
  | .movCr _ o | .mov _ _ o | .add _ _ o | .sub _ _ o | .cmp _ _ o | .asl _ _ o | .asr _ _ o
  | .lsl _ _ o | .lsr _ _ o => some o
  | _ => none

/-- The metadata byte (R122): reserved bits 0, family, reserved bits 0, size. -/
def metaByte (family : Family) (size : Size) : Byte :=
  ((0 : BitVec 2) ++ family.code ++ (0 : BitVec 2) ++ size.code : BitVec 8)

/-- The descriptor byte of an operand (R125): register index, `rel`, mode code. -/
def Operand.descByte (cfg : Config) : Operand → Byte
  | .absolute spare _ => (spare ++ (0 : BitVec 2) ++ cfg.modeCode .absolute : BitVec 8)
  | .immediate spare _ => (spare ++ (0 : BitVec 2) ++ cfg.modeCode .immediate : BitVec 8)
  | .register r => (r ++ (0 : BitVec 2) ++ cfg.modeCode .register : BitVec 8)
  | .indirect r .none => (r ++ (0 : BitVec 2) ++ cfg.modeCode .indirect : BitVec 8)
  | .indirect r (.registerRelative _ _) => (r ++ (1 : BitVec 2) ++ cfg.modeCode .indirect : BitVec 8)
  | .indirect r (.absoluteRelative _) => (r ++ (2 : BitVec 2) ++ cfg.modeCode .indirect : BitVec 8)

/-- `ext(d)` as bytes (R121). -/
def Operand.extBytes (cfg : Config) : Operand → List Byte
  | .absolute _ a => split cfg.byteOrder 8 a.toNat
  | .indirect _ (.registerRelative i s) => [(i ++ s : BitVec 8)]
  | .indirect _ (.absoluteRelative d) => [d]
  | _ => []

/-- `imm(d)` as bytes, if the operand is Immediate and the instruction reads it (R121, R129). -/
def Operand.immBytes (cfg : Config) (reads : Bool) (size : Size) : Operand → List Byte
  | .immediate _ v => if reads then split cfg.byteOrder size.bytes v.toNat else []
  | _ => []

/-- The bytes of an instruction, at increasing addresses (R121). -/
def encode (cfg : Config) (i : Instr) : List Byte :=
  match i.first, i.second with
  | some dst, some src =>
    [cfg.opcodeByte i.opcode, metaByte i.family i.size, dst.descByte cfg, src.descByte cfg] ++
      (dst.extBytes cfg ++ (src.extBytes cfg ++ (src.immBytes cfg true i.size ++
        dst.immBytes cfg i.opcode.readsDst i.size)))
  | some op, none =>
    [cfg.opcodeByte i.opcode, metaByte i.family i.size, op.descByte cfg] ++
      (op.extBytes cfg ++ op.immBytes cfg i.opcode.readsOperand i.size)
  | none, _ => [cfg.opcodeByte i.opcode]

/-- `e(d)` of R135: how many extra bytes an operand has. -/
def Operand.extLength : Operand → Nat
  | .absolute _ _ => 8
  | .indirect _ .none => 0
  | .indirect _ _ => 1
  | _ => 0

/-- `bytes(w)` if the operand is Immediate and read, else 0 (R135). -/
def Operand.immLength (reads : Bool) (size : Size) : Operand → Nat
  | .immediate _ _ => if reads then size.bytes else 0
  | _ => 0

/-- The length of an instruction in bytes, by the formulas of R135. -/
def Instr.length (i : Instr) : Nat :=
  match i.first, i.second with
  | some dst, some src =>
    4 + dst.extLength + src.extLength + src.immLength true i.size
      + dst.immLength i.opcode.readsDst i.size
  | some op, none => 3 + op.extLength + op.immLength i.opcode.readsOperand i.size
  | none, _ => 1

/-- Every root opcode, in the order of R136. -/
def Opcode.all : List Opcode :=
  [.brk, .nop, .mov, .add, .sub, .cmp, .asl, .asr, .lsl, .lsr, .push, .pop, .bra, .beq, .bne, .bcs,
   .bcc, .bmi, .bpl, .bvs, .bvc, .call, .ret, .rti, .rte, .sys]

/-- The opcode map and the mode codes spell every root instruction, each in one way: every opcode has
a byte, no byte has two opcodes, none is an extension byte, and the four mode codes stand for the
four modes. -/
def Config.codesOk (cfg : Config) : Bool :=
  (Opcode.all.all fun op => decide (cfg.opcodeOf (cfg.opcodeByte op) = some op)
    && !cfg.isExtension (cfg.opcodeByte op))
  && decide (cfg.modeOf (cfg.modeCode .absolute) = .absolute)
  && decide (cfg.modeOf (cfg.modeCode .immediate) = .immediate)
  && decide (cfg.modeOf (cfg.modeCode .indirect) = .indirect)
  && decide (cfg.modeOf (cfg.modeCode .register) = .register)

/-! ### The host's words -/

/-- The longest instruction, in bytes (R135). -/
def maxInstrBytes : Nat := 20

/-- The bytes of an instruction word `w` of `nbits` bits as spec/opcode_table.json numbers them: byte 0
in the highest eight bits ("match/mask cover bytes 0-1 as a 16-bit big-endian value"), then bytes of
zeros up to the longest instruction. -/
def tableBytes (nbits w : Nat) : List Byte :=
  (leBytes (nbits / 8) w).reverse ++ List.replicate (maxInstrBytes - nbits / 8) 0

/-- The instruction the decoder reads from the word of an opcode-table row, with the default
parameters. -/
def decodeTableWord (nbits w : Nat) : Option Instr :=
  match decode Config.default (tableBytes nbits w) with
  | .ok (i, _) => some i
  | .error _ => none

end Sys2Proof
end

