-- ==== Sys2Proof/Machine/State.lean ====
section
/-! DEFINITION. The state of the machine as plain data (10_state.md, 40_decode_pipeline.md R160, R161,
R180, 20_memory.md R80), the reasons a step can stop, and the state after reset
(70_reset_and_hazards.md R370, R371). -/

namespace Sys2Proof.Machine

/-! ### Why a step stops -/

/-- The core has no step. -/
inductive Fault where
  /-- R187: the dispatch queue breaks the invariants of R185 or R186, or a Pop fails (R184). Raised by
  the tick; no rule reaches such a state (log 16). Safe: the model stops where the spec gives no step. -/
  | stuck
  /-- A decoder slot holds a record that its sequence id can never retire (R169, R189), so
  StepInstruction (R191) would tick for ever. Raised by `step` only, in states no rule reaches (log 16). Safe:
  the model stops where the spec gives no end. -/
  | neverRetires
deriving DecidableEq, Repr

/-- The spec gives the run no meaning (R18). -/
inductive Refusal where
  /-- An instruction without a meaning. No arm of `exec` answers it. Safe. -/
  | notModelled (mnemonic : String)
  /-- R9: the configuration is ill-formed. Raised by the tick and by every host
  operation (`act`) before anything else. Safe. -/
  | illFormedConfiguration
  /-- R168, R305: the opcode byte of a registered extension. Raised by the decoder. Safe: the spec
  gives no extension a meaning. -/
  | extensionInstruction (op : Byte)
  /-- R178: a queue entry tagged for an extension unit. Raised by the executor. Safe. -/
  | extensionRecord (tag : Byte)
  /-- R37, R41: a write of a non-zero value to cr3 when `REFUSE_MMU_ENABLE` is true. Raised by MOV to a
  control register. Safe. -/
  | mmuEnable
  /-- R260: a branch whose operand is not Immediate when `BRANCH_IMM_ONLY` is true. Raised by the
  branches. Safe. -/
  | branchOperandNotImmediate
  /-- R330: RaiseInterrupt with a line id of 8 or more. Raised by a host operation. Safe. -/
  | interruptLine
  /-- R376: SetEntry on a core that has ticked since its reset. Raised by a host operation. Safe. -/
  | setEntryTooLate
  /-- R89: Touch of an address outside the regions with C set. Raised by a host operation. Safe. -/
  | touchNotCacheable
  /-- A host operation on a core or a peripheral that the configuration does not have (log 21). Raised by
  a host operation. Safe. -/
  | noSuchTarget
deriving DecidableEq, Repr

/-! ### Registers -/

/-- The status flags (R26). -/
structure Flags where
  c : Bool
  v : Bool
  z : Bool
  n : Bool
  x : Bool
  h : Bool
deriving DecidableEq, Repr

/-- The register file, and so a snapshot of it (R20, R45). The integral registers stand in the order
of their indices: d0 to d7, a0 to a6, sp (R21). -/
structure RegFile where
  gpr : Vector Word 16
  ip : Word
  cr : Vector Word 8
  flags : Flags
deriving DecidableEq, Repr

/-! ### Control blocks -/

/-- An ISR control block (R43): its state, with the snapshot it holds while Executing. -/
inductive IsrBlock where
  | waiting
  | flagged
  | executing (snap : RegFile)
deriving DecidableEq, Repr

/-- The state of the exception control block (R44), with the snapshot it holds while Executing. -/
inductive ExcPhase where
  | idle
  | raised
  | executing (snap : RegFile)
deriving DecidableEq, Repr

/-- The exception control block (R44); `id` is the exception id delivered last, 0 to 5. -/
structure ExcBlock where
  phase : ExcPhase
  id : Fin 6
deriving DecidableEq, Repr

/-! ### The decoder and the queue -/

/-- A decoded operand (R126). -/
structure OperandRec where
  mode : Mode
  rel : BitVec 2
  reg : RegIndex
  reldesc : Byte
  abs : Word
  ea : Word
  imm : Word
deriving DecidableEq, Repr

/-- The decoded record, DecoderOutput (R161). For form N0 the size is code 0 and `w` is 0. -/
structure Record where
  opcode : Byte
  form : Form
  size : Size
  w : Nat
  family : Family
  dst : OperandRec
  src : OperandRec
  primary : Word
  secondary : Word
  startIp : Word
  length : Word
deriving DecidableEq, Repr

/-- The states of a decoder slot (R160). -/
inductive DecodeState where
  | idle | decodeAddrMode | readMem | twoOpDstReadMem | finished | decodeExtension
deriving DecidableEq, Repr

/-- A decoder slot (R160). -/
structure Slot where
  state : DecodeState
  seq : BitVec 64
  startIp : Word
  record : Record
deriving DecidableEq, Repr

/-- An entry of the dispatch queue (R180): the header's tag and payload size, and the payload. The size is
not cut to the header's 16 bits: R8, R9 and D48 set no upper bound on `DQ_RECORD_BYTES` (DESIGN CHOICE,
log 26). -/
structure Entry where
  tag : Byte
  size : Nat
  record : Record
deriving DecidableEq, Repr

/-- An operand with every field zero (R126). -/
def OperandRec.zero : OperandRec :=
  { mode := .absolute, rel := 0, reg := 0, reldesc := 0, abs := 0, ea := 0, imm := 0 }

/-- A record with every field zero (R161). -/
def Record.zero : Record :=
  { opcode := 0, form := .n0, size := .b, w := 0, family := .integral, dst := .zero, src := .zero,
    primary := 0, secondary := 0, startIp := 0, length := 0 }

/-- An Idle slot; its other fields are never read (R160; DESIGN CHOICE, log 13). -/
def Slot.idle : Slot := { state := .idle, seq := 0, startIp := 0, record := .zero }

/-! ### Memory and caches -/

/-- The MESI states of a cache line (R80). -/
inductive Mesi where
  | M | E | S | I
deriving DecidableEq, Repr

/-- A cache line (R80): its state, recency counter, line address and bytes. -/
structure Line where
  mesi : Mesi
  age : Nat
  tag : Nat
  data : List Byte
deriving DecidableEq, Repr

/-- Backing storage (R49): (address, byte) pairs, addresses strictly rising, none equal to
`Memory.blank`. -/
abbrev Memory := List Host.Cell

/-- What a byte of backing storage that nothing has written reads as. DESIGN CHOICE (log 2): R370 leaves
it unspecified. -/
def Memory.blank : Byte := 0

/-- What the cores share (R49) with the caches on their bus: cache `c` belongs to core `c` (R80), and
`hw` is the history of the hardware bus, which the host oracle sees (R73). -/
structure MemSys where
  caches : List (List Line)
  mem : Memory
  hw : List HwEvent
deriving DecidableEq, Repr

/-! ### The machine -/

/-- The private state of one core (R353), but for its cache. -/
structure Core where
  /-- The core index `c` (R39). -/
  id : Nat
  regs : RegFile
  /-- R42. -/
  initialSp : Word
  /-- R43. -/
  isr : Vector IsrBlock 8
  /-- R44. -/
  exc : ExcBlock
  /-- R46, R160. -/
  slots : List Slot
  /-- R46, R189. -/
  nextSeq : BitVec 64
  /-- R46, R189. -/
  retireSeq : BitVec 64
  /-- R47, R180: oldest entry first. -/
  queue : List Entry
  /-- The record the executor took from the queue last (`rec` of R178); the MODEL's own (log 7). -/
  exu : Record
  /-- The core has ticked since its reset, or has had no reset: what R376 asks of SetEntry; the MODEL's
  own (log 8). -/
  ticked : Bool
deriving DecidableEq, Repr

/-- The whole machine. `core` is the core that ticks; `peers` are the others, each whole, so that a host
may tick any of them (`State.focus`, R100). -/
structure State where
  /-- The parameters (R8), the region table among them (R60). No step changes them. -/
  cfg : Config
  core : Core
  peers : List Core
  sys : MemSys
  /-- How many system calls ran (MODEL's own, log 5): the counter the free value of SYS is applied
  to. -/
  calls : Nat
deriving DecidableEq, Repr

/-! ### Reset -/

/-- Every register at zero. d0 to d7 and a0 to a6: DESIGN CHOICE (log 1); the rest as R370 says. -/
def RegFile.zero : RegFile :=
  { gpr := Vector.replicate 16 0
    ip := 0
    cr := Vector.replicate 8 0
    flags := { c := false, v := false, z := false, n := false, x := false, h := false } }

/-- A line in state I with a given age (R370). Its tag and data are never read (DESIGN CHOICE,
log 13). -/
def Line.invalid (lineSize age : Nat) : Line :=
  { mesi := .I, age := age, tag := 0, data := List.replicate lineSize Memory.blank }

/-- The machine right after reset (R370, R371) with the default parameters, memory with nothing listed:
core 0's registers, with sp, `initialSp` and ip at the vector entries 0 and 1 of that memory, and the
cache as the two vector reads left it, line 0 holding line address 0 in state E (DEDUCED, log 12). -/
def State.reset : State :=
  { cfg := Config.default
    core :=
      { id := 0
        regs := RegFile.zero
        initialSp := 0
        isr := Vector.replicate 8 .waiting
        exc := { phase := .idle, id := 0 }
        slots := [Slot.idle]
        nextSeq := 0
        retireSeq := 0
        queue := []
        exu := Record.zero
        ticked := false }
    peers := []
    sys :=
      { caches :=
          [{ mesi := .E, age := 0, tag := 0, data := List.replicate 64 Memory.blank } ::
            List.replicate 7 (Line.invalid 64 2)]
        mem := []
        hw := [] }
    calls := 0 }

end Sys2Proof.Machine

namespace Sys2Proof

/-- `SYSCALL_TABLE` (R302): what the handler of the id in d0 does, in order, at a system call that runs in
state `s`, whose `calls` sets this call apart from every other. FREE VALUE: any list of the effects R302
allows (log 5). -/
opaque Config.syscallActions : (s : Machine.State) → List SysAction

end Sys2Proof
end

