-- ==== Sys2Proof/Machine/Regions.lean ====
section
/-! DEFINITION. The region table: lookup, capabilities, the check of an access and its split into pieces
(20_memory.md R60 to R68), and which configurations are well-formed (00_scope.md R9). -/

namespace Sys2Proof

/-- `Lookup(a)` (R62): the region that owns address `a`, found by the index `a[63:60]`. -/
def Config.lookup (cfg : Config) (a : Nat) : Option Region :=
  match cfg.regions[a >>> 60]? with
  | some (some r) => if r.start.toNat ≤ a ∧ a < r.stop.toNat then some r else none
  | _ => none

/-- `lineAddr(x)` (R68). -/
def Config.lineAddr (cfg : Config) (x : Nat) : Nat := x - x % cfg.lineSize

/-- The line at line address `L` lies in a region with C set (R61, R64). -/
def Config.cacheableAt (cfg : Config) (x : Nat) : Bool :=
  match cfg.lookup x with
  | some r => r.cacheable
  | none => false

/-- R61 and condition 2 of R9 for the entry at index `i`. -/
def Config.regionOk (cfg : Config) (i : Nat) (r : Region) : Bool :=
  decide (r.start.toNat < r.stop.toNat)
  && decide (r.start.toNat >>> 60 = i)
  && decide ((r.stop.toNat - 1) >>> 60 = i)
  && (!r.cacheable ||
      (decide (r.bus = .coherentRam)
       && decide (r.start.toNat % cfg.lineSize = 0)
       && decide (r.stop.toNat % cfg.lineSize = 0)))

/-- Conditions 1 and 2 of R9: every valid entry is well-formed. -/
def Config.regionsOk (cfg : Config) : Bool :=
  (List.range 16).all fun i =>
    match cfg.regions[i]? with
    | some (some r) => cfg.regionOk i r
    | _ => true

/-- Condition 3 of R9: `LINE_SIZE` is a power of two from 8 to 2^16. -/
def Config.lineSizeOk (cfg : Config) : Bool :=
  (List.range 17).any fun k => decide (3 ≤ k ∧ cfg.lineSize = 2 ^ k)

/-- Condition 6 of R9: the vector table `[VT_BASE, VT_BASE + 0x80)` lies in one readable region. -/
def Config.vectorTableOk (cfg : Config) : Bool :=
  match cfg.lookup cfg.vtBase.toNat with
  | some r => r.readable && decide (cfg.vtBase.toNat + 0x80 ≤ r.stop.toNat)
  | none => false

/-- A well-formed configuration: the six conditions of R9, and the bounds `NUM_CORES ≥ 1`,
`NUM_DECODER_SLOTS ≥ 1` and `DQ_RECORD_BYTES ≥ 1` of R8 (DEDUCED, log 15). There is no upper bound on `DQ_RECORD_BYTES`
(DESIGN CHOICE, log 26). -/
def Config.wf (cfg : Config) : Bool :=
  cfg.regionsOk
  && cfg.lineSizeOk
  && decide (1 ≤ cfg.numLines)
  && decide (Config.dqHeaderBytes + cfg.dqRecordBytes ≤ cfg.dqCapacity)
  && cfg.vectorTableOk
  && decide (1 ≤ cfg.numCores)
  && decide (1 ≤ cfg.numDecoderSlots)
  && decide (1 ≤ cfg.dqRecordBytes)

namespace Machine

/-- The kind of an access (R63). -/
inductive AccessKind where
  | fetch | read | write
deriving DecidableEq, Repr

end Machine

open Machine

/-- `Allowed(r, k)` (R63): X for fetch, R for read, W for write. NV and HW affect no permission. -/
def Region.allows (r : Region) : AccessKind → Bool
  | .fetch => r.executable
  | .read => r.readable
  | .write => r.writable

/-- Byte `x` has an owning region that allows kind `k`. -/
def Config.byteAllowed (cfg : Config) (k : AccessKind) (x : Nat) : Bool :=
  match cfg.lookup x with
  | some r => r.allows k
  | none => false

/-- `Check(a, n, k)` (R67): the access does not run past the top of the address space, and every byte
of it is allowed. False is a MemoryFault. -/
def Config.check (cfg : Config) (a n : Nat) (k : AccessKind) : Bool :=
  decide (a + n ≤ 2 ^ 64) && (List.range n).all fun j => cfg.byteAllowed k (a + j)

/-- How many of the `n ≥ 1` bytes from `x` the first piece takes (R68): up to the end of the line and of
the region where the region is cacheable, else one byte. -/
def Config.pieceLength (cfg : Config) (x n : Nat) : Nat :=
  match cfg.lookup x with
  | some r =>
    if r.cacheable then
      max 1 (min n (min (cfg.lineSize - x % cfg.lineSize) (r.stop.toNat - x)))
    else 1
  | none => 1

/-- The pieces (address, length) of the `n` bytes from `x`, in ascending address order (R68); at most
`fuel` of them, and `n` pieces are always enough. -/
def Config.piecesFrom (cfg : Config) : (fuel x n : Nat) → List (Nat × Nat)
  | 0, _, _ => []
  | fuel + 1, x, n =>
    if n = 0 then []
    else
      let len := cfg.pieceLength x n
      (x, len) :: cfg.piecesFrom fuel (x + len) (n - len)

/-- The pieces of an access (R68). -/
def Config.pieces (cfg : Config) (x n : Nat) : List (Nat × Nat) := cfg.piecesFrom n x n

end Sys2Proof
end

