-- ==== Sys2Proof/Machine/Cache.lean ====
section
/-! DEFINITION. Backing storage and the cache controllers on the snooping bus (20_memory.md R80 to
R92). Every operation is on the shared `MemSys`, for the core of index `c`. -/

namespace Sys2Proof

namespace Machine

/-! ### Backing storage -/

/-- `RAM[a]` (R49). -/
def Memory.read : Memory → Nat → Byte
  | [], _ => Memory.blank
  | (k, b) :: m, a => if k = a then b else Memory.read m a

/-- `RAM[a] <- b`, keeping the canonical form: a byte equal to what an unlisted address reads as is not
listed. -/
def Memory.write : Memory → Nat → Byte → Memory
  | [], a, b => if b = Memory.blank then [] else [(a, b)]
  | (k, c) :: m, a, b =>
    if a < k then (if b = Memory.blank then (k, c) :: m else (a, b) :: (k, c) :: m)
    else if a = k then (if b = Memory.blank then m else (a, b) :: m)
    else (k, c) :: Memory.write m a b

/-- The `n` bytes from `a`. -/
def Memory.readRange (m : Memory) (a : Nat) : Nat → List Byte
  | 0 => []
  | n + 1 => m.read a :: Memory.readRange m (a + 1) n

/-- Writes bytes from `a` on, in ascending address order. -/
def Memory.writeRange (m : Memory) (a : Nat) : List Byte → Memory
  | [] => m
  | b :: bs => Memory.writeRange (m.write a b) (a + 1) bs

/-- Every listed address is at least `lo`, and they rise strictly; no entry is blank. -/
def Memory.wfFrom : (lo : Nat) → Memory → Bool
  | _, [] => true
  | lo, (k, b) :: m => decide (lo ≤ k) && decide (b ≠ Memory.blank) && Memory.wfFrom (k + 1) m

/-- The canonical form of backing storage. -/
def Memory.wf (m : Memory) : Bool := Memory.wfFrom 0 m

/-! ### Lines -/

/-- The line holds line address `L` (R81). -/
def Line.holds (ln : Line) (L : Nat) : Bool := decide (ln.mesi ≠ .I) && decide (ln.tag = L)

/-- The index of the line of a cache that holds `L` (R81). -/
def findHolder (cache : List Line) (L : Nat) : Option Nat :=
  cache.findIdx? fun ln => ln.holds L

/-- `Use(c, j)` (R82): the age of line `j` becomes 0, every other age grows by 1. -/
def useLine (cache : List Line) (j : Nat) : List Line :=
  cache.mapIdx fun k ln => if k = j then { ln with age := 0 } else { ln with age := ln.age + 1 }

/-- The lowest index of the greatest age, of a line `best` with age `age` and the lines from index `i`
on. -/
def oldestFrom : (i best age : Nat) → List Line → Nat
  | _, best, _, [] => best
  | i, best, age, ln :: rest =>
    if age < ln.age then oldestFrom (i + 1) i ln.age rest else oldestFrom (i + 1) best age rest

/-- The line to evict: the greatest age, lowest index on a tie (R83). -/
def oldest : List Line → Nat
  | [] => 0
  | ln :: rest => oldestFrom 1 0 ln.age rest

/-- The line that a miss takes: the lowest Invalid one, else the one to evict (R83). -/
def victim (cache : List Line) : Nat :=
  (cache.findIdx? fun ln => decide (ln.mesi = .I)).getD (oldest cache)

/-- `WriteBack` of a line (R88): its bytes go to `RAM[tag ..]`. -/
def writeBack (mem : Memory) (ln : Line) : Memory := mem.writeRange ln.tag ln.data

/-- The write-back of a line if it is Modified (R83, R85, R87, R90). -/
def writeBackIfModified (mem : Memory) (ln : Line) : Memory :=
  if ln.mesi = .M then writeBack mem ln else mem

/-- Writes `bs` into a line's bytes from offset `off` on. -/
def patch (data : List Byte) (off : Nat) (bs : List Byte) : List Byte :=
  data.take off ++ bs ++ data.drop (off + bs.length)

/-! ### The bus -/

/-- The cache of core `c`. -/
def MemSys.cache (sys : MemSys) (c : Nat) : List Line := sys.caches.getD c []

/-- Replaces the cache of core `c`. -/
def MemSys.setCache (sys : MemSys) (c : Nat) (cache : List Line) : MemSys :=
  { sys with caches := sys.caches.set c cache }

/-- Backing storage once the lines of a cache that hold `L` in state M are written back (R85, R87). -/
def snoopMemLines (L : Nat) : Memory → List Line → Memory
  | mem, [] => mem
  | mem, ln :: rest =>
    snoopMemLines L (if ln.holds L then writeBackIfModified mem ln else mem) rest

/-- The same over every cache but that of core `c`; the list starts at index `i`. -/
def snoopMemCaches (c L : Nat) : (i : Nat) → Memory → List (List Line) → Memory
  | _, mem, [] => mem
  | i, mem, cache :: rest =>
    snoopMemCaches c L (i + 1) (if i = c then mem else snoopMemLines L mem cache) rest

/-- Puts every line that holds `L`, in every cache but that of core `c`, into state `st`. -/
def snoopCaches (c L : Nat) (st : Mesi) (caches : List (List Line)) : List (List Line) :=
  caches.mapIdx fun i cache =>
    if i = c then cache
    else cache.map fun ln => if ln.holds L then { ln with mesi := st } else ln

/-- Some cache but that of core `c` holds `L` (R85). -/
def otherHolder (c L : Nat) (caches : List (List Line)) : Bool :=
  (caches.mapIdx fun i cache =>
    decide (i ≠ c) && cache.any fun ln => ln.holds L).any id

/-- `BusRd(c, L)` (R85): Modified holders are written back, and every holder ends in S. -/
def busRd (c L : Nat) (sys : MemSys) : MemSys :=
  { sys with
    mem := snoopMemCaches c L 0 sys.mem sys.caches
    caches := snoopCaches c L .S sys.caches }

/-- `BusWr(c, L)` (R87): Modified holders are written back, and every holder ends in I. -/
def busWr (c L : Nat) (sys : MemSys) : MemSys :=
  { sys with
    mem := snoopMemCaches c L 0 sys.mem sys.caches
    caches := snoopCaches c L .I sys.caches }

/-- `Allocate(c)` (R83): the victim's write-back, if it is Modified. -/
def evict (c : Nat) (sys : MemSys) : MemSys :=
  match (sys.cache c)[victim (sys.cache c)]? with
  | some ln => { sys with mem := writeBackIfModified sys.mem ln }
  | none => sys

/-- Line `j` of core `c` becomes `ln`, and is used (R82). -/
def fillLine (c j : Nat) (ln : Line) (sys : MemSys) : MemSys :=
  sys.setCache c (useLine ((sys.cache c).set j ln) j)

end Machine

open Machine

/-! ### Cache reads and writes -/

/-- The miss part of `CacheRead` (R84): allocate, snoop, fill from RAM. The line ends in S if another
cache responded, else in E. -/
def Config.cacheMiss (cfg : Config) (c L : Nat) (sys : MemSys) : MemSys :=
  let j := victim (sys.cache c)
  let sys1 := evict c sys
  let responded := otherHolder c L sys1.caches
  let sys2 := busRd c L sys1
  fillLine c j
    { mesi := if responded then .S else .E, age := 0, tag := L,
      data := sys2.mem.readRange L cfg.lineSize }
    sys2

/-- `len` bytes at offset `off` of the line of core `c` that holds `L`. -/
def heldBytes (c L off len : Nat) (sys : MemSys) : List Byte :=
  match (sys.cache c).find? fun ln => ln.holds L with
  | some ln => (ln.data.drop off).take len
  | none => []

/-- `CacheRead(c, pa, len)` (R84). -/
def Config.cacheRead (cfg : Config) (c pa len : Nat) (sys : MemSys) : List Byte × MemSys :=
  let L := cfg.lineAddr pa
  let sys1 :=
    match findHolder (sys.cache c) L with
    | some j => sys.setCache c (useLine (sys.cache c) j)
    | none => cfg.cacheMiss c L sys
  (heldBytes c L (pa - L) len sys1, sys1)

/-- `CacheWrite(c, pa, bytes)` (R86): broadcast BusWr, allocate and fill on a miss, merge the bytes; the
line ends in M. -/
def Config.cacheWrite (cfg : Config) (c pa : Nat) (bytes : List Byte) (sys : MemSys) : MemSys :=
  let L := cfg.lineAddr pa
  let sys1 := busWr c L sys
  match findHolder (sys1.cache c) L with
  | some j =>
    match (sys1.cache c)[j]? with
    | some ln =>
      fillLine c j { ln with mesi := .M, data := patch ln.data (pa - L) bytes } sys1
    | none => sys1
  | none =>
    let j := victim (sys1.cache c)
    let sys2 := evict c sys1
    fillLine c j
      { mesi := .M, age := 0, tag := L,
        data := patch (sys2.mem.readRange L cfg.lineSize) (pa - L) bytes }
      sys2

namespace Machine

/-- `Flush(c)` (R90): every Modified line is written back, in ascending index, and ends in E. -/
def flush (c : Nat) (sys : MemSys) : MemSys :=
  { sys with
    mem := (sys.cache c).foldl writeBackIfModified sys.mem
    caches := sys.caches.set c
      ((sys.cache c).map fun ln => if ln.mesi = .M then { ln with mesi := .E } else ln) }

end Machine

/-- The coherent value of the byte at address `x` (R92): from a line that holds it, else from RAM. -/
def Config.coherentByte (cfg : Config) (sys : MemSys) (x : Nat) : Byte :=
  match sys.caches.flatten.find? fun ln => ln.holds (cfg.lineAddr x) with
  | some ln => ln.data.getD (x - cfg.lineAddr x) 0
  | none => sys.mem.read x

end Sys2Proof
end

