-- ==== Sys2Proof/Machine/Mmu.lean ====
section
/-! DEFINITION. The MMU (20_memory.md R66 to R73): check, split, the pieces of a read and of a write on
the cache or the region's bus, and the assembly of values. A MemoryFault is `none`: nothing has
moved. -/

namespace Sys2Proof

open Machine

/-- The bus of the region that owns `x` is the hardware bus (R65). -/
def Config.onHardwareBus (cfg : Config) (x : Nat) : Bool :=
  match cfg.lookup x with
  | some r => decide (r.bus = .hardware)
  | none => false

/-- A non-cacheable byte read (R70, R73). The hardware bus's answer is the host's, and it joins the
history. -/
def Config.busReadByte (cfg : Config) (c x : Nat) (sys : MemSys) : Byte × MemSys :=
  if cfg.onHardwareBus x then
    (Config.hwRead c x sys.hw, { sys with hw := sys.hw ++ [.read c x (Config.hwRead c x sys.hw)] })
  else (sys.mem.read x, sys)

/-- A non-cacheable byte write (R70, R73). -/
def Config.busWriteByte (cfg : Config) (c x : Nat) (b : Byte) (sys : MemSys) : MemSys :=
  if cfg.onHardwareBus x then { sys with hw := sys.hw ++ [.write c x b] }
  else { sys with mem := sys.mem.write x b }

/-- One piece of a read (R69, R70). A non-cacheable piece is one byte. -/
def Config.readPiece (cfg : Config) (c x len : Nat) (sys : MemSys) : List Byte × MemSys :=
  if cfg.cacheableAt x then cfg.cacheRead c x len sys
  else
    let r := cfg.busReadByte c x sys
    ([r.1], r.2)

/-- The pieces of a read, in order (R68). -/
def Config.readPieces (cfg : Config) (c : Nat) : List (Nat × Nat) → MemSys → List Byte × MemSys
  | [], sys => ([], sys)
  | p :: ps, sys =>
    let r := cfg.readPiece c p.1 p.2 sys
    let rs := cfg.readPieces c ps r.2
    (r.1 ++ rs.1, rs.2)

/-- One piece of a write (R69, R70). -/
def Config.writePiece (cfg : Config) (c x : Nat) (bytes : List Byte) (sys : MemSys) : MemSys :=
  if cfg.cacheableAt x then cfg.cacheWrite c x bytes sys
  else cfg.busWriteByte c x (bytes.headD 0) sys

/-- The pieces of a write, in order, taking their bytes from the front of `bytes` (R68). -/
def Config.writePieces (cfg : Config) (c : Nat) : List (Nat × Nat) → List Byte → MemSys → MemSys
  | [], _, sys => sys
  | p :: ps, bytes, sys =>
    cfg.writePieces c ps (bytes.drop p.2) (cfg.writePiece c p.1 (bytes.take p.2) sys)

/-- A read of `n` bytes at `a` by core `c`, of kind `k` (R67 to R70). -/
def Config.mmuRead (cfg : Config) (c a n : Nat) (k : AccessKind) (sys : MemSys) :
    Option (List Byte × MemSys) :=
  if cfg.check a n k then some (cfg.readPieces c (cfg.pieces a n) sys) else none

/-- A write of `bytes` at `a` by core `c` (R67 to R70). -/
def Config.mmuWrite (cfg : Config) (c a : Nat) (bytes : List Byte) (sys : MemSys) : Option MemSys :=
  if cfg.check a bytes.length .write then
    some (cfg.writePieces c (cfg.pieces a bytes.length) bytes sys)
  else none

end Sys2Proof
end

