-- ==== Sys2Proof/Machine/Ops.lean ====
section
/-! DEFINITION. The named operations of a core over its registers and memory (10_state.md R20 to R45),
and taking an exception or an interrupt and returning from one (60_exceptions.md R334, R340, R342,
R346; 46_system.md R300, R301). -/

namespace Sys2Proof.Machine

/-- What a step, a phase or a meaning answers. -/
abbrev Result := Host.Outcome State Fault Refusal

/-! ### Registers -/

/-- `R[i]` (R21). -/
def RegFile.get (r : RegFile) (i : RegIndex) : Word := r.gpr[i.toNat]'i.isLt

/-- `R[i] <- v`, all 64 bits. -/
def RegFile.set (r : RegFile) (i : RegIndex) (v : Word) : RegFile :=
  { r with gpr := r.gpr.set i.toNat v i.isLt }

/-- The index of the stack pointer (R24). -/
def spIndex : RegIndex := 15

/-- The index of d0. -/
def d0Index : RegIndex := 0

/-- `CR[i]` (R33): what a read of cr i returns. -/
def RegFile.getCr (r : RegFile) (i : BitVec 3) : Word := r.cr[i.toNat]'i.isLt

/-- `CR[i] <- v`: the write of the hardware, with no legalisation. -/
def RegFile.setCr (r : RegFile) (i : BitVec 3) (v : Word) : RegFile :=
  { r with cr := r.cr.set i.toNat v i.isLt }

/-- The low `size` bits of a value: a read at width w (R23). -/
def lowBits (size : Size) (v : Word) : BitVec size.bits := v.setWidth size.bits

/-- `mask_w` (R10). -/
def widthMask (size : Size) : Word := BitVec.ofNat 64 (2 ^ size.bits - 1)

/-- The old value of a register with its low `size` bits replaced (R23). -/
def mergeWidth (size : Size) (old v : Word) : Word :=
  (old &&& ~~~ widthMask size) ||| (v &&& widthMask size)

/-- The flags as the status-flag register F (R26). -/
def Flags.toWord (f : Flags) : Word :=
  BitVec.setWidth 64
    (BitVec.ofBool f.h ++ BitVec.ofBool f.x ++ BitVec.ofBool f.n ++ BitVec.ofBool f.z
      ++ BitVec.ofBool f.v ++ BitVec.ofBool f.c)

/-- The registers of the core that ticks. -/
abbrev State.regs (s : State) : RegFile := s.core.regs

/-- Replaces the register file. -/
def State.setRegs (s : State) (r : RegFile) : State := { s with core := { s.core with regs := r } }

/-- `R[i]` of the core that ticks. -/
def State.reg (s : State) (i : RegIndex) : Word := s.core.regs.get i

/-- `R[i] <- v`. -/
def State.setReg (s : State) (i : RegIndex) (v : Word) : State := s.setRegs (s.core.regs.set i v)

/-- `R[i] <- v` at width w: bits 63:w are kept (R23). -/
def State.setRegAt (s : State) (size : Size) (i : RegIndex) (v : Word) : State :=
  s.setReg i (mergeWidth size (s.reg i) v)

/-- `SP` (R24). -/
def State.sp (s : State) : Word := s.reg spIndex

/-- `SP <- v`, all 64 bits. -/
def State.setSp (s : State) (v : Word) : State := s.setReg spIndex v

/-- `IP` (R25). -/
def State.ip (s : State) : Word := s.core.regs.ip

/-- `IP <- v`. -/
def State.setIp (s : State) (v : Word) : State := s.setRegs { s.core.regs with ip := v }

/-- `F` (R26). -/
def State.flags (s : State) : Flags := s.core.regs.flags

/-- `F <- f`. -/
def State.setFlags (s : State) (f : Flags) : State := s.setRegs { s.core.regs with flags := f }

/-- `CR[i]`. -/
def State.cr (s : State) (i : BitVec 3) : Word := s.core.regs.getCr i

/-- `CR[i] <- v`, the hardware's write. -/
def State.setCr (s : State) (i : BitVec 3) (v : Word) : State := s.setRegs (s.core.regs.setCr i v)

/-- F.H (R32). -/
def State.halted (s : State) : Bool := s.core.regs.flags.h

/-- `halt` (R14, R346): F.H <- 1. -/
def State.halt (s : State) : State := s.setFlags { s.flags with h := true }

/-- Replaces the memory system. -/
def State.setSys (s : State) (sys : MemSys) : State := { s with sys := sys }

/-- `WriteCR(i, v)` (R41): a software write to a control register, but for the refusal of
`REFUSE_MMU_ENABLE`. -/
def State.writeCr (s : State) (i : BitVec 3) (v : Word) : State :=
  match i.toNat with
  | 0 => s.setCr 0 (v &&& 0xFF)
  | 1 => s.setCr 1 (v &&& 0x3F)
  | 3 => s.setCr 3 v
  | 4 => s.setCr 4 v
  | _ => s

/-- `RC[i]` (R22): cr i for 0 to 7, d(i - 8) for 8 to 15. -/
def State.readControlReg (s : State) (i : RegIndex) : Word :=
  if i.toNat < 8 then s.cr (i.setWidth 3) else s.reg (i - 8)

/-! ### Memory -/

/-- `MemRead(addr, n, kind)` (R13, R71): the bytes at `a`, or `none` for a MemoryFault. -/
def State.readBytes (s : State) (a : Word) (n : Nat) (k : AccessKind) : Option (List Byte × State) :=
  (s.cfg.mmuRead s.core.id a.toNat n k s.sys).map fun r => (r.1, s.setSys r.2)

/-- `MemRead(addr, n, kind)` (R13, R71): the value at `a`, `n ≤ 8`, or `none` for a MemoryFault. -/
def State.memRead (s : State) (a : Word) (n : Nat) (k : AccessKind) : Option (Word × State) :=
  (s.readBytes a n k).map fun r => (BitVec.ofNat 64 (assemble s.cfg.byteOrder r.1), r.2)

/-- A write of bytes at `a`, or `none` for a MemoryFault. -/
def State.writeBytes (s : State) (a : Word) (bs : List Byte) : Option State :=
  (s.cfg.mmuWrite s.core.id a.toNat bs s.sys).map s.setSys

/-- `MemWrite(addr, n, v)` (R13, R71): the low 8n bits of `v` go to `a`, or `none` for a
MemoryFault. -/
def State.memWrite (s : State) (a : Word) (n : Nat) (v : Word) : Option State :=
  s.writeBytes a (split s.cfg.byteOrder n v.toNat)

/-- The coherent value of the byte at `x` (R92): what a program reads there. -/
def State.byteAt (s : State) (x : Nat) : Byte := s.cfg.coherentByte s.sys x

/-! ### The STATUS register -/

/-- cr2, STATUS (R36). -/
def statusIndex : BitVec 3 := 2

/-- STATUS.INT_ACTIVE (R36). -/
def State.intActive (s : State) : Bool := (s.cr statusIndex).getLsbD 0

/-- STATUS.EXC_ACTIVE (R36). -/
def State.excActive (s : State) : Bool := (s.cr statusIndex).getLsbD 1

/-- STATUS with EXC_ID (bits 10:8) replaced. -/
def statusWithExcId (st : Word) (e : Fin 6) : Word :=
  (st &&& ~~~ (0x700 : Word)) ||| (BitVec.ofNat 64 e.val <<< 8)

/-- STATUS with EXC_ACTIVE (bit 1) set. -/
def statusWithExcActive (st : Word) : Word := st ||| 0x2

/-- STATUS with INT_ACTIVE (bit 0) set and INT_ID (bits 6:4) replaced. -/
def statusWithInt (st : Word) (i : Fin 8) : Word :=
  (st &&& ~~~ (0x70 : Word)) ||| (BitVec.ofNat 64 i.val <<< 4) ||| 0x1

/-! ### Exceptions -/

/-- The exceptions that are raised (R320). Ids 3, 4 and 5 never are (R324). -/
inductive Exc where
  | illegalInstruction | hardFault | memoryFault
deriving DecidableEq, Repr

/-- The exception ids (R320). -/
def Exc.id : Exc → Fin 6
  | .illegalInstruction => 0
  | .hardFault => 1
  | .memoryFault => 2

/-- Replaces the exception control block. -/
def State.setExc (s : State) (b : ExcBlock) : State := { s with core := { s.core with exc := b } }

/-- The address of exception vector `e` (R352). -/
def State.excVector (s : State) (e : Exc) : Word :=
  s.cfg.vtBase + 0x10 + 8 * BitVec.ofNat 64 e.id.val

/-- Recording EXC_ID (R340). -/
def State.recordExc (s : State) (e : Exc) : State :=
  s.setCr statusIndex (statusWithExcId (s.cr statusIndex) e.id)

/-- `EnterException(e)` (R342): read the vector, halting where that faults; save every register;
go to the handler with EXC_ACTIVE set. -/
def State.enterException (s : State) (e : Exc) : State :=
  match s.memRead (s.excVector e) 8 .read with
  | none => s.halt
  | some (v, s1) =>
    let s2 := s1.setExc { phase := .raised, id := e.id }
    let s3 := s2.setExc { s2.core.exc with phase := .executing s2.regs }
    (s3.setIp v).setCr statusIndex (statusWithExcActive (s3.cr statusIndex))

/-- The exception block is Executing (R44). -/
def State.excExecuting (s : State) : Bool :=
  match s.core.exc.phase with
  | .executing _ => true
  | _ => false

/-- Exception id `e` is enabled in cr1, EXC_MASK (R35). -/
def State.excEnabled (s : State) (e : Exc) : Bool := (s.cr 1).getLsbD e.id.val

/-- `RaiseException(e)` (R340): record the id; a nested raise is recorded as HardFault and halts, a
disabled one halts, else the handler is entered. -/
def State.raiseException (s : State) (e : Exc) : State :=
  let s1 := s.recordExc e
  if s1.excExecuting then (s1.recordExc .hardFault).halt
  else if s1.excEnabled e then s1.enterException e
  else s1.halt

/-- A meaning that raises (R14, R178): the exception is taken and the instruction ends. -/
def State.raised (s : State) (e : Exc) : Result := .next (s.raiseException e)

/-- RTE's condition and snapshot (R301): EXC_ACTIVE set and the block Executing. -/
def State.excSnapshot (s : State) : Option RegFile :=
  match s.core.exc.phase with
  | .executing snap => if s.excActive then some snap else none
  | _ => none

/-- The return of RTE (R301): the block becomes Idle and every register is restored (R45). -/
def State.returnFromException (s : State) (snap : RegFile) : State :=
  (s.setExc { s.core.exc with phase := .idle }).setRegs snap

/-! ### Interrupts -/

/-- The eight lines, highest priority first (R335). -/
def intLines : List (Fin 8) := [0, 1, 2, 3, 4, 5, 6, 7]

/-- `ISR[i]` (R43). -/
def State.isrBlock (s : State) (i : Fin 8) : IsrBlock := s.core.isr[i]

/-- `ISR[i] <- b`. -/
def State.setIsrBlock (s : State) (i : Fin 8) (b : IsrBlock) : State :=
  { s with core := { s.core with isr := s.core.isr.set i b } }

/-- The snapshot of an Executing block. -/
def IsrBlock.snapshot : IsrBlock → Option RegFile
  | .executing snap => some snap
  | _ => none

/-- The line whose block is Executing, with its snapshot (R300: unique, R336; log 23). -/
def State.executingIsr (s : State) : Option (Fin 8 × RegFile) :=
  intLines.findSome? fun i => ((s.isrBlock i).snapshot).map fun snap => (i, snap)

/-- Line `i` is enabled in cr0, INT_MASK (R34). -/
def State.lineEnabled (s : State) (i : Fin 8) : Bool := (s.cr 0).getLsbD i.val

/-- The address of interrupt vector `i` (R352). -/
def State.intVector (s : State) (i : Fin 8) : Word :=
  s.cfg.vtBase + 0x40 + 8 * BitVec.ofNat 64 i.val

/-- `EnterISR(i)` (R334): read the vector, halting where that faults; save every register; go to the
handler with INT_ACTIVE set and INT_ID = i. -/
def State.enterIsr (s : State) (i : Fin 8) : State :=
  match s.memRead (s.intVector i) 8 .read with
  | none => s.halt
  | some (v, s1) =>
    let s2 := s1.setIsrBlock i (.executing s1.regs)
    (s2.setIp v).setCr statusIndex (statusWithInt (s2.cr statusIndex) i)

/-- The return of RTI (R300): the block becomes Waiting and every register is restored (R45). -/
def State.returnFromInterrupt (s : State) (i : Fin 8) (snap : RegFile) : State :=
  (s.setIsrBlock i .waiting).setRegs snap

end Sys2Proof.Machine
end

