-- ==== Sys2Proof/Machine/Operands.lean ====
section
/-! DEFINITION. Operand forms: the fields of a decoded operand, its effective address, reading it at
decode and writing it at execute (30_encoding.md R126 to R133; 40_decode_pipeline.md R176, R177). -/

namespace Sys2Proof

/-- The operand is in Immediate mode (R127). -/
def Operand.isImmediate : Operand → Bool
  | .immediate _ _ => true
  | _ => false

namespace Machine

/-- The operand of a descriptor byte, its extra bytes and values still to come (R126, R164). -/
def OperandRec.ofDescriptor (cfg : Config) (d : Byte) : OperandRec :=
  { mode := cfg.descMode d, rel := descRel d, reg := highNibble d, reldesc := 0, abs := 0, ea := 0,
    imm := 0 }

/-- The offset that `rel` and the relative descriptor spell (R128, R131, R132). -/
def OperandRec.offset (op : OperandRec) : Offset :=
  if op.rel = 0 then .none
  else if op.rel = 1 then .registerRelative (highNibble op.reldesc) (lowNibble op.reldesc)
  else .absoluteRelative op.reldesc

/-- The operand as syntax. -/
def OperandRec.toOperand (op : OperandRec) : Operand :=
  match op.mode with
  | .absolute => .absolute op.reg op.abs
  | .immediate => .immediate op.reg op.imm
  | .indirect => .indirect op.reg op.offset
  | .register => .register op.reg

/-- The value an offset adds to the base register (R131, R132, R133). -/
def Offset.value (r : RegFile) : Offset → Word
  | .none => 0
  | .registerRelative i sh => r.get i <<< sh.toNat
  | .absoluteRelative d => d.signExtend 64

/-- `EA(op)` (R133); 0 for an operand that is not in memory (R126). -/
def effectiveAddress (r : RegFile) : Operand → Word
  | .absolute _ a => a
  | .indirect base off => r.get base + Offset.value r off
  | _ => 0

/-- `ReadOperand(op, w, family)` (R176): the value, zero-extended to 64 bits, and the operand with its
immediate recorded; `none` for a MemoryFault, with IP unchanged. -/
def State.readOperand (s : State) (op : OperandRec) (size : Size) (family : Family) :
    Option (Word × OperandRec × State) :=
  match op.mode with
  | .immediate =>
    (s.memRead s.ip size.bytes .fetch).map fun r =>
      (r.1, { op with imm := r.1 }, r.2.setIp (s.ip + BitVec.ofNat 64 size.bytes))
  | .register =>
    match family with
    | .control => some (s.readControlReg op.reg, op, s)
    | .integral => some ((lowBits size (s.reg op.reg)).setWidth 64, op, s)
  | .absolute => (s.memRead op.ea size.bytes .read).map fun r => (r.1, op, r.2)
  | .indirect => (s.memRead op.ea size.bytes .read).map fun r => (r.1, op, r.2)

/-! ### What the executor reads of the record it took (R178) -/

/-- The effective address of the destination, resolved at decode (R165). -/
def State.dstEa (s : State) : Word := s.core.exu.dst.ea

/-- `rec.primary[w-1:0]` (R161). -/
def State.primary (s : State) (size : Size) : BitVec size.bits := lowBits size s.core.exu.primary

/-- `rec.secondary[w-1:0]` (R161). -/
def State.secondary (s : State) (size : Size) : BitVec size.bits :=
  lowBits size s.core.exu.secondary

/-- A store to the destination's effective address (R177), or a MemoryFault. -/
def State.storeDst (s : State) (size : Size) (v : Word) : Except Exc State :=
  match s.memWrite s.dstEa size.bytes v with
  | some t => .ok t
  | none => .error .memoryFault

/-- `WriteOperand(op, w, v, Integral)` (R177). -/
def State.writeOperand (s : State) (dst : Operand) (size : Size) (v : Word) : Except Exc State :=
  match dst with
  | .immediate _ _ => .error .hardFault
  | .register r => .ok (s.setRegAt size r v)
  | .absolute _ _ => s.storeDst size v
  | .indirect _ _ => s.storeDst size v

/-- The end of a meaning that wrote its destination, or raised (R14, R179): on success the flag and
register writes `k` follow. -/
def State.finish (s : State) (r : Except Exc State) (k : State → State) : Result :=
  match r with
  | .ok t => .next (k t)
  | .error e => s.raised e

end Machine

end Sys2Proof
end

