-- ==== Sys2Proof/Machine/Queue.lean ====
section
/-! DEFINITION. The dispatch queue (40_decode_pipeline.md R180 to R187), a list of entries with the oldest
first (log 18). -/

namespace Sys2Proof

open Machine

/-- `BytesAvailable()` (R180): the bytes the entries take, headers included. -/
def bytesAvailable (q : List Entry) : Nat := (q.map fun e => Config.dqHeaderBytes + e.size).sum

/-- `BytesFree()` (R180). -/
def Config.bytesFree (cfg : Config) (q : List Entry) : Nat := cfg.dqCapacity - bytesAvailable q

/-- `CanInsert(size)` (R181). -/
def Config.canInsert (cfg : Config) (q : List Entry) (size : Nat) : Bool :=
  decide (Config.dqHeaderBytes + size ≤ cfg.bytesFree q)

/-- `Push` (R182), or `none` where the queue has no room. -/
def Config.push (cfg : Config) (q : List Entry) (e : Entry) : Option (List Entry) :=
  if cfg.canInsert q e.size then some (q ++ [e]) else none

/-- `Peek()` (R183): the tag and the size of the oldest entry. -/
def peek : List Entry → Option (Byte × Nat)
  | [] => none
  | e :: _ => some (e.tag, e.size)

/-- `Pop(n)` (R184): the oldest entry's payload if its size is `n`. -/
def popEntry (n : Nat) : List Entry → Option (Record × List Entry)
  | [] => none
  | e :: q => if e.size = n then some (e.record, q) else none

/-- The invariants of R185 and R186 whose failure leaves the core stuck (R187): the entries fit the
capacity, and there is at most one. -/
def Config.queueOk (cfg : Config) (q : List Entry) : Bool :=
  decide (bytesAvailable q ≤ cfg.dqCapacity) && decide (q.length ≤ 1)

end Sys2Proof
end

