-- ==== Sys2Proof/Machine/Decoder.lean ====
section
/-! DEFINITION. The decode state machine, one transition a tick (40_decode_pipeline.md R160 to R172). -/

namespace Sys2Proof.Machine

/-- What one decoder phase does: a transition, a raise that was taken (R170), or a refusal (R168). -/
inductive DecodeOut where
  | moved (s : State)
  | raised (s : State)
  | refused (r : Refusal)
deriving DecidableEq, Repr

/-- Reads of one tick, which may fault: the state at the fault, or the value and the state after. -/
abbrev Fetched (α : Type) := Except State (α × State)

/-- Slot `j` of the ring. -/
def State.slot (s : State) (j : Nat) : Slot := s.core.slots.getD j Slot.idle

/-- Replaces slot `j`. -/
def State.setSlot (s : State) (j : Nat) (sl : Slot) : State :=
  { s with core := { s.core with slots := s.core.slots.set j sl } }

/-- Slot `j` goes on to state `st` with the record `r`. -/
def State.advanceSlot (s : State) (j : Nat) (st : DecodeState) (r : Record) : State :=
  s.setSlot j { s.slot j with state := st, record := r }

/-- A decode tick that raises (R170): the exception is taken, the slot returns to Idle, and the next
instruction may retire. -/
def decodeFault (j : Nat) (e : Exc) (s : State) : DecodeOut :=
  let s1 := s.raiseException e
  let s2 := s1.setSlot j { s1.slot j with state := .idle }
  .raised { s2 with core := { s2.core with retireSeq := (s2.slot j).seq + 1 } }

/-- `TryPush` (R169). -/
def tryPush (j : Nat) (s : State) : State :=
  let sl := s.slot j
  if sl.seq = s.core.retireSeq then
    match s.cfg.push s.core.queue { tag := 0, size := s.cfg.dqRecordBytes, record := sl.record } with
    | some q =>
      let s1 := s.setSlot j { sl with state := .idle }
      { s1 with core := { s1.core with queue := q, retireSeq := s1.core.retireSeq + 1 } }
    | none => s
  else s

/-- A slot that enters Finished with record `r` tries to push it in the same tick (R169). -/
def finishSlot (j : Nat) (r : Record) (s : State) : DecodeOut :=
  .moved (tryPush j (s.advanceSlot j .finished r))

/-- `MemRead(a, n, fetch)` within a tick. -/
def State.fetch (s : State) (a : Word) (n : Nat) : Fetched Word :=
  match s.memRead a n .fetch with
  | some r => .ok r
  | none => .error s

/-- The Idle tick takes a sequence id and captures IP (R163). -/
def State.startSlot (s : State) (j : Nat) : State :=
  let s1 := s.setSlot j { s.slot j with seq := s.core.nextSeq, startIp := s.ip }
  { s1 with core := { s1.core with nextSeq := s1.core.nextSeq + 1 } }

/-- The metadata and descriptor bytes of a form (R164): `1 + k` bytes from IP + 1. The source descriptor
is 0 for a one-operand form. -/
def State.fetchHead (s : State) (form : Form) : Fetched (Byte × Byte × Byte) :=
  match s.fetch (s.ip + 1) 1 with
  | .error t => .error t
  | .ok (md, s1) =>
    match s1.fetch (s.ip + 2) 1 with
    | .error t => .error t
    | .ok (d0, s2) =>
      match form with
      | .n2 =>
        match s2.fetch (s.ip + 3) 1 with
        | .error t => .error t
        | .ok (d1, s3) => .ok ((md.setWidth 8, d0.setWidth 8, d1.setWidth 8), s3)
      | _ => .ok ((md.setWidth 8, d0.setWidth 8, 0), s2)

/-- The descriptor bytes a form has. -/
def descriptors (form : Form) (d0 d1 : Byte) : List Byte :=
  match form with
  | .n0 => []
  | .n1 => [d0]
  | .n2 => [d0, d1]

/-- How many bytes the Idle tick consumes for a form (R163, R164): 1, or 2 + k. -/
def headBytes : Form → Nat
  | .n0 => 1
  | .n1 => 3
  | .n2 => 4

/-- The record of an instruction without operands (R163). -/
def Record.ofN0 (b : Byte) (startIp : Word) : Record :=
  { Record.zero with opcode := b, form := .n0, startIp := startIp, length := 1 }

/-- The record the Idle tick starts for an instruction with operands (R164). -/
def Record.ofHead (cfg : Config) (b : Byte) (form : Form) (md d0 d1 : Byte) (startIp : Word) : Record :=
  { Record.zero with
    opcode := b
    form := form
    size := metaSize md
    w := (metaSize md).bits
    family := metaFamily md
    dst := OperandRec.ofDescriptor cfg d0
    src := match form with
      | .n2 => OperandRec.ofDescriptor cfg d1
      | _ => OperandRec.zero
    startIp := startIp }

/-- The Idle tick, second part (R164), for an opcode `op` of byte `b` and form N1 or N2. -/
def idleTickOperands (j : Nat) (b : Byte) (op : Opcode) (s : State) : DecodeOut :=
  match s.fetchHead op.form with
  | .error t => decodeFault j .memoryFault t
  | .ok ((md, d0, d1), s1) =>
    let s2 := s1.setIp (s1.ip + BitVec.ofNat 64 (headBytes op.form))
    match headError s.cfg op md (descriptors op.form d0 d1) with
    | some _ => decodeFault j .illegalInstruction s2
    | none =>
      .moved (s2.advanceSlot j .decodeAddrMode
        (Record.ofHead s.cfg b op.form md d0 d1 (s2.slot j).startIp))

/-- The Idle tick once the opcode byte is read (R163). -/
def idleTickOpcode (j : Nat) (b : Byte) (s : State) : DecodeOut :=
  let s1 := s.setIp (s.ip + 1)
  if s.cfg.isExtension b then
    if b ∈ s.cfg.extensions then .refused (.extensionInstruction b)
    else decodeFault j .illegalInstruction s1
  else
    match s.cfg.opcodeOf b with
    | none => decodeFault j .illegalInstruction s1
    | some op =>
      match op.form with
      | .n0 => finishSlot j (Record.ofN0 b (s1.slot j).startIp) s1
      | .n1 => idleTickOperands j b op s
      | .n2 => idleTickOperands j b op s

/-- The Idle tick of slot `j` (R163, R164). -/
def idleTick (j : Nat) (s : State) : DecodeOut :=
  let s1 := s.startSlot j
  match s1.fetch s1.ip 1 with
  | .error t => decodeFault j .memoryFault t
  | .ok (b, s2) => idleTickOpcode j (b.setWidth 8) s2

/-- The extra bytes of an operand at `p` (R165): the operand, and the address after them. -/
def State.fetchExt (s : State) (op : OperandRec) (p : Word) : Fetched (OperandRec × Word) :=
  match op.mode with
  | .absolute =>
    match s.fetch p 8 with
    | .error t => .error t
    | .ok (a, s1) => .ok (({ op with abs := a }, p + 8), s1)
  | .indirect =>
    if op.rel = 0 then .ok ((op, p), s)
    else
      match s.fetch p 1 with
      | .error t => .error t
      | .ok (b, s1) => .ok (({ op with reldesc := b.setWidth 8 }, p + 1), s1)
  | _ => .ok ((op, p), s)

/-- The operand with its effective address (R165, R133). -/
def OperandRec.resolve (op : OperandRec) (r : RegFile) : OperandRec :=
  { op with ea := effectiveAddress r op.toOperand }

/-- The extra bytes of every operand of a record, destination first (R165): the record and the address
after them. -/
def State.fetchExts (s : State) (r : Record) : Fetched (Record × Word) :=
  match s.fetchExt r.dst s.ip with
  | .error t => .error t
  | .ok ((dst, p), s1) =>
    match r.form with
    | .n2 =>
      match s1.fetchExt r.src p with
      | .error t => .error t
      | .ok ((src, p), s2) => .ok (({ r with dst := dst, src := src }, p), s2)
    | _ => .ok (({ r with dst := dst }, p), s1)

/-- The DecodeAddrMode tick (R165). -/
def decodeAddrModeTick (j : Nat) (s : State) : DecodeOut :=
  match s.fetchExts (s.slot j).record with
  | .error t => decodeFault j .memoryFault t
  | .ok ((r, p), s1) =>
    let s2 := s1.setIp p
    .moved (s2.advanceSlot j .readMem
      { r with
        dst := r.dst.resolve s2.regs
        src := match r.form with
          | .n2 => r.src.resolve s2.regs
          | _ => r.src })

/-- The record with its length (R166, R167). -/
def Record.withLength (r : Record) (ip : Word) : Record := { r with length := ip - r.startIp }

/-- The end of the ReadMem tick (R166): on to the destination's value if the opcode reads it, else
Finished. -/
def readMemDone (j : Nat) (op : Opcode) (r : Record) (s : State) : DecodeOut :=
  if op.readsDst then .moved (s.advanceSlot j .twoOpDstReadMem r)
  else finishSlot j (r.withLength s.ip) s

/-- The ReadMem tick (R166) of a record whose opcode is `op`. -/
def readMemTickOf (j : Nat) (op : Opcode) (r : Record) (s : State) : DecodeOut :=
  match r.form with
  | .n2 =>
    match s.readOperand r.src r.size r.family with
    | none => decodeFault j .memoryFault s
    | some (v, src, s1) => readMemDone j op { r with src := src, primary := v } s1
  | _ =>
    if op.readsOperand then
      match s.readOperand r.dst r.size r.family with
      | none => decodeFault j .memoryFault s
      | some (v, dst, s1) => readMemDone j op { r with dst := dst, primary := v } s1
    else readMemDone j op { r with primary := 0 } s

/-- The ReadMem tick (R166). A record's opcode is always in the map (R163); where it is not, the slot
takes the path of an opcode that reads its operand and not its destination (log 19). -/
def readMemTick (j : Nat) (s : State) : DecodeOut :=
  readMemTickOf j ((s.cfg.opcodeOf (s.slot j).record.opcode).getD .nop) (s.slot j).record s

/-- The TwoOpDstReadMem tick (R167). -/
def twoOpDstReadMemTick (j : Nat) (s : State) : DecodeOut :=
  let r := (s.slot j).record
  match s.readOperand r.dst r.size r.family with
  | none => decodeFault j .memoryFault s
  | some (v, dst, s1) =>
    finishSlot j ({ r with dst := dst, secondary := v }.withLength s1.ip) s1

/-- One transition of a slot that is not Idle (R162, R172). -/
def advance (j : Nat) (s : State) : DecodeOut :=
  match (s.slot j).state with
  | .idle => idleTick j s
  | .decodeAddrMode => decodeAddrModeTick j s
  | .readMem => readMemTick j s
  | .twoOpDstReadMem => twoOpDstReadMemTick j s
  | .finished => .moved (tryPush j s)
  | .decodeExtension => .refused (.extensionInstruction (s.slot j).record.opcode)

/-- The slot that is not Idle, if there is one (R162). -/
def State.activeSlot (s : State) : Option Nat :=
  s.core.slots.findIdx? fun sl => decide (sl.state ≠ .idle)

/-- The slot that takes the next instruction (R162). -/
def State.nextSlot (s : State) : Nat := s.core.nextSeq.toNat % s.cfg.numDecoderSlots

/-- The decoder phase of a tick (R162): the slot in flight moves, else the next slot starts if the
interlock allows it (R188). -/
def decoderPhase (s : State) : DecodeOut :=
  match s.activeSlot with
  | some j => advance j s
  | none => if s.core.queue.isEmpty then idleTick s.nextSlot s else .moved s

end Sys2Proof.Machine
end

