-- ==== Sys2Proof/Machine/Flags.lean ====
section
/-! DEFINITION. Results and flags of the arithmetic and the shifts, on w-bit values (42_arith.md R220 to
R224; 43_shift.md R240 to R244). -/

namespace Sys2Proof.Machine

/-- The flags of ADD (R220). -/
def addFlags {w : Nat} (f : Flags) (a b : BitVec w) : Flags :=
  let r := a + b
  let carry := decide (2 ^ w ≤ a.toNat + b.toNat)
  { c := carry
    v := ((a ^^^ r) &&& (b ^^^ r)).msb
    z := decide (r = 0)
    n := r.msb
    x := carry
    h := f.h }

/-- The flags of SUB and CMP (R221, R222). -/
def subFlags {w : Nat} (f : Flags) (a b : BitVec w) : Flags :=
  let r := a - b
  let borrow := decide (a.toNat < b.toNat)
  { c := borrow
    v := ((a ^^^ b) &&& (a ^^^ r)).msb
    z := decide (r = 0)
    n := r.msb
    x := borrow
    h := f.h }

/-- What a shift computes before the flags are set (R240): the result, the last bit shifted out, and
the V of a non-zero count. -/
structure ShiftOut (w : Nat) where
  result : BitVec w
  carry : Bool
  overflow : Bool
deriving DecidableEq, Repr

/-- `(a << n) mod 2^w`, 0 when n ≥ w (R241, R243). -/
def shiftLeft {w : Nat} (a : BitVec w) (n : Nat) : BitVec w := if w ≤ n then 0 else a <<< n

/-- The last bit a left shift puts out (R241, R243). -/
def leftCarry {w : Nat} (a : BitVec w) (n : Nat) : Bool :=
  if 1 ≤ n ∧ n ≤ w then a.getLsbD (w - n) else false

/-- The V of ASL (R241): the sign changed at some step, that is, bits w-1 to w-1-n are not all
equal. -/
def aslOverflow {w : Nat} (a : BitVec w) (n : Nat) : Bool :=
  if w ≤ n then decide (a ≠ 0)
  else
    let top := (a >>> (w - 1 - n)).toNat
    decide (top ≠ 0 ∧ top ≠ 2 ^ (n + 1) - 1)

/-- ASL (R241). -/
def aslOut {w : Nat} (a : BitVec w) (n : Nat) : ShiftOut w :=
  { result := shiftLeft a n, carry := leftCarry a n, overflow := aslOverflow a n }

/-- ASR (R242). -/
def asrOut {w : Nat} (a : BitVec w) (n : Nat) : ShiftOut w :=
  { result :=
      if w ≤ n then (if a.msb then BitVec.allOnes w else 0)
      else BitVec.ofInt w (a.toInt / 2 ^ n)
    carry := if n = 0 then false else a.getLsbD (min n w - 1)
    overflow := false }

/-- LSL (R243). -/
def lslOut {w : Nat} (a : BitVec w) (n : Nat) : ShiftOut w :=
  { result := shiftLeft a n, carry := leftCarry a n, overflow := false }

/-- LSR (R244). -/
def lsrOut {w : Nat} (a : BitVec w) (n : Nat) : ShiftOut w :=
  { result := if w ≤ n then 0 else a >>> n
    carry := if 1 ≤ n ∧ n ≤ w then a.getLsbD (n - 1) else false
    overflow := false }

/-- The flags of a shift by `n` (R240): a count of 0 clears C and V and keeps X. -/
def shiftFlags {w : Nat} (f : Flags) (n : Nat) (o : ShiftOut w) : Flags :=
  { c := if n = 0 then false else o.carry
    v := if n = 0 then false else o.overflow
    z := decide (o.result = 0)
    n := o.result.msb
    x := if n = 0 then f.x else o.carry
    h := f.h }

end Sys2Proof.Machine
end

