-- ==== Sys2Proof/Machine/Arith.lean ====
section
/-! DEFINITION. The arithmetic and compare instructions (42_arith.md). `a` is the destination's value and
`b` the source's, both captured at decode. -/

namespace Sys2Proof.Machine

/-- ADD (R220). -/
def execAdd (size : Size) (dst _src : Operand) (s : State) : Result :=
  let a := s.secondary size
  let b := s.primary size
  s.finish (s.writeOperand dst size ((a + b).setWidth 64)) fun t => t.setFlags (addFlags t.flags a b)

/-- SUB (R221). -/
def execSub (size : Size) (dst _src : Operand) (s : State) : Result :=
  let a := s.secondary size
  let b := s.primary size
  s.finish (s.writeOperand dst size ((a - b).setWidth 64)) fun t => t.setFlags (subFlags t.flags a b)

/-- CMP (R222): the flags of SUB, and nothing is written. -/
def execCmp (size : Size) (dst _src : Operand) (s : State) : Result :=
  if dst.isImmediate then s.raised .hardFault
  else .next (s.setFlags (subFlags s.flags (s.secondary size) (s.primary size)))

end Sys2Proof.Machine
end

