-- ==== Sys2Proof/Machine/Branch.lean ====
section
/-! DEFINITION. The branch instructions (44_branch.md). The operand's value, captured at decode, is a
signed displacement from the next instruction. -/

namespace Sys2Proof.Machine

/-- The target of a relative branch or call (R260): `(IP + sext_64(rec.primary[w-1:0])) mod 2^64`, where
IP is the address of the next instruction. -/
def State.relativeTarget (s : State) (size : Size) : Word := s.ip + (s.primary size).signExtend 64

/-- `BRANCH(cond)` (R260). -/
def branch (cond : Flags → Bool) (size : Size) (op : Operand) (s : State) : Result :=
  if s.cfg.branchImmOnly && !op.isImmediate then .refused .branchOperandNotImmediate
  else if cond s.flags then .next (s.setIp (s.relativeTarget size))
  else .next s

/-- BRA (R261). -/
def execBra (size : Size) (op : Operand) (s : State) : Result := branch (fun _ => true) size op s

/-- BEQ (R262): Z = 1. -/
def execBeq (size : Size) (op : Operand) (s : State) : Result := branch (fun f => f.z) size op s

/-- BNE (R263): Z = 0. -/
def execBne (size : Size) (op : Operand) (s : State) : Result := branch (fun f => !f.z) size op s

/-- BCS (R264): C = 1. -/
def execBcs (size : Size) (op : Operand) (s : State) : Result := branch (fun f => f.c) size op s

/-- BCC (R265): C = 0. -/
def execBcc (size : Size) (op : Operand) (s : State) : Result := branch (fun f => !f.c) size op s

/-- BMI (R266): N = 1. -/
def execBmi (size : Size) (op : Operand) (s : State) : Result := branch (fun f => f.n) size op s

/-- BPL (R267): N = 0. -/
def execBpl (size : Size) (op : Operand) (s : State) : Result := branch (fun f => !f.n) size op s

/-- BVS (R268): V = 1. -/
def execBvs (size : Size) (op : Operand) (s : State) : Result := branch (fun f => f.v) size op s

/-- BVC (R269): V = 0. -/
def execBvc (size : Size) (op : Operand) (s : State) : Result := branch (fun f => !f.v) size op s

end Sys2Proof.Machine
end

