-- ==== Sys2Proof/Machine/Move.lean ====
section
/-! DEFINITION. The move instructions (41_move.md). -/

namespace Sys2Proof.Machine

/-- MOV, Integral family (R210). -/
def execMov (size : Size) (dst _src : Operand) (s : State) : Result :=
  s.finish (s.writeOperand dst size ((s.primary size).setWidth 64)) id

/-- A 64-bit write through the Control register map (R22, R177), refused where `REFUSE_MMU_ENABLE` says
so (R41; log 14). -/
def writeControlReg (s : State) (i : RegIndex) (v : Word) : Result :=
  if i.toNat < 8 then
    if i = 3 ∧ s.cfg.refuseMmuEnable = true ∧ v ≠ 0 then .refused .mmuEnable
    else .next (s.writeCr (i.setWidth 3) v)
  else .next (s.setReg (i - 8) v)

/-- MOV, Control family: to or from a control register (R211). -/
def execMovCr (dst _src : Operand) (s : State) : Result :=
  match dst with
  | .immediate _ _ => s.raised .hardFault
  | .register i => writeControlReg s i s.core.exu.primary
  | .absolute _ _ => s.finish (s.storeDst .l s.core.exu.primary) id
  | .indirect _ _ => s.finish (s.storeDst .l s.core.exu.primary) id

end Sys2Proof.Machine
end

