-- ==== Sys2Proof/Machine/Shift.lean ====
section
/-! DEFINITION. The shift instructions (43_shift.md). The value is the destination's, the count the
source's at the same width, unsigned and not masked; both were captured at decode. -/

namespace Sys2Proof.Machine

/-- `SHIFT(op)` (R240): write the result, then set the flags. -/
def finishShift (size : Size) (dst : Operand) (n : Nat) (o : ShiftOut size.bits) (s : State) :
    Result :=
  s.finish (s.writeOperand dst size (o.result.setWidth 64)) fun t =>
    t.setFlags (shiftFlags t.flags n o)

/-- ASL (R241). -/
def execAsl (size : Size) (dst _src : Operand) (s : State) : Result :=
  finishShift size dst (s.primary size).toNat (aslOut (s.secondary size) (s.primary size).toNat) s

/-- ASR (R242). -/
def execAsr (size : Size) (dst _src : Operand) (s : State) : Result :=
  finishShift size dst (s.primary size).toNat (asrOut (s.secondary size) (s.primary size).toNat) s

/-- LSL (R243). -/
def execLsl (size : Size) (dst _src : Operand) (s : State) : Result :=
  finishShift size dst (s.primary size).toNat (lslOut (s.secondary size) (s.primary size).toNat) s

/-- LSR (R244). -/
def execLsr (size : Size) (dst _src : Operand) (s : State) : Result :=
  finishShift size dst (s.primary size).toNat (lsrOut (s.secondary size) (s.primary size).toNat) s

end Sys2Proof.Machine
end

