-- ==== Sys2Proof/Machine/Stack.lean ====
section
/-! DEFINITION. The stack, call and return instructions (45_stack_call.md). The stack is
full-descending. -/

namespace Sys2Proof.Machine

/-- The stack pointer after a push of `n` bytes: the address of the pushed slot (R280). -/
def State.pushAddress (s : State) (n : Nat) : Word := s.sp - BitVec.ofNat 64 n

/-- `MemWrite(newSp, n, v); SP <- newSp`, or a MemoryFault with nothing changed (R280, R282). -/
def State.push (s : State) (n : Nat) (v : Word) : Except Exc State :=
  match s.memWrite (s.pushAddress n) n v with
  | some t => .ok (t.setSp (s.pushAddress n))
  | none => .error .memoryFault

/-- PUSH (R280). -/
def execPush (size : Size) (_op : Operand) (s : State) : Result :=
  s.finish (s.push size.bytes ((s.primary size).setWidth 64)) id

/-- The writes of POP once the stack is read (R281), `s` being the state after that read: a memory
operand is stored before SP moves, a register is written after it. -/
def popInto (size : Size) (op : Operand) (v : Word) (s : State) : Result :=
  let newSp := s.sp + BitVec.ofNat 64 size.bytes
  match op with
  | .immediate _ _ => s.raised .hardFault
  | .register r => .next ((s.setSp newSp).setRegAt size r v)
  | .absolute _ _ => s.finish (s.storeDst size v) fun t => t.setSp newSp
  | .indirect _ _ => s.finish (s.storeDst size v) fun t => t.setSp newSp

/-- POP (R281). -/
def execPop (size : Size) (op : Operand) (s : State) : Result :=
  if op.isImmediate then s.raised .hardFault
  else
    match s.memRead s.sp size.bytes .read with
    | none => s.raised .memoryFault
    | some (v, s1) => popInto size op v s1

/-- The target of CALL (R282): absolute when the size is long, else relative to the next
instruction. -/
def State.callTarget (s : State) (size : Size) : Word :=
  match size with
  | .l => s.core.exu.primary
  | size => s.relativeTarget size

/-- CALL (R282): the return address is pushed as 8 bytes whatever the size. -/
def execCall (size : Size) (_op : Operand) (s : State) : Result :=
  s.finish (s.push 8 s.ip) fun t => t.setIp (s.callTarget size)

/-- RET (R283). The empty-stack test is on unbounded integers. -/
def execRet (s : State) : Result :=
  if s.core.initialSp.toNat < s.sp.toNat + 8 then s.raised .hardFault
  else
    match s.memRead s.sp 8 .read with
    | none => s.raised .memoryFault
    | some (v, s1) => .next ((s1.setSp (s.sp + 8)).setIp v)

end Sys2Proof.Machine
end

