-- ==== Sys2Proof/Machine/System.lean ====
section
/-! DEFINITION. The system instructions (46_system.md): returns from handlers, system call, no
operation, breakpoint. -/

namespace Sys2Proof.Machine

/-- BRK (R304): halt, raising nothing. -/
def execBrk (s : State) : Result := .next s.halt

/-- NOP (R303): only the advance of IP made at decode. -/
def execNop (s : State) : Result := .next s

/-- RTI (R300): HardFault unless INT_ACTIVE is set and a block is Executing, else the restore. -/
def execRti (s : State) : Result :=
  if s.intActive then
    match s.executingIsr with
    | some (i, snap) => .next (s.returnFromInterrupt i snap)
    | none => s.raised .hardFault
  else s.raised .hardFault

/-- RTE (R301): HardFault outside an active exception handler, else the restore. -/
def execRte (s : State) : Result :=
  match s.excSnapshot with
  | some snap => .next (s.returnFromException snap)
  | none => s.raised .hardFault

/-- One effect of a syscall handler (R302), or a MemoryFault. -/
def State.sysAction (s : State) : SysAction → Option State
  | .setReg i v => some (s.setReg i v)
  | .setFlags c v z n x => some (s.setFlags { c := c, v := v, z := z, n := n, x := x, h := s.flags.h })
  | .load a n => (s.readBytes a n .read).map Prod.snd
  | .store a bs => s.writeBytes a bs

/-- The effects of a handler in order; a MemoryFault is raised with the earlier ones kept (R302). -/
def runSysActions : List SysAction → State → State
  | [], s => s
  | act :: acts, s =>
    match s.sysAction act with
    | some t => runSysActions acts t
    | none => s.raiseException .memoryFault

/-- SYS (R302): the handler of the id in d0, or IllegalInstruction where none is registered. What the
handler does is a free value, drawn afresh at each call (log 5). -/
def execSys (s : State) : Result :=
  let id := s.reg d0Index
  if id ∈ s.cfg.syscallIds then
    .next (runSysActions (Config.syscallActions s) { s with calls := s.calls + 1 })
  else s.raised .illegalInstruction

end Sys2Proof.Machine
end

