-- ==== Sys2Proof/Machine/Dispatch.lean ====
section
/-! DEFINITION. The dispatch of an instruction to its meaning (40_decode_pipeline.md R178): one arm per
constructor of `Instr`. -/

namespace Sys2Proof.Machine

/-- What the executor does with the instruction of the record it took from the queue (R178). The values
captured at decode stand in `s.core.exu`, and IP is the address of the next instruction. -/
def exec (i : Instr) (s : State) : Host.Outcome State Fault Refusal :=
  match i with
  | .brk => Sys2Proof.Machine.execBrk s
  | .nop => Sys2Proof.Machine.execNop s
  | .mov size dst src => Sys2Proof.Machine.execMov size dst src s
  | .movCr dst src => Sys2Proof.Machine.execMovCr dst src s
  | .add size dst src => Sys2Proof.Machine.execAdd size dst src s
  | .sub size dst src => Sys2Proof.Machine.execSub size dst src s
  | .cmp size dst src => Sys2Proof.Machine.execCmp size dst src s
  | .asl size dst src => Sys2Proof.Machine.execAsl size dst src s
  | .asr size dst src => Sys2Proof.Machine.execAsr size dst src s
  | .lsl size dst src => Sys2Proof.Machine.execLsl size dst src s
  | .lsr size dst src => Sys2Proof.Machine.execLsr size dst src s
  | .push size op => Sys2Proof.Machine.execPush size op s
  | .pop size op => Sys2Proof.Machine.execPop size op s
  | .bra size op => Sys2Proof.Machine.execBra size op s
  | .beq size op => Sys2Proof.Machine.execBeq size op s
  | .bne size op => Sys2Proof.Machine.execBne size op s
  | .bcs size op => Sys2Proof.Machine.execBcs size op s
  | .bcc size op => Sys2Proof.Machine.execBcc size op s
  | .bmi size op => Sys2Proof.Machine.execBmi size op s
  | .bpl size op => Sys2Proof.Machine.execBpl size op s
  | .bvs size op => Sys2Proof.Machine.execBvs size op s
  | .bvc size op => Sys2Proof.Machine.execBvc size op s
  | .call size op => Sys2Proof.Machine.execCall size op s
  | .ret => Sys2Proof.Machine.execRet s
  | .rti => Sys2Proof.Machine.execRti s
  | .rte => Sys2Proof.Machine.execRte s
  | .sys => Sys2Proof.Machine.execSys s

end Sys2Proof.Machine
end

