-- ==== Sys2Proof/Machine/Tick.lean ====
section
/-! DEFINITION. The executor and interrupt phases, the core tick, and StepInstruction
(40_decode_pipeline.md R178, R190, R191; 60_exceptions.md R333). -/

namespace Sys2Proof.Machine

/-- The instruction of a record (R161), if its opcode byte is in the opcode map. -/
def Record.instr (cfg : Config) (r : Record) : Option Instr :=
  (cfg.opcodeOf r.opcode).map fun op =>
    op.build r.family r.size r.dst.toOperand r.src.toOperand

/-- The executor takes record `r`, `q` being the queue without it (R178). -/
def State.latch (s : State) (r : Record) (q : List Entry) : State :=
  { s with core := { s.core with queue := q, exu := r } }

/-- The handler of a popped record (R178): an opcode that no handler is for raises
IllegalInstruction (log 19). -/
def runRecord (r : Record) (s : State) : Result :=
  match r.instr s.cfg with
  | some i => exec i s
  | none => s.raised .illegalInstruction

/-- The executor phase (R178). -/
def executorPhase (s : State) : Result :=
  match peek s.core.queue with
  | none => .next s
  | some (tag, size) =>
    if tag ≠ 0 then .refused (.extensionRecord tag)
    else
      match popEntry size s.core.queue with
      | none => .fault .stuck
      | some (r, q) => runRecord r (s.latch r q)

/-- Every slot is Idle and the queue is empty: an instruction boundary (R17, R333). -/
def State.atBoundary (s : State) : Bool := s.activeSlot.isNone && s.core.queue.isEmpty

/-- Line `i` is Flagged and enabled (R333). -/
def State.deliverable (s : State) (i : Fin 8) : Bool :=
  decide (s.isrBlock i = .flagged) && s.lineEnabled i

/-- The line that the interrupt phase enters, if any (R333, R335). -/
def State.pendingLine (s : State) : Option (Fin 8) :=
  if s.atBoundary && !s.intActive && s.executingIsr.isNone then
    intLines.find? fun i => s.deliverable i
  else none

/-- The interrupt phase (R333). -/
def interruptPhase (s : State) : State :=
  match s.pendingLine with
  | some i => s.enterIsr i
  | none => s

/-- A tick's end: the state, and whether StepInstruction ends with it (R191). -/
structure Ticked where
  state : State
  ended : Bool
deriving DecidableEq, Repr

/-- The decoder phase as the last of a tick (R190); `ran` says that this tick's executor phase ran an
instruction. -/
def tickDecoder (ran : Bool) (s : State) : Host.Outcome Ticked Fault Refusal :=
  match decoderPhase s with
  | .moved t => .next ⟨t, ran || t.halted⟩
  | .raised t => .next ⟨t, true⟩
  | .refused r => .refused r

/-- The phases after the executor's (R190): nothing if it halted, else the interrupt phase and then, if
that did not halt, the decoder phase. -/
def tickAfterExec (ran : Bool) (s : State) : Host.Outcome Ticked Fault Refusal :=
  if s.halted then .next ⟨s, true⟩
  else if (interruptPhase s).halted then .next ⟨interruptPhase s, true⟩
  else tickDecoder ran (interruptPhase s)

/-- The core has begun its first tick since reset (R376). -/
def State.markTicked (s : State) : State := { s with core := { s.core with ticked := true } }

/-- `Tick(c)` (R190), with the report of R191. An ill-formed configuration is refused before any step
(R9), and a broken queue leaves the core stuck (R187). -/
def tickReport (s : State) : Host.Outcome Ticked Fault Refusal :=
  if !s.cfg.wf then .refused .illFormedConfiguration
  else if !s.cfg.queueOk s.core.queue then .fault .stuck
  else if s.halted then .next ⟨s, true⟩
  else
    match executorPhase s.markTicked with
    | .next t => tickAfterExec (!s.core.queue.isEmpty) t
    | .fault f => .fault f
    | .refused r => .refused r

/-- `Tick(c)` (R190): one tick of the core. -/
def tick (s : State) : Result :=
  match tickReport s with
  | .next t => .next t.state
  | .fault f => .fault f
  | .refused r => .refused r

/-- Ticks until one ends StepInstruction, at most `fuel` of them. -/
def stepTicks : (fuel : Nat) → State → Result
  | 0, _ => .fault .neverRetires
  | fuel + 1, s =>
    match tickReport s with
    | .next t => if t.ended then .next t.state else stepTicks fuel t.state
    | .fault f => .fault f
    | .refused r => .refused r

/-- The most ticks one instruction takes (R174): four decode ticks, then the tick that executes. -/
def stepFuel : Nat := 5

/-- `StepInstruction(c)` (R191): tick until a tick's executor phase has run an instruction, or a tick has
raised an exception, or F.H = 1. -/
def stepInstruction (s : State) : Result := stepTicks stepFuel s

end Sys2Proof.Machine
end

