-- ==== Sys2Proof/Machine/HostOps.lean ====
section
/-! DEFINITION. What the host can do between ticks (20_memory.md R89, R90, R100, R105 to R108;
60_exceptions.md R330, R331; 70_reset_and_hazards.md R370 to R376), and the machine of several cores:
any core may tick next (R100; log 17). -/

namespace Sys2Proof

open Machine

/-! ### Several cores -/

namespace Machine

/-- The machine has a core of index `c`. -/
def State.hasCore (s : State) (c : Nat) : Bool :=
  decide (s.core.id = c) || s.peers.any fun k => decide (k.id = c)

/-- The same machine with core `c` as the one that ticks; unchanged if there is no such core. -/
def State.focus (s : State) (c : Nat) : State :=
  if s.core.id = c then s
  else
    match s.peers.find? fun k => decide (k.id = c) with
    | some k =>
      { s with core := k, peers := s.peers.map fun p => if p.id = c then s.core else p }
    | none => s

/-- What a host operation answers: the machine after it, with the bytes the host receives; an error
reported to the host, with nothing changed; or a refusal (R18). -/
inductive HostReply where
  | done (s : State) (data : List Byte)
  | error
  | refused (r : Refusal)
deriving DecidableEq, Repr

/-- A host operation on core `c`, with the focus put back after it. -/
def State.onCore (s : State) (c : Nat) (f : State → State) : HostReply :=
  if s.hasCore c then .done ((f (s.focus c)).focus s.core.id) []
  else .refused .noSuchTarget

end Machine

/-- The byte at `x` has backing storage: its region is on the RAM or the flash bus (R60, R105, R107). -/
def Config.backed (cfg : Config) (x : Nat) : Bool :=
  match cfg.lookup x with
  | some r => decide (r.bus ≠ .hardware)
  | none => false

/-- Every byte of `[a, a + n)` has backing storage. -/
def Config.backedRange (cfg : Config) (a n : Nat) : Bool :=
  (List.range n).all fun j => cfg.backed (a + j)

/-- `Flush` of every core's cache, in ascending index (R105, R106). -/
def Machine.MemSys.flushAll (sys : MemSys) : MemSys :=
  (List.range sys.caches.length).foldl (fun m c => flush c m) sys

/-- Puts every line whose bytes overlap `[a, a + n)` into I, in every cache (R106). -/
def Config.invalidate (cfg : Config) (a n : Nat) (caches : List (List Line)) : List (List Line) :=
  caches.map fun cache => cache.map fun ln =>
    if 0 < n ∧ ln.tag < a + n ∧ a < ln.tag + cfg.lineSize then { ln with mesi := .I } else ln

/-- What CopyIn does to the memory system once its range is known to be backed (R106). -/
def Config.copyInSys (cfg : Config) (a : Nat) (bytes : List Byte) (sys : MemSys) : MemSys :=
  let sys1 := sys.flushAll
  { sys1 with
    caches := cfg.invalidate a bytes.length sys1.caches
    mem := sys1.mem.writeRange a bytes }

namespace Machine

/-- `CopyIn(A, bytes)` (R106), which is also the loading of an image (R376). -/
def State.copyIn (s : State) (a : Nat) (bytes : List Byte) : HostReply :=
  if s.cfg.backedRange a bytes.length then
    .done (s.setSys (s.cfg.copyInSys a bytes s.sys)) []
  else .error

/-- `CopyOut(A, n, k)` (R105). -/
def State.copyOut (s : State) (a n k : Nat) : HostReply :=
  if k < n then .error
  else if s.cfg.backedRange a n then
    .done (s.setSys s.sys.flushAll) (s.sys.flushAll.mem.readRange a n)
  else .error

/-- `BypassRead(A, n)` (R107): the backing view, with no cache operation. -/
def State.bypassRead (s : State) (a n : Nat) : HostReply :=
  if s.cfg.backedRange a n then .done s (s.sys.mem.readRange a n) else .error

/-- `Touch(c, a)` (R89); an address outside the regions with C set, which R89 excludes, is refused
(R18). -/
def State.touch (s : State) (c a : Nat) : HostReply :=
  if s.cfg.cacheableAt a then s.onCore c fun t => t.setSys (t.cfg.cacheRead c a 1 t.sys).2
  else .refused .touchNotCacheable

/-- `Flush(c)` by the host (R90). -/
def State.hostFlush (s : State) (c : Nat) : HostReply :=
  s.onCore c fun t => t.setSys (flush c t.sys)

/-- `RaiseInterrupt(c, i)` on the core that ticks (R330): Waiting and enabled becomes Flagged, else
nothing. -/
def State.raiseLine (s : State) (i : Fin 8) : State :=
  if s.isrBlock i = .waiting ∧ s.lineEnabled i = true then s.setIsrBlock i .flagged else s

/-- `RaiseInterrupt(c, i)` (R330); a line id of 8 or more is refused. -/
def State.raiseInterrupt (s : State) (c i : Nat) : HostReply :=
  if h : i < 8 then s.onCore c fun t => t.raiseLine ⟨i, h⟩ else .refused .interruptLine

/-- A peripheral signals: RaiseInterrupt on the line `INT_ROUTE` gives it (R331). Where `INT_ROUTE` lists it
more than once, the first route counts (DESIGN CHOICE, log 28). -/
def State.signal (s : State) (source : Nat) : HostReply :=
  match s.cfg.intRoute.find? fun r => decide (r.source = source) with
  | some r => s.raiseInterrupt r.core r.line
  | none => .refused .noSuchTarget

/-! ### Reset -/

/-- Core `id` with every piece of its state as R370 says, the vector reads still to come. d0 to d7 and a0
to a6: DESIGN CHOICE (log 1). -/
def Core.cleared (cfg : Config) (id : Nat) : Core :=
  { id := id
    regs := RegFile.zero.setCr 5 (BitVec.ofNat 64 id)
    initialSp := 0
    isr := Vector.replicate 8 .waiting
    exc := { phase := .idle, id := 0 }
    slots := List.replicate cfg.numDecoderSlots Slot.idle
    nextSeq := 0
    retireSeq := 0
    queue := []
    exu := Record.zero
    ticked := false }

/-- The reset vector reads (R371): sp and `initialSp` from entry 0, ip from entry 1; a fault halts with
what was read so far. -/
def State.readResetVectors (s : State) : State :=
  match s.memRead s.cfg.vtBase 8 .read with
  | none => s.halt
  | some (v0, s1) =>
    let s2 := (s1.setSp v0)
    let s3 := { s2 with core := { s2.core with initialSp := v0 } }
    match s3.memRead (s3.cfg.vtBase + 8) 8 .read with
    | none => s3.halt
    | some (v1, s4) => s4.setIp v1

/-- `ResetCore` of the core that ticks (R372): its Modified lines are written back, its cache is emptied,
its state is as R370 says, and the vector reads follow. -/
def State.resetHere (s : State) : State :=
  let c := s.core.id
  let sys1 := flush c s.sys
  let sys2 := sys1.setCache c ((sys1.cache c).map fun ln => { ln with mesi := .I, age := 0 })
  ({ s with core := Core.cleared s.cfg c, sys := sys2 }).readResetVectors

/-- `ResetCore(c)` (R372). -/
def State.resetCore (s : State) (c : Nat) : HostReply := s.onCore c State.resetHere

/-- `ResetSystem()` (R373): every core in ascending index order. -/
def State.resetSystem (s : State) : State :=
  ((List.range s.cfg.numCores).foldl (fun t c => if t.hasCore c then (t.focus c).resetHere else t) s).focus
    s.core.id

/-- A core between power-on and its first reset, of which the spec says nothing: `Core.cleared`, not halted
and able to tick (DESIGN CHOICE, log 29), with SetEntry not allowed before the reset (R376, log 8). -/
def Core.atPowerOn (cfg : Config) (id : Nat) : Core := { Core.cleared cfg id with ticked := true }

/-- The machine at power-on, before its first reset: cores as `Core.atPowerOn`, caches empty, nothing in
backing storage (log 2, log 13, log 29). -/
def State.powerOn (cfg : Config) : State :=
  { cfg := cfg
    core := Core.atPowerOn cfg 0
    peers := (List.range (cfg.numCores - 1)).map fun k => Core.atPowerOn cfg (k + 1)
    sys :=
      { caches := List.replicate cfg.numCores
          (List.replicate cfg.numLines (Line.invalid cfg.lineSize 0))
        mem := []
        hw := [] }
    calls := 0 }

/-- `SetEntry(c, E)` (R376): after a reset of `c` and before its first tick, else refused. -/
def State.setEntry (s : State) (c : Nat) (e : Word) : HostReply :=
  if (s.focus c).core.ticked && s.hasCore c then .refused .setEntryTooLate
  else s.onCore c fun t => t.setIp e

/-! ### The steps of the whole machine -/

/-- A step of the whole machine (R100): a tick of one core, or a host operation. -/
inductive Action where
  | tick (c : Nat)
  | step (c : Nat)
  | copyIn (a : Nat) (bytes : List Byte)
  | copyOut (a n k : Nat)
  | bypassRead (a n : Nat)
  | touch (c a : Nat)
  | flush (c : Nat)
  | raiseInterrupt (c i : Nat)
  | signal (source : Nat)
  | resetCore (c : Nat)
  | resetSystem
  | setEntry (c : Nat) (e : Word)
deriving DecidableEq, Repr

/-- A tick or a step of core `c` with the focus put back after it. -/
def State.runOn (s : State) (c : Nat) (f : State → Result) : Host.Outcome State Fault Refusal :=
  if s.hasCore c then
    match f (s.focus c) with
    | .next t => .next (t.focus s.core.id)
    | .fault e => .fault e
    | .refused r => .refused r
  else .refused .noSuchTarget

/-- What a host operation's answer is as an outcome; an error leaves the machine as it was. -/
def HostReply.outcome (s : State) : HostReply → Result
  | .done t _ => .next t
  | .error => .next s
  | .refused r => .refused r

/-- What an action does to a machine whose configuration is well-formed (R100). -/
def actOn (a : Action) (s : State) : Result :=
  match a with
  | .tick c => s.runOn c tick
  | .step c => s.runOn c stepInstruction
  | .copyIn a bytes => (s.copyIn a bytes).outcome s
  | .copyOut a n k => (s.copyOut a n k).outcome s
  | .bypassRead a n => (s.bypassRead a n).outcome s
  | .touch c a => (s.touch c a).outcome s
  | .flush c => (s.hostFlush c).outcome s
  | .raiseInterrupt c i => (s.raiseInterrupt c i).outcome s
  | .signal p => (s.signal p).outcome s
  | .resetCore c => (s.resetCore c).outcome s
  | .resetSystem => .next s.resetSystem
  | .setEntry c e => (s.setEntry c e).outcome s

/-- One action on the machine (R100); an ill-formed configuration is refused before any (R9). -/
def act (a : Action) (s : State) : Result :=
  if s.cfg.wf then actOn a s else .refused .illFormedConfiguration

/-- The machine at an instruction boundary: nothing in a decoder slot or in the queue. At a boundary it
changes nothing that a step reads. -/
def State.drained (s : State) : State :=
  { s with
    core := { s.core with
      slots := s.core.slots.map fun sl => { sl with state := .idle }
      queue := []
      retireSeq := s.core.nextSeq } }

/-- The bytes of a code word stored where the decoder fetches next, as the host loads an image (R106,
R376). -/
def State.placeCode (s : State) (bytes : List Byte) : State :=
  let t := s.drained
  t.setSys (t.cfg.copyInSys t.ip.toNat bytes t.sys)

end Machine

end Sys2Proof
end

