-- ==== Sys2Proof/Machine/Step.lean ====
section
/-! DEFINITION. The machine's step, StepInstruction of 40_decode_pipeline.md R191 over the core tick of
R190, and where it fetches its next instruction. -/

namespace Sys2Proof.Machine

/-- One step: ticks of the core until an instruction has run, an exception was raised or the core is
halted (R191). That the step is StepInstruction and not one tick is a DESIGN CHOICE (log 3). -/
def step (s : State) : Host.Outcome State Fault Refusal := stepInstruction s

/-- `s` with the instruction whose bits are `w`, numbered as spec/opcode_table.json numbers them, at the
address in IP, the bytes above `nbits` zero, and the decoder at an instruction boundary (log 10,
log 11). -/
def State.withFetchWord (s : State) (nbits w : Nat) : State := s.placeCode (tableBytes nbits w)

end Sys2Proof.Machine
end

