-- ==== Sys2Proof/Safety.lean ====
section
/-! DEFINITION. What counts as a safe run, in the terms the claims use: the invariants of the machine,
what a meaning leaves unchanged, and the value an operand has. -/

namespace Sys2Proof

open Machine

/-- No byte of `[a, a + n)` is answered by the host (R73). -/
def Config.offHardwareBus (cfg : Config) (a n : Nat) : Bool :=
  (List.range n).all fun k => !cfg.onHardwareBus (a + k)

/-- The operations on the hardware bus that an access to `bytes` at `a` makes: one for each byte that the bus
answers for, in ascending address order (R68, R73). -/
def Config.hwEvents (cfg : Config) (op : Nat → Byte → HwEvent) : (a : Nat) → (bytes : List Byte) → List HwEvent
  | _, [] => []
  | a, b :: bs =>
    if cfg.onHardwareBus a then op a b :: cfg.hwEvents op (a + 1) bs else cfg.hwEvents op (a + 1) bs

/-- How many bytes the Idle tick reads of an instruction whose opcode byte is `b` (R163, R164). -/
def Config.idleBytes (cfg : Config) (b : Byte) : Nat :=
  if cfg.isExtension b then 1 else headBytes (((cfg.opcodeOf b).map Opcode.form).getD .n0)

/-- Row of the opcode map (R136, R137): the byte of `op`, its form, and whether its destination's value is
read. -/
def Opcode.IsRow (op : Opcode) (b : Byte) (form : Form) (readsDst : Bool) : Prop :=
  Config.default.opcodeOf b = some op ∧ op.form = form ∧ op.readsDst = readsDst

/-! ### Outcomes -/

namespace Machine

/-- The outcome is a next state (the machine neither stops nor refuses). -/
def Result.goesOn (r : Host.Outcome State Fault Refusal) : Bool :=
  match r with
  | .next _ => true
  | _ => false

/-- What follows the executor's handler in the tick that ran it (R190): the interrupt and the decoder
phase. -/
def afterExec (r : Host.Outcome State Fault Refusal) : Host.Outcome State Fault Refusal :=
  match r with
  | .next t =>
    match tickAfterExec true t with
    | .next u => .next u.state
    | .fault f => .fault f
    | .refused x => .refused x
  | .fault f => .fault f
  | .refused x => .refused x

/-! ### Frames -/

/-- Nothing but the register file differs. -/
def State.OnlyRegs (s t : State) : Prop := t = s.setRegs t.regs

/-- Nothing but the register file and the memory system differs. -/
def State.OnlyRegsAndMemory (s t : State) : Prop := t = (s.setRegs t.regs).setSys t.sys

/-- Every integral register but those of `is` is as it was. -/
def State.KeepsRegsBut (s t : State) (is : List RegIndex) : Prop := ∀ i, i ∉ is → t.reg i = s.reg i

/-- Every control register is as it was. -/
def State.KeepsCrs (s t : State) : Prop := ∀ i, t.cr i = s.cr i

/-- Every byte reads as it did. -/
def State.KeepsBytes (s t : State) : Prop := ∀ x, t.byteAt x = s.byteAt x

/-- Register `i` holds `v` at width `size` with its upper bits kept, and every other integral register is as
it was (R23). -/
def State.WritesReg (s t : State) (size : Size) (i : RegIndex) (v : BitVec size.bits) : Prop :=
  (∀ n, n < size.bits → (t.reg i).getLsbD n = v.getLsbD n) ∧
  (∀ n, size.bits ≤ n → (t.reg i).getLsbD n = (s.reg i).getLsbD n) ∧
  s.KeepsRegsBut t [i]

/-! ### Coherency (R91, R92) -/

/-- Line `k` of core `i`'s cache; an Invalid line where there is none. -/
def MemSys.line (sys : MemSys) (i k : Nat) : Line := (sys.cache i).getD k (Line.invalid 0 0)

end Machine

/-- Every cache has its lines. -/
abbrev Config.CachesShaped (cfg : Config) (sys : MemSys) : Prop :=
  sys.caches.length = cfg.numCores ∧ ∀ i < cfg.numCores, (sys.cache i).length = cfg.numLines

/-- A line that is not Invalid has a whole line's bytes and the address of a line of a cacheable region
(R61, R80); in E or S it holds the bytes of RAM (R92). -/
abbrev Config.LineSound (cfg : Config) (mem : Memory) (ln : Line) : Prop :=
  ln.mesi ≠ .I →
    ln.data.length = cfg.lineSize ∧ ln.tag % cfg.lineSize = 0 ∧ cfg.cacheableAt ln.tag = true ∧
      (ln.mesi ≠ .M → ln.data = mem.readRange ln.tag cfg.lineSize)

/-- R91: two lines of the machine that hold one line address are the same line, or lines of two cores'
caches, both in S. -/
abbrev Config.Exclusive (cfg : Config) (sys : MemSys) : Prop :=
  ∀ i < cfg.numCores, ∀ k < cfg.numLines, ∀ i' < cfg.numCores, ∀ k' < cfg.numLines,
    (sys.line i k).mesi ≠ .I → (sys.line i' k').mesi ≠ .I →
    (sys.line i k).tag = (sys.line i' k').tag →
      (i = i' ∧ k = k') ∨ (i ≠ i' ∧ (sys.line i k).mesi = .S ∧ (sys.line i' k').mesi = .S)

/-- The coherency invariant (R91) with what R92 rests on: backing storage in canonical form, caches of
their shape, sound lines, and exclusive holders. -/
abbrev Config.Coherent (cfg : Config) (sys : MemSys) : Prop :=
  sys.mem.wf = true ∧ cfg.CachesShaped sys ∧
    (∀ i < cfg.numCores, ∀ k < cfg.numLines, cfg.LineSound sys.mem (sys.line i k)) ∧
    cfg.Exclusive sys

namespace Machine

/-- The machine's memory system is coherent, and the core that ticks is one of its cores. -/
abbrev State.Coherent (s : State) : Prop := s.core.id < s.cfg.numCores ∧ s.cfg.Coherent s.sys

/-- What the laws of memory rest on: a well-formed configuration (R9) and a coherent memory system. -/
abbrev State.MemoryOk (s : State) : Prop := s.cfg.wf = true ∧ s.Coherent

/-! ### Stores and results -/

/-- Every byte outside `[a, a + n)` reads as it did, and the bytes inside, but for those that the hardware
bus answers for, read as the low 8n bits of `v` in `BYTE_ORDER`. -/
def State.Stores (s t : State) (a n : Nat) (v : Word) : Prop :=
  (∀ x, x < a ∨ a + n ≤ x → t.byteAt x = s.byteAt x) ∧
  ∀ k, k < n → s.cfg.onHardwareBus (a + k) = false →
    t.byteAt (a + k) = (split s.cfg.byteOrder n v.toNat).getD k 0

/-- A meaning that stores `n` bytes of `v` at `a` ends so (R67, R177, R179): where the store is allowed, in
a next state that has the stored bytes, the registers `regs`, and everything else as it was; else in a
MemoryFault with nothing changed before it. -/
def State.EndsStoring (s : State) (a : Word) (n : Nat) (v : Word) (regs : RegFile → Prop)
    (r : Host.Outcome State Fault Refusal) : Prop :=
  if s.cfg.check a.toNat n .write then
    ∃ t, r = .next t ∧ s.OnlyRegsAndMemory t ∧ regs t.regs ∧
      (s.MemoryOk → s.Stores t a.toNat n v)
  else r = .next (s.raiseException .memoryFault)

/-- An instruction that writes `v` to its destination ends so (R141, R177, R179): an Immediate destination
raises HardFault; a register is written at the operand size and the flags become as `flags` says; a memory
destination is stored to at its effective address, and then the flags become as `flags` says. -/
def State.EndsWriting (s : State) (dst : Operand) (size : Size) (v : BitVec size.bits)
    (flags : Flags → Prop) (r : Host.Outcome State Fault Refusal) : Prop :=
  match dst with
  | .immediate _ _ => r = .next (s.raiseException .hardFault)
  | .register i =>
    ∃ t, r = .next t ∧ s.OnlyRegs t ∧ s.WritesReg t size i v ∧ flags t.flags ∧ t.ip = s.ip ∧
      s.KeepsCrs t
  | .absolute _ _ | .indirect _ _ =>
    s.EndsStoring s.dstEa size.bytes (v.setWidth 64)
      (fun g => flags g.flags ∧ g = { s.regs with flags := g.flags }) r

/-- Nothing changed but that the core is halted and STATUS.EXC_ID is `id` (R340, R346). -/
def State.HaltsWith (s t : State) (id : Nat) : Prop :=
  s.OnlyRegs t ∧ (∀ i, t.reg i = s.reg i) ∧ t.ip = s.ip ∧ t.flags = { s.flags with h := true } ∧
  (∀ i, i ≠ statusIndex → t.cr i = s.cr i) ∧
  t.cr statusIndex &&& ~~~ (0x700 : Word) = s.cr statusIndex &&& ~~~ (0x700 : Word) ∧
  ((t.cr statusIndex).extractLsb' 8 3).toNat = id

/-! ### The pipeline (R185 to R189) -/

/-- The states a decoder slot has between ticks. -/
abbrev DecodeState.between (st : DecodeState) : Prop := st ≠ .finished ∧ st ≠ .decodeExtension

/-- The record's opcode is in the map, and the form and the family are as the opcode allows (R137,
R140). -/
abbrev Record.Sound (cfg : Config) (r : Record) : Prop :=
  ∃ op ∈ cfg.opcodeOf r.opcode, r.form = op.form ∧ (r.family = .control → op = .mov ∧ r.size = .l)

/-- R186, R188, R189: at most one instruction is between its first decode tick and its execution. Either
every slot is Idle, the queue holds at most one entry, tagged for the root set and of the record's
size, and the next sequence id is the one that may retire; or the queue is empty and exactly one slot is
decoding the instruction that may retire next. -/
abbrev State.PipelineOk (s : State) : Prop :=
  s.core.slots.length = s.cfg.numDecoderSlots ∧
  (∀ sl ∈ s.core.slots, sl.state.between) ∧
  (∀ sl ∈ s.core.slots, sl.state ≠ .idle → sl.record.Sound s.cfg) ∧
  (((∀ sl ∈ s.core.slots, sl.state = .idle) ∧ s.core.queue.length ≤ 1 ∧
      (∀ e ∈ s.core.queue, e.tag = 0 ∧ e.size = s.cfg.dqRecordBytes ∧ e.record.Sound s.cfg) ∧
      s.core.nextSeq = s.core.retireSeq) ∨
   (s.core.queue = [] ∧
    ∃ j < s.core.slots.length, (s.slot j).state ≠ .idle ∧ (s.slot j).seq = s.core.retireSeq ∧
      s.core.nextSeq = s.core.retireSeq + 1 ∧
      ∀ k < s.core.slots.length, k ≠ j → (s.slot k).state = .idle))

/-! ### Control registers and control blocks -/

/-- The fields of STATUS (R36): bits 0, 1, 6:4 and 10:8. -/
def statusFields : Word := 0x773

/-- The control registers hold what R33 to R40 let them: the fields without a meaning are 0, and cr5 is
the core index. -/
abbrev RegFile.Legal (id : Nat) (r : RegFile) : Prop :=
  r.getCr 0 &&& ~~~ (0xFF : Word) = 0 ∧ r.getCr 1 &&& ~~~ (0x3F : Word) = 0 ∧
  r.getCr 2 &&& ~~~ statusFields = 0 ∧ r.getCr 5 = BitVec.ofNat 64 id ∧
  r.getCr 6 = 0 ∧ r.getCr 7 = 0

/-- The snapshot the exception block holds, if any. -/
def ExcPhase.snapshot : ExcPhase → Option RegFile
  | .executing snap => some snap
  | _ => none

/-- Every snapshot held in a control block satisfies `p`. -/
abbrev State.AllSnapshots (s : State) (p : RegFile → Prop) : Prop :=
  (∀ i : Fin 8, ∀ snap ∈ (s.isrBlock i).snapshot, p snap) ∧
  ∀ snap ∈ s.core.exc.phase.snapshot, p snap

/-- The registers, and those of every snapshot, are legal (R45: "s was legal when saved"). -/
abbrev State.ControlOk (s : State) : Prop :=
  s.regs.Legal s.core.id ∧ s.AllSnapshots fun snap => snap.Legal s.core.id

/-- R336, the part that holds of every program, with R300's "H in the snapshot is always 0": at most one
ISR block is Executing, the exception block is never Raised between ticks, the snapshot of an ISR has
INT_ACTIVE = 0, and no snapshot is halted. -/
abbrev State.HandlersOk (s : State) : Prop :=
  (∀ i j : Fin 8, (s.isrBlock i).snapshot.isSome = true → (s.isrBlock j).snapshot.isSome = true →
    i = j) ∧
  s.core.exc.phase ≠ .raised ∧
  (∀ i : Fin 8, ∀ snap ∈ (s.isrBlock i).snapshot, (snap.getCr statusIndex).getLsbD 0 = false) ∧
  s.AllSnapshots fun snap => snap.flags.h = false

/-! ### An instruction boundary -/

/-- The core is between two instructions and its next step starts one: nothing halts it, and no interrupt
is taken first (R188, R333). -/
abbrev State.Ready (s : State) : Prop :=
  s.MemoryOk ∧ s.PipelineOk ∧ s.atBoundary = true ∧ s.halted = false ∧ s.pendingLine = none

/-- The core between two instructions, but for its decoder's bookkeeping: the same machine, `regs` the
registers, and the same view of memory. -/
def State.SameOutsideDecoder (s t : State) (regs : RegFile) : Prop :=
  (∃ sys slots nextSeq retireSeq queue exu, t = { s with
    core := { s.core with
      regs := regs, slots := slots, nextSeq := nextSeq, retireSeq := retireSeq, queue := queue,
      exu := exu, ticked := true }
    sys := sys }) ∧ s.KeepsBytes t ∧ (s.MemoryOk → t.MemoryOk) ∧ t.sys.hw = s.sys.hw

/-! ### Several cores -/

/-- No two cores of the machine have the same index (R39, R353). -/
abbrev State.CoresDistinct (s : State) : Prop := ((s.core :: s.peers).map fun k => k.id).Nodup

/-- `f` done to core `c`, whichever core ticks, and to nothing else. -/
def State.mapCore (s : State) (c : Nat) (f : State → State) : State :=
  { s with
    core := if s.core.id = c then (f s).core else s.core
    peers := s.peers.map fun k => if k.id = c then (f { s with core := k }).core else k }

/-! ### Faults of a decode tick -/

/-- A decode tick that raises `e` ends so (R170, R171): the step answers what RaiseException(e) makes of the
core with the registers `regs`, IP among them; every slot is Idle, nothing is pushed, and the next
instruction may retire. -/
def State.DecodeRaises (s : State) (e : Exc) (regs : RegFile)
    (r : Host.Outcome State Fault Refusal) : Prop :=
  ∃ u t : State, s.SameOutsideDecoder u regs ∧ r = .next t ∧
    (u.raiseException e).SameOutsideDecoder t (u.raiseException e).regs ∧
    t.atBoundary = true ∧ t.core.retireSeq = t.core.nextSeq

/-- Reading the operand at width `size` faults (R67, R176): the immediate at IP cannot be fetched, or the
memory at the effective address cannot be read. -/
def State.operandFaults (s : State) (o : OperandRec) (size : Size) : Bool :=
  match o.mode with
  | .immediate => !s.cfg.check s.ip.toNat size.bytes .fetch
  | .register => false
  | .absolute | .indirect => !s.cfg.check o.ea.toNat size.bytes .read

/-- The extra bytes of the record's operands cannot be fetched (R165): those of the destination, or, once
they are read off the hardware bus, those of the source. -/
def State.extsFault (s : State) (r : Record) : Bool :=
  let n := r.dst.toOperand.extLength
  !s.cfg.check s.ip.toNat n .fetch ||
    (decide (r.form = .n2) && s.cfg.offHardwareBus s.ip.toNat n &&
      !s.cfg.check (s.ip + BitVec.ofNat 64 n).toNat r.src.toOperand.extLength .fetch)

/-- The next tick of a slot that is decoding cannot read what it reads (R165, R166, R167). -/
def State.decodeTickFaults (s : State) (sl : Slot) : Bool :=
  let r := sl.record
  match sl.state with
  | .decodeAddrMode => s.extsFault r
  | .readMem =>
    match r.form with
    | .n2 => s.operandFaults r.src r.size
    | .n0 | .n1 =>
      ((s.cfg.opcodeOf r.opcode).getD .nop).readsOperand && s.operandFaults r.dst r.size
  | .twoOpDstReadMem => s.operandFaults r.dst r.size
  | .idle | .finished | .decodeExtension => false

/-! ### Operands as a program sees them -/

/-- The `n` bytes from address `a`, in the coherent view (R92). -/
def State.bytesAt (s : State) (a n : Nat) : List Byte := (List.range n).map fun k => s.byteAt (a + k)

/-- The operand can be read at width `size` without a fault and without the host: an Immediate or a
Register always, a memory operand where its region allows the read. -/
def State.readable (s : State) (size : Size) (o : Operand) : Bool :=
  match o with
  | .immediate _ _ => true
  | .register _ => true
  | o =>
    s.cfg.check (effectiveAddress s.regs o).toNat size.bytes .read &&
      s.cfg.offHardwareBus (effectiveAddress s.regs o).toNat size.bytes

/-- The value of an operand at width `size` (R127): what decode captures of it (R176). -/
def State.operandValue (s : State) (family : Family) (size : Size) (o : Operand) : Word :=
  match o with
  | .immediate _ v => v
  | .register r =>
    match family with
    | .control => s.readControlReg r
    | .integral => (lowBits size (s.reg r)).setWidth 64
  | o =>
    BitVec.ofNat 64 (assemble s.cfg.byteOrder
      (s.bytesAt (effectiveAddress s.regs o).toNat size.bytes))

/-- The record that the executor holds in `u` is instruction `i` with the values it had in `s` (R161): the
source's, or the single operand's, as the first, the destination's as the second where the opcode reads it,
and the destination's effective address. A value that the decoder does not read is 0. -/
def State.Captured (s : State) (i : Instr) (u : State) : Prop :=
  u.core.exu.instr u.cfg = some i ∧
  match i.first, i.second with
  | some dst, some src =>
    u.core.exu.primary = s.operandValue i.family i.size src ∧
    u.core.exu.secondary = (if i.opcode.readsDst then s.operandValue i.family i.size dst else 0) ∧
    u.dstEa = effectiveAddress s.regs dst
  | some op, none =>
    u.core.exu.primary = (if i.opcode.readsOperand then s.operandValue i.family i.size op else 0) ∧
    u.core.exu.secondary = 0 ∧ u.dstEa = effectiveAddress s.regs op
  | none, _ => u.core.exu.primary = 0 ∧ u.core.exu.secondary = 0

/-- Every operand of `i` that the decoder reads can be read (R129, R166, R167). -/
def State.OperandsReadable (s : State) (i : Instr) : Prop :=
  (∀ o ∈ i.second, s.readable i.size o = true) ∧
  ∀ o ∈ i.first,
    (i.opcode.readsDst = true ∨ (i.second = none ∧ i.opcode.readsOperand = true)) →
      s.readable i.size o = true

/-- The region table allows the memory access of a syscall handler's effect, if it makes one (R67, R302). -/
def SysAction.allowed (cfg : Config) : SysAction → Bool
  | .setReg _ _ => true
  | .setFlags _ _ _ _ _ => true
  | .load a n => cfg.check a.toNat n .read
  | .store a bs => cfg.check a.toNat bs.length .write

/-- The flags of a shift of `a` by `n` with result `r`, last bit out `c`, and sign change `v` (R240). -/
def State.ShiftFlags {w : Nat} (s : State) (n : Nat) (r : BitVec w) (c : Bool) (v : Prop) (f : Flags) :
    Prop :=
  f.c = (if n = 0 then false else c) ∧ (f.v = true ↔ n ≠ 0 ∧ v) ∧ f.z = decide (r = 0) ∧ f.n = r.msb ∧
  f.x = (if n = 0 then s.flags.x else c) ∧ f.h = s.flags.h

end Machine

end Sys2Proof
end

