-- ==== Sys2Proof/Certificates/Slice0/Obligations.lean ====
section
/-! DEFINITION. The statements for the provers. -/

open Sys2Proof Sys2Proof.Machine

/-! ### Encoding (30_encoding.md) -/

/-- R121, R129, R130: decoding the bytes of a well-formed instruction gives it back, with every operand at
every value the encoding admits, and leaves the bytes after it. -/
def Obligations.DecodeOfEncode : Prop :=
  ∀ (cfg : Config) (i : Instr) (rest : List Byte),
    cfg.codesOk = true → i.wellFormed = true → decode cfg (encode cfg i ++ rest) = .ok (i, rest)

/-- R139, R140: what decodes at all is the encoding of the instruction it decodes to. So no reserved bit,
reserved code or unknown opcode decodes to a neighbour. -/
def Obligations.EncodeOfDecode : Prop :=
  ∀ (cfg : Config) (bs rest : List Byte) (i : Instr),
    cfg.codesOk = true → cfg.opcodeMap = Config.rootOpcodes → decode cfg bs = .ok (i, rest) →
      i.wellFormed = true ∧ encode cfg i ++ rest = bs

/-- R135: an instruction takes as many bytes as the formulas of `Instr.length` say, at most 20, and some take
20. -/
def Obligations.DecodedLength : Prop :=
  (∀ (cfg : Config) (bs rest : List Byte) (i : Instr), decode cfg bs = .ok (i, rest) →
    bs.length = i.length + rest.length ∧ 1 ≤ i.length ∧ i.length ≤ 20) ∧
  ∃ i : Instr, i.wellFormed = true ∧ i.length = 20

/-- R139: exactly these bytes are unknown opcodes of the default opcode map, and they decode to nothing. -/
def Obligations.UnknownOpcodes : Prop :=
  ∀ (b : Byte) (rest : List Byte),
    decode Config.default (b :: rest) = .error (.unknownOpcode b) ↔
      (0x02 ≤ b.toNat ∧ b.toNat ≤ 0x1F) ∨ (0x24 ≤ b.toNat ∧ b.toNat ≤ 0x2F) ∨
      (0x34 ≤ b.toNat ∧ b.toNat ≤ 0x3F) ∨ (0x42 ≤ b.toNat ∧ b.toNat ≤ 0x4F) ∨
      (0x59 ≤ b.toNat ∧ b.toNat ≤ 0x5F) ∨ (0x64 ≤ b.toNat ∧ b.toNat ≤ 0x6F) ∨
      (0x71 ≤ b.toNat ∧ b.toNat ≤ 0xEF)

/-- R140: a metadata byte or a descriptor byte that breaks one of the six checks makes the encoding
malformed, and nothing else does. -/
def Obligations.MalformedEncodings : Prop :=
  ∀ (cfg : Config) (op : Opcode) (md : Byte) (ds : List Byte),
    headError cfg op md ds ≠ none ↔
      md.extractLsb' 2 2 ≠ 0 ∨ md.extractLsb' 6 2 ≠ 0 ∨
      md.extractLsb' 4 2 = 2 ∨ md.extractLsb' 4 2 = 3 ∨
      (md.extractLsb' 4 2 = 1 ∧ op ≠ .mov) ∨ (md.extractLsb' 4 2 = 1 ∧ md.extractLsb' 0 2 ≠ 3) ∨
      (∃ d ∈ ds, d.extractLsb' 2 2 = 3) ∨
      ∃ d ∈ ds, d.extractLsb' 2 2 ≠ 0 ∧ cfg.modeOf (d.extractLsb' 0 2) ≠ .indirect

/-- R143, R192, R211, R261, R303 and others: words that the spec writes out, byte by byte, decode to the
instructions it says they are. -/
def Obligations.WrittenWords : Prop :=
  decode Config.default [0x20, 0x00, 0x03, 0x01, 0x45] =
    .ok (.mov .b (.register 0) (.immediate 0 0x45), []) ∧
  decode Config.default [0x20, 0x13, 0x83, 0x23] = .ok (.movCr (.register 8) (.register 2), []) ∧
  decode Config.default [0x21, 0x00, 0x13, 0x01, 0x05] =
    .ok (.add .b (.register 1) (.immediate 0 5), []) ∧
  decode Config.default [0x32, 0x00, 0x03, 0x01, 0x01] =
    .ok (.lsl .b (.register 0) (.immediate 0 1), []) ∧
  decode Config.default [0x40, 0x03, 0x03] = .ok (.push .l (.register 0), []) ∧
  decode Config.default [0x55, 0x01, 0x01, 0x01, 0x00] = .ok (.bmi .w (.immediate 0 0x100), []) ∧
  decode Config.default [0x60, 0x00, 0x01, 0x10] = .ok (.call .b (.immediate 0 0x10), []) ∧
  decode Config.default [0x63] = .ok (.rte, [])

/-- R131, R132, R133: the effective address of every memory operand. -/
def Obligations.EffectiveAddress : Prop :=
  ∀ (r : RegFile) (spare : BitVec 4) (a : Word) (base i sh : BitVec 4) (d : Byte),
    effectiveAddress r (.absolute spare a) = a ∧
    effectiveAddress r (.indirect base .none) = r.get base ∧
    (effectiveAddress r (.indirect base (.registerRelative i sh))).toNat =
      ((r.get base).toNat + (r.get i).toNat * 2 ^ sh.toNat) % 2 ^ 64 ∧
    ((effectiveAddress r (.indirect base (.absoluteRelative d))).toNat : Int) =
      (((r.get base).toNat : Int) + d.toInt) % 2 ^ 64

/-! ### A step (40_decode_pipeline.md) -/

/-- R178, R190: when the queue holds a record of instruction `i`, the step is `exec` of `i` on the state
without the record, with the interrupt and decoder phases of the same tick after it. That a step is
StepInstruction is the model's choice (log 3). -/
def Obligations.StepRunsQueuedRecord : Prop :=
  ∀ (s : State) (r : Record) (i : Instr), s.cfg.wf = true → s.halted = false →
    s.core.queue = [{ tag := 0, size := s.cfg.dqRecordBytes, record := r }] →
    r.instr s.cfg = some i →
      step s = afterExec (exec i (s.markTicked.latch r []))

/-- R163 to R169, R173, R190, R191: a step runs the decoded instruction. Where the core is between two
instructions and the bytes at IP decode to `i`, can be fetched, and `i`'s operands can be read, the step
is `exec` of `i`, with the interrupt and decoder phases of the same tick after it, on a state `u` that
differs from `s` in IP, which is past the instruction's bytes, in the decoder's bookkeeping, and in the
record, which holds `i` and its operands' values as `s` has them. That a step is StepInstruction is the
model's choice (log 3). -/
def Obligations.StepRunsDecodedInstruction : Prop :=
  ∀ (s : State) (i : Instr) (rest : List Byte), s.Ready →
    decode s.cfg (s.bytesAt s.ip.toNat maxInstrBytes) = .ok (i, rest) →
    s.cfg.check s.ip.toNat i.length .fetch = true →
    s.cfg.offHardwareBus s.ip.toNat i.length = true → s.OperandsReadable i →
      ∃ u : State, s.SameOutsideDecoder u { s.regs with ip := s.ip + BitVec.ofNat 64 i.length } ∧
        u.atBoundary = true ∧ s.Captured i u ∧ step s = afterExec (exec i u)

/-- R139, R140, R163, R164, R170, R171: an encoding that does not decode raises IllegalInstruction in the step
that reads it, with IP after the opcode byte where that is unknown or an unregistered extension, and after
the descriptors where the encoding is malformed. -/
def Obligations.IllegalEncodingRaises : Prop :=
  ∀ (s : State) (e : DecodeError), s.Ready →
    decode s.cfg (s.bytesAt s.ip.toNat maxInstrBytes) = .error e →
    (∀ b, e ≠ .registeredExtension b) →
    let n := s.cfg.idleBytes (s.byteAt s.ip.toNat)
    s.cfg.check s.ip.toNat n .fetch = true → s.cfg.offHardwareBus s.ip.toNat n = true →
      s.DecodeRaises .illegalInstruction { s.regs with ip := s.ip + BitVec.ofNat 64 n } (step s)

/-- R163 to R167, R170, R171: a decode tick that cannot read its bytes or its operand raises MemoryFault with
every register as the tick found it, IP among them. In the Idle tick that is the opcode, metadata or
descriptor byte `k` of the instruction, the bytes before it having been read off the hardware bus, and IP is
the instruction's address. In a later tick it is the extra bytes, the immediate or the memory operand that
`State.decodeTickFaults` names. -/
def Obligations.DecodeMemoryFaults : Prop :=
  (∀ (s : State) (k : Nat), s.Ready → k < s.cfg.idleBytes (s.byteAt s.ip.toNat) →
    s.cfg.check (s.ip + BitVec.ofNat 64 k).toNat 1 .fetch = false →
    (∀ i < k, s.cfg.check (s.ip + BitVec.ofNat 64 i).toNat 1 .fetch = true ∧
      s.cfg.onHardwareBus (s.ip + BitVec.ofNat 64 i).toNat = false) →
      s.DecodeRaises .memoryFault s.regs (step s)) ∧
  ∀ (s : State) (j : Nat), s.MemoryOk → s.PipelineOk → s.halted = false → j < s.core.slots.length →
    s.decodeTickFaults (s.slot j) = true → s.DecodeRaises .memoryFault s.regs (step s)

/-- R168, R305: the opcode byte of a registered extension is refused. -/
def Obligations.RegisteredExtensionRefused : Prop :=
  ∀ (s : State) (b : Byte), s.Ready →
    decode s.cfg (s.bytesAt s.ip.toNat maxInstrBytes) = .error (.registeredExtension b) →
    s.cfg.check s.ip.toNat 1 .fetch = true → s.cfg.offHardwareBus s.ip.toNat 1 = true →
      step s = .refused (.extensionInstruction b)

/-- R333, R334, R335: an interrupt that is pending at an instruction boundary is entered first, and the step
goes on as from its handler. -/
def Obligations.StepTakesInterrupt : Prop :=
  ∀ (s : State) (i : Fin 8), s.cfg.wf = true → s.halted = false → s.pendingLine = some i →
    step s = step (s.enterIsr i)

/-- R9, R32, R100, R190: an ill-formed configuration is refused before any tick, step or host operation; a
halted core's tick and step have no effect. That `Config.wf` asks for the lower bounds of R8 beside the six
conditions of R9, and so refuses a configuration with no core, no decoder slot or empty records, is the
model's choice (DEDUCED, log 15). -/
def Obligations.NoStep : Prop :=
  (∀ s : State, s.cfg.wf = false →
    tick s = .refused .illFormedConfiguration ∧ step s = .refused .illFormedConfiguration ∧
      ∀ a, act a s = .refused .illFormedConfiguration) ∧
  ∀ s : State, s.cfg.wf = true → s.cfg.queueOk s.core.queue = true → s.halted = true →
    tick s = .next s ∧ step s = .next s

/-- R9, R18, R187: with no extension registered and no refusal asked for by the configuration, every step
from a state whose pipeline is in order answers a next state. -/
def Obligations.StepAlwaysGoesOn : Prop :=
  ∀ s : State, s.cfg.wf = true → s.cfg.extensions = [] → s.cfg.refuseMmuEnable = false →
    s.cfg.branchImmOnly = false → s.PipelineOk → ∃ t, step s = .next t

/-! ### Invariants that every step keeps -/

/-- R91, R92: the coherency invariant, and with it the canonical form of backing storage. -/
def Obligations.StepKeepsMemoryOk : Prop :=
  ∀ s t : State, s.MemoryOk → step s = .next t → t.MemoryOk

/-- R186, R188, R189: at most one instruction is between its first decode tick and its execution. -/
def Obligations.StepKeepsPipelineOk : Prop :=
  ∀ s t : State, s.PipelineOk → step s = .next t → t.PipelineOk

/-- R33 to R40, R45: the control registers, those in the snapshots too, hold only what their fields may;
cr5 is the core index, and cr6 and cr7 are 0. -/
def Obligations.StepKeepsControlOk : Prop :=
  ∀ s t : State, s.ControlOk → step s = .next t → t.ControlOk

/-- R300, R336: at most one ISR block is Executing, the exception block is never Raised between ticks, the
snapshot of an ISR has INT_ACTIVE = 0, and no snapshot is halted. -/
def Obligations.StepKeepsHandlersOk : Prop :=
  ∀ s t : State, s.HandlersOk → step s = .next t → t.HandlersOk

/-- R8, R39, R42, R51, R353: no step changes the configuration, another core's private state, the core's
index or `initialSp`; so the cores' indices stay distinct. -/
def Obligations.StepKeepsTheRest : Prop :=
  ∀ s t : State, step s = .next t →
    t.cfg = s.cfg ∧ t.peers = s.peers ∧ t.core.id = s.core.id ∧
    t.core.initialSp = s.core.initialSp ∧ (s.CoresDistinct → t.CoresDistinct)

/-! ### Reset (70_reset_and_hazards.md) -/

/-- R370: right after reset with the default parameters the core holds what the spec states, the invariants
hold, and the core is ready to start an instruction. It does not speak of d0 to d7 and a0 to a6, whose
values are the model's choice (log 1). That the parameters are `Config.default` is R8 and the model's choice
for those R8 gives no value (DESIGN CHOICE, log 4, log 27, log 28); R370 does not give them. -/
def Obligations.ResetState : Prop :=
  (State.reset.Ready ∧ State.reset.ControlOk ∧ State.reset.HandlersOk ∧ State.reset.CoresDistinct) ∧
  State.reset.flags = { c := false, v := false, z := false, n := false, x := false, h := false } ∧
  (∀ i, State.reset.cr i = 0) ∧ State.reset.core.initialSp = State.reset.sp ∧
  (∀ i, State.reset.isrBlock i = .waiting) ∧ State.reset.core.exc = { phase := .idle, id := 0 } ∧
  (∀ sl ∈ State.reset.core.slots, sl.state = .idle) ∧ State.reset.core.nextSeq = 0 ∧
  State.reset.core.retireSeq = 0 ∧ State.reset.core.queue = [] ∧ State.reset.cfg = Config.default

/-- R370, R371, R372: what ResetCore leaves: the private state as after reset, sp and `initialSp` from vector
entry 0, ip from entry 1, and every byte of memory as it was. -/
def Obligations.ResetCoreEffect : Prop :=
  ∀ s : State, s.MemoryOk → s.cfg.offHardwareBus s.cfg.vtBase.toNat 16 = true →
    s.resetHere.MemoryOk ∧ s.KeepsBytes s.resetHere ∧ s.resetHere.cfg = s.cfg ∧
    s.resetHere.peers = s.peers ∧ s.resetHere.core.id = s.core.id ∧
    s.resetHere.sp =
      BitVec.ofNat 64 (assemble s.cfg.byteOrder (s.bytesAt s.cfg.vtBase.toNat 8)) ∧
    s.resetHere.core.initialSp = s.resetHere.sp ∧
    s.resetHere.ip =
      BitVec.ofNat 64 (assemble s.cfg.byteOrder (s.bytesAt (s.cfg.vtBase.toNat + 8) 8)) ∧
    s.resetHere.flags = { c := false, v := false, z := false, n := false, x := false, h := false } ∧
    (∀ i, s.resetHere.cr i = if i = 5 then BitVec.ofNat 64 s.core.id else 0) ∧
    (∀ i, s.resetHere.isrBlock i = .waiting) ∧
    s.resetHere.core.exc = { phase := .idle, id := 0 } ∧
    (∀ sl ∈ s.resetHere.core.slots, sl.state = .idle) ∧
    s.resetHere.core.nextSeq = 0 ∧ s.resetHere.core.retireSeq = 0 ∧ s.resetHere.core.queue = []

/-! ### Registers (10_state.md) -/

/-- R23: a write at width w replaces bits w-1:0 and keeps the rest; no other register changes. -/
def Obligations.WidthViews : Prop :=
  ∀ (s : State) (size : Size) (i : RegIndex) (v : Word),
    s.WritesReg (s.setRegAt size i v) size i (lowBits size v) ∧
    (s.setRegAt size i v).reg i =
      (s.reg i &&& ~~~ widthMask size) ||| (v &&& widthMask size) ∧
    s.OnlyRegs (s.setRegAt size i v) ∧ (s.setRegAt size i v).ip = s.ip ∧
    (s.setRegAt size i v).flags = s.flags ∧ s.KeepsCrs (s.setRegAt size i v)

/-- R22, R41: reading and writing through the Control register map. -/
def Obligations.ControlRegisterMap : Prop :=
  ∀ (s : State) (v : Word),
    (∀ i : BitVec 3, s.readControlReg (i.setWidth 4) = s.cr i) ∧
    (∀ i : BitVec 3, s.readControlReg (i.setWidth 4 + 8) = s.reg (i.setWidth 4)) ∧
    (s.writeCr 0 v).cr 0 = v &&& 0xFF ∧ (s.writeCr 1 v).cr 1 = v &&& 0x3F ∧
    (s.writeCr 3 v).cr 3 = v ∧ (s.writeCr 4 v).cr 4 = v ∧
    s.writeCr 2 v = s ∧ s.writeCr 5 v = s ∧ s.writeCr 6 v = s ∧ s.writeCr 7 v = s ∧
    (∀ i j : BitVec 3, i ≠ j → (s.writeCr i v).cr j = s.cr j) ∧
    (∀ i : BitVec 3, s.OnlyRegs (s.writeCr i v) ∧ s.KeepsRegsBut (s.writeCr i v) [] ∧
      (s.writeCr i v).ip = s.ip ∧ (s.writeCr i v).flags = s.flags)

/-! ### Memory (20_memory.md) -/

/-- R67: when an access faults, and that a faulting access moves nothing. -/
def Obligations.AccessCheck : Prop :=
  (∀ (s : State) (a : Word) (n : Nat) (k : AccessKind),
    s.memRead a n k = none ↔
      2 ^ 64 < a.toNat + n ∨ ∃ j, j < n ∧
        ∀ r, s.cfg.lookup (a.toNat + j) = some r → r.allows k = false) ∧
  ∀ (s : State) (a : Word) (n : Nat) (v : Word),
    s.memWrite a n v = none ↔
      2 ^ 64 < a.toNat + n ∨ ∃ j, j < n ∧
        ∀ r, s.cfg.lookup (a.toNat + j) = some r → r.allows .write = false

/-- R71, R92: a read gives the coherent value of its bytes, assembled in `BYTE_ORDER`, and changes no byte
and no register. -/
def Obligations.ReadIsCoherent : Prop :=
  ∀ (s : State) (a : Word) (n : Nat) (k : AccessKind), s.MemoryOk →
    s.cfg.check a.toNat n k = true → s.cfg.offHardwareBus a.toNat n = true →
      ∃ t, s.memRead a n k =
          some (BitVec.ofNat 64 (assemble s.cfg.byteOrder (s.bytesAt a.toNat n)), t) ∧
        t = s.setSys t.sys ∧ s.KeepsBytes t ∧ t.MemoryOk

/-- R71: a write stores the low 8n bits in `BYTE_ORDER` and touches no other byte; reading the same bytes
then gives them back. -/
def Obligations.ReadAfterWrite : Prop :=
  ∀ (s : State) (a : Word) (n : Nat) (v : Word), s.MemoryOk → n ≤ 8 →
    s.cfg.check a.toNat n .write = true →
      ∃ t, s.memWrite a n v = some t ∧ t = s.setSys t.sys ∧ t.MemoryOk ∧ s.Stores t a.toNat n v ∧
        (s.cfg.check a.toNat n .read = true → s.cfg.offHardwareBus a.toNat n = true →
          ∃ u, t.memRead a n .read = some (BitVec.ofNat 64 (v.toNat % 2 ^ (8 * n)), u))

/-- R13, R71, R130: the value of a field or datum: big-endian or little-endian. -/
def Obligations.ByteOrders : Prop :=
  ∀ bs : List Byte,
    assemble .be bs =
      ((List.range bs.length).map fun j => (bs.getD j 0).toNat * 2 ^ (8 * (bs.length - 1 - j))).sum ∧
    assemble .le bs = ((List.range bs.length).map fun j => (bs.getD j 0).toNat * 2 ^ (8 * j)).sum

/-- R68, R70, R73: an access makes one operation on the hardware bus for each of its bytes that the bus answers
for, in ascending address order, and no other. A byte read there is the host's answer given the operations
before it, every other byte of the access is the coherent value, and a byte written there changes no byte of
memory. That the answer is the free value `Config.hwRead` of a recorded history is the model's choice
(DESIGN CHOICE, log 6). -/
def Obligations.HardwareBus : Prop :=
  (∀ (cfg : Config) (c x : Nat) (b : Byte) (sys : MemSys), cfg.onHardwareBus x = true →
    cfg.busReadByte c x sys = (Config.hwRead c x sys.hw,
      { sys with hw := sys.hw ++ [.read c x (Config.hwRead c x sys.hw)] }) ∧
    cfg.busWriteByte c x b sys = { sys with hw := sys.hw ++ [.write c x b] } ∧
    (∀ y, cfg.coherentByte (cfg.busWriteByte c x b sys) y = cfg.coherentByte sys y)) ∧
  (∀ (cfg : Config) (c a n : Nat) (k : AccessKind) (sys : MemSys),
    cfg.wf = true → cfg.Coherent sys → c < cfg.numCores → cfg.check a n k = true →
      ∃ bs t, cfg.mmuRead c a n k sys = some (bs, t) ∧ bs.length = n ∧
        t.hw = sys.hw ++ cfg.hwEvents (.read c) a bs ∧
        (∀ x, cfg.coherentByte t x = cfg.coherentByte sys x) ∧
        ∀ j < n, bs.getD j 0 =
          if cfg.onHardwareBus (a + j) then
            Config.hwRead c (a + j) (sys.hw ++ cfg.hwEvents (.read c) a (bs.take j))
          else cfg.coherentByte sys (a + j)) ∧
  ∀ (cfg : Config) (c a : Nat) (bs : List Byte) (sys : MemSys),
    cfg.wf = true → cfg.Coherent sys → c < cfg.numCores → cfg.check a bs.length .write = true →
      ∃ t, cfg.mmuWrite c a bs sys = some t ∧
        t.hw = sys.hw ++ cfg.hwEvents (.write c) a bs ∧
        ∀ x, cfg.coherentByte t x =
          if a ≤ x ∧ x < a + bs.length ∧ cfg.onHardwareBus x = false then bs.getD (x - a) 0
          else cfg.coherentByte sys x

/-- R83: the line that a miss takes is the lowest Invalid one if there is one, else the lowest of those with
the greatest age. -/
def Obligations.VictimChoice : Prop :=
  ∀ cache : List Line, cache ≠ [] →
    victim cache < cache.length ∧
    ((∃ ln ∈ cache, ln.mesi = .I) →
      (cache.getD (victim cache) (Line.invalid 0 0)).mesi = .I ∧
      ∀ k < victim cache, (cache.getD k (Line.invalid 0 0)).mesi ≠ .I) ∧
    ((∀ ln ∈ cache, ln.mesi ≠ .I) →
      (∀ k < cache.length, (cache.getD k (Line.invalid 0 0)).age ≤
        (cache.getD (victim cache) (Line.invalid 0 0)).age) ∧
      ∀ k < victim cache, (cache.getD k (Line.invalid 0 0)).age <
        (cache.getD (victim cache) (Line.invalid 0 0)).age)

/-- R84, R85, R86, R87: after a read miss the requester's line is in S if another cache held the address,
and then every holder is in S, else in E; after a write the requester's line is in M and no other cache
holds the address. That the former holders end in S is what R85 marks as from general knowledge and not in
the source (D38, 93_implementation_defined.md G3). -/
def Obligations.MesiStates : Prop :=
  ∀ (cfg : Config) (sys : MemSys) (c pa len : Nat) (bs : List Byte),
    cfg.wf = true → cfg.Coherent sys → c < cfg.numCores → cfg.cacheableAt pa = true →
    pa + len ≤ cfg.lineAddr pa + cfg.lineSize → pa + bs.length ≤ cfg.lineAddr pa + cfg.lineSize →
      ((∀ k < cfg.numLines, (sys.line c k).holds (cfg.lineAddr pa) = false) →
        ∃ k < cfg.numLines, ((cfg.cacheRead c pa len sys).2.line c k).holds (cfg.lineAddr pa) = true ∧
          ((∃ i < cfg.numCores, ∃ j < cfg.numLines, (sys.line i j).holds (cfg.lineAddr pa) = true) →
            ∀ i < cfg.numCores, ∀ j < cfg.numLines,
              ((cfg.cacheRead c pa len sys).2.line i j).holds (cfg.lineAddr pa) = true →
                ((cfg.cacheRead c pa len sys).2.line i j).mesi = .S) ∧
          ((∀ i < cfg.numCores, ∀ j < cfg.numLines,
              (sys.line i j).holds (cfg.lineAddr pa) = false) →
            ((cfg.cacheRead c pa len sys).2.line c k).mesi = .E)) ∧
      (∃ k < cfg.numLines, ((cfg.cacheWrite c pa bs sys).line c k).holds (cfg.lineAddr pa) = true ∧
        ((cfg.cacheWrite c pa bs sys).line c k).mesi = .M) ∧
      ∀ i < cfg.numCores, i ≠ c → ∀ j < cfg.numLines,
        ((cfg.cacheWrite c pa bs sys).line i j).holds (cfg.lineAddr pa) = false

/-- R90: Flush leaves no Modified line in the cache, changes no byte a program reads, and a second one right
after it changes nothing. -/
def Obligations.FlushEffect : Prop :=
  ∀ (cfg : Config) (sys : MemSys) (c : Nat), cfg.wf = true → cfg.Coherent sys → c < cfg.numCores →
    (∀ ln ∈ (flush c sys).cache c, ln.mesi ≠ .M) ∧ cfg.Coherent (flush c sys) ∧
    (∀ x, cfg.coherentByte (flush c sys) x = cfg.coherentByte sys x) ∧
    flush c (flush c sys) = flush c sys

/-- R105, R106, R384: CopyOut gives the host the bytes a program reads, CopyIn writes its bytes and no other
in the view of every core; neither touches anything but the memory system, nor the hardware bus; an error
changes nothing. -/
def Obligations.HostCopies : Prop :=
  (∀ (s : State) (a n k : Nat), s.MemoryOk →
    (n ≤ k ∧ s.cfg.backedRange a n = true →
      ∃ t, s.copyOut a n k = .done t (s.bytesAt a n) ∧ t = s.setSys t.sys ∧ t.sys.hw = s.sys.hw ∧
        s.KeepsBytes t ∧ t.MemoryOk) ∧
    (k < n ∨ s.cfg.backedRange a n = false → s.copyOut a n k = .error)) ∧
  ∀ (s : State) (a : Nat) (bs : List Byte), s.MemoryOk →
    (s.cfg.backedRange a bs.length = true →
      ∃ t, s.copyIn a bs = .done t [] ∧ t = s.setSys t.sys ∧ t.sys.hw = s.sys.hw ∧ t.MemoryOk ∧
        ∀ x, t.byteAt x = if a ≤ x ∧ x < a + bs.length then bs.getD (x - a) 0 else s.byteAt x) ∧
    (s.cfg.backedRange a bs.length = false → s.copyIn a bs = .error)

/-! ### The queue (40_decode_pipeline.md R180 to R185) -/

/-- R181 to R185: entries come out in the order they went in, a push fails exactly where there is no room,
a pop of the oldest entry's size gives its record and a pop of another size fails, and used and free bytes
make up the capacity. -/
def Obligations.QueueLaws : Prop :=
  ∀ (cfg : Config) (q : List Entry) (e : Entry), bytesAvailable q ≤ cfg.dqCapacity →
    (cfg.push q e = none ↔ cfg.dqCapacity < bytesAvailable q + 4 + e.size) ∧
    (∀ q', cfg.push q e = some q' →
      q' = q ++ [e] ∧ bytesAvailable q' + cfg.bytesFree q' = cfg.dqCapacity) ∧
    bytesAvailable q + cfg.bytesFree q = cfg.dqCapacity ∧
    (∀ n r q', popEntry n q = some (r, q') →
      ∃ h, q = h :: q' ∧ h.size = n ∧ h.record = r ∧ peek q = some (h.tag, n) ∧
        bytesAvailable q' + cfg.bytesFree q' = cfg.dqCapacity) ∧
    (∀ h q', q = h :: q' →
      popEntry h.size q = some (h.record, q') ∧ ∀ n, n ≠ h.size → popEntry n q = none) ∧
    (q = [] → peek q = none ∧ ∀ n, popEntry n q = none)

/-! ### Moves (41_move.md) -/

/-- R210: MOV of the Integral family, on every destination form. -/
def Obligations.MovEffect : Prop :=
  Opcode.mov.IsRow 0x20 .n2 false ∧
  ∀ (s : State) (size : Size) (dst src : Operand),
    s.EndsWriting dst size (s.primary size) (fun f => f = s.flags) (exec (.mov size dst src) s)

/-- R211: MOV of the Control family, on every destination form and every control register. -/
def Obligations.MovCrEffect : Prop :=
  Opcode.mov.IsRow 0x20 .n2 false ∧
  ∀ (s : State) (dst src : Operand),
    let v := s.core.exu.primary
    let r := exec (.movCr dst src) s
    match dst with
    | .immediate _ _ => r = .next (s.raiseException .hardFault)
    | .register i =>
      if i = 3 ∧ s.cfg.refuseMmuEnable = true ∧ v ≠ 0 then r = .refused .mmuEnable
      else ∃ t, r = .next t ∧ s.OnlyRegs t ∧ t.flags = s.flags ∧ t.ip = s.ip ∧
        (∀ k : BitVec 3, t.cr k =
          if i = 0 ∧ k = 0 then v &&& 0xFF else if i = 1 ∧ k = 1 then v &&& 0x3F
          else if (i = 3 ∧ k = 3) ∨ (i = 4 ∧ k = 4) then v else s.cr k) ∧
        ∀ k : RegIndex, t.reg k = if 8 ≤ i.toNat ∧ k = i - 8 then v else s.reg k
    | .absolute _ _ | .indirect _ _ => s.EndsStoring s.dstEa 8 v (fun g => g = s.regs) r

/-! ### Arithmetic (42_arith.md) -/

/-- R220: ADD, on every destination form. -/
def Obligations.AddEffect : Prop :=
  Opcode.add.IsRow 0x21 .n2 true ∧
  ∀ (s : State) (size : Size) (dst src : Operand),
    let a := s.secondary size
    let b := s.primary size
    let r := a + b
    s.EndsWriting dst size r
      (fun f => f.c = decide (2 ^ size.bits ≤ a.toNat + b.toNat) ∧
        f.v = ((a ^^^ r) &&& (b ^^^ r)).msb ∧ f.z = decide (r = 0) ∧ f.n = r.msb ∧ f.x = f.c ∧
        f.h = s.flags.h)
      (exec (.add size dst src) s)

/-- R221: SUB, on every destination form. -/
def Obligations.SubEffect : Prop :=
  Opcode.sub.IsRow 0x22 .n2 true ∧
  ∀ (s : State) (size : Size) (dst src : Operand),
    let a := s.secondary size
    let b := s.primary size
    let r := a - b
    s.EndsWriting dst size r
      (fun f => f.c = decide (a.toNat < b.toNat) ∧ f.v = ((a ^^^ b) &&& (a ^^^ r)).msb ∧
        f.z = decide (r = 0) ∧ f.n = r.msb ∧ f.x = f.c ∧ f.h = s.flags.h)
      (exec (.sub size dst src) s)

/-- R222: CMP sets the flags of SUB and writes nothing else; an Immediate destination raises HardFault. -/
def Obligations.CmpEffect : Prop :=
  Opcode.cmp.IsRow 0x23 .n2 true ∧
  ∀ (s : State) (size : Size) (dst src : Operand),
    let a := s.secondary size
    let b := s.primary size
    let r := a - b
    if dst.isImmediate then exec (.cmp size dst src) s = .next (s.raiseException .hardFault)
    else ∃ t, exec (.cmp size dst src) s = .next t ∧ t = s.setFlags t.flags ∧
      t.flags.c = decide (a.toNat < b.toNat) ∧ t.flags.v = ((a ^^^ b) &&& (a ^^^ r)).msb ∧
      t.flags.z = decide (r = 0) ∧ t.flags.n = r.msb ∧ t.flags.x = t.flags.c ∧
      t.flags.h = s.flags.h

/-- R223, R224: V is signed overflow: the sign table, and the signed result out of the range of w bits. -/
def Obligations.OverflowMeaning : Prop :=
  ∀ (w : Nat) (f : Flags) (a b : BitVec w), 0 < w →
    ((addFlags f a b).v = true ↔ a.msb = b.msb ∧ (a + b).msb ≠ a.msb) ∧
    ((subFlags f a b).v = true ↔ a.msb ≠ b.msb ∧ (a - b).msb ≠ a.msb) ∧
    ((addFlags f a b).v = true ↔
      a.toInt + b.toInt < -(2 ^ (w - 1) : Int) ∨ (2 ^ (w - 1) : Int) ≤ a.toInt + b.toInt) ∧
    ((subFlags f a b).v = true ↔
      a.toInt - b.toInt < -(2 ^ (w - 1) : Int) ∨ (2 ^ (w - 1) : Int) ≤ a.toInt - b.toInt)

/-! ### Shifts (43_shift.md) -/

/-- R240, R241: ASL; V says that the sign bit changed at some step of the shift. -/
def Obligations.AslEffect : Prop :=
  Opcode.asl.IsRow 0x30 .n2 true ∧
  ∀ (s : State) (size : Size) (dst src : Operand),
    let a := s.secondary size
    let n := (s.primary size).toNat
    let r := BitVec.ofNat size.bits (a.toNat * 2 ^ n)
    s.EndsWriting dst size r
      (s.ShiftFlags n r (if 1 ≤ n ∧ n ≤ size.bits then a.getLsbD (size.bits - n) else false)
        (∃ k, k < n ∧ (a <<< (k + 1)).msb ≠ (a <<< k).msb))
      (exec (.asl size dst src) s)

/-- R240, R242: ASR rounds toward minus infinity; past w it leaves copies of the sign. -/
def Obligations.AsrEffect : Prop :=
  Opcode.asr.IsRow 0x31 .n2 true ∧
  ∀ (s : State) (size : Size) (dst src : Operand),
    let a := s.secondary size
    let n := (s.primary size).toNat
    let r := BitVec.ofInt size.bits (a.toInt / 2 ^ n)
    s.EndsWriting dst size r (s.ShiftFlags n r (a.getLsbD (min n size.bits - 1)) False)
      (exec (.asr size dst src) s)

/-- R240, R243: LSL. -/
def Obligations.LslEffect : Prop :=
  Opcode.lsl.IsRow 0x32 .n2 true ∧
  ∀ (s : State) (size : Size) (dst src : Operand),
    let a := s.secondary size
    let n := (s.primary size).toNat
    let r := BitVec.ofNat size.bits (a.toNat * 2 ^ n)
    s.EndsWriting dst size r
      (s.ShiftFlags n r (if 1 ≤ n ∧ n ≤ size.bits then a.getLsbD (size.bits - n) else false) False)
      (exec (.lsl size dst src) s)

/-- R240, R244: LSR. -/
def Obligations.LsrEffect : Prop :=
  Opcode.lsr.IsRow 0x33 .n2 true ∧
  ∀ (s : State) (size : Size) (dst src : Operand),
    let a := s.secondary size
    let n := (s.primary size).toNat
    let r := BitVec.ofNat size.bits (a.toNat / 2 ^ n)
    s.EndsWriting dst size r
      (s.ShiftFlags n r (if 1 ≤ n ∧ n ≤ size.bits then a.getLsbD (n - 1) else false) False)
      (exec (.lsr size dst src) s)

/-! ### Branches (44_branch.md) -/

/-- R260 to R269: each of the nine branches goes to the next instruction plus the sign-extended
displacement where its condition holds, else on; nothing but IP changes. With `BRANCH_IMM_ONLY` true, a
branch whose operand is not Immediate is refused. -/
def Obligations.BranchEffect : Prop :=
  (Opcode.bra.IsRow 0x50 .n1 false ∧ Opcode.beq.IsRow 0x51 .n1 false ∧
    Opcode.bne.IsRow 0x52 .n1 false ∧ Opcode.bcs.IsRow 0x53 .n1 false ∧
    Opcode.bcc.IsRow 0x54 .n1 false ∧ Opcode.bmi.IsRow 0x55 .n1 false ∧
    Opcode.bpl.IsRow 0x56 .n1 false ∧ Opcode.bvs.IsRow 0x57 .n1 false ∧
    Opcode.bvc.IsRow 0x58 .n1 false) ∧
  ∀ (s : State) (size : Size) (op : Operand),
    let go := s.setIp (s.ip + (lowBits size s.core.exu.primary).signExtend 64)
    (s.cfg.branchImmOnly = false ∨ op.isImmediate = true →
      exec (.bra size op) s = .next go ∧
      exec (.beq size op) s = .next (if s.flags.z = true then go else s) ∧
      exec (.bne size op) s = .next (if s.flags.z = false then go else s) ∧
      exec (.bcs size op) s = .next (if s.flags.c = true then go else s) ∧
      exec (.bcc size op) s = .next (if s.flags.c = false then go else s) ∧
      exec (.bmi size op) s = .next (if s.flags.n = true then go else s) ∧
      exec (.bpl size op) s = .next (if s.flags.n = false then go else s) ∧
      exec (.bvs size op) s = .next (if s.flags.v = true then go else s) ∧
      exec (.bvc size op) s = .next (if s.flags.v = false then go else s)) ∧
    (s.cfg.branchImmOnly = true → op.isImmediate = false →
      ∀ i ∈ [Instr.bra size op, .beq size op, .bne size op, .bcs size op, .bcc size op, .bmi size op,
        .bpl size op, .bvs size op, .bvc size op], exec i s = .refused .branchOperandNotImmediate)

/-! ### Stack, call and return (45_stack_call.md) -/

/-- R280: PUSH. -/
def Obligations.PushEffect : Prop :=
  Opcode.push.IsRow 0x40 .n1 false ∧
  ∀ (s : State) (size : Size) (op : Operand),
    let newSp := s.sp - BitVec.ofNat 64 size.bytes
    s.EndsStoring newSp size.bytes ((s.primary size).setWidth 64)
      (fun g => g = s.regs.set spIndex newSp) (exec (.push size op) s)

/-- R281: POP, on every operand form: the stack is read, a memory operand is stored before SP moves, a
register is written after it. -/
def Obligations.PopEffect : Prop :=
  Opcode.pop.IsRow 0x41 .n1 false ∧
  ∀ (s : State) (size : Size) (op : Operand),
    let r := exec (.pop size op) s
    let n := size.bytes
    let newSp := s.sp + BitVec.ofNat 64 n
    if op.isImmediate then r = .next (s.raiseException .hardFault)
    else if s.cfg.check s.sp.toNat n .read = false then r = .next (s.raiseException .memoryFault)
    else ∃ (s1 : State) (v : Word), s1 = s.setSys s1.sys ∧
      (s.MemoryOk → s1.MemoryOk ∧ s.KeepsBytes s1 ∧
        (s.cfg.offHardwareBus s.sp.toNat n = true →
          v = BitVec.ofNat 64 (assemble s.cfg.byteOrder (s.bytesAt s.sp.toNat n)))) ∧
      match op with
      | .register i =>
        ∃ t, r = .next t ∧ s1.OnlyRegs t ∧ (s1.setSp newSp).WritesReg t size i (lowBits size v) ∧
          t.flags = s.flags ∧ t.ip = s.ip ∧ s.KeepsCrs t
      | _ => s1.EndsStoring s.dstEa n v (fun g => g = s.regs.set spIndex newSp) r

/-- R282: CALL pushes the address of the next instruction as 8 bytes whatever the size, then goes to its
target: absolute for a long operand, else relative. That CALL takes every readable operand mode where
`BRANCH_IMM_ONLY` is true is the model's reading (DEDUCED, log 25). -/
def Obligations.CallEffect : Prop :=
  Opcode.call.IsRow 0x60 .n1 false ∧
  ∀ (s : State) (size : Size) (op : Operand),
    let newSp := s.sp - 8
    let target := if size = .l then s.core.exu.primary
      else s.ip + (lowBits size s.core.exu.primary).signExtend 64
    s.EndsStoring newSp 8 s.ip (fun g => g = { s.regs.set spIndex newSp with ip := target })
      (exec (.call size op) s)

/-- R283: RET faults on an empty return stack, else pops the address. -/
def Obligations.RetEffect : Prop :=
  Opcode.ret.IsRow 0x61 .n0 false ∧
  ∀ s : State,
    if s.core.initialSp.toNat < s.sp.toNat + 8 then
      exec .ret s = .next (s.raiseException .hardFault)
    else if s.cfg.check s.sp.toNat 8 .read = false then
      exec .ret s = .next (s.raiseException .memoryFault)
    else ∃ t, exec .ret s = .next t ∧ s.OnlyRegsAndMemory t ∧
      t.regs = { s.regs.set spIndex (s.sp + 8) with ip := t.ip } ∧
      (s.MemoryOk → t.MemoryOk ∧ s.KeepsBytes t ∧
        (s.cfg.offHardwareBus s.sp.toNat 8 = true →
          t.ip = BitVec.ofNat 64 (assemble s.cfg.byteOrder (s.bytesAt s.sp.toNat 8))))

/-- R280 and R281, R282 and R283: a POP of a register after a PUSH of the same size gives the value back and
restores sp, and a RET after a CALL goes to the instruction after the CALL and restores sp. -/
def Obligations.StackRoundTrips : Prop :=
  ∀ (s t : State) (size : Size) (op : Operand), s.MemoryOk →
    (exec (.push size op) s = .next t →
      s.cfg.check (s.sp - BitVec.ofNat 64 size.bytes).toNat size.bytes .write = true →
      s.cfg.check (s.sp - BitVec.ofNat 64 size.bytes).toNat size.bytes .read = true →
      s.cfg.offHardwareBus (s.sp - BitVec.ofNat 64 size.bytes).toNat size.bytes = true →
        ∀ i, i ≠ spIndex → ∃ u, exec (.pop size (.register i)) t = .next u ∧ u.sp = s.sp ∧
          lowBits size (u.reg i) = s.primary size) ∧
    (exec (.call size op) s = .next t →
      s.cfg.check (s.sp - 8).toNat 8 .write = true → s.cfg.check (s.sp - 8).toNat 8 .read = true →
      s.cfg.offHardwareBus (s.sp - 8).toNat 8 = true →
      (s.sp - 8).toNat + 8 ≤ s.core.initialSp.toNat →
        ∃ u, exec .ret t = .next u ∧ u.sp = s.sp ∧ u.ip = s.ip)

/-! ### System instructions (46_system.md) -/

/-- R300: RTI restores the snapshot of the ISR that executes, every register of it, and its block becomes
Waiting; outside an active ISR it raises HardFault. -/
def Obligations.RtiEffect : Prop :=
  Opcode.rti.IsRow 0x62 .n0 false ∧
  ∀ s : State,
    (∀ (i : Fin 8) (snap : RegFile), s.intActive = true → s.isrBlock i = .executing snap →
      (∀ j, j ≠ i → (s.isrBlock j).snapshot = none) →
        exec .rti s = .next ((s.setIsrBlock i .waiting).setRegs snap)) ∧
    (s.intActive = false ∨ (∀ i, (s.isrBlock i).snapshot = none) →
      exec .rti s = .next (s.raiseException .hardFault))

/-- R301: RTE restores the exception snapshot, every register of it, and the block becomes Idle; outside an
active exception handler it raises HardFault. -/
def Obligations.RteEffect : Prop :=
  Opcode.rte.IsRow 0x63 .n0 false ∧
  ∀ s : State,
    (∀ snap : RegFile, s.excActive = true → s.core.exc.phase = .executing snap →
      exec .rte s = .next ((s.setExc { s.core.exc with phase := .idle }).setRegs snap)) ∧
    (s.excActive = false ∨ s.core.exc.phase.snapshot = none →
      exec .rte s = .next (s.raiseException .hardFault))

/-- R302: SYS with an id that has no handler raises IllegalInstruction; with one that has, it goes on, and
what the handler changes is within d0 to d7, a0 to a6, sp, C V Z N X and memory; where an access of the
handler's is not allowed, a MemoryFault is raised after what it changed. The handler is a free value
(log 5). -/
def Obligations.SysEffect : Prop :=
  Opcode.sys.IsRow 0x70 .n0 false ∧
  ∀ s : State,
    if s.reg d0Index ∈ s.cfg.syscallIds then
      ∃ u : State, (∃ gpr flags sys, u = { s with
          core := { s.core with regs := { s.regs with gpr := gpr, flags := flags } }
          sys := sys
          calls := s.calls + 1 }) ∧ u.flags.h = s.flags.h ∧ (s.MemoryOk → u.MemoryOk) ∧
        if (Config.syscallActions s).all (SysAction.allowed s.cfg) then exec .sys s = .next u
        else exec .sys s = .next (u.raiseException .memoryFault)
    else exec .sys s = .next (s.raiseException .illegalInstruction)

/-- R303, R304: NOP changes nothing; BRK sets H and nothing else. -/
def Obligations.NopAndBrk : Prop :=
  Opcode.nop.IsRow 0x01 .n0 false ∧ Opcode.brk.IsRow 0x00 .n0 false ∧
  ∀ s : State, exec .nop s = .next s ∧
    exec .brk s = .next (s.setFlags { s.flags with h := true })

/-! ### Exceptions and interrupts (60_exceptions.md) -/

/-- R340, R346: a raise while a handler executes is recorded as HardFault and halts; a raise of a disabled
id records it and halts; nothing else changes. -/
def Obligations.RaiseHalts : Prop :=
  ∀ (s : State) (e : Exc),
    (s.core.exc.phase.snapshot.isSome = true → s.HaltsWith (s.raiseException e) 1) ∧
    (s.core.exc.phase.snapshot = none → (s.cr 1).getLsbD e.id.val = false →
      s.HaltsWith (s.raiseException e) e.id.val)

/-- R340, R342: a raise of an enabled id while no exception handler executes enters the handler: every
register is saved with EXC_ID recorded, IP goes to the vector's address, EXC_ACTIVE is set, and nothing
else changes: not the decoder, the queue, `initialSp`, another core, a byte or the hardware bus. -/
def Obligations.RaiseEnters : Prop :=
  ∀ (s : State) (e : Exc), s.MemoryOk → s.core.exc.phase.snapshot = none →
    (s.cr 1).getLsbD e.id.val = true →
    s.cfg.offHardwareBus (s.cfg.vtBase.toNat + 0x10 + 8 * e.id.val) 8 = true →
      ∃ t, s.raiseException e = t ∧ t.MemoryOk ∧ s.KeepsBytes t ∧
        (∃ snap, t.core.exc = { phase := .executing snap, id := e.id } ∧
          (s.setRegs snap) = s.recordExc e) ∧
        t.ip = BitVec.ofNat 64 (assemble s.cfg.byteOrder
          (s.bytesAt (s.cfg.vtBase.toNat + 0x10 + 8 * e.id.val) 8)) ∧
        (∀ i, t.reg i = s.reg i) ∧ t.flags = s.flags ∧
        (∀ i, i ≠ statusIndex → t.cr i = s.cr i) ∧ t.excActive = true ∧
        ((t.cr statusIndex).extractLsb' 8 3).toNat = e.id.val ∧
        t.cr statusIndex &&& ~~~ (0x702 : Word) = s.cr statusIndex &&& ~~~ (0x702 : Word) ∧
        t = { s with core := { s.core with regs := t.regs, exc := t.core.exc }, sys := t.sys } ∧
        t.sys.hw = s.sys.hw

/-- R334: interrupt entry: every register is saved, IP goes to the vector's address, INT_ACTIVE is set and
INT_ID is the line, and nothing else changes: not the decoder, the queue, `initialSp`, another core, a byte
or the hardware bus. -/
def Obligations.IsrEntry : Prop :=
  ∀ (s : State) (i : Fin 8), s.MemoryOk →
    s.cfg.offHardwareBus (s.cfg.vtBase.toNat + 0x40 + 8 * i.val) 8 = true →
      ∃ t, s.enterIsr i = t ∧ t.MemoryOk ∧ s.KeepsBytes t ∧
        t.isrBlock i = .executing s.regs ∧ (∀ j, j ≠ i → t.isrBlock j = s.isrBlock j) ∧
        t.ip = BitVec.ofNat 64 (assemble s.cfg.byteOrder
          (s.bytesAt (s.cfg.vtBase.toNat + 0x40 + 8 * i.val) 8)) ∧
        (∀ k, t.reg k = s.reg k) ∧ t.flags = s.flags ∧
        (∀ k, k ≠ statusIndex → t.cr k = s.cr k) ∧ t.intActive = true ∧
        ((t.cr statusIndex).extractLsb' 4 3).toNat = i.val ∧
        t.cr statusIndex &&& ~~~ (0x71 : Word) = s.cr statusIndex &&& ~~~ (0x71 : Word) ∧
        t = { s with core := { s.core with regs := t.regs, isr := t.core.isr }, sys := t.sys } ∧
        t.sys.hw = s.sys.hw

/-- R300, R301, R334, R342, R343: a return right after an entry puts every register back: an RTI as it was at
the entry, an RTE as it was at the raise with the id in EXC_ID. -/
def Obligations.ReturnAfterEntry : Prop :=
  (∀ (s : State) (e : Exc), s.cfg.wf = true → s.core.exc.phase.snapshot = none →
    (s.cr 1).getLsbD e.id.val = true →
      ∃ t, exec .rte (s.raiseException e) = .next t ∧ t.regs = (s.recordExc e).regs ∧
        t.core.exc.phase = .idle) ∧
  ∀ (s : State) (i : Fin 8), s.cfg.wf = true → (∀ j, (s.isrBlock j).snapshot = none) →
    ∃ t, exec .rti (s.enterIsr i) = .next t ∧ t.regs = s.regs ∧ t.isrBlock i = .waiting ∧
      t.core.exc = s.core.exc

/-- R333, R335: which line is entered: the lowest that is Flagged and enabled, at an instruction boundary
with no ISR active; else none. -/
def Obligations.LineChoice : Prop :=
  ∀ s : State,
    (∀ i, s.pendingLine = some i ↔
      (∀ sl ∈ s.core.slots, sl.state = .idle) ∧ s.core.queue = [] ∧
      (s.cr statusIndex).getLsbD 0 = false ∧ (∀ j, (s.isrBlock j).snapshot = none) ∧
      s.isrBlock i = .flagged ∧ (s.cr 0).getLsbD i.val = true ∧
      ∀ j, j < i → ¬ (s.isrBlock j = .flagged ∧ (s.cr 0).getLsbD j.val = true))

/-- R89, R330, R376: what the host's signals do. RaiseInterrupt makes an enabled, Waiting line of the core it
names Flagged and does nothing otherwise; SetEntry sets IP of its core and nothing else before the core's
first tick. Refused are: a line id of 8 or more, SetEntry after that tick, Touch outside the cacheable
regions, and a core that is not there (DESIGN CHOICE, log 21). That the flag `ticked` says when SetEntry is
allowed is the model's reading (DEDUCED, log 8). -/
def Obligations.HostSignals : Prop :=
  (∀ (s : State) (i : Fin 8),
    (s.isrBlock i = .waiting ∧ (s.cr 0).getLsbD i.val = true →
      s.raiseLine i = s.setIsrBlock i .flagged) ∧
    (s.isrBlock i ≠ .waiting ∨ (s.cr 0).getLsbD i.val = false → s.raiseLine i = s)) ∧
  (∀ (s : State) (i : Fin 8), s.raiseInterrupt s.core.id i.val = .done (s.raiseLine i) []) ∧
  (∀ (s : State) (c : Nat) (i : Fin 8), s.CoresDistinct → s.hasCore c = true →
    s.raiseInterrupt c i.val = .done (s.mapCore c fun u => u.raiseLine i) []) ∧
  (∀ (s : State) (c i : Nat), 8 ≤ i → s.raiseInterrupt c i = .refused .interruptLine) ∧
  (∀ (s : State) (e : Word),
    (s.core.ticked = false → s.setEntry s.core.id e = .done (s.setIp e) []) ∧
    (s.core.ticked = true → s.setEntry s.core.id e = .refused .setEntryTooLate)) ∧
  (∀ (s : State) (k : Core) (e : Word), s.CoresDistinct → k ∈ s.peers →
    (k.ticked = false → s.setEntry k.id e = .done (s.mapCore k.id fun u => u.setIp e) []) ∧
    (k.ticked = true → s.setEntry k.id e = .refused .setEntryTooLate)) ∧
  (∀ (s : State) (c a : Nat), s.cfg.cacheableAt a = false → s.touch c a = .refused .touchNotCacheable) ∧
  ∀ (s : State) (c : Nat), s.hasCore c = false →
    (∀ i, i < 8 → s.raiseInterrupt c i = .refused .noSuchTarget) ∧
    (∀ e, s.setEntry c e = .refused .noSuchTarget) ∧
    ∀ a, s.cfg.cacheableAt a = true → s.touch c a = .refused .noSuchTarget
end

