-- ==== Sys2Proof/Laws/State.lean ====
section
/-! SUPPORT. The small lemmas of the state's updates: one per field per update, and reading a register
back after a register write. -/

namespace Sys2Proof.Machine

variable (s : State)

/-! #### `State.setRegs` -/

@[simp] theorem State.cfg_setRegs (r : RegFile) : (s.setRegs r).cfg = s.cfg := rfl
@[simp] theorem State.peers_setRegs (r : RegFile) : (s.setRegs r).peers = s.peers := rfl
@[simp] theorem State.calls_setRegs (r : RegFile) : (s.setRegs r).calls = s.calls := rfl
@[simp] theorem State.sys_setRegs (r : RegFile) : (s.setRegs r).sys = s.sys := rfl
@[simp] theorem State.core_setRegs (r : RegFile) :
    (s.setRegs r).core = { s.core with regs := r } := rfl
@[simp] theorem State.reg_setRegs (r : RegFile) (j : RegIndex) : (s.setRegs r).reg j = r.get j := rfl
@[simp] theorem State.ip_setRegs (r : RegFile) : (s.setRegs r).ip = r.ip := rfl
@[simp] theorem State.flags_setRegs (r : RegFile) : (s.setRegs r).flags = r.flags := rfl
@[simp] theorem State.cr_setRegs (r : RegFile) (k : BitVec 3) : (s.setRegs r).cr k = r.getCr k := rfl

/-! #### `State.setReg` -/

@[simp] theorem State.cfg_setReg (i : RegIndex) (v : Word) : (s.setReg i v).cfg = s.cfg := rfl
@[simp] theorem State.peers_setReg (i : RegIndex) (v : Word) : (s.setReg i v).peers = s.peers := rfl
@[simp] theorem State.calls_setReg (i : RegIndex) (v : Word) : (s.setReg i v).calls = s.calls := rfl
@[simp] theorem State.sys_setReg (i : RegIndex) (v : Word) : (s.setReg i v).sys = s.sys := rfl
@[simp] theorem State.core_setReg (i : RegIndex) (v : Word) :
    (s.setReg i v).core = { s.core with regs := s.core.regs.set i v } := rfl
@[simp] theorem State.ip_setReg (i : RegIndex) (v : Word) : (s.setReg i v).ip = s.ip := rfl
@[simp] theorem State.flags_setReg (i : RegIndex) (v : Word) : (s.setReg i v).flags = s.flags := rfl
@[simp] theorem State.cr_setReg (i : RegIndex) (v : Word) (k : BitVec 3) : (s.setReg i v).cr k = s.cr k := rfl

/-! #### `State.setRegAt` -/

@[simp] theorem State.cfg_setRegAt (size : Size) (i : RegIndex) (v : Word) : (s.setRegAt size i v).cfg = s.cfg := rfl
@[simp] theorem State.peers_setRegAt (size : Size) (i : RegIndex) (v : Word) : (s.setRegAt size i v).peers = s.peers := rfl
@[simp] theorem State.calls_setRegAt (size : Size) (i : RegIndex) (v : Word) : (s.setRegAt size i v).calls = s.calls := rfl
@[simp] theorem State.sys_setRegAt (size : Size) (i : RegIndex) (v : Word) : (s.setRegAt size i v).sys = s.sys := rfl
@[simp] theorem State.core_setRegAt (size : Size) (i : RegIndex) (v : Word) :
    (s.setRegAt size i v).core = { s.core with regs := s.core.regs.set i (mergeWidth size (s.reg i) v) } := rfl
@[simp] theorem State.ip_setRegAt (size : Size) (i : RegIndex) (v : Word) : (s.setRegAt size i v).ip = s.ip := rfl
@[simp] theorem State.flags_setRegAt (size : Size) (i : RegIndex) (v : Word) : (s.setRegAt size i v).flags = s.flags := rfl
@[simp] theorem State.cr_setRegAt (size : Size) (i : RegIndex) (v : Word) (k : BitVec 3) : (s.setRegAt size i v).cr k = s.cr k := rfl

/-! #### `State.setSp` -/

@[simp] theorem State.cfg_setSp (v : Word) : (s.setSp v).cfg = s.cfg := rfl
@[simp] theorem State.peers_setSp (v : Word) : (s.setSp v).peers = s.peers := rfl
@[simp] theorem State.calls_setSp (v : Word) : (s.setSp v).calls = s.calls := rfl
@[simp] theorem State.sys_setSp (v : Word) : (s.setSp v).sys = s.sys := rfl
@[simp] theorem State.core_setSp (v : Word) :
    (s.setSp v).core = { s.core with regs := s.core.regs.set spIndex v } := rfl
@[simp] theorem State.ip_setSp (v : Word) : (s.setSp v).ip = s.ip := rfl
@[simp] theorem State.flags_setSp (v : Word) : (s.setSp v).flags = s.flags := rfl
@[simp] theorem State.cr_setSp (v : Word) (k : BitVec 3) : (s.setSp v).cr k = s.cr k := rfl

/-! #### `State.setIp` -/

@[simp] theorem State.cfg_setIp (v : Word) : (s.setIp v).cfg = s.cfg := rfl
@[simp] theorem State.peers_setIp (v : Word) : (s.setIp v).peers = s.peers := rfl
@[simp] theorem State.calls_setIp (v : Word) : (s.setIp v).calls = s.calls := rfl
@[simp] theorem State.sys_setIp (v : Word) : (s.setIp v).sys = s.sys := rfl
@[simp] theorem State.core_setIp (v : Word) :
    (s.setIp v).core = { s.core with regs := { s.core.regs with ip := v } } := rfl
@[simp] theorem State.reg_setIp (v : Word) (j : RegIndex) : (s.setIp v).reg j = s.reg j := rfl
@[simp] theorem State.ip_setIp (v : Word) : (s.setIp v).ip = v := rfl
@[simp] theorem State.flags_setIp (v : Word) : (s.setIp v).flags = s.flags := rfl
@[simp] theorem State.cr_setIp (v : Word) (k : BitVec 3) : (s.setIp v).cr k = s.cr k := rfl

/-! #### `State.setFlags` -/

@[simp] theorem State.cfg_setFlags (f : Flags) : (s.setFlags f).cfg = s.cfg := rfl
@[simp] theorem State.peers_setFlags (f : Flags) : (s.setFlags f).peers = s.peers := rfl
@[simp] theorem State.calls_setFlags (f : Flags) : (s.setFlags f).calls = s.calls := rfl
@[simp] theorem State.sys_setFlags (f : Flags) : (s.setFlags f).sys = s.sys := rfl
@[simp] theorem State.core_setFlags (f : Flags) :
    (s.setFlags f).core = { s.core with regs := { s.core.regs with flags := f } } := rfl
@[simp] theorem State.reg_setFlags (f : Flags) (j : RegIndex) : (s.setFlags f).reg j = s.reg j := rfl
@[simp] theorem State.ip_setFlags (f : Flags) : (s.setFlags f).ip = s.ip := rfl
@[simp] theorem State.flags_setFlags (f : Flags) : (s.setFlags f).flags = f := rfl
@[simp] theorem State.cr_setFlags (f : Flags) (k : BitVec 3) : (s.setFlags f).cr k = s.cr k := rfl

/-! #### `State.setCr` -/

@[simp] theorem State.cfg_setCr (i : BitVec 3) (v : Word) : (s.setCr i v).cfg = s.cfg := rfl
@[simp] theorem State.peers_setCr (i : BitVec 3) (v : Word) : (s.setCr i v).peers = s.peers := rfl
@[simp] theorem State.calls_setCr (i : BitVec 3) (v : Word) : (s.setCr i v).calls = s.calls := rfl
@[simp] theorem State.sys_setCr (i : BitVec 3) (v : Word) : (s.setCr i v).sys = s.sys := rfl
@[simp] theorem State.core_setCr (i : BitVec 3) (v : Word) :
    (s.setCr i v).core = { s.core with regs := s.core.regs.setCr i v } := rfl
@[simp] theorem State.reg_setCr (i : BitVec 3) (v : Word) (j : RegIndex) : (s.setCr i v).reg j = s.reg j := rfl
@[simp] theorem State.ip_setCr (i : BitVec 3) (v : Word) : (s.setCr i v).ip = s.ip := rfl
@[simp] theorem State.flags_setCr (i : BitVec 3) (v : Word) : (s.setCr i v).flags = s.flags := rfl

/-! #### `State.halt` -/

@[simp] theorem State.cfg_halt : (s.halt).cfg = s.cfg := rfl
@[simp] theorem State.peers_halt : (s.halt).peers = s.peers := rfl
@[simp] theorem State.calls_halt : (s.halt).calls = s.calls := rfl
@[simp] theorem State.sys_halt : (s.halt).sys = s.sys := rfl
@[simp] theorem State.core_halt :
    (s.halt).core = { s.core with regs := { s.core.regs with flags := { s.core.regs.flags with h := true } } } := rfl
@[simp] theorem State.reg_halt (j : RegIndex) : (s.halt).reg j = s.reg j := rfl
@[simp] theorem State.ip_halt : (s.halt).ip = s.ip := rfl
@[simp] theorem State.flags_halt : s.halt.flags = { s.flags with h := true } := rfl
@[simp] theorem State.halted_halt : s.halt.halted = true := rfl
@[simp] theorem State.cr_halt (k : BitVec 3) : (s.halt).cr k = s.cr k := rfl

/-! #### `State.setSys` -/

@[simp] theorem State.cfg_setSys (y : MemSys) : (s.setSys y).cfg = s.cfg := rfl
@[simp] theorem State.peers_setSys (y : MemSys) : (s.setSys y).peers = s.peers := rfl
@[simp] theorem State.calls_setSys (y : MemSys) : (s.setSys y).calls = s.calls := rfl
@[simp] theorem State.sys_setSys (y : MemSys) : (s.setSys y).sys = y := rfl
@[simp] theorem State.core_setSys (y : MemSys) :
    (s.setSys y).core = s.core := rfl
@[simp] theorem State.reg_setSys (y : MemSys) (j : RegIndex) : (s.setSys y).reg j = s.reg j := rfl
@[simp] theorem State.ip_setSys (y : MemSys) : (s.setSys y).ip = s.ip := rfl
@[simp] theorem State.flags_setSys (y : MemSys) : (s.setSys y).flags = s.flags := rfl
@[simp] theorem State.cr_setSys (y : MemSys) (k : BitVec 3) : (s.setSys y).cr k = s.cr k := rfl

/-! #### `State.setExc` -/

@[simp] theorem State.cfg_setExc (b : ExcBlock) : (s.setExc b).cfg = s.cfg := rfl
@[simp] theorem State.peers_setExc (b : ExcBlock) : (s.setExc b).peers = s.peers := rfl
@[simp] theorem State.calls_setExc (b : ExcBlock) : (s.setExc b).calls = s.calls := rfl
@[simp] theorem State.sys_setExc (b : ExcBlock) : (s.setExc b).sys = s.sys := rfl
@[simp] theorem State.core_setExc (b : ExcBlock) :
    (s.setExc b).core = { s.core with exc := b } := rfl
@[simp] theorem State.reg_setExc (b : ExcBlock) (j : RegIndex) : (s.setExc b).reg j = s.reg j := rfl
@[simp] theorem State.ip_setExc (b : ExcBlock) : (s.setExc b).ip = s.ip := rfl
@[simp] theorem State.flags_setExc (b : ExcBlock) : (s.setExc b).flags = s.flags := rfl
@[simp] theorem State.cr_setExc (b : ExcBlock) (k : BitVec 3) : (s.setExc b).cr k = s.cr k := rfl

/-! #### `State.setIsrBlock` -/

@[simp] theorem State.cfg_setIsrBlock (i : Fin 8) (b : IsrBlock) : (s.setIsrBlock i b).cfg = s.cfg := rfl
@[simp] theorem State.peers_setIsrBlock (i : Fin 8) (b : IsrBlock) : (s.setIsrBlock i b).peers = s.peers := rfl
@[simp] theorem State.calls_setIsrBlock (i : Fin 8) (b : IsrBlock) : (s.setIsrBlock i b).calls = s.calls := rfl
@[simp] theorem State.sys_setIsrBlock (i : Fin 8) (b : IsrBlock) : (s.setIsrBlock i b).sys = s.sys := rfl
@[simp] theorem State.core_setIsrBlock (i : Fin 8) (b : IsrBlock) :
    (s.setIsrBlock i b).core = { s.core with isr := s.core.isr.set i b } := rfl
@[simp] theorem State.reg_setIsrBlock (i : Fin 8) (b : IsrBlock) (j : RegIndex) : (s.setIsrBlock i b).reg j = s.reg j := rfl
@[simp] theorem State.ip_setIsrBlock (i : Fin 8) (b : IsrBlock) : (s.setIsrBlock i b).ip = s.ip := rfl
@[simp] theorem State.flags_setIsrBlock (i : Fin 8) (b : IsrBlock) : (s.setIsrBlock i b).flags = s.flags := rfl
@[simp] theorem State.cr_setIsrBlock (i : Fin 8) (b : IsrBlock) (k : BitVec 3) : (s.setIsrBlock i b).cr k = s.cr k := rfl

/-! #### `State.latch` -/

@[simp] theorem State.cfg_latch (r : Record) (q : List Entry) : (s.latch r q).cfg = s.cfg := rfl
@[simp] theorem State.peers_latch (r : Record) (q : List Entry) : (s.latch r q).peers = s.peers := rfl
@[simp] theorem State.calls_latch (r : Record) (q : List Entry) : (s.latch r q).calls = s.calls := rfl
@[simp] theorem State.sys_latch (r : Record) (q : List Entry) : (s.latch r q).sys = s.sys := rfl
@[simp] theorem State.core_latch (r : Record) (q : List Entry) :
    (s.latch r q).core = { s.core with queue := q, exu := r } := rfl
@[simp] theorem State.reg_latch (r : Record) (q : List Entry) (j : RegIndex) : (s.latch r q).reg j = s.reg j := rfl
@[simp] theorem State.ip_latch (r : Record) (q : List Entry) : (s.latch r q).ip = s.ip := rfl
@[simp] theorem State.flags_latch (r : Record) (q : List Entry) : (s.latch r q).flags = s.flags := rfl
@[simp] theorem State.cr_latch (r : Record) (q : List Entry) (k : BitVec 3) : (s.latch r q).cr k = s.cr k := rfl

/-! #### `State.setSlot` -/

@[simp] theorem State.cfg_setSlot (j : Nat) (sl : Slot) : (s.setSlot j sl).cfg = s.cfg := rfl
@[simp] theorem State.peers_setSlot (j : Nat) (sl : Slot) : (s.setSlot j sl).peers = s.peers := rfl
@[simp] theorem State.calls_setSlot (j : Nat) (sl : Slot) : (s.setSlot j sl).calls = s.calls := rfl
@[simp] theorem State.sys_setSlot (j : Nat) (sl : Slot) : (s.setSlot j sl).sys = s.sys := rfl
@[simp] theorem State.core_setSlot (j : Nat) (sl : Slot) :
    (s.setSlot j sl).core = { s.core with slots := s.core.slots.set j sl } := rfl
@[simp] theorem State.reg_setSlot (k : Nat) (sl : Slot) (j : RegIndex) : (s.setSlot k sl).reg j = s.reg j := rfl
@[simp] theorem State.ip_setSlot (j : Nat) (sl : Slot) : (s.setSlot j sl).ip = s.ip := rfl
@[simp] theorem State.flags_setSlot (j : Nat) (sl : Slot) : (s.setSlot j sl).flags = s.flags := rfl
@[simp] theorem State.cr_setSlot (j : Nat) (sl : Slot) (k : BitVec 3) : (s.setSlot j sl).cr k = s.cr k := rfl

/-! #### `State.markTicked` -/

@[simp] theorem State.cfg_markTicked : (s.markTicked).cfg = s.cfg := rfl
@[simp] theorem State.peers_markTicked : (s.markTicked).peers = s.peers := rfl
@[simp] theorem State.calls_markTicked : (s.markTicked).calls = s.calls := rfl
@[simp] theorem State.sys_markTicked : (s.markTicked).sys = s.sys := rfl
@[simp] theorem State.core_markTicked :
    (s.markTicked).core = { s.core with ticked := true } := rfl
@[simp] theorem State.reg_markTicked (j : RegIndex) : (s.markTicked).reg j = s.reg j := rfl
@[simp] theorem State.ip_markTicked : (s.markTicked).ip = s.ip := rfl
@[simp] theorem State.flags_markTicked : (s.markTicked).flags = s.flags := rfl
@[simp] theorem State.cr_markTicked (k : BitVec 3) : (s.markTicked).cr k = s.cr k := rfl

/-! #### Reading a register back -/

theorem RegFile.get_set (r : RegFile) (i j : RegIndex) (v : Word) :
    (r.set i v).get j = if j = i then v else r.get j := by
  have hi : i.toNat < 16 := i.isLt
  have hj : j.toNat < 16 := j.isLt
  unfold RegFile.get RegFile.set
  by_cases h : j = i
  · subst h; simp
  · have : i.toNat ≠ j.toNat := fun e => h (BitVec.eq_of_toNat_eq e.symm)
    simp [h, this]

theorem RegFile.getCr_setCr (r : RegFile) (i j : BitVec 3) (v : Word) :
    (r.setCr i v).getCr j = if j = i then v else r.getCr j := by
  have hi : i.toNat < 8 := i.isLt
  have hj : j.toNat < 8 := j.isLt
  unfold RegFile.getCr RegFile.setCr
  by_cases h : j = i
  · subst h; simp
  · have : i.toNat ≠ j.toNat := fun e => h (BitVec.eq_of_toNat_eq e.symm)
    simp [h, this]

@[simp] theorem RegFile.get_set_self (r : RegFile) (i : RegIndex) (v : Word) :
    (r.set i v).get i = v := by simp [RegFile.get_set]

@[simp] theorem RegFile.getCr_set (r : RegFile) (i : RegIndex) (v : Word) (k : BitVec 3) :
    (r.set i v).getCr k = r.getCr k := rfl

@[simp] theorem RegFile.get_setCr (r : RegFile) (i : BitVec 3) (v : Word) (j : RegIndex) :
    (r.setCr i v).get j = r.get j := rfl

theorem State.reg_setReg (i j : RegIndex) (v : Word) :
    (s.setReg i v).reg j = if j = i then v else s.reg j := RegFile.get_set ..

@[simp] theorem State.reg_setReg_self (i : RegIndex) (v : Word) : (s.setReg i v).reg i = v := by
  simp [State.reg_setReg]

theorem State.reg_setRegAt (size : Size) (i j : RegIndex) (v : Word) :
    (s.setRegAt size i v).reg j = if j = i then mergeWidth size (s.reg i) v else s.reg j :=
  RegFile.get_set ..

theorem State.reg_setSp (j : RegIndex) (v : Word) :
    (s.setSp v).reg j = if j = spIndex then v else s.reg j := RegFile.get_set ..

@[simp] theorem State.sp_setSp (v : Word) : (s.setSp v).sp = v := by
  simp [State.sp, State.reg_setSp]

theorem State.cr_setCr (i k : BitVec 3) (v : Word) :
    (s.setCr i v).cr k = if k = i then v else s.cr k := RegFile.getCr_setCr ..

@[simp] theorem State.cr_setCr_self (i : BitVec 3) (v : Word) : (s.setCr i v).cr i = v := by
  simp [State.cr_setCr]

theorem State.isrBlock_setIsrBlock (i j : Fin 8) (b : IsrBlock) :
    (s.setIsrBlock i b).isrBlock j = if j = i then b else s.isrBlock j := by
  have e : (i.val = j.val) ↔ j = i := by omega
  simp only [State.isrBlock, State.setIsrBlock, Fin.getElem_fin, Vector.getElem_set, e]

/-- A byte reads the same where the configuration and the memory system are the same. -/
theorem State.byteAt_congr {s t : State} (hc : t.cfg = s.cfg) (hs : t.sys = s.sys) (x : Nat) :
    t.byteAt x = s.byteAt x := by simp [State.byteAt, hc, hs]

end Sys2Proof.Machine
end

