-- ==== Sys2Proof/Laws/Memory.lean ====
section
/-! SUPPORT. Backing storage: reading after writing, and the canonical form, which every write keeps. -/

namespace Sys2Proof.Machine

namespace Memory

theorem read_write_of_ne {x a : Nat} (m : Memory) (b : Byte) (h : x ≠ a) :
    (m.write a b).read x = m.read x := by
  induction m with
  | nil => by_cases hb : b = blank <;> simp [write, read, hb, Ne.symm h]
  | cons e m ih =>
    obtain ⟨k, c⟩ := e
    have hax : a ≠ x := Ne.symm h
    by_cases hk : a < k
    · by_cases hb : b = blank <;> simp [write, hk, hb, read, hax]
    · by_cases he : a = k
      · subst he
        by_cases hb : b = blank <;> simp [write, hb, read, hax]
      · simp [write, hk, he, read, ih]

theorem wfFrom_mono {lo lo' : Nat} {m : Memory} (h : wfFrom lo m = true) (hl : lo' ≤ lo) :
    wfFrom lo' m = true := by
  cases m with
  | nil => rfl
  | cons e m =>
    obtain ⟨k, c⟩ := e
    simp only [wfFrom, Bool.and_eq_true, decide_eq_true_eq] at h ⊢
    exact ⟨⟨by omega, h.1.2⟩, h.2⟩

theorem read_of_lt {lo x : Nat} {m : Memory} (h : wfFrom lo m = true) (hx : x < lo) :
    m.read x = blank := by
  induction m generalizing lo with
  | nil => rfl
  | cons e m ih =>
    obtain ⟨k, c⟩ := e
    simp only [wfFrom, Bool.and_eq_true, decide_eq_true_eq] at h
    have hk : k ≠ x := by omega
    simp [read, hk, ih h.2 (by omega)]

theorem read_write_same {lo a : Nat} {m : Memory} (b : Byte) (h : wfFrom lo m = true) :
    (m.write a b).read a = b := by
  induction m generalizing lo with
  | nil => by_cases hb : b = blank <;> simp [write, read, hb]
  | cons e m ih =>
    obtain ⟨k, c⟩ := e
    have h' := h
    simp only [wfFrom, Bool.and_eq_true, decide_eq_true_eq] at h
    by_cases hk : a < k
    · by_cases hb : b = blank
      · have : k ≠ a := by omega
        simp [write, hk, hb, read, this, read_of_lt h.2 (by omega : a < k + 1)]
      · simp [write, hk, hb, read]
    · by_cases he : a = k
      · subst he
        by_cases hb : b = blank
        · simp [write, hb, read_of_lt h.2 (by omega : a < a + 1)]
        · simp [write, hb, read]
      · simp [write, hk, he, read, Ne.symm he, ih h.2]

theorem wfFrom_write {lo a : Nat} {m : Memory} (b : Byte) (h : wfFrom lo m = true) (ha : lo ≤ a) :
    wfFrom lo (m.write a b) = true := by
  induction m generalizing lo with
  | nil => by_cases hb : b = blank <;> simp [write, wfFrom, hb, ha]
  | cons e m ih =>
    obtain ⟨k, c⟩ := e
    have h' := h
    simp only [wfFrom, Bool.and_eq_true, decide_eq_true_eq] at h
    by_cases hk : a < k
    · by_cases hb : b = blank
      · simpa [write, hk, hb] using h'
      · simp [write, hk, hb, wfFrom, ha, h.1.2, h.2]
    · by_cases he : a = k
      · subst he
        by_cases hb : b = blank
        · simpa [write, hb] using wfFrom_mono h.2 (by omega)
        · simp [write, hb, wfFrom, ha, h.2]
      · simp [write, hk, he, wfFrom, h.1.2, ih h.2 (by omega : k + 1 ≤ a)]; omega

theorem wf_write {a : Nat} {m : Memory} (b : Byte) (h : m.wf = true) : (m.write a b).wf = true :=
  wfFrom_write b h (Nat.zero_le a)

/-- What reading after a write of one byte gives. -/
theorem read_write {a x : Nat} {m : Memory} (b : Byte) (h : m.wf = true) :
    (m.write a b).read x = if x = a then b else m.read x := by
  by_cases e : x = a
  · subst e; simp [read_write_same b h]
  · simp [e, read_write_of_ne m b e]

theorem wf_writeRange {a : Nat} {m : Memory} (bs : List Byte) (h : m.wf = true) :
    (m.writeRange a bs).wf = true := by
  induction bs generalizing a m with
  | nil => exact h
  | cons b bs ih => exact ih (wf_write b h)

/-- What reading after a write of several bytes gives. -/
theorem read_writeRange {a x : Nat} {m : Memory} (bs : List Byte) (h : m.wf = true) :
    (m.writeRange a bs).read x =
      if a ≤ x ∧ x < a + bs.length then bs.getD (x - a) 0 else m.read x := by
  induction bs generalizing a m with
  | nil =>
    have : ¬ (a ≤ x ∧ x < a) := by omega
    simp [writeRange, this]
  | cons b bs ih =>
    rw [writeRange, ih (wf_write b h), read_write b h]
    by_cases h1 : x = a
    · subst h1; simp
    · by_cases h2 : a + 1 ≤ x ∧ x < a + 1 + bs.length
      · have h3 : a ≤ x ∧ x < a + (b :: bs).length := by simp; omega
        obtain ⟨d, rfl⟩ : ∃ d, x = a + 1 + d := ⟨x - (a + 1), by omega⟩
        have e1 : a + 1 + d - (a + 1) = d := by omega
        have e2 : a + 1 + d - a = d + 1 := by omega
        simp only [h2, h3, e1, e2, and_self, if_true]; rfl
      · have h3 : ¬ (a ≤ x ∧ x < a + (b :: bs).length) := by simp; omega
        simp only [h1, h2, h3, if_false]

@[simp] theorem length_readRange (m : Memory) (a n : Nat) : (m.readRange a n).length = n := by
  induction n generalizing a with
  | zero => rfl
  | succ n ih => simp [readRange, ih]

theorem getElem_readRange (m : Memory) (a n k : Nat) (h : k < (m.readRange a n).length) :
    (m.readRange a n)[k] = m.read (a + k) := by
  induction n generalizing a k with
  | zero => simp at h
  | succ n ih =>
    cases k with
    | zero => rfl
    | succ k =>
      have : a + 1 + k = a + (k + 1) := by omega
      simp [readRange, ih, this]

theorem getD_readRange (m : Memory) {a n k : Nat} (h : k < n) (d : Byte) :
    (m.readRange a n).getD k d = m.read (a + k) := by
  have hl : k < (m.readRange a n).length := by simpa using h
  rw [← getElem_readRange m a n k hl, List.getD_eq_getElem?_getD, List.getElem?_eq_getElem hl,
    Option.getD_some]

/-- Two stores agree on a range exactly where they agree on each of its bytes. -/
theorem readRange_congr {m m' : Memory} {a n : Nat} (h : ∀ k < n, m'.read (a + k) = m.read (a + k)) :
    m'.readRange a n = m.readRange a n := by
  apply List.ext_getElem (by simp)
  intro k hk _
  rw [getElem_readRange, getElem_readRange, h k (by simpa using hk)]

end Memory

end Sys2Proof.Machine
end

