-- ==== Sys2Proof/Laws/Lines.lean ====
section
/-! SUPPORT. The lines of the caches and the geometry of the regions (20_memory.md R61, R68, R80 to R82): a
line lies in one region, and `Use` changes ages only. -/

namespace Sys2Proof

open Machine

/-! ### Lines of a memory system -/

namespace Machine

theorem Line.holds_iff {ln : Line} {L : Nat} : ln.holds L = true ↔ ln.mesi ≠ .I ∧ ln.tag = L := by
  simp [Line.holds]

theorem Line.not_holds_invalid (a b L : Nat) : (Line.invalid a b).holds L = false := by
  simp [Line.holds, Line.invalid]

theorem MemSys.cache_setCache {sys : MemSys} {c i : Nat} {l : List Line} (h : c < sys.caches.length) :
    (sys.setCache c l).cache i = if i = c then l else sys.cache i := by
  unfold MemSys.setCache MemSys.cache
  by_cases e : i = c
  · subst e; simp [h]
  · simp [e, List.getD_eq_getElem?_getD, List.getElem?_set_ne (Ne.symm e)]

theorem MemSys.line_setCache {sys : MemSys} {c i k : Nat} {l : List Line} (h : c < sys.caches.length) :
    (sys.setCache c l).line i k = if i = c then l.getD k (Line.invalid 0 0) else sys.line i k := by
  unfold MemSys.line
  rw [MemSys.cache_setCache h]
  split <;> rfl

@[simp] theorem MemSys.mem_setCache (sys : MemSys) (c : Nat) (l : List Line) :
    (sys.setCache c l).mem = sys.mem := rfl

@[simp] theorem MemSys.hw_setCache (sys : MemSys) (c : Nat) (l : List Line) :
    (sys.setCache c l).hw = sys.hw := rfl

@[simp] theorem length_useLine (cache : List Line) (j : Nat) : (useLine cache j).length = cache.length := by
  simp [useLine]

/-- Two lines that differ in their ages at most. -/
def Line.Same (a b : Line) : Prop := a.mesi = b.mesi ∧ a.tag = b.tag ∧ a.data = b.data

theorem Line.Same.refl (a : Line) : a.Same a := ⟨rfl, rfl, rfl⟩

/-- `Use` changes ages only (R82). -/
theorem same_useLine (cache : List Line) (j k : Nat) :
    ((useLine cache j).getD k (Line.invalid 0 0)).Same (cache.getD k (Line.invalid 0 0)) := by
  unfold useLine
  simp only [List.getD_eq_getElem?_getD, List.getElem?_mapIdx]
  cases h : cache[k]? with
  | none => simp [Line.Same.refl]
  | some ln => by_cases e : k = j <;> simp [e, Line.Same]

end Machine

/-! ### The configuration -/

theorem Config.lineSize_pos {cfg : Config} (h : cfg.wf = true) : 0 < cfg.lineSize := by
  simp only [Config.wf, Config.lineSizeOk, Bool.and_eq_true, List.any_eq_true, decide_eq_true_eq] at h
  obtain ⟨k, -, -, hk⟩ := h.1.1.1.1.1.1.2
  rw [hk]; exact Nat.pow_pos (by decide)

theorem Config.numLines_pos {cfg : Config} (h : cfg.wf = true) : 0 < cfg.numLines := by
  simp only [Config.wf, Bool.and_eq_true, decide_eq_true_eq] at h
  exact h.1.1.1.1.1.2

theorem Config.lineAddr_le (cfg : Config) (x : Nat) : cfg.lineAddr x ≤ x := Nat.sub_le ..

theorem Config.sub_lineAddr (cfg : Config) (x : Nat) : x - cfg.lineAddr x = x % cfg.lineSize := by
  have := Nat.mod_le x cfg.lineSize
  simp only [Config.lineAddr]; omega

theorem Config.lineAddr_mod (cfg : Config) (x : Nat) : cfg.lineAddr x % cfg.lineSize = 0 := by
  have h := Nat.div_add_mod x cfg.lineSize
  have e : cfg.lineAddr x = cfg.lineSize * (x / cfg.lineSize) := by simp only [Config.lineAddr]; omega
  rw [e, Nat.mul_mod_right]

theorem Config.sub_lineAddr_lt {cfg : Config} (h : 0 < cfg.lineSize) (x : Nat) :
    x - cfg.lineAddr x < cfg.lineSize := by
  rw [Config.sub_lineAddr]; exact Nat.mod_lt _ h

/-- `x` is a byte of the line at the aligned address `L`. -/
theorem Config.lineAddr_eq_iff {cfg : Config} (h : 0 < cfg.lineSize) {x L : Nat}
    (hL : L % cfg.lineSize = 0) : cfg.lineAddr x = L ↔ L ≤ x ∧ x < L + cfg.lineSize := by
  constructor
  · rintro rfl
    have h1 := cfg.lineAddr_le x
    have h2 := cfg.sub_lineAddr_lt h x
    omega
  · rintro ⟨h1, h2⟩
    have e : x % cfg.lineSize = x - L := by
      obtain ⟨d, rfl⟩ : ∃ d, x = L + d := ⟨x - L, by omega⟩
      rw [Nat.add_mod, hL, Nat.zero_add, Nat.mod_mod, Nat.mod_eq_of_lt (by omega)]; omega
    simp only [Config.lineAddr, e]; omega

theorem Config.lookup_some {cfg : Config} {x : Nat} {r : Region} (h : cfg.lookup x = some r) :
    cfg.regions[x >>> 60]? = some (some r) ∧ r.start.toNat ≤ x ∧ x < r.stop.toNat := by
  unfold Config.lookup at h
  split at h
  · next r' hr =>
    split at h
    · next hb =>
      simp only [Option.some.injEq] at h
      subst h; exact ⟨hr, hb⟩
    · simp at h
  · simp at h

theorem Config.regionOk_of_lookup {cfg : Config} (hw : cfg.wf = true) {x : Nat} {r : Region}
    (h : cfg.lookup x = some r) : cfg.regionOk (x >>> 60) r = true := by
  obtain ⟨hr, -⟩ := Config.lookup_some h
  have hlt : x >>> 60 < 16 := by
    rcases Nat.lt_or_ge (x >>> 60) 16 with h' | h'
    · exact h'
    · simp [Vector.getElem?_eq_none (xs := cfg.regions) h'] at hr
  simp only [Config.wf, Config.regionsOk, Bool.and_eq_true, List.all_eq_true] at hw
  have := hw.1.1.1.1.1.1.1 _ (List.mem_range.2 hlt)
  rwa [hr] at this

/-- An address of a region's slot inside its range is the region's. -/
theorem Config.lookup_of_range {cfg : Config} {i y : Nat} {r : Region}
    (hok : cfg.regionOk i r = true) (hr : cfg.regions[i]? = some (some r)) (h1 : r.start.toNat ≤ y)
    (h2 : y < r.stop.toNat) : cfg.lookup y = some r := by
  simp only [Config.regionOk, Bool.and_eq_true, decide_eq_true_eq] at hok
  obtain ⟨⟨⟨-, hs⟩, he⟩, -⟩ := hok
  have e : y >>> 60 = i := by
    rw [Nat.shiftRight_eq_div_pow] at hs he ⊢
    have a := Nat.div_le_div_right (c := 2 ^ 60) h1
    have b := Nat.div_le_div_right (c := 2 ^ 60) (show y ≤ r.stop.toNat - 1 by omega)
    omega
  unfold Config.lookup
  rw [e, hr]
  simp [h1, h2]

/-- A line lies in one region: its bytes are cacheable together (R61). -/
theorem Config.cacheableAt_lineAddr {cfg : Config} (hw : cfg.wf = true) (x : Nat) :
    cfg.cacheableAt (cfg.lineAddr x) = cfg.cacheableAt x := by
  have hp := Config.lineSize_pos hw
  have aligned : ∀ {i : Nat} {r : Region}, cfg.regionOk i r = true → r.cacheable = true →
      r.start.toNat % cfg.lineSize = 0 ∧ r.stop.toNat % cfg.lineSize = 0 := by
    intro i r h hc
    simp only [Config.regionOk, hc, Bool.not_true, Bool.false_or, Bool.and_eq_true,
      decide_eq_true_eq] at h
    exact ⟨h.2.1.2, h.2.2⟩
  have key : ∀ {y z : Nat} {r : Region}, cfg.lookup y = some r → r.cacheable = true →
      cfg.lineAddr y = cfg.lineAddr z → cfg.lookup z = some r := by
    intro y z r h hc e
    have hok := Config.regionOk_of_lookup hw h
    obtain ⟨hr, h1, h2⟩ := Config.lookup_some h
    obtain ⟨ha, hb⟩ := aligned hok hc
    have hLy := (Config.lineAddr_eq_iff hp (cfg.lineAddr_mod y)).1 rfl
    have hLz := (Config.lineAddr_eq_iff hp (cfg.lineAddr_mod y)).1 e.symm
    have hLm := cfg.lineAddr_mod y
    refine Config.lookup_of_range hok hr ?_ ?_
    · -- the region's start is aligned, so it is at most the line's address
      have d1 := Nat.div_add_mod r.start.toNat cfg.lineSize
      have d2 := Nat.div_add_mod (cfg.lineAddr y) cfg.lineSize
      by_contra hlt
      have : r.start.toNat / cfg.lineSize < cfg.lineAddr y / cfg.lineSize + 1 := by
        rw [Nat.div_lt_iff_lt_mul hp, Nat.add_mul, Nat.mul_comm _ cfg.lineSize]; omega
      have : r.start.toNat / cfg.lineSize ≤ cfg.lineAddr y / cfg.lineSize := by omega
      have := Nat.mul_le_mul_left cfg.lineSize this
      omega
    · have d1 := Nat.div_add_mod r.stop.toNat cfg.lineSize
      have d2 := Nat.div_add_mod (cfg.lineAddr y) cfg.lineSize
      have : cfg.lineAddr y / cfg.lineSize < r.stop.toNat / cfg.lineSize := by
        rw [Nat.div_lt_iff_lt_mul hp, Nat.mul_comm]; omega
      have := Nat.mul_le_mul_left cfg.lineSize this
      rw [Nat.mul_succ] at this
      omega
  have idem : cfg.lineAddr (cfg.lineAddr x) = cfg.lineAddr x :=
    (Config.lineAddr_eq_iff hp (cfg.lineAddr_mod x)).2 ⟨Nat.le_refl _, by omega⟩
  unfold Config.cacheableAt
  cases hx : cfg.lookup x with
  | none =>
    cases hl : cfg.lookup (cfg.lineAddr x) with
    | none => rfl
    | some r =>
      cases hc : r.cacheable with
      | false => exact hc
      | true => rw [key hl hc idem] at hx; cases hx
  | some r =>
    cases hc : r.cacheable with
    | true => rw [key hx hc idem.symm]
    | false =>
      cases hl : cfg.lookup (cfg.lineAddr x) with
      | none => exact hc.symm
      | some r' =>
        cases hc' : r'.cacheable with
        | false => simp [hc, hc']
        | true =>
          rw [key hl hc' idem] at hx
          simp only [Option.some.injEq] at hx
          subst hx; simp [hc] at hc'

end Sys2Proof
end

