-- ==== Sys2Proof/Laws/Cache.lean ====
section
/-! SUPPORT. The caches (20_memory.md R80 to R92): what each operation of the cache controllers does to the
coherent view, and that it keeps the coherency invariant. -/

namespace Sys2Proof

open Machine

variable {cfg : Config} {sys sys' : MemSys}

/-! ### The coherent view -/

theorem mem_flatten_iff (h : cfg.CachesShaped sys) (ln : Line) :
    ln ∈ sys.caches.flatten ↔ ∃ i < cfg.numCores, ∃ k < cfg.numLines, sys.line i k = ln := by
  obtain ⟨h1, h2⟩ := h
  constructor
  · intro hm
    obtain ⟨cache, hc, hl⟩ := List.mem_flatten.1 hm
    obtain ⟨i, hi, rfl⟩ := List.mem_iff_getElem.1 hc
    obtain ⟨k, hk, rfl⟩ := List.mem_iff_getElem.1 hl
    have e : sys.cache i = sys.caches[i] := by simp [MemSys.cache, hi]
    have h3 := h2 i (h1 ▸ hi)
    rw [e] at h3
    exact ⟨i, h1 ▸ hi, k, h3 ▸ hk, by simp [MemSys.line, e, hk]⟩
  · rintro ⟨i, hi, k, hk, rfl⟩
    have hi' : i < sys.caches.length := h1 ▸ hi
    have e : sys.cache i = sys.caches[i] := by simp [MemSys.cache, hi']
    have hk' : k < (sys.caches[i]).length := by rw [← e, h2 i hi]; exact hk
    refine List.mem_flatten.2 ⟨sys.caches[i], List.getElem_mem hi', ?_⟩
    simp [MemSys.line, e, hk']

/-- A byte of a held line reads as the line has it (R92). -/
theorem coherentByte_of_holds (h : cfg.Coherent sys) (_hp : 0 < cfg.lineSize) {x i k : Nat}
    (hi : i < cfg.numCores) (hk : k < cfg.numLines)
    (hh : (sys.line i k).holds (cfg.lineAddr x) = true) :
    cfg.coherentByte sys x = (sys.line i k).data.getD (x - cfg.lineAddr x) 0 := by
  obtain ⟨-, hs, hl, he⟩ := h
  unfold Config.coherentByte
  cases hf : sys.caches.flatten.find? fun ln => ln.holds (cfg.lineAddr x) with
  | none =>
    rw [List.find?_eq_none] at hf
    exact absurd hh (hf _ ((mem_flatten_iff hs _).2 ⟨i, hi, k, hk, rfl⟩))
  | some ln =>
    obtain ⟨i', hi', k', hk', rfl⟩ := (mem_flatten_iff hs ln).1 (List.mem_of_find?_eq_some hf)
    have hh' := List.find?_some hf
    simp only [Line.holds_iff] at hh hh'
    rcases he i hi k hk i' hi' k' hk' hh.1 hh'.1 (hh.2.trans hh'.2.symm) with ⟨rfl, rfl⟩ | ⟨-, m1, m2⟩
    · rfl
    · have d1 := (hl i hi k hk hh.1).2.2.2 (by simp [m1])
      have d2 := (hl i' hi' k' hk' hh'.1).2.2.2 (by simp [m2])
      simp only [d1, d2, hh.2, hh'.2]

theorem coherentByte_of_not_holds (h : cfg.CachesShaped sys) {x : Nat}
    (hh : ∀ i < cfg.numCores, ∀ k < cfg.numLines, (sys.line i k).holds (cfg.lineAddr x) = false) :
    cfg.coherentByte sys x = sys.mem.read x := by
  unfold Config.coherentByte
  have : sys.caches.flatten.find? (fun ln => ln.holds (cfg.lineAddr x)) = none := by
    rw [List.find?_eq_none]
    intro ln hm
    obtain ⟨i, hi, k, hk, rfl⟩ := (mem_flatten_iff h ln).1 hm
    simp [hh i hi k hk]
  rw [this]

/-- A line in E or S agrees with RAM byte by byte. -/
theorem data_of_clean (h : cfg.Coherent sys) (hp : 0 < cfg.lineSize) {x i k : Nat}
    (hi : i < cfg.numCores) (hk : k < cfg.numLines)
    (hh : (sys.line i k).holds (cfg.lineAddr x) = true) (hm : (sys.line i k).mesi ≠ .M) :
    (sys.line i k).data.getD (x - cfg.lineAddr x) 0 = sys.mem.read x := by
  rw [Line.holds_iff] at hh
  rw [(h.2.2.1 i hi k hk hh.1).2.2.2 hm, hh.2, Memory.getD_readRange _ (cfg.sub_lineAddr_lt hp x)]
  congr 1
  have := cfg.lineAddr_le x
  omega

/-- The view of a byte: from the Modified line that holds it, else from RAM. -/
theorem coherentByte_cases (h : cfg.Coherent sys) (hp : 0 < cfg.lineSize) (x : Nat) :
    (∃ i < cfg.numCores, ∃ k < cfg.numLines, (sys.line i k).holds (cfg.lineAddr x) = true ∧
        (sys.line i k).mesi = .M ∧
        cfg.coherentByte sys x = (sys.line i k).data.getD (x - cfg.lineAddr x) 0) ∨
      ((∀ i < cfg.numCores, ∀ k < cfg.numLines, (sys.line i k).holds (cfg.lineAddr x) = true →
        (sys.line i k).mesi ≠ .M) ∧ cfg.coherentByte sys x = sys.mem.read x) := by
  by_cases hm : ∃ i < cfg.numCores, ∃ k < cfg.numLines, (sys.line i k).holds (cfg.lineAddr x) = true ∧
        (sys.line i k).mesi = .M
  · obtain ⟨i, hi, k, hk, hh, hmm⟩ := hm
    exact .inl ⟨i, hi, k, hk, hh, hmm, coherentByte_of_holds h hp hi hk hh⟩
  · have hno : ∀ i < cfg.numCores, ∀ k < cfg.numLines, (sys.line i k).holds (cfg.lineAddr x) = true →
        (sys.line i k).mesi ≠ .M := fun i hi k hk hh he => hm ⟨i, hi, k, hk, hh, he⟩
    refine .inr ⟨hno, ?_⟩
    by_cases hh : ∃ i < cfg.numCores, ∃ k < cfg.numLines,
        (sys.line i k).holds (cfg.lineAddr x) = true
    · obtain ⟨i, hi, k, hk, hh⟩ := hh
      rw [coherentByte_of_holds h hp hi hk hh, data_of_clean h hp hi hk hh (hno i hi k hk hh)]
    · refine coherentByte_of_not_holds h.2.1 fun i hi k hk => ?_
      by_contra hc
      exact hh ⟨i, hi, k, hk, by simpa using hc⟩

/-- A byte that no line holds Modified is RAM's. -/
theorem coherentByte_of_no_M (h : cfg.Coherent sys) (hp : 0 < cfg.lineSize) {x : Nat}
    (hn : ∀ i < cfg.numCores, ∀ k < cfg.numLines, (sys.line i k).holds (cfg.lineAddr x) = true →
        (sys.line i k).mesi ≠ .M) : cfg.coherentByte sys x = sys.mem.read x := by
  rcases coherentByte_cases h hp x with ⟨i, hi, k, hk, hh, hm, -⟩ | ⟨-, e⟩
  · exact absurd hm (hn i hi k hk hh)
  · exact e

/-- A byte outside the cacheable regions is in no line. -/
theorem coherentByte_uncached (h : cfg.Coherent sys) (hw : cfg.wf = true) {x : Nat}
    (hx : cfg.cacheableAt x = false) : cfg.coherentByte sys x = sys.mem.read x := by
  refine coherentByte_of_not_holds h.2.1 fun i hi k hk => ?_
  by_contra hc
  rw [Bool.not_eq_false, Line.holds_iff] at hc
  have := (h.2.2.1 i hi k hk hc.1).2.2.1
  rw [hc.2, Config.cacheableAt_lineAddr hw, hx] at this
  cases this

/-! ### Write-backs -/

/-- Backing storage `m` is `sys`'s, but for bytes that it has from the coherent view: what any number of
write-backs leaves. -/
def Config.Toward (cfg : Config) (sys : MemSys) (m : Memory) : Prop :=
  m.wf = true ∧ ∀ x, m.read x = sys.mem.read x ∨ m.read x = cfg.coherentByte sys x

theorem Config.Toward.refl (h : cfg.Coherent sys) : cfg.Toward sys sys.mem :=
  ⟨h.1, fun _ => .inl rfl⟩

/-- The bytes of a line have reached RAM. -/
def Config.Clean (cfg : Config) (m : Memory) (ln : Line) : Prop :=
  ln.mesi ≠ .I → ln.data = m.readRange ln.tag cfg.lineSize

theorem tag_lineAddr (h : cfg.Coherent sys) (hp : 0 < cfg.lineSize) {i k x : Nat}
    (hi : i < cfg.numCores) (hk : k < cfg.numLines) (hI : (sys.line i k).mesi ≠ .I) :
    (sys.line i k).holds (cfg.lineAddr x) = true ↔
      (sys.line i k).tag ≤ x ∧ x < (sys.line i k).tag + cfg.lineSize := by
  have ht := (h.2.2.1 i hi k hk hI).2.1
  rw [Line.holds_iff, ← Config.lineAddr_eq_iff hp ht]
  exact ⟨fun a => a.2.symm, fun a => ⟨hI, a.symm⟩⟩

/-- Writing back any line of `sys` keeps `Toward`, and cleans the line. -/
theorem Config.Toward.writeBack {m : Memory} (h : cfg.Coherent sys) (hp : 0 < cfg.lineSize)
    (ht : cfg.Toward sys m) {i k : Nat} (hi : i < cfg.numCores) (hk : k < cfg.numLines)
    (hI : (sys.line i k).mesi ≠ .I) :
    cfg.Toward sys (Machine.writeBack m (sys.line i k)) := by
  refine ⟨Memory.wf_writeRange _ ht.1, fun x => ?_⟩
  unfold Machine.writeBack
  rw [Memory.read_writeRange _ ht.1]
  have hlen := (h.2.2.1 i hi k hk hI).1
  split
  · next hx =>
    have hh := (tag_lineAddr (x := x) h hp hi hk hI).2 (by rw [← hlen]; exact hx)
    have htag := (Line.holds_iff.1 hh).2
    rw [coherentByte_of_holds h hp hi hk hh, ← htag]
    exact .inr rfl
  · exact ht.2 x

/-- Once every byte of a line reads as the coherent view, the line is clean. -/
theorem clean_of_read {m : Memory} (h : cfg.Coherent sys) (hp : 0 < cfg.lineSize) {i k : Nat}
    (hi : i < cfg.numCores) (hk : k < cfg.numLines)
    (hr : ∀ x, (sys.line i k).holds (cfg.lineAddr x) = true → m.read x = cfg.coherentByte sys x) :
    cfg.Clean m (sys.line i k) := by
  intro hI
  have hlen := (h.2.2.1 i hi k hk hI).1
  refine List.ext_getElem (by simp [hlen]) fun n h1 h2 => ?_
  rw [Memory.getElem_readRange]
  have hh := (tag_lineAddr (x := (sys.line i k).tag + n) h hp hi hk hI).2 (by omega)
  rw [hr _ hh, coherentByte_of_holds h hp hi hk hh, ← (Line.holds_iff.1 hh).2]
  simp [h1]

theorem Config.Toward.read_of_clean {m : Memory} (h : cfg.Coherent sys) (hp : 0 < cfg.lineSize)
    (ht : cfg.Toward sys m) {i k x : Nat} (hi : i < cfg.numCores) (hk : k < cfg.numLines)
    (hh : (sys.line i k).holds (cfg.lineAddr x) = true) (hm : (sys.line i k).mesi ≠ .M) :
    m.read x = cfg.coherentByte sys x := by
  rcases ht.2 x with e | e
  · rw [e, coherentByte_of_holds h hp hi hk hh, data_of_clean h hp hi hk hh hm]
  · exact e

/-- A line in E or S is clean, and stays so under write-backs. -/
theorem Config.Toward.clean_of_not_M {m : Memory} (h : cfg.Coherent sys) (hp : 0 < cfg.lineSize)
    (ht : cfg.Toward sys m) {i k : Nat} (hi : i < cfg.numCores) (hk : k < cfg.numLines)
    (hm : (sys.line i k).mesi ≠ .M) : cfg.Clean m (sys.line i k) :=
  clean_of_read h hp hi hk fun _ hh => ht.read_of_clean h hp hi hk hh hm

/-- A line just written back is clean. -/
theorem Config.Toward.clean_writeBack {m : Memory} (h : cfg.Coherent sys) (hp : 0 < cfg.lineSize)
    (ht : cfg.Toward sys m) {i k : Nat} (hi : i < cfg.numCores) (hk : k < cfg.numLines)
    (hI : (sys.line i k).mesi ≠ .I) :
    cfg.Clean (Machine.writeBack m (sys.line i k)) (sys.line i k) := by
  refine clean_of_read h hp hi hk fun x hh => ?_
  have hlen := (h.2.2.1 i hi k hk hI).1
  have hx := (tag_lineAddr h hp hi hk hI).1 hh
  unfold Machine.writeBack
  rw [Memory.read_writeRange _ ht.1, if_pos (by omega), coherentByte_of_holds h hp hi hk hh,
    (Line.holds_iff.1 hh).2]

/-- Replacing backing storage by what write-backs leave keeps the invariant and the view. -/
theorem Config.Toward.coherent {m : Memory} (h : cfg.Coherent sys) (hp : 0 < cfg.lineSize)
    (ht : cfg.Toward sys m) :
    cfg.Coherent { sys with mem := m } ∧
      ∀ x, cfg.coherentByte { sys with mem := m } x = cfg.coherentByte sys x := by
  have hc : cfg.Coherent { sys with mem := m } := by
    refine ⟨ht.1, h.2.1, fun i hi k hk hI => ?_, h.2.2.2⟩
    have a := h.2.2.1 i hi k hk hI
    exact ⟨a.1, a.2.1, a.2.2.1, fun hm => ht.clean_of_not_M h hp hi hk hm hI⟩
  refine ⟨hc, fun x => ?_⟩
  rcases coherentByte_cases hc hp x with ⟨i, hi, k, hk, hh, -, e⟩ | ⟨hn, e⟩
  · rw [e]; exact (coherentByte_of_holds h hp hi hk hh).symm
  · rw [e]
    rcases ht.2 x with e' | e'
    · exact e'.trans (coherentByte_of_no_M h hp hn).symm
    · exact e'

/-! ### Changing clean lines -/

/-- A line that holds what RAM holds, in state E or S, or nothing. -/
def Config.Fresh (cfg : Config) (m : Memory) (ln : Line) : Prop :=
  ln.mesi = .I ∨ (ln.mesi ≠ .M ∧ ln.tag % cfg.lineSize = 0 ∧ cfg.cacheableAt ln.tag = true ∧
    ln.data = m.readRange ln.tag cfg.lineSize)

/-- Where every line stays as it was, or a clean line becomes a fresh one, the invariant's lines stay sound
and the view stays as it was. -/
theorem coherent_of_fresh (h : cfg.Coherent sys) (hp : 0 < cfg.lineSize) (hmem : sys'.mem = sys.mem)
    (hs : cfg.CachesShaped sys')
    (hl : ∀ i < cfg.numCores, ∀ k < cfg.numLines, (sys'.line i k).Same (sys.line i k) ∨
      (cfg.Clean sys.mem (sys.line i k) ∧ cfg.Fresh sys.mem (sys'.line i k)))
    (he : cfg.Exclusive sys') :
    cfg.Coherent sys' ∧ ∀ x, cfg.coherentByte sys' x = cfg.coherentByte sys x := by
  have hc : cfg.Coherent sys' := by
    refine ⟨hmem ▸ h.1, hs, fun i hi k hk hI => ?_, he⟩
    rcases hl i hi k hk with ⟨a, b, c⟩ | ⟨-, hf⟩
    · rw [a] at hI
      have := h.2.2.1 i hi k hk hI
      rwa [hmem, a, b, c]
    · rcases hf with hf | ⟨h1, h2, h3, h4⟩
      · exact absurd hf hI
      · exact ⟨by rw [h4]; simp, h2, h3, fun _ => by rw [hmem]; exact h4⟩
  refine ⟨hc, fun x => ?_⟩
  rcases coherentByte_cases hc hp x with ⟨i, hi, k, hk, hh, hM, e⟩ | ⟨hn, e⟩
  · rcases hl i hi k hk with ⟨a, b, c⟩ | ⟨-, hf⟩
    · have hh' : (sys.line i k).holds (cfg.lineAddr x) = true := by
        rw [Line.holds_iff] at hh ⊢; rwa [← a, ← b]
      rw [e, coherentByte_of_holds h hp hi hk hh', c]
    · rcases hf with hf | hf
      · rw [hf] at hM; cases hM
      · exact absurd hM hf.1
  · rw [e, hmem]
    rcases coherentByte_cases h hp x with ⟨i, hi, k, hk, hh, hM, e'⟩ | ⟨-, e'⟩
    · rcases hl i hi k hk with ⟨a, b, c⟩ | ⟨hcl, -⟩
      · refine absurd (a.trans hM) (hn i hi k hk ?_)
        rw [Line.holds_iff] at hh ⊢; rwa [a, b]
      · have hh' := Line.holds_iff.1 hh
        rw [e', hcl hh'.1, hh'.2, Memory.getD_readRange _ (cfg.sub_lineAddr_lt hp x)]
        congr 1
        have := cfg.lineAddr_le x
        omega
    · exact e'.symm

/-! ### Snooping -/

theorem line_snoop {sys : MemSys} (c L : Nat) (st : Mesi) (m : Memory) (i k : Nat) :
    ({ sys with mem := m, caches := snoopCaches c L st sys.caches } : MemSys).line i k =
      if i ≠ c ∧ (sys.line i k).holds L = true then { sys.line i k with mesi := st }
      else sys.line i k := by
  unfold MemSys.line MemSys.cache snoopCaches
  simp only [List.getD_eq_getElem?_getD, List.getElem?_mapIdx]
  cases h : sys.caches[i]? with
  | none => simp [Line.not_holds_invalid]
  | some cache =>
    by_cases e : i = c
    · simp [e]
    · simp only [Option.map_some, Option.getD_some, e, if_false, List.getElem?_map, ne_eq,
        not_false_eq_true, true_and]
      cases cache[k]? with
      | none => simp [Line.not_holds_invalid]
      | some ln => simp

theorem shaped_snoop (h : cfg.CachesShaped sys) (c L : Nat) (st : Mesi) (m : Memory) :
    cfg.CachesShaped { sys with mem := m, caches := snoopCaches c L st sys.caches } := by
  refine ⟨by simpa [snoopCaches] using h.1, fun i hi => ?_⟩
  have := h.2 i hi
  have hi' : i < sys.caches.length := h.1 ▸ hi
  simp only [MemSys.cache, snoopCaches, List.getD_eq_getElem?_getD, List.getElem?_mapIdx,
    List.getElem?_eq_getElem hi', Option.map_some, Option.getD_some] at this ⊢
  split <;> simpa using this

/-- What the write-backs of one cache's lines leave. -/
theorem snoopMemLines_spec (h : cfg.Coherent sys) (hp : 0 < cfg.lineSize) (L : Nat) (cache : List Line)
    (hm : ∀ ln ∈ cache, ln ∈ sys.caches.flatten) (m : Memory) (ht : cfg.Toward sys m) :
    cfg.Toward sys (snoopMemLines L m cache) ∧
      (∀ x, m.read x = cfg.coherentByte sys x →
        (snoopMemLines L m cache).read x = cfg.coherentByte sys x) ∧
      ((∃ ln ∈ cache, ln.holds L = true ∧ ln.mesi = .M) →
        ∀ x, cfg.lineAddr x = L → (snoopMemLines L m cache).read x = cfg.coherentByte sys x) := by
  induction cache generalizing m with
  | nil => exact ⟨ht, fun _ => id, by simp⟩
  | cons ln rest ih =>
    obtain ⟨i, hi, k, hk, rfl⟩ := (mem_flatten_iff h.2.1 ln).1 (hm ln (by simp))
    have hrest : ∀ ln ∈ rest, ln ∈ sys.caches.flatten := fun ln hl => hm ln (by simp [hl])
    simp only [snoopMemLines]
    by_cases hw : (sys.line i k).holds L = true ∧ (sys.line i k).mesi = .M
    · have hI := (Line.holds_iff.1 hw.1).1
      have e : (if (sys.line i k).holds L = true then writeBackIfModified m (sys.line i k) else m) =
          writeBack m (sys.line i k) := by simp [hw.1, hw.2, writeBackIfModified]
      rw [e]
      have ht' := ht.writeBack h hp hi hk hI
      obtain ⟨a, b, -⟩ := ih hrest _ ht'
      have good : ∀ x, cfg.lineAddr x = L →
          (writeBack m (sys.line i k)).read x = cfg.coherentByte sys x := by
        intro x hx
        have hh : (sys.line i k).holds (cfg.lineAddr x) = true := by rw [hx]; exact hw.1
        have hc := ht.clean_writeBack h hp hi hk hI hI
        rw [coherentByte_of_holds h hp hi hk hh]
        conv => rhs; rw [hc]
        rw [Memory.getD_readRange _ (cfg.sub_lineAddr_lt hp x), (Line.holds_iff.1 hh).2]
        congr 1
        have := cfg.lineAddr_le x
        omega
      have keep : ∀ x, m.read x = cfg.coherentByte sys x →
          (writeBack m (sys.line i k)).read x = cfg.coherentByte sys x := by
        intro x hx
        by_cases hL : cfg.lineAddr x = L
        · exact good x hL
        · have hlen := (h.2.2.1 i hi k hk hI).1
          have hne : ¬ ((sys.line i k).tag ≤ x ∧ x < (sys.line i k).tag + (sys.line i k).data.length) := by
            rw [hlen, ← tag_lineAddr h hp hi hk hI, Line.holds_iff]
            rintro ⟨-, ht2⟩
            exact hL (ht2.symm.trans (Line.holds_iff.1 hw.1).2)
          unfold writeBack
          rw [Memory.read_writeRange _ ht.1, if_neg hne, hx]
      exact ⟨a, fun x hx => b x (keep x hx), fun _ x hx => b x (good x hx)⟩
    · have e : (if (sys.line i k).holds L = true then writeBackIfModified m (sys.line i k) else m) = m := by
        by_cases h1 : (sys.line i k).holds L = true
        · have h2 : (sys.line i k).mesi ≠ .M := fun h2 => hw ⟨h1, h2⟩
          simp [h1, h2, writeBackIfModified]
        · simp [h1]
      rw [e]
      obtain ⟨a, b, c⟩ := ih hrest m ht
      refine ⟨a, b, fun hex => c ?_⟩
      obtain ⟨ln, hl, hr⟩ := hex
      rcases List.mem_cons.1 hl with rfl | hl
      · exact absurd hr hw
      · exact ⟨ln, hl, hr⟩

/-- What the write-backs of a snoop leave (R85, R87). -/
theorem snoopMemCaches_spec (h : cfg.Coherent sys) (hp : 0 < cfg.lineSize) (c L n : Nat)
    (caches : List (List Line)) (hm : ∀ cache ∈ caches, ∀ ln ∈ cache, ln ∈ sys.caches.flatten) (m : Memory)
    (ht : cfg.Toward sys m) :
    cfg.Toward sys (snoopMemCaches c L n m caches) ∧
      (∀ x, m.read x = cfg.coherentByte sys x →
        (snoopMemCaches c L n m caches).read x = cfg.coherentByte sys x) ∧
      ∀ i, n + i ≠ c → (∃ ln ∈ caches.getD i [], ln.holds L = true ∧ ln.mesi = .M) →
        ∀ x, cfg.lineAddr x = L → (snoopMemCaches c L n m caches).read x = cfg.coherentByte sys x := by
  induction caches generalizing m n with
  | nil => exact ⟨ht, fun _ => id, by simp⟩
  | cons cache rest ih =>
    have hrest : ∀ cache ∈ rest, ∀ ln ∈ cache, ln ∈ sys.caches.flatten :=
      fun l hl => hm l (by simp [hl])
    simp only [snoopMemCaches]
    by_cases e : n = c
    · rw [if_pos e]
      obtain ⟨a, b, d⟩ := ih (n + 1) hrest m ht
      refine ⟨a, b, fun i hi hex => ?_⟩
      cases i with
      | zero => exact absurd e hi
      | succ i => exact d i (by omega) hex
    · rw [if_neg e]
      obtain ⟨a0, b0, d0⟩ := snoopMemLines_spec h hp L cache (hm cache (by simp)) m ht
      obtain ⟨a, b, d⟩ := ih (n + 1) hrest _ a0
      refine ⟨a, fun x hx => b x (b0 x hx), fun i hi hex => ?_⟩
      cases i with
      | zero => exact fun x hx => b x (d0 hex x hx)
      | succ i => exact d i (by omega) hex

/-- What a snoop leaves for a line address that the requester does not hold, or takes from every other
cache (R85, R87): the invariant, the view, the requester's lines, and no other holder out of state
`st`. -/
theorem snoop_spec (h : cfg.Coherent sys) (hp : 0 < cfg.lineSize) {c L : Nat} {st : Mesi}
    (hst : st = .I ∨ (st = .S ∧ ∀ k < cfg.numLines, (sys.line c k).holds L = false)) :
    let t : MemSys := { sys with
      mem := snoopMemCaches c L 0 sys.mem sys.caches, caches := snoopCaches c L st sys.caches }
    cfg.Coherent t ∧ (∀ x, cfg.coherentByte t x = cfg.coherentByte sys x) ∧
      cfg.Toward sys t.mem ∧ (∀ k, t.line c k = sys.line c k) ∧
      ∀ i, i ≠ c → ∀ k, (t.line i k).holds L = true → st = .S ∧ (t.line i k).mesi = .S ∧
        (sys.line i k).holds L = true := by
  intro t
  have hm : ∀ cache ∈ sys.caches, ∀ ln ∈ cache, ln ∈ sys.caches.flatten :=
    fun cache hc ln hl => List.mem_flatten.2 ⟨cache, hc, hl⟩
  obtain ⟨ht, -, hgood⟩ := snoopMemCaches_spec h hp c L 0 sys.caches hm sys.mem (.refl h)
  obtain ⟨hc1, hv1⟩ := ht.coherent h hp
  have hline : ∀ i k, t.line i k =
      if i ≠ c ∧ (sys.line i k).holds L = true then { sys.line i k with mesi := st }
      else sys.line i k := fun i k => line_snoop ..
  have hstM : st ≠ .M := by rcases hst with rfl | ⟨rfl, -⟩ <;> simp
  have hclean : ∀ i < cfg.numCores, ∀ k < cfg.numLines, i ≠ c → (sys.line i k).holds L = true →
      cfg.Clean t.mem (sys.line i k) := by
    intro i hi k hk hic hh
    by_cases hM : (sys.line i k).mesi = .M
    · refine clean_of_read h hp hi hk fun x hx => ?_
      refine hgood i (by omega) ⟨sys.line i k, ?_, hh, hM⟩ x ?_
      · have hk' : k < (sys.cache i).length := by rw [h.2.1.2 i hi]; exact hk
        have : sys.line i k = (sys.cache i)[k] := by simp [MemSys.line, hk']
        rw [this]; exact List.getElem_mem hk'
      · exact (Line.holds_iff.1 hx).2.symm.trans (Line.holds_iff.1 hh).2
    · exact ht.clean_of_not_M h hp hi hk hM
  have hexcl : cfg.Exclusive t := by
    intro i hi k hk i' hi' k' hk' h1 h2 h3
    simp only [hline] at h1 h2 h3 ⊢
    have key := h.2.2.2 i hi k hk i' hi' k' hk'
    by_cases a : i ≠ c ∧ (sys.line i k).holds L = true <;>
      by_cases b : i' ≠ c ∧ (sys.line i' k').holds L = true
    · rw [if_pos a] at h1 h3 ⊢; rw [if_pos b] at h2 h3 ⊢
      rcases hst with rfl | ⟨rfl, -⟩
      · simp at h1
      · rcases key (Line.holds_iff.1 a.2).1 (Line.holds_iff.1 b.2).1 h3 with hh | hh
        · exact .inl hh
        · exact .inr ⟨hh.1, rfl, rfl⟩
    · rw [if_pos a] at h1 h3 ⊢; rw [if_neg b] at h2 h3 ⊢
      rcases hst with rfl | ⟨rfl, hno⟩
      · simp at h1
      · have hb : (sys.line i' k').holds L = true :=
          Line.holds_iff.2 ⟨h2, h3.symm.trans (Line.holds_iff.1 a.2).2⟩
        have : i' = c := by by_contra hc; exact b ⟨hc, hb⟩
        subst this
        rw [hno k' hk'] at hb; cases hb
    · rw [if_neg a] at h1 h3 ⊢; rw [if_pos b] at h2 h3 ⊢
      rcases hst with rfl | ⟨rfl, hno⟩
      · simp at h2
      · have hb : (sys.line i k).holds L = true :=
          Line.holds_iff.2 ⟨h1, h3.trans (Line.holds_iff.1 b.2).2⟩
        have : i = c := by by_contra hc; exact a ⟨hc, hb⟩
        subst this
        rw [hno k hk] at hb; cases hb
    · rw [if_neg a] at h1 h3 ⊢; rw [if_neg b] at h2 h3 ⊢
      exact key h1 h2 h3
  obtain ⟨hc2, hv2⟩ := coherent_of_fresh (sys' := t) hc1 hp rfl (shaped_snoop h.2.1 ..)
    (fun i hi k hk => by
      rw [hline]
      split
      · next a =>
        refine .inr ⟨hclean i hi k hk a.1 a.2, ?_⟩
        have hI := (Line.holds_iff.1 a.2).1
        have hs := h.2.2.1 i hi k hk hI
        rcases hst with rfl | ⟨rfl, -⟩
        · exact .inl rfl
        · exact .inr ⟨by simp, hs.2.1, hs.2.2.1, hclean i hi k hk a.1 a.2 hI⟩
      · exact .inl (Line.Same.refl _)) hexcl
  refine ⟨hc2, fun x => (hv2 x).trans (hv1 x), ht, fun k => by simp [hline], fun i hi k hh => ?_⟩
  rw [hline] at hh ⊢
  split at hh
  · next a =>
    rw [if_pos a]
    rcases hst with rfl | ⟨rfl, -⟩
    · simp [Line.holds] at hh
    · exact ⟨rfl, rfl, a.2⟩
  · next a => exact absurd ⟨hi, hh⟩ a

/-- What `BusRd` of a line address that the requester does not hold leaves (R85). -/
theorem busRd_spec (h : cfg.Coherent sys) (hp : 0 < cfg.lineSize) {c L : Nat}
    (hno : ∀ k < cfg.numLines, (sys.line c k).holds L = false) :
    cfg.Coherent (busRd c L sys) ∧ (∀ x, cfg.coherentByte (busRd c L sys) x = cfg.coherentByte sys x) ∧
      cfg.Toward sys (busRd c L sys).mem ∧ (∀ k, (busRd c L sys).line c k = sys.line c k) ∧
      ∀ i, i ≠ c → ∀ k, ((busRd c L sys).line i k).holds L = true →
        ((busRd c L sys).line i k).mesi = .S ∧ (sys.line i k).holds L = true := by
  obtain ⟨a, b, d, e, f⟩ := snoop_spec (st := .S) h hp (.inr ⟨rfl, hno⟩)
  exact ⟨a, b, d, e, fun i hi k hh => (f i hi k hh).2⟩

/-- What `BusWr` leaves (R87): no other cache holds the line address. -/
theorem busWr_spec (h : cfg.Coherent sys) (hp : 0 < cfg.lineSize) (c L : Nat) :
    cfg.Coherent (busWr c L sys) ∧ (∀ x, cfg.coherentByte (busWr c L sys) x = cfg.coherentByte sys x) ∧
      ∀ i, i ≠ c → ∀ k, ((busWr c L sys).line i k).holds L = false := by
  obtain ⟨a, b, -, -, f⟩ := snoop_spec (c := c) (L := L) (st := .I) h hp (.inl rfl)
  refine ⟨a, b, fun i hi k => ?_⟩
  by_contra hh
  have := (f i hi k (Bool.not_eq_false _ ▸ hh)).1
  cases this

/-! ### Allocation and fills -/

theorem oldestFrom_lt (i best age : Nat) (cache : List Line) (hb : best < i + cache.length) :
    oldestFrom i best age cache < i + cache.length := by
  induction cache generalizing i best age with
  | nil => simpa [oldestFrom] using hb
  | cons ln rest ih =>
    simp only [oldestFrom, List.length_cons] at hb ⊢
    split
    · have := ih (i + 1) i ln.age (by omega); omega
    · have := ih (i + 1) best age (by omega); omega

theorem victim_lt {cache : List Line} (h : 0 < cache.length) : victim cache < cache.length := by
  unfold victim
  cases hf : cache.findIdx? fun ln => decide (ln.mesi = .I) with
  | some j =>
    have := List.findIdx?_eq_some_iff_getElem.1 hf
    exact this.1
  | none =>
    cases cache with
    | nil => simp at h
    | cons ln rest =>
      have := oldestFrom_lt 1 0 ln.age rest (by omega)
      simp only [Option.getD_none, oldest, List.length_cons]; omega

/-- What `Allocate` leaves (R83): the invariant, the view, and a victim whose bytes are in RAM. -/
theorem evict_spec (h : cfg.Coherent sys) (hp : 0 < cfg.lineSize) (hn : 0 < cfg.numLines) {c : Nat}
    (hc : c < cfg.numCores) :
    cfg.Coherent (evict c sys) ∧
      (∀ x, cfg.coherentByte (evict c sys) x = cfg.coherentByte sys x) ∧
      (evict c sys).caches = sys.caches ∧ (evict c sys).hw = sys.hw ∧
      victim (sys.cache c) < cfg.numLines ∧
      cfg.Clean (evict c sys).mem (sys.line c (victim (sys.cache c))) := by
  have hlen := h.2.1.2 c hc
  have hv : victim (sys.cache c) < (sys.cache c).length := victim_lt (by omega)
  have hv' : victim (sys.cache c) < cfg.numLines := by omega
  have hget : (sys.cache c)[victim (sys.cache c)]? = some (sys.line c (victim (sys.cache c))) := by
    simp [MemSys.line, hv]
  have e : evict c sys =
      { sys with mem := writeBackIfModified sys.mem (sys.line c (victim (sys.cache c))) } := by
    unfold evict; rw [hget]
  rw [e]
  by_cases hM : (sys.line c (victim (sys.cache c))).mesi = .M
  · have hI : (sys.line c (victim (sys.cache c))).mesi ≠ .I := by simp [hM]
    have ht := (Config.Toward.refl h).writeBack h hp hc hv' hI
    have := ht.coherent h hp
    simp only [writeBackIfModified, hM, if_true]
    exact ⟨this.1, this.2, trivial, trivial, hv', (Config.Toward.refl h).clean_writeBack h hp hc hv' hI⟩
  · simp only [writeBackIfModified, hM, if_false]
    exact ⟨h, fun _ => trivial, trivial, trivial, hv',
      (Config.Toward.refl h).clean_of_not_M h hp hc hv' hM⟩

theorem Config.Clean.toward {m : Memory} (h : cfg.Coherent sys) (hp : 0 < cfg.lineSize) {i k : Nat}
    (hi : i < cfg.numCores) (hk : k < cfg.numLines) (hcl : cfg.Clean sys.mem (sys.line i k))
    (ht : cfg.Toward sys m) : cfg.Clean m (sys.line i k) := by
  refine clean_of_read h hp hi hk fun x hh => ?_
  rcases ht.2 x with e | e
  · rw [e, coherentByte_of_holds h hp hi hk hh, hcl (Line.holds_iff.1 hh).1, (Line.holds_iff.1 hh).2,
      Memory.getD_readRange _ (cfg.sub_lineAddr_lt hp x)]
    congr 1
    have := cfg.lineAddr_le x
    omega
  · exact e

theorem line_fillLine (hs : cfg.CachesShaped sys) {c j : Nat} (hc : c < cfg.numCores)
    (hj : j < cfg.numLines) (ln : Line) (i k : Nat) :
    ((fillLine c j ln sys).line i k).Same (if i = c ∧ k = j then ln else sys.line i k) := by
  have hc' : c < sys.caches.length := hs.1 ▸ hc
  have hj' : j < (sys.cache c).length := by rw [hs.2 c hc]; exact hj
  unfold fillLine
  rw [MemSys.line_setCache hc']
  by_cases e : i = c
  · subst e
    rw [if_pos rfl]
    have := same_useLine ((sys.cache i).set j ln) j k
    by_cases ek : k = j
    · subst ek
      simpa [hj'] using this
    · simpa [ek, Ne.symm ek, List.getD_eq_getElem?_getD, List.getElem?_set_ne (Ne.symm ek),
        MemSys.line] using this
  · simp [e, Line.Same.refl]

theorem shaped_fillLine (hs : cfg.CachesShaped sys) {c j : Nat} (hc : c < cfg.numCores) (ln : Line) :
    cfg.CachesShaped (fillLine c j ln sys) := by
  have hc' : c < sys.caches.length := hs.1 ▸ hc
  refine ⟨by simpa [fillLine, MemSys.setCache] using hs.1, fun i hi => ?_⟩
  unfold fillLine
  rw [MemSys.cache_setCache hc']
  split
  · simpa using hs.2 c hc
  · exact hs.2 i hi

@[simp] theorem hw_fillLine (c j : Nat) (ln : Line) (sys : MemSys) : (fillLine c j ln sys).hw = sys.hw := rfl

@[simp] theorem mem_fillLine (c j : Nat) (ln : Line) (sys : MemSys) :
    (fillLine c j ln sys).mem = sys.mem := rfl

theorem Machine.Line.Same.holds {a b : Line} (h : a.Same b) (L : Nat) : a.holds L = b.holds L := by
  simp [Line.holds, h.1, h.2.1]

/-- A hit only changes ages (R82, R84). -/
theorem use_spec (h : cfg.Coherent sys) (hp : 0 < cfg.lineSize) {c j : Nat} (hc : c < cfg.numCores) :
    let t := sys.setCache c (useLine (sys.cache c) j)
    cfg.Coherent t ∧ (∀ x, cfg.coherentByte t x = cfg.coherentByte sys x) ∧
      ∀ i k, (t.line i k).Same (sys.line i k) := by
  intro t
  have hc' : c < sys.caches.length := h.2.1.1 ▸ hc
  have hl : ∀ i k, (t.line i k).Same (sys.line i k) := by
    intro i k
    rw [MemSys.line_setCache hc']
    split
    · next e => subst e; exact same_useLine ..
    · exact .refl _
  have hs : cfg.CachesShaped t := by
    refine ⟨by simpa [t, MemSys.setCache] using h.2.1.1, fun i hi => ?_⟩
    rw [MemSys.cache_setCache hc']
    split
    · simpa using h.2.1.2 c hc
    · exact h.2.1.2 i hi
  have := coherent_of_fresh (sys' := t) h hp rfl hs (fun i _ k _ => .inl (hl i k)) (by
    intro i hi k hk i' hi' k' hk' h1 h2 h3
    have a := hl i k
    have b := hl i' k'
    rw [a.1, b.1]
    rw [a.1] at h1; rw [b.1] at h2; rw [a.2.1, b.2.1] at h3
    exact h.2.2.2 i hi k hk i' hi' k' hk' h1 h2 h3)
  exact ⟨this.1, this.2, hl⟩

/-- What a fill with a fresh line leaves, where the line it replaces is clean and the other holders of the
address, if any, are other cores' lines in S. -/
theorem fill_spec (h : cfg.Coherent sys) (hp : 0 < cfg.lineSize) {c j : Nat} (hc : c < cfg.numCores)
    (hj : j < cfg.numLines) {ln : Line} (hcl : cfg.Clean sys.mem (sys.line c j))
    (hf : cfg.Fresh sys.mem ln)
    (ho : ∀ i < cfg.numCores, ∀ k < cfg.numLines, ¬ (i = c ∧ k = j) →
      (sys.line i k).holds ln.tag = true → i ≠ c ∧ ln.mesi = .S ∧ (sys.line i k).mesi = .S) :
    cfg.Coherent (fillLine c j ln sys) ∧
      ∀ x, cfg.coherentByte (fillLine c j ln sys) x = cfg.coherentByte sys x := by
  have hl := line_fillLine h.2.1 hc hj ln
  refine coherent_of_fresh h hp rfl (shaped_fillLine h.2.1 hc ln) (fun i hi k hk => ?_) ?_
  · have a := hl i k
    by_cases e : i = c ∧ k = j
    · rw [if_pos e] at a
      refine .inr ⟨by rw [e.1, e.2]; exact hcl, ?_⟩
      rcases hf with hf | hf
      · exact .inl (a.1.trans hf)
      · right
        rw [a.1, a.2.1, a.2.2]
        exact hf
    · rw [if_neg e] at a; exact .inl a
  · intro i hi k hk i' hi' k' hk' h1 h2 h3
    have a := hl i k
    have b := hl i' k'
    rw [a.1, b.1]
    rw [a.1] at h1; rw [b.1] at h2; rw [a.2.1, b.2.1] at h3
    by_cases e : i = c ∧ k = j <;> by_cases e' : i' = c ∧ k' = j
    · exact .inl ⟨e.1.trans e'.1.symm, e.2.trans e'.2.symm⟩
    · rw [if_pos e] at h1 h3 ⊢; rw [if_neg e'] at h2 h3 ⊢
      have := ho i' hi' k' hk' e' (Line.holds_iff.2 ⟨h2, h3.symm⟩)
      exact .inr ⟨fun x => this.1 (x ▸ e.1), this.2⟩
    · rw [if_neg e] at h1 h3 ⊢; rw [if_pos e'] at h2 h3 ⊢
      have := ho i hi k hk e (Line.holds_iff.2 ⟨h1, h3⟩)
      exact .inr ⟨fun x => this.1 (x.trans e'.1), this.2.2, this.2.1⟩
    · rw [if_neg e] at h1 h3 ⊢; rw [if_neg e'] at h2 h3 ⊢
      exact h.2.2.2 i hi k hk i' hi' k' hk' h1 h2 h3

theorem otherHolder_of_holds (hs : cfg.CachesShaped sys) {c L i k : Nat} (hi : i < cfg.numCores)
    (hk : k < cfg.numLines) (hic : i ≠ c) (hh : (sys.line i k).holds L = true) :
    otherHolder c L sys.caches = true := by
  have hi' : i < sys.caches.length := hs.1 ▸ hi
  have hk' : k < (sys.cache i).length := by rw [hs.2 i hi]; exact hk
  have e : sys.cache i = sys.caches[i] := by simp [MemSys.cache, hi']
  unfold otherHolder
  rw [List.any_eq_true]
  refine ⟨true, ?_, rfl⟩
  rw [List.mem_iff_getElem]
  refine ⟨i, by simpa using hi', ?_⟩
  simp only [List.getElem_mapIdx, hic, ne_eq, not_false_eq_true, decide_true, Bool.true_and,
    List.any_eq_true]
  refine ⟨sys.line i k, ?_, hh⟩
  have : sys.line i k = (sys.cache i)[k] := by simp [MemSys.line, hk']
  rw [this, ← e]; exact List.getElem_mem hk'

theorem findHolder_some {cache : List Line} {L j : Nat} (h : findHolder cache L = some j) :
    j < cache.length ∧ (cache.getD j (Line.invalid 0 0)).holds L = true := by
  have := List.findIdx?_eq_some_iff_getElem.1 h
  obtain ⟨hj, hh, -⟩ := this
  exact ⟨hj, by simpa [hj] using hh⟩

theorem findHolder_none {cache : List Line} {L : Nat} (h : findHolder cache L = none) (k : Nat) :
    (cache.getD k (Line.invalid 0 0)).holds L = false := by
  unfold findHolder at h
  rw [List.findIdx?_eq_none_iff] at h
  by_cases hk : k < cache.length
  · simpa [hk] using h _ (List.getElem_mem hk)
  · simp [List.getD_eq_getElem?_getD, hk, Line.not_holds_invalid]

/-- What a read miss leaves (R84): the invariant, the view, and a line of the requester that holds the
address. -/
theorem cacheMiss_spec (h : cfg.Coherent sys) (hp : 0 < cfg.lineSize) (hn : 0 < cfg.numLines) {c L : Nat}
    (hc : c < cfg.numCores) (hL : L % cfg.lineSize = 0) (hca : cfg.cacheableAt L = true)
    (hno : ∀ k, (sys.line c k).holds L = false) :
    cfg.Coherent (cfg.cacheMiss c L sys) ∧
      (∀ x, cfg.coherentByte (cfg.cacheMiss c L sys) x = cfg.coherentByte sys x) ∧
      (cfg.cacheMiss c L sys).hw = sys.hw ∧
      ∃ j < cfg.numLines, ((cfg.cacheMiss c L sys).line c j).holds L = true := by
  obtain ⟨h1, v1, ec, ehw, hv, hcl⟩ := evict_spec h hp hn hc
  have eline : ∀ i k, (evict c sys).line i k = sys.line i k := by
    intro i k; simp [MemSys.line, MemSys.cache, ec]
  have hno1 : ∀ k < cfg.numLines, ((evict c sys).line c k).holds L = false := fun k _ => by
    rw [eline]; exact hno k
  obtain ⟨h2, v2, ht, hlc, hlo⟩ := busRd_spec (c := c) (L := L) h1 hp hno1
  have hcl2 : cfg.Clean (busRd c L (evict c sys)).mem
      ((busRd c L (evict c sys)).line c (victim (sys.cache c))) := by
    have : (busRd c L (evict c sys)).line c (victim (sys.cache c)) =
        (evict c sys).line c (victim (sys.cache c)) := hlc _
    rw [this]
    refine Config.Clean.toward h1 hp hc hv ?_ ht
    rw [eline]; exact hcl
  have hres := fill_spec (c := c) (j := victim (sys.cache c))
    (ln := { mesi := if otherHolder c L (evict c sys).caches then .S else .E, age := 0, tag := L,
             data := (busRd c L (evict c sys)).mem.readRange L cfg.lineSize })
    h2 hp hc hv hcl2 (.inr ⟨by split <;> simp, hL, hca, rfl⟩) (by
      intro i hi k hk hne hh
      by_cases hic : i = c
      · subst hic
        have : (busRd i L (evict i sys)).line i k = (evict i sys).line i k := hlc k
        rw [this, hno1 k hk] at hh; cases hh
      · obtain ⟨a, b⟩ := hlo i hic k hh
        have := otherHolder_of_holds h1.2.1 hi hk hic b
        exact ⟨hic, by simp [this], a⟩)
  refine ⟨hres.1, fun x => (hres.2 x).trans ((v2 x).trans (v1 x)), ehw, victim (sys.cache c), hv, ?_⟩
  have hs := line_fillLine h2.2.1 hc hv
    { mesi := if otherHolder c L (evict c sys).caches then .S else .E, age := 0, tag := L,
      data := (busRd c L (evict c sys)).mem.readRange L cfg.lineSize } c (victim (sys.cache c))
  rw [if_pos (⟨rfl, rfl⟩ : c = c ∧ victim (sys.cache c) = victim (sys.cache c))] at hs
  refine (hs.holds L).trans (Line.holds_iff.2 ⟨?_, rfl⟩)
  dsimp only
  split <;> simp

/-- What `CacheRead` answers and leaves (R84, R92): the coherent bytes, the invariant and the view. -/
theorem cacheRead_spec (h : cfg.Coherent sys) (hp : 0 < cfg.lineSize) (hn : 0 < cfg.numLines)
    {c pa len : Nat} (hc : c < cfg.numCores) (hca : cfg.cacheableAt (cfg.lineAddr pa) = true)
    (hlen : pa + len ≤ cfg.lineAddr pa + cfg.lineSize) :
    (cfg.cacheRead c pa len sys).1 = (List.range len).map (fun k => cfg.coherentByte sys (pa + k)) ∧
      cfg.Coherent (cfg.cacheRead c pa len sys).2 ∧
      (∀ x, cfg.coherentByte (cfg.cacheRead c pa len sys).2 x = cfg.coherentByte sys x) ∧
      (cfg.cacheRead c pa len sys).2.hw = sys.hw := by
  have hLm := cfg.lineAddr_mod pa
  have hLle := cfg.lineAddr_le pa
  have main : ∀ t : MemSys, cfg.Coherent t → (∀ x, cfg.coherentByte t x = cfg.coherentByte sys x) →
      (∃ j < cfg.numLines, (t.line c j).holds (cfg.lineAddr pa) = true) →
      heldBytes c (cfg.lineAddr pa) (pa - cfg.lineAddr pa) len t =
        (List.range len).map (fun k => cfg.coherentByte sys (pa + k)) := by
    rintro t ht hv ⟨j, hj, hh⟩
    have hj' : j < (t.cache c).length := by rw [ht.2.1.2 c hc]; exact hj
    have hmem : t.line c j ∈ t.cache c := by
      have : t.line c j = (t.cache c)[j] := by simp [MemSys.line, hj']
      rw [this]; exact List.getElem_mem hj'
    unfold heldBytes
    cases hf : (t.cache c).find? fun ln => ln.holds (cfg.lineAddr pa) with
    | none => rw [List.find?_eq_none] at hf; exact absurd hh (hf _ hmem)
    | some ln =>
      obtain ⟨k, hk, rfl⟩ := List.mem_iff_getElem.1 (List.mem_of_find?_eq_some hf)
      have hk' : k < cfg.numLines := by rw [← ht.2.1.2 c hc]; exact hk
      have hl : t.line c k = (t.cache c)[k] := by simp [MemSys.line, hk]
      have hhk := List.find?_some hf
      rw [← hl] at hhk ⊢
      have hdl := (ht.2.2.1 c hc k hk' (Line.holds_iff.1 hhk).1).1
      simp only
      refine List.ext_getElem (by simp [hdl]; omega) fun n h1 h2 => ?_
      simp only [List.length_take, List.length_drop, hdl] at h1
      have ea : cfg.lineAddr (pa + n) = cfg.lineAddr pa :=
        (Config.lineAddr_eq_iff hp hLm).2 ⟨by omega, by omega⟩
      have hb := coherentByte_of_holds (x := pa + n) ht hp hc hk' (by rw [ea]; exact hhk)
      have e2 : pa + n - cfg.lineAddr pa = pa - cfg.lineAddr pa + n := by omega
      have hlt : pa - cfg.lineAddr pa + n < (t.line c k).data.length := by omega
      rw [ea, hv, e2] at hb
      simp [hb, hlt]
  cases hf : findHolder (sys.cache c) (cfg.lineAddr pa) with
  | some j =>
    obtain ⟨hj, hh⟩ := findHolder_some hf
    obtain ⟨a, b, hl⟩ := use_spec (j := j) h hp hc
    have hj' : j < cfg.numLines := by rw [← h.2.1.2 c hc]; exact hj
    simp only [Config.cacheRead, hf]
    refine ⟨main _ a b ⟨j, hj', ?_⟩, a, b, rfl⟩
    rw [(hl c j).holds]; exact hh
  | none =>
    obtain ⟨a, b, e, hex⟩ := cacheMiss_spec h hp hn hc hLm hca fun k => findHolder_none hf k
    simp only [Config.cacheRead, hf]
    exact ⟨main _ a b hex, a, b, e⟩

/-! ### Cache writes -/

theorem length_patch {data bs : List Byte} {off : Nat} (h : off + bs.length ≤ data.length) :
    (patch data off bs).length = data.length := by
  simp [patch]; omega

theorem getD_patch {data bs : List Byte} {off n : Nat} (h : off + bs.length ≤ data.length) :
    (patch data off bs).getD n 0 =
      if off ≤ n ∧ n < off + bs.length then bs.getD (n - off) 0 else data.getD n 0 := by
  have ho : (data.take off).length = off := by simp; omega
  unfold patch
  simp only [List.getD_eq_getElem?_getD]
  by_cases h1 : n < off
  · have : ¬ (off ≤ n ∧ n < off + bs.length) := by omega
    rw [if_neg this, List.append_assoc, List.getElem?_append_left (by omega)]
    simp [h1]
  · by_cases h2 : n < off + bs.length
    · rw [if_pos ⟨by omega, h2⟩, List.getElem?_append_left (by simp; omega),
        List.getElem?_append_right (by omega), ho]
    · have : ¬ (off ≤ n ∧ n < off + bs.length) := by omega
      rw [if_neg this, List.getElem?_append_right (by simp; omega)]
      simp only [List.length_append, ho, List.getElem?_drop]
      congr 2
      omega

/-- What making one line Modified leaves, where no other line holds its address and the line it replaces
held it or is clean. -/
theorem modify_spec (h : cfg.Coherent sys) (hp : 0 < cfg.lineSize) {c j : Nat} (hc : c < cfg.numCores)
    (hj : j < cfg.numLines) {ln : Line} (hM : ln.mesi = .M) (hlen : ln.data.length = cfg.lineSize)
    (ht : ln.tag % cfg.lineSize = 0) (hca : cfg.cacheableAt ln.tag = true)
    (hcl : (sys.line c j).holds ln.tag = true ∨ cfg.Clean sys.mem (sys.line c j))
    (ho : ∀ i < cfg.numCores, ∀ k < cfg.numLines, ¬ (i = c ∧ k = j) →
      (sys.line i k).holds ln.tag = false) :
    cfg.Coherent (fillLine c j ln sys) ∧
      ∀ x, cfg.coherentByte (fillLine c j ln sys) x =
        if cfg.lineAddr x = ln.tag then ln.data.getD (x - ln.tag) 0 else cfg.coherentByte sys x := by
  have hl := line_fillLine h.2.1 hc hj ln
  have hco : cfg.Coherent (fillLine c j ln sys) := by
    refine ⟨h.1, shaped_fillLine h.2.1 hc ln, fun i hi k hk hI => ?_, ?_⟩
    · have a := hl i k
      by_cases e : i = c ∧ k = j
      · rw [if_pos e] at a
        rw [a.1, a.2.1, a.2.2]
        exact ⟨hlen, ht, hca, fun hne => absurd hM hne⟩
      · rw [if_neg e] at a
        rw [a.1] at hI
        have := h.2.2.1 i hi k hk hI
        rwa [mem_fillLine, a.1, a.2.1, a.2.2]
    · intro i hi k hk i' hi' k' hk' h1 h2 h3
      have a := hl i k
      have b := hl i' k'
      rw [a.1, b.1]
      rw [a.1] at h1; rw [b.1] at h2; rw [a.2.1, b.2.1] at h3
      by_cases e : i = c ∧ k = j <;> by_cases e' : i' = c ∧ k' = j
      · exact .inl ⟨e.1.trans e'.1.symm, e.2.trans e'.2.symm⟩
      · rw [if_pos e] at h3; rw [if_neg e'] at h2 h3
        have := ho i' hi' k' hk' e'
        rw [Line.holds_iff.2 ⟨h2, h3.symm⟩] at this; cases this
      · rw [if_neg e] at h1 h3; rw [if_pos e'] at h3
        have := ho i hi k hk e
        rw [Line.holds_iff.2 ⟨h1, h3⟩] at this; cases this
      · rw [if_neg e] at h1 h3 ⊢; rw [if_neg e'] at h2 h3 ⊢
        exact h.2.2.2 i hi k hk i' hi' k' hk' h1 h2 h3
  refine ⟨hco, fun x => ?_⟩
  have hcj := hl c j
  rw [if_pos ⟨rfl, rfl⟩] at hcj
  split
  · next e =>
    have hh : ((fillLine c j ln sys).line c j).holds (cfg.lineAddr x) = true := by
      rw [hcj.holds, e, Line.holds_iff]; exact ⟨by simp [hM], rfl⟩
    rw [coherentByte_of_holds hco hp hc hj hh, hcj.2.2, e]
  · next e =>
    have hlines : ∀ i k, ((fillLine c j ln sys).line i k).holds (cfg.lineAddr x) = true →
        ¬ (i = c ∧ k = j) ∧ ((fillLine c j ln sys).line i k).Same (sys.line i k) := by
      intro i k hh
      have a := hl i k
      by_cases e' : i = c ∧ k = j
      · rw [if_pos e'] at a
        rw [a.holds, Line.holds_iff] at hh
        exact absurd hh.2.symm e
      · rw [if_neg e'] at a; exact ⟨e', a⟩
    rcases coherentByte_cases hco hp x with ⟨i, hi, k, hk, hh, -, e1⟩ | ⟨hn, e1⟩
    · obtain ⟨-, a⟩ := hlines i k hh
      rw [e1, coherentByte_of_holds h hp hi hk (by rw [← a.holds]; exact hh), a.2.2]
    · rw [e1, mem_fillLine]
      rcases coherentByte_cases h hp x with ⟨i, hi, k, hk, hh, hm, e2⟩ | ⟨-, e2⟩
      · by_cases e' : i = c ∧ k = j
        · obtain ⟨rfl, rfl⟩ := e'
          rcases hcl with hcl | hcl
          · exact absurd ((Line.holds_iff.1 hh).2.symm.trans (Line.holds_iff.1 hcl).2) e
          · rw [e2, hcl (Line.holds_iff.1 hh).1, (Line.holds_iff.1 hh).2,
              Memory.getD_readRange _ (cfg.sub_lineAddr_lt hp x)]
            congr 1
            have := cfg.lineAddr_le x
            omega
        · have a := hl i k
          rw [if_neg e'] at a
          exact absurd (a.1.trans hm) (hn i hi k hk (by rw [a.holds]; exact hh))
      · exact e2.symm

/-- What `CacheWrite` leaves (R86, R92): the invariant, and the view with the written bytes in it. -/
theorem cacheWrite_spec (h : cfg.Coherent sys) (hp : 0 < cfg.lineSize) (hn : 0 < cfg.numLines)
    {c pa : Nat} {bs : List Byte} (hc : c < cfg.numCores)
    (hca : cfg.cacheableAt (cfg.lineAddr pa) = true)
    (hlen : pa + bs.length ≤ cfg.lineAddr pa + cfg.lineSize) :
    cfg.Coherent (cfg.cacheWrite c pa bs sys) ∧
      (∀ x, cfg.coherentByte (cfg.cacheWrite c pa bs sys) x =
        if pa ≤ x ∧ x < pa + bs.length then bs.getD (x - pa) 0 else cfg.coherentByte sys x) ∧
      (cfg.cacheWrite c pa bs sys).hw = sys.hw := by
  have hLm := cfg.lineAddr_mod pa
  have hLle := cfg.lineAddr_le pa
  obtain ⟨h1, v1, ho1⟩ := busWr_spec h hp c (cfg.lineAddr pa)
  -- the view once a line with `data` patched is in place
  have view : ∀ (data : List Byte), data.length = cfg.lineSize →
      (∀ x, cfg.lineAddr x = cfg.lineAddr pa →
        data.getD (x - cfg.lineAddr pa) 0 = cfg.coherentByte sys x) → ∀ x,
      (if cfg.lineAddr x = cfg.lineAddr pa then
          (patch data (pa - cfg.lineAddr pa) bs).getD (x - cfg.lineAddr pa) 0
        else cfg.coherentByte sys x) =
      if pa ≤ x ∧ x < pa + bs.length then bs.getD (x - pa) 0 else cfg.coherentByte sys x := by
    intro data hd hv x
    have hpl : pa - cfg.lineAddr pa + bs.length ≤ data.length := by omega
    by_cases e : cfg.lineAddr x = cfg.lineAddr pa
    · rw [if_pos e, getD_patch hpl]
      have hx := (Config.lineAddr_eq_iff hp hLm).1 e
      by_cases hr : pa ≤ x ∧ x < pa + bs.length
      · rw [if_pos (by omega), if_pos hr]
        congr 1; omega
      · rw [if_neg (by omega), if_neg hr, hv x e]
    · rw [if_neg e, if_neg]
      intro hr
      exact e ((Config.lineAddr_eq_iff hp hLm).2 ⟨by omega, by omega⟩)
  unfold Config.cacheWrite
  simp only
  cases hf : findHolder ((busWr c (cfg.lineAddr pa) sys).cache c) (cfg.lineAddr pa) with
  | some j =>
    obtain ⟨hj, hh⟩ := findHolder_some hf
    have hj' : j < cfg.numLines := by rw [← h1.2.1.2 c hc]; exact hj
    have hget : ((busWr c (cfg.lineAddr pa) sys).cache c)[j]? =
        some ((busWr c (cfg.lineAddr pa) sys).line c j) := by simp [MemSys.line, hj]
    simp only [hget]
    change ((busWr c (cfg.lineAddr pa) sys).line c j).holds (cfg.lineAddr pa) = true at hh
    have hI := Line.holds_iff.1 hh
    have hs := h1.2.2.1 c hc j hj' hI.1
    have res := modify_spec (c := c) (j := j)
      (ln := { (busWr c (cfg.lineAddr pa) sys).line c j with
        mesi := .M, data := patch ((busWr c (cfg.lineAddr pa) sys).line c j).data (pa - cfg.lineAddr pa) bs })
      h1 hp hc hj' rfl (by rw [length_patch (by omega)]; exact hs.1) hs.2.1 hs.2.2.1
      (.inl (by rw [hI.2]; exact hh)) (by
        intro i hi k hk hne
        rw [hI.2]
        by_cases hic : i = c
        · subst hic
          by_contra hcon
          have hh' : ((busWr i (cfg.lineAddr pa) sys).line i k).holds (cfg.lineAddr pa) = true := by
            simpa using hcon
          rcases h1.2.2.2 i hi k hk i hi j hj' (Line.holds_iff.1 hh').1 hI.1
            ((Line.holds_iff.1 hh').2.trans hI.2.symm) with ⟨-, rfl⟩ | ⟨hne', -⟩
          · exact hne ⟨rfl, rfl⟩
          · exact hne' rfl
        · exact ho1 i hic k)
    refine ⟨res.1, fun x => ?_, rfl⟩
    rw [res.2 x]
    simp only [hI.2]
    refine Eq.trans ?_ (view _ hs.1 (fun y hy => ?_) x)
    · rw [v1 x]
    · rw [← v1 y, coherentByte_of_holds (x := y) h1 hp hc hj' (by rw [hy]; exact hh), hy]
  | none =>
    have hno : ∀ k, ((busWr c (cfg.lineAddr pa) sys).line c k).holds (cfg.lineAddr pa) = false :=
      fun k => findHolder_none hf k
    obtain ⟨h2, v2, ec, ehw, hv, hcl⟩ := evict_spec h1 hp hn hc
    have eline : ∀ i k, (evict c (busWr c (cfg.lineAddr pa) sys)).line i k =
        (busWr c (cfg.lineAddr pa) sys).line i k := by
      intro i k; simp [MemSys.line, MemSys.cache, ec]
    have hnone : ∀ i k, ((evict c (busWr c (cfg.lineAddr pa) sys)).line i k).holds (cfg.lineAddr pa) =
        false := by
      intro i k
      rw [eline]
      by_cases hic : i = c
      · subst hic; exact hno k
      · exact ho1 i hic k
    have res := modify_spec (c := c) (j := victim ((busWr c (cfg.lineAddr pa) sys).cache c))
      (ln := ⟨.M, 0, cfg.lineAddr pa,
        patch ((evict c (busWr c (cfg.lineAddr pa) sys)).mem.readRange (cfg.lineAddr pa) cfg.lineSize)
          (pa - cfg.lineAddr pa) bs⟩)
      h2 hp hc hv rfl (by rw [length_patch (by simp; omega)]; simp) hLm hca
      (.inr (by rw [eline]; exact hcl)) (fun i _ k _ _ => hnone i k)
    refine ⟨res.1, fun x => ?_, ehw⟩
    rw [res.2 x, v2 x, v1 x]
    refine view ((evict c (busWr c (cfg.lineAddr pa) sys)).mem.readRange (cfg.lineAddr pa) cfg.lineSize)
      (Memory.length_readRange ..) (fun y hy => ?_) x
    · rw [← v1 y, ← v2 y, coherentByte_of_not_holds h2.2.1 fun i _ k _ => by rw [hy]; exact hnone i k]
      have hlt := cfg.sub_lineAddr_lt hp y
      rw [hy] at hlt
      rw [Memory.getD_readRange _ hlt]
      congr 1
      have := cfg.lineAddr_le y
      omega

end Sys2Proof
end

