-- ==== Sys2Proof/Laws/Mmu.lean ====
section
/-! SUPPORT. The MMU (20_memory.md R66 to R73): the pieces of an access cover it, and what a read and a write
answer and leave in the coherent view. -/

namespace Sys2Proof

open Machine

variable {cfg : Config} {sys : MemSys}

/-! ### Pieces -/

/-- `ps` cuts `[a, a + n)` into consecutive pieces, each inside one line or one byte long (R68). -/
def Config.Cuts (cfg : Config) : (a n : Nat) → List (Nat × Nat) → Prop
  | _, n, [] => n = 0
  | a, n, p :: ps =>
    p.1 = a ∧ 1 ≤ p.2 ∧ p.2 ≤ n ∧
      (cfg.cacheableAt a = true → a + p.2 ≤ cfg.lineAddr a + cfg.lineSize) ∧
      (cfg.cacheableAt a = false → p.2 = 1) ∧ cfg.Cuts (a + p.2) (n - p.2) ps

theorem cuts_piecesFrom (hw : cfg.wf = true) (fuel a n : Nat) (hf : n ≤ fuel) :
    cfg.Cuts a n (cfg.piecesFrom fuel a n) := by
  have hp := Config.lineSize_pos hw
  induction fuel generalizing a n with
  | zero => simp [Config.piecesFrom, Config.Cuts]; omega
  | succ fuel ih =>
    by_cases h0 : n = 0
    · simp [Config.piecesFrom, Config.Cuts, h0]
    · simp only [Config.piecesFrom, h0, if_false, Config.Cuts, true_and]
      have hmod := Nat.mod_lt a hp
      have hla := cfg.sub_lineAddr a
      have hle := cfg.lineAddr_le a
      have key : 1 ≤ cfg.pieceLength a n ∧ cfg.pieceLength a n ≤ n ∧
          (cfg.cacheableAt a = true → a + cfg.pieceLength a n ≤ cfg.lineAddr a + cfg.lineSize) ∧
          (cfg.cacheableAt a = false → cfg.pieceLength a n = 1) := by
        unfold Config.pieceLength Config.cacheableAt
        cases hl : cfg.lookup a with
        | none => simp; omega
        | some r =>
          have := (Config.lookup_some hl).2
          cases hc : r.cacheable with
          | false => simp [hc]; omega
          | true => simp only [hc, if_true]; refine ⟨by omega, by omega, fun _ => by omega, by simp⟩
      exact ⟨key.1, key.2.1, key.2.2.1, key.2.2.2, ih _ _ (by omega)⟩

/-- The pieces of an access cut it (R68). -/
theorem cuts_pieces (hw : cfg.wf = true) (a n : Nat) : cfg.Cuts a n (cfg.pieces a n) :=
  cuts_piecesFrom hw n a n (Nat.le_refl n)

/-- A cacheable byte is not the hardware bus's (R64). -/
theorem onHardwareBus_of_cacheable (hw : cfg.wf = true) {x : Nat} (h : cfg.cacheableAt x = true) :
    cfg.onHardwareBus x = false := by
  unfold Config.cacheableAt at h
  unfold Config.onHardwareBus
  cases hl : cfg.lookup x with
  | none => rfl
  | some r =>
    rw [hl] at h
    have hok := Config.regionOk_of_lookup hw hl
    simp only [Config.regionOk, h, Bool.not_true, Bool.false_or, Bool.and_eq_true,
      decide_eq_true_eq] at hok
    simp [hok.2.1.1]

/-! ### One piece -/

/-- The coherent view does not see the history of the hardware bus. -/
theorem coherent_hw (h : cfg.Coherent sys) (hw : List HwEvent) :
    cfg.Coherent { sys with hw := hw } ∧
      ∀ x, cfg.coherentByte { sys with hw := hw } x = cfg.coherentByte sys x := ⟨h, fun _ => rfl⟩

/-- A byte written to backing storage outside the cacheable regions (R70). -/
theorem coherent_memWrite (h : cfg.Coherent sys) (hw : cfg.wf = true) {a : Nat} {b : Byte}
    (ha : cfg.cacheableAt a = false) :
    cfg.Coherent { sys with mem := sys.mem.write a b } ∧
      ∀ x, cfg.coherentByte { sys with mem := sys.mem.write a b } x =
        if x = a then b else cfg.coherentByte sys x := by
  have hp := Config.lineSize_pos hw
  have hne : ∀ {x : Nat}, cfg.cacheableAt x = true → x ≠ a := by
    rintro x hx rfl; rw [hx] at ha; cases ha
  have hco : cfg.Coherent { sys with mem := sys.mem.write a b } := by
    refine ⟨Memory.wf_write b h.1, h.2.1, fun i hi k hk hI => ?_, h.2.2.2⟩
    have hs := h.2.2.1 i hi k hk hI
    refine ⟨hs.1, hs.2.1, hs.2.2.1, fun hm => ?_⟩
    refine (hs.2.2.2 hm).trans (Memory.readRange_congr fun n hn => ?_).symm
    refine Memory.read_write_of_ne _ _ (hne ?_)
    have e : cfg.lineAddr ((sys.line i k).tag + n) = (sys.line i k).tag :=
      (Config.lineAddr_eq_iff hp hs.2.1).2 ⟨by omega, by omega⟩
    rw [← Config.cacheableAt_lineAddr hw, e]
    exact hs.2.2.1
  refine ⟨hco, fun x => ?_⟩
  cases hx : cfg.cacheableAt x with
  | false =>
    rw [coherentByte_uncached hco hw hx, coherentByte_uncached h hw hx]
    exact Memory.read_write b h.1
  | true =>
    rw [if_neg (hne hx)]
    rcases coherentByte_cases hco hp x with ⟨i, hi, k, hk, hh, -, e⟩ | ⟨hn, e⟩
    · rw [e]; exact (coherentByte_of_holds h hp hi hk hh).symm
    · rw [e, coherentByte_of_no_M h hp hn]
      exact Memory.read_write_of_ne _ _ (hne hx)

/-- What one piece of a read answers and leaves (R69, R70, R73). -/
theorem readPiece_spec (h : cfg.Coherent sys) (hw : cfg.wf = true) {c a len : Nat}
    (hc : c < cfg.numCores) (h1 : cfg.cacheableAt a = true → a + len ≤ cfg.lineAddr a + cfg.lineSize)
    (h2 : cfg.cacheableAt a = false → len = 1) :
    (cfg.readPiece c a len sys).1.length = len ∧
      (∀ k < len, cfg.onHardwareBus (a + k) = false →
        (cfg.readPiece c a len sys).1.getD k 0 = cfg.coherentByte sys (a + k)) ∧
      cfg.Coherent (cfg.readPiece c a len sys).2 ∧
      (∀ x, cfg.coherentByte (cfg.readPiece c a len sys).2 x = cfg.coherentByte sys x) ∧
      ((∀ k < len, cfg.onHardwareBus (a + k) = false) → (cfg.readPiece c a len sys).2.hw = sys.hw) := by
  have hp := Config.lineSize_pos hw
  have hn := Config.numLines_pos hw
  cases hca : cfg.cacheableAt a with
  | true =>
    have := cacheRead_spec (pa := a) (len := len) h hp hn hc
      (by rw [Config.cacheableAt_lineAddr hw]; exact hca) (h1 hca)
    simp only [Config.readPiece, hca, if_true]
    refine ⟨by rw [this.1]; simp, fun k hk _ => ?_, this.2.1, this.2.2.1, fun _ => this.2.2.2⟩
    rw [this.1]
    simp [hk]
  | false =>
    obtain rfl := h2 hca
    simp only [Config.readPiece, hca, Config.busReadByte]
    cases hb : cfg.onHardwareBus a with
    | true =>
      refine ⟨rfl, fun k hk hf => ?_, h, fun _ => rfl, fun hf => ?_⟩
      · have : k = 0 := by omega
        subst this; rw [Nat.add_zero, hb] at hf; cases hf
      · have := hf 0 (by omega); rw [Nat.add_zero, hb] at this; cases this
    | false =>
      refine ⟨rfl, fun k hk _ => ?_, h, fun _ => rfl, fun _ => rfl⟩
      have : k = 0 := by omega
      subst this
      simpa using (coherentByte_uncached h hw hca).symm

/-- What one piece of a write leaves (R69, R70, R73). -/
theorem writePiece_spec (h : cfg.Coherent sys) (hw : cfg.wf = true) {c a : Nat} {bs : List Byte}
    (hc : c < cfg.numCores)
    (h1 : cfg.cacheableAt a = true → a + bs.length ≤ cfg.lineAddr a + cfg.lineSize)
    (h2 : cfg.cacheableAt a = false → bs.length = 1) :
    cfg.Coherent (cfg.writePiece c a bs sys) ∧
      ∀ x, cfg.coherentByte (cfg.writePiece c a bs sys) x =
        if a ≤ x ∧ x < a + bs.length ∧ cfg.onHardwareBus x = false then bs.getD (x - a) 0
        else cfg.coherentByte sys x := by
  have hp := Config.lineSize_pos hw
  have hn := Config.numLines_pos hw
  cases hca : cfg.cacheableAt a with
  | true =>
    have := cacheWrite_spec (pa := a) (bs := bs) h hp hn hc
      (by rw [Config.cacheableAt_lineAddr hw]; exact hca) (h1 hca)
    simp only [Config.writePiece, hca, if_true]
    refine ⟨this.1, fun x => ?_⟩
    rw [this.2.1 x]
    by_cases hx : a ≤ x ∧ x < a + bs.length
    · have hxl : cfg.lineAddr x = cfg.lineAddr a := by
        have := h1 hca
        have := cfg.lineAddr_le a
        exact (Config.lineAddr_eq_iff hp (cfg.lineAddr_mod a)).2 ⟨by omega, by omega⟩
      have hcx : cfg.cacheableAt x = true := by
        rw [← Config.cacheableAt_lineAddr hw, hxl, Config.cacheableAt_lineAddr hw]; exact hca
      rw [if_pos hx, if_pos ⟨hx.1, hx.2, onHardwareBus_of_cacheable hw hcx⟩]
    · rw [if_neg hx, if_neg fun hh => hx ⟨hh.1, hh.2.1⟩]
  | false =>
    have hl := h2 hca
    obtain ⟨b, rfl⟩ := List.length_eq_one_iff.1 hl
    simp only [Config.writePiece, hca, Config.busWriteByte, List.headD_cons]
    cases hb : cfg.onHardwareBus a with
    | true =>
      refine ⟨h, fun x => ?_⟩
      have hx : ¬ (a ≤ x ∧ x < a + [b].length ∧ cfg.onHardwareBus x = false) := by
        rintro ⟨u, v, w⟩
        have : x = a := by simp at v; omega
        subst this; rw [hb] at w; cases w
      rw [if_neg hx]; rfl
    | false =>
      have := coherent_memWrite (b := b) h hw hca
      refine ⟨this.1, fun x => ?_⟩
      refine (this.2 x).trans ?_
      by_cases hx : x = a
      · subst hx; simp [hb]
      · rw [if_neg hx, if_neg]
        rintro ⟨u, v, -⟩; simp at v; omega

/-! ### The hardware bus -/

/-- The operations of two runs of bytes are those of the first, then those of the second (R68). -/
theorem hwEvents_append (op : Nat → Byte → HwEvent) (a : Nat) (xs ys : List Byte) :
    cfg.hwEvents op a (xs ++ ys) = cfg.hwEvents op a xs ++ cfg.hwEvents op (a + xs.length) ys := by
  induction xs generalizing a with
  | nil => simp [Config.hwEvents]
  | cons b xs ih =>
    simp only [List.cons_append, Config.hwEvents, ih, List.length_cons]
    rw [show a + 1 + xs.length = a + (xs.length + 1) by omega]
    split <;> simp

/-- Bytes that the bus does not answer for are no operation on it. -/
theorem hwEvents_off (op : Nat → Byte → HwEvent) (a : Nat) (xs : List Byte)
    (h : ∀ k < xs.length, cfg.onHardwareBus (a + k) = false) : cfg.hwEvents op a xs = [] := by
  induction xs generalizing a with
  | nil => rfl
  | cons b xs ih =>
    have h0 := h 0 (by simp)
    rw [Nat.add_zero] at h0
    simp only [Config.hwEvents, h0, Bool.false_eq_true, if_false]
    exact ih _ fun k hk => by rw [Nat.add_assoc, Nat.add_comm 1 k]; exact h _ (by simpa using hk)

/-- No byte of a cacheable piece is the hardware bus's. -/
theorem off_of_cacheable_piece (hw : cfg.wf = true) {a len k : Nat} (hca : cfg.cacheableAt a = true)
    (h1 : a + len ≤ cfg.lineAddr a + cfg.lineSize) (hk : k < len) : cfg.onHardwareBus (a + k) = false := by
  have hp := Config.lineSize_pos hw
  have := cfg.lineAddr_le a
  have e : cfg.lineAddr (a + k) = cfg.lineAddr a :=
    (Config.lineAddr_eq_iff hp (cfg.lineAddr_mod a)).2 ⟨by omega, by omega⟩
  refine onHardwareBus_of_cacheable hw ?_
  rw [← Config.cacheableAt_lineAddr hw, e, Config.cacheableAt_lineAddr hw]; exact hca

/-- What one piece of a read asks the hardware bus, and the answer (R73). -/
theorem readPiece_hw (h : cfg.Coherent sys) (hw : cfg.wf = true) {c a len : Nat}
    (hc : c < cfg.numCores) (h1 : cfg.cacheableAt a = true → a + len ≤ cfg.lineAddr a + cfg.lineSize)
    (h2 : cfg.cacheableAt a = false → len = 1) :
    (cfg.readPiece c a len sys).2.hw =
        sys.hw ++ cfg.hwEvents (.read c) a (cfg.readPiece c a len sys).1 ∧
      (cfg.onHardwareBus a = true → (cfg.readPiece c a len sys).1 = [Config.hwRead c a sys.hw]) := by
  have hs := readPiece_spec h hw hc h1 h2
  cases hca : cfg.cacheableAt a with
  | true =>
    have off : ∀ k < len, cfg.onHardwareBus (a + k) = false := fun k hk =>
      off_of_cacheable_piece hw hca (h1 hca) hk
    refine ⟨?_, fun hb => ?_⟩
    · rw [hwEvents_off _ _ _ (by rw [hs.1]; exact off), List.append_nil]; exact hs.2.2.2.2 off
    · rw [onHardwareBus_of_cacheable hw hca] at hb; cases hb
  | false =>
    simp only [Config.readPiece, hca, Config.busReadByte]
    cases hb : cfg.onHardwareBus a <;> simp [Config.hwEvents, hb]

/-- What one piece of a write tells the hardware bus (R73). -/
theorem writePiece_hw (hw : cfg.wf = true) {c a : Nat} {bs : List Byte}
    (h1 : cfg.cacheableAt a = true → a + bs.length ≤ cfg.lineAddr a + cfg.lineSize)
    (h2 : cfg.cacheableAt a = false → bs.length = 1) :
    (cfg.writePiece c a bs sys).hw = sys.hw ++ cfg.hwEvents (.write c) a bs := by
  cases hca : cfg.cacheableAt a with
  | true =>
    rw [hwEvents_off _ _ _ fun k hk => off_of_cacheable_piece hw hca (h1 hca) hk, List.append_nil]
    simp only [Config.writePiece, hca, if_true, Config.cacheWrite]
    split
    · split <;> rfl
    · simp only [fillLine, evict, busWr]
      split <;> rfl
  | false =>
    obtain ⟨b, rfl⟩ := List.length_eq_one_iff.1 (h2 hca)
    simp only [Config.writePiece, hca, Config.busWriteByte, List.headD_cons]
    cases hb : cfg.onHardwareBus a <;> simp [Config.hwEvents, hb]

/-! ### All the pieces -/

/-- What the pieces of a read answer and leave (R68, R92). -/
theorem readPieces_spec (hw : cfg.wf = true) {c : Nat} (hc : c < cfg.numCores) (ps : List (Nat × Nat))
    {a n : Nat} (hcut : cfg.Cuts a n ps) (sys : MemSys) (h : cfg.Coherent sys) :
    (cfg.readPieces c ps sys).1.length = n ∧
      (∀ k < n, cfg.onHardwareBus (a + k) = false →
        (cfg.readPieces c ps sys).1.getD k 0 = cfg.coherentByte sys (a + k)) ∧
      cfg.Coherent (cfg.readPieces c ps sys).2 ∧
      (∀ x, cfg.coherentByte (cfg.readPieces c ps sys).2 x = cfg.coherentByte sys x) ∧
      ((∀ k < n, cfg.onHardwareBus (a + k) = false) → (cfg.readPieces c ps sys).2.hw = sys.hw) := by
  induction ps generalizing a n sys with
  | nil =>
    have hn0 : n = 0 := hcut
    subst hn0
    exact ⟨rfl, fun k hk => absurd hk (Nat.not_lt_zero k), h, fun _ => rfl, fun _ => rfl⟩
  | cons p ps ih =>
    obtain ⟨rfl, hl1, hl2, hc1, hc2, hrest⟩ := hcut
    obtain ⟨e1, v1, co1, b1, w1⟩ := readPiece_spec h hw hc hc1 hc2
    obtain ⟨e2, v2, co2, b2, w2⟩ := ih hrest _ co1
    simp only [Config.readPieces]
    refine ⟨by simp [e1, e2]; omega, fun k hk hb => ?_, co2, fun x => (b2 x).trans (b1 x), fun hb => ?_⟩
    · by_cases hkl : k < p.2
      · rw [← v1 k hkl hb]
        simp only [List.getD_eq_getElem?_getD]
        rw [List.getElem?_append_left (by omega)]
      · have := v2 (k - p.2) (by omega) (by rw [show p.1 + p.2 + (k - p.2) = p.1 + k by omega]; exact hb)
        rw [show p.1 + p.2 + (k - p.2) = p.1 + k by omega, b1] at this
        rw [← this]
        simp only [List.getD_eq_getElem?_getD]
        rw [List.getElem?_append_right (by omega), e1]
    · rw [w2 fun k hk => by rw [show p.1 + p.2 + k = p.1 + (p.2 + k) by omega]; exact hb _ (by omega)]
      exact w1 fun k hk => hb k (by omega)

/-- What the pieces of a write leave (R68, R92). -/
theorem writePieces_spec (hw : cfg.wf = true) {c : Nat} (hc : c < cfg.numCores) (ps : List (Nat × Nat))
    {a n : Nat} (hcut : cfg.Cuts a n ps) (bs : List Byte) (hbs : bs.length = n) (sys : MemSys)
    (h : cfg.Coherent sys) :
    cfg.Coherent (cfg.writePieces c ps bs sys) ∧
      ∀ x, cfg.coherentByte (cfg.writePieces c ps bs sys) x =
        if a ≤ x ∧ x < a + n ∧ cfg.onHardwareBus x = false then bs.getD (x - a) 0
        else cfg.coherentByte sys x := by
  induction ps generalizing a n bs sys with
  | nil =>
    have hn0 : n = 0 := hcut
    subst hn0
    refine ⟨h, fun x => ?_⟩
    rw [if_neg (by omega)]; rfl
  | cons p ps ih =>
    obtain ⟨rfl, hl1, hl2, hc1, hc2, hrest⟩ := hcut
    have ht : (bs.take p.2).length = p.2 := by simp; omega
    obtain ⟨co1, b1⟩ := writePiece_spec (bs := bs.take p.2) h hw hc (by rw [ht]; exact hc1)
      (by rw [ht]; exact hc2)
    obtain ⟨co2, b2⟩ := ih hrest (bs.drop p.2) (by simp; omega) _ co1
    simp only [Config.writePieces]
    refine ⟨co2, fun x => ?_⟩
    rw [b2 x, b1 x, ht]
    by_cases hb : cfg.onHardwareBus x = false
    · simp only [hb, and_true]
      by_cases hx : p.1 ≤ x ∧ x < p.1 + n
      · rw [if_pos hx]
        by_cases hx1 : p.1 + p.2 ≤ x
        · rw [if_pos (by omega)]
          simp only [List.getD_eq_getElem?_getD, List.getElem?_drop]
          congr 2; omega
        · rw [if_neg (by omega), if_pos (by omega)]
          simp only [List.getD_eq_getElem?_getD]
          rw [List.getElem?_take_of_lt (by omega)]
      · rw [if_neg (by omega), if_neg (by omega), if_neg hx]
    · rw [if_neg (fun q => hb q.2.2), if_neg (fun q => hb q.2.2), if_neg (fun q => hb q.2.2)]

/-- What a read by the MMU answers and leaves (R67 to R73, R92). -/
theorem mmuRead_spec (hw : cfg.wf = true) {c : Nat} (hc : c < cfg.numCores) {a n : Nat} {k : AccessKind}
    (h : cfg.Coherent sys) {bs : List Byte} {t : MemSys} (hr : cfg.mmuRead c a n k sys = some (bs, t)) :
    bs.length = n ∧
      (∀ j < n, cfg.onHardwareBus (a + j) = false → bs.getD j 0 = cfg.coherentByte sys (a + j)) ∧
      cfg.Coherent t ∧ (∀ x, cfg.coherentByte t x = cfg.coherentByte sys x) ∧
      ((∀ j < n, cfg.onHardwareBus (a + j) = false) → t.hw = sys.hw) := by
  unfold Config.mmuRead at hr
  split at hr
  · simp only [Option.some.injEq] at hr
    have := readPieces_spec hw hc (cfg.pieces a n) (cuts_pieces hw a n) sys h
    rw [hr] at this
    exact this
  · cases hr

/-- What a write by the MMU leaves (R67 to R73, R92). -/
theorem mmuWrite_spec (hw : cfg.wf = true) {c : Nat} (hc : c < cfg.numCores) {a : Nat} {bs : List Byte}
    (h : cfg.Coherent sys) {t : MemSys} (hr : cfg.mmuWrite c a bs sys = some t) :
    cfg.Coherent t ∧
      ∀ x, cfg.coherentByte t x =
        if a ≤ x ∧ x < a + bs.length ∧ cfg.onHardwareBus x = false then bs.getD (x - a) 0
        else cfg.coherentByte sys x := by
  unfold Config.mmuWrite at hr
  split at hr
  · simp only [Option.some.injEq] at hr
    subst hr
    exact writePieces_spec hw hc _ (cuts_pieces hw a bs.length) bs rfl sys h
  · cases hr

/-- Whether a read faults is a matter of the region table alone (R67). -/
theorem mmuRead_isSome (c a n : Nat) (k : AccessKind) (sys : MemSys) :
    (cfg.mmuRead c a n k sys).isSome = cfg.check a n k := by
  unfold Config.mmuRead; cases cfg.check a n k <;> rfl

/-- Whether a write faults is a matter of the region table alone (R67). -/
theorem mmuWrite_isSome (c a : Nat) (bs : List Byte) (sys : MemSys) :
    (cfg.mmuWrite c a bs sys).isSome = cfg.check a bs.length .write := by
  unfold Config.mmuWrite; cases cfg.check a bs.length .write <;> rfl

/-- The bytes of a read that the host answers no byte of are those of the coherent view. -/
theorem mmuRead_bytes (hw : cfg.wf = true) {c : Nat} (hc : c < cfg.numCores) {a n : Nat} {k : AccessKind}
    (h : cfg.Coherent sys) {bs : List Byte} {t : MemSys} (hr : cfg.mmuRead c a n k sys = some (bs, t))
    (hb : cfg.offHardwareBus a n = true) :
    bs = (List.range n).map (fun j => cfg.coherentByte sys (a + j)) := by
  obtain ⟨hl, hv, -⟩ := mmuRead_spec hw hc h hr
  have hb' : ∀ j < n, cfg.onHardwareBus (a + j) = false := by
    simpa [Config.offHardwareBus] using hb
  refine List.ext_getElem (by simp [hl]) fun j h1 h2 => ?_
  have := hv j (by omega) (hb' j (by omega))
  simp only [List.getD_eq_getElem?_getD, List.getElem?_eq_getElem h1, Option.getD_some] at this
  simpa using this

end Sys2Proof
end

