-- ==== Sys2Proof/Laws/Ops.lean ====
section
/-! SUPPORT. The named operations of a core (Machine/Ops.lean, Machine/Operands.lean): what each can do, said
once. -/

namespace Sys2Proof

open Machine

/-! ### Bytes -/

theorem length_leBytes (n v : Nat) : (leBytes n v).length = n := by
  induction n generalizing v with
  | zero => rfl
  | succ n ih => simp [leBytes, ih]

@[simp] theorem length_split (o : ByteOrder) (n v : Nat) : (split o n v).length = n := by
  cases o <;> simp [split, length_leBytes]

theorem leNat_leBytes (n v : Nat) : leNat (leBytes n v) = v % 256 ^ n := by
  induction n generalizing v with
  | zero => simp [leBytes, leNat, Nat.mod_one]
  | succ n ih =>
    simp only [leBytes, leNat, ih, BitVec.toNat_ofNat]
    rw [show (256 : Nat) ^ (n + 1) = 256 * 256 ^ n from Nat.pow_succ', Nat.mod_mul (a := 256)]

/-- Reading back what `split` wrote, in either byte order. -/
theorem assemble_split (o : ByteOrder) (n v : Nat) : assemble o (split o n v) = v % 256 ^ n := by
  cases o <;> simp [assemble, split, leNat_leBytes]

/-! ### Width views -/

namespace Machine

theorem getLsbD_widthMask (size : Size) (n : Nat) (h : n < 64) :
    (widthMask size).getLsbD n = decide (n < size.bits) := by
  have hs : size.bits ≤ 64 := by cases size <;> simp [Size.bits]
  unfold widthMask
  rw [BitVec.getLsbD_ofNat, Nat.testBit_two_pow_sub_one]
  simp [h]

/-- Bit by bit what a write at a width leaves (R23). -/
theorem getLsbD_mergeWidth (size : Size) (old v : Word) (n : Nat) :
    (mergeWidth size old v).getLsbD n = if n < size.bits then v.getLsbD n else old.getLsbD n := by
  by_cases h : n < 64
  · simp only [mergeWidth, BitVec.getLsbD_or, BitVec.getLsbD_and, BitVec.getLsbD_not,
      getLsbD_widthMask size n h, h, decide_true, Bool.true_and]
    by_cases hs : n < size.bits <;> simp [hs]
  · have e : ∀ x : Word, x.getLsbD n = false := fun x => BitVec.getLsbD_of_ge x n (by omega)
    rw [e, e, e]; simp

/-! ### Memory -/

variable {s t : State}

theorem State.memRead_eq_some {a : Word} {n : Nat} {k : AccessKind} {v : Word}
    (h : s.memRead a n k = some (v, t)) :
    ∃ bs sys, s.cfg.mmuRead s.core.id a.toNat n k s.sys = some (bs, sys) ∧
      v = BitVec.ofNat 64 (assemble s.cfg.byteOrder bs) ∧ t = s.setSys sys := by
  simp only [State.memRead, State.readBytes, Option.map_eq_some_iff, Prod.mk.injEq] at h
  obtain ⟨p, ⟨⟨bs, sys⟩, h1, rfl⟩, h2, h3⟩ := h
  exact ⟨bs, sys, h1, h2.symm, h3.symm⟩

/-- Whether a read faults is a matter of the region table alone. -/
theorem State.isSome_memRead (s : State) (a : Word) (n : Nat) (k : AccessKind) :
    (s.memRead a n k).isSome = s.cfg.check a.toNat n k := by
  rw [← mmuRead_isSome (cfg := s.cfg) s.core.id a.toNat n k s.sys]
  simp [State.memRead, State.readBytes]

/-- A read changes the memory system only, and no byte of the view. -/
theorem State.memRead_frame {a : Word} {n : Nat} {k : AccessKind} {v : Word}
    (h : s.memRead a n k = some (v, t)) :
    t = s.setSys t.sys ∧ (s.MemoryOk → t.MemoryOk ∧ s.KeepsBytes t) := by
  obtain ⟨bs, sys, h1, -, rfl⟩ := State.memRead_eq_some h
  refine ⟨rfl, fun hm => ?_⟩
  have := mmuRead_spec hm.1 hm.2.1 hm.2.2 h1
  exact ⟨⟨hm.1, hm.2.1, this.2.2.1⟩, this.2.2.2.1⟩

theorem State.memRead_some (s : State) {a : Word} {n : Nat} {k : AccessKind}
    (h : s.cfg.check a.toNat n k = true) : ∃ v t, s.memRead a n k = some (v, t) := by
  rw [← State.isSome_memRead] at h
  obtain ⟨⟨v, t⟩, e⟩ := Option.isSome_iff_exists.1 h
  exact ⟨v, t, e⟩

theorem State.memRead_none (s : State) {a : Word} {n : Nat} {k : AccessKind}
    (h : s.cfg.check a.toNat n k = false) : s.memRead a n k = none := by
  rw [← State.isSome_memRead] at h
  simpa using h

theorem State.memWrite_eq_some {a : Word} {n : Nat} {v : Word} (h : s.memWrite a n v = some t) :
    ∃ sys, s.cfg.mmuWrite s.core.id a.toNat (split s.cfg.byteOrder n v.toNat) s.sys = some sys ∧
      t = s.setSys sys := by
  simp only [State.memWrite, State.writeBytes, Option.map_eq_some_iff] at h
  obtain ⟨sys, h1, rfl⟩ := h
  exact ⟨sys, h1, rfl⟩

/-- Whether a write faults is a matter of the region table alone. -/
theorem State.isSome_memWrite (s : State) (a : Word) (n : Nat) (v : Word) :
    (s.memWrite a n v).isSome = s.cfg.check a.toNat n .write := by
  have := mmuWrite_isSome (cfg := s.cfg) s.core.id a.toNat (split s.cfg.byteOrder n v.toNat) s.sys
  rw [length_split] at this
  rw [← this]
  simp [State.memWrite, State.writeBytes]

theorem State.memWrite_some (s : State) {a : Word} {n : Nat} (v : Word)
    (h : s.cfg.check a.toNat n .write = true) : ∃ t, s.memWrite a n v = some t := by
  rw [← State.isSome_memWrite s a n v] at h
  exact Option.isSome_iff_exists.1 h

theorem State.memWrite_none (s : State) {a : Word} {n : Nat} (v : Word)
    (h : s.cfg.check a.toNat n .write = false) : s.memWrite a n v = none := by
  rw [← State.isSome_memWrite s a n v] at h
  simpa using h

/-- A write changes the memory system only, and of the view the bytes it stores. -/
theorem State.memWrite_frame {a : Word} {n : Nat} {v : Word} (h : s.memWrite a n v = some t) :
    t = s.setSys t.sys ∧ (s.MemoryOk → t.MemoryOk ∧ s.Stores t a.toNat n v) := by
  obtain ⟨sys, h1, rfl⟩ := State.memWrite_eq_some h
  refine ⟨rfl, fun hm => ?_⟩
  obtain ⟨hc, hv⟩ := mmuWrite_spec hm.1 hm.2.1 hm.2.2 h1
  rw [length_split] at hv
  refine ⟨⟨hm.1, hm.2.1, hc⟩, fun x hx => ?_, fun k hk hb => ?_⟩
  · refine (hv x).trans (if_neg ?_)
    rintro ⟨u, w, -⟩; omega
  · refine (hv (a.toNat + k)).trans ?_
    rw [if_pos ⟨by omega, by omega, hb⟩]
    congr 1; omega

/-! ### Operands -/

/-- What a store to the destination's address can do (R177). -/
theorem State.storeDst_cases (s : State) (size : Size) (v : Word) :
    (s.cfg.check s.dstEa.toNat size.bytes .write = true ∧
      ∃ t, s.storeDst size v = .ok t ∧ s.memWrite s.dstEa size.bytes v = some t) ∨
    (s.cfg.check s.dstEa.toNat size.bytes .write = false ∧
      s.storeDst size v = .error .memoryFault) := by
  unfold State.storeDst
  cases h : s.cfg.check s.dstEa.toNat size.bytes .write with
  | true =>
    obtain ⟨t, e⟩ := s.memWrite_some v h
    exact .inl ⟨rfl, t, by rw [e], e⟩
  | false => exact .inr ⟨rfl, by rw [s.memWrite_none v h]⟩

/-- What the write of a push can do (R280, R282). -/
theorem State.push_cases (s : State) (n : Nat) (v : Word) :
    (s.cfg.check (s.pushAddress n).toNat n .write = true ∧
      ∃ t, s.memWrite (s.pushAddress n) n v = some t ∧ s.push n v = .ok (t.setSp (s.pushAddress n))) ∨
    (s.cfg.check (s.pushAddress n).toNat n .write = false ∧ s.push n v = .error .memoryFault) := by
  unfold State.push
  cases h : s.cfg.check (s.pushAddress n).toNat n .write with
  | true =>
    obtain ⟨t, e⟩ := s.memWrite_some v h
    exact .inl ⟨rfl, t, e, by rw [e]⟩
  | false => exact .inr ⟨rfl, by rw [s.memWrite_none v h]⟩

/-! ### Exceptions and interrupts -/

/-- The vector table is readable in a well-formed configuration (R9, I19). -/
theorem check_vector {cfg : Config} (hw : cfg.wf = true) {k : Nat} (hk : k + 8 ≤ 0x80) :
    cfg.check (cfg.vtBase + BitVec.ofNat 64 k).toNat 8 .read = true ∧
      (cfg.vtBase + BitVec.ofNat 64 k).toNat = cfg.vtBase.toNat + k := by
  have hv : cfg.vectorTableOk = true := by
    simp only [Config.wf, Bool.and_eq_true] at hw
    exact hw.1.1.1.2
  unfold Config.vectorTableOk at hv
  cases hl : cfg.lookup cfg.vtBase.toNat with
  | none => rw [hl] at hv; cases hv
  | some r =>
    rw [hl] at hv
    simp only [Bool.and_eq_true, decide_eq_true_eq] at hv
    obtain ⟨hr, h1, h2⟩ := Config.lookup_some hl
    have hok := Config.regionOk_of_lookup hw hl
    have hlt := r.stop.isLt
    have e : (cfg.vtBase + BitVec.ofNat 64 k).toNat = cfg.vtBase.toNat + k := by
      rw [BitVec.toNat_add, BitVec.toNat_ofNat]
      omega
    refine ⟨?_, e⟩
    rw [e]
    unfold Config.check
    simp only [Bool.and_eq_true, decide_eq_true_eq, List.all_eq_true, List.mem_range]
    refine ⟨by omega, fun j hj => ?_⟩
    unfold Config.byteAllowed
    rw [Config.lookup_of_range hok hr (y := cfg.vtBase.toNat + k + j) (by omega) (by omega)]
    exact hv.1

theorem State.excVector_eq (s : State) (e : Exc) :
    s.excVector e = s.cfg.vtBase + BitVec.ofNat 64 (0x10 + 8 * e.id.val) := by
  unfold State.excVector
  rw [BitVec.add_assoc]
  cases e <;> rfl

theorem State.intVector_eq (s : State) (i : Fin 8) :
    s.intVector i = s.cfg.vtBase + BitVec.ofNat 64 (0x40 + 8 * i.val) := by
  unfold State.intVector
  rw [BitVec.add_assoc]
  congr 1
  revert i; decide

/-- What entering an exception handler can do (R342). -/
theorem State.enterException_cases (s : State) (e : Exc) :
    (∃ v s1, s.memRead (s.excVector e) 8 .read = some (v, s1) ∧
      s.enterException e = (((s1.setExc { phase := .executing s.regs, id := e.id }).setIp v).setCr
        statusIndex (statusWithExcActive (s.cr statusIndex)))) ∨
    (s.memRead (s.excVector e) 8 .read = none ∧ s.enterException e = s.halt) := by
  unfold State.enterException
  cases h : s.memRead (s.excVector e) 8 .read with
  | none => exact .inr ⟨rfl, rfl⟩
  | some p =>
    obtain ⟨v, s1⟩ := p
    obtain ⟨bs, sys, -, -, rfl⟩ := State.memRead_eq_some h
    exact .inl ⟨v, _, rfl, rfl⟩

/-- What a raise can do (R340). -/
theorem State.raiseException_cases (s : State) (e : Exc) :
    (s.excExecuting = true ∧ s.raiseException e = ((s.recordExc e).recordExc .hardFault).halt) ∨
    (s.excExecuting = false ∧ s.excEnabled e = false ∧ s.raiseException e = (s.recordExc e).halt) ∨
    (s.excExecuting = false ∧ s.excEnabled e = true ∧
      s.raiseException e = (s.recordExc e).enterException e) := by
  have e1 : (s.recordExc e).excExecuting = s.excExecuting := rfl
  have e2 : (s.recordExc e).excEnabled e = s.excEnabled e := by
    simp [State.excEnabled, State.recordExc, State.cr_setCr, statusIndex]
  unfold State.raiseException
  simp only [e1, e2]
  cases s.excExecuting <;> cases s.excEnabled e <;> simp

/-- What entering an ISR can do (R334). -/
theorem State.enterIsr_cases (s : State) (i : Fin 8) :
    (∃ v s1, s.memRead (s.intVector i) 8 .read = some (v, s1) ∧
      s.enterIsr i = ((s1.setIsrBlock i (.executing s.regs)).setIp v).setCr statusIndex
        (statusWithInt (s.cr statusIndex) i)) ∨
    (s.memRead (s.intVector i) 8 .read = none ∧ s.enterIsr i = s.halt) := by
  unfold State.enterIsr
  cases h : s.memRead (s.intVector i) 8 .read with
  | none => exact .inr ⟨rfl, rfl⟩
  | some p =>
    obtain ⟨v, s1⟩ := p
    obtain ⟨bs, sys, -, -, rfl⟩ := State.memRead_eq_some h
    exact .inl ⟨v, _, rfl, rfl⟩

end Machine

end Sys2Proof
end

