-- ==== Sys2Proof/Laws/Dispatch.lean ====
section
/-! SUPPORT. The dispatch, one equation per instruction. -/

namespace Sys2Proof.Machine

@[simp] theorem exec_brk (s : State) : exec .brk s = execBrk s := rfl
@[simp] theorem exec_nop (s : State) : exec .nop s = execNop s := rfl
@[simp] theorem exec_ret (s : State) : exec .ret s = execRet s := rfl
@[simp] theorem exec_rti (s : State) : exec .rti s = execRti s := rfl
@[simp] theorem exec_rte (s : State) : exec .rte s = execRte s := rfl
@[simp] theorem exec_sys (s : State) : exec .sys s = execSys s := rfl
@[simp] theorem exec_push (size : Size) (op : Operand) (s : State) :
    exec (.push size op) s = execPush size op s := rfl
@[simp] theorem exec_pop (size : Size) (op : Operand) (s : State) :
    exec (.pop size op) s = execPop size op s := rfl
@[simp] theorem exec_bra (size : Size) (op : Operand) (s : State) :
    exec (.bra size op) s = execBra size op s := rfl
@[simp] theorem exec_beq (size : Size) (op : Operand) (s : State) :
    exec (.beq size op) s = execBeq size op s := rfl
@[simp] theorem exec_bne (size : Size) (op : Operand) (s : State) :
    exec (.bne size op) s = execBne size op s := rfl
@[simp] theorem exec_bcs (size : Size) (op : Operand) (s : State) :
    exec (.bcs size op) s = execBcs size op s := rfl
@[simp] theorem exec_bcc (size : Size) (op : Operand) (s : State) :
    exec (.bcc size op) s = execBcc size op s := rfl
@[simp] theorem exec_bmi (size : Size) (op : Operand) (s : State) :
    exec (.bmi size op) s = execBmi size op s := rfl
@[simp] theorem exec_bpl (size : Size) (op : Operand) (s : State) :
    exec (.bpl size op) s = execBpl size op s := rfl
@[simp] theorem exec_bvs (size : Size) (op : Operand) (s : State) :
    exec (.bvs size op) s = execBvs size op s := rfl
@[simp] theorem exec_bvc (size : Size) (op : Operand) (s : State) :
    exec (.bvc size op) s = execBvc size op s := rfl
@[simp] theorem exec_call (size : Size) (op : Operand) (s : State) :
    exec (.call size op) s = execCall size op s := rfl
@[simp] theorem exec_mov (size : Size) (dst src : Operand) (s : State) :
    exec (.mov size dst src) s = execMov size dst src s := rfl
@[simp] theorem exec_add (size : Size) (dst src : Operand) (s : State) :
    exec (.add size dst src) s = execAdd size dst src s := rfl
@[simp] theorem exec_sub (size : Size) (dst src : Operand) (s : State) :
    exec (.sub size dst src) s = execSub size dst src s := rfl
@[simp] theorem exec_cmp (size : Size) (dst src : Operand) (s : State) :
    exec (.cmp size dst src) s = execCmp size dst src s := rfl
@[simp] theorem exec_asl (size : Size) (dst src : Operand) (s : State) :
    exec (.asl size dst src) s = execAsl size dst src s := rfl
@[simp] theorem exec_asr (size : Size) (dst src : Operand) (s : State) :
    exec (.asr size dst src) s = execAsr size dst src s := rfl
@[simp] theorem exec_lsl (size : Size) (dst src : Operand) (s : State) :
    exec (.lsl size dst src) s = execLsl size dst src s := rfl
@[simp] theorem exec_lsr (size : Size) (dst src : Operand) (s : State) :
    exec (.lsr size dst src) s = execLsr size dst src s := rfl
@[simp] theorem exec_movCr (dst src : Operand) (s : State) :
    exec (.movCr dst src) s = execMovCr dst src s := rfl

end Sys2Proof.Machine
end

