-- ==== Sys2Proof/Laws/Exec.lean ====
section
/-! SUPPORT. What no meaning changes: the configuration, the decoder, the queue, the record taken and the
core's name; and that every meaning keeps the memory system coherent. -/

namespace Sys2Proof.Machine

/-- The same machine but for registers, control blocks, memory and the counter of system calls. -/
structure State.Executes (s t : State) : Prop where
  cfg : t.cfg = s.cfg
  peers : t.peers = s.peers
  id : t.core.id = s.core.id
  initialSp : t.core.initialSp = s.core.initialSp
  slots : t.core.slots = s.core.slots
  nextSeq : t.core.nextSeq = s.core.nextSeq
  retireSeq : t.core.retireSeq = s.core.retireSeq
  queue : t.core.queue = s.core.queue
  exu : t.core.exu = s.core.exu
  ticked : t.core.ticked = s.core.ticked
  memoryOk : s.MemoryOk → t.MemoryOk

namespace State.Executes

variable {s t u : State}

theorem refl (s : State) : s.Executes s := ⟨rfl, rfl, rfl, rfl, rfl, rfl, rfl, rfl, rfl, rfl, fun h => h⟩

theorem trans (h : s.Executes t) (g : t.Executes u) : s.Executes u :=
  ⟨g.cfg.trans h.cfg, g.peers.trans h.peers, g.id.trans h.id, g.initialSp.trans h.initialSp,
    g.slots.trans h.slots, g.nextSeq.trans h.nextSeq, g.retireSeq.trans h.retireSeq,
    g.queue.trans h.queue, g.exu.trans h.exu, g.ticked.trans h.ticked, fun m => g.memoryOk (h.memoryOk m)⟩

theorem setRegs (s : State) (r : RegFile) : s.Executes (s.setRegs r) :=
  ⟨rfl, rfl, rfl, rfl, rfl, rfl, rfl, rfl, rfl, rfl, fun h => h⟩

theorem setExc (s : State) (b : ExcBlock) : s.Executes (s.setExc b) :=
  ⟨rfl, rfl, rfl, rfl, rfl, rfl, rfl, rfl, rfl, rfl, fun h => h⟩

theorem setIsrBlock (s : State) (i : Fin 8) (b : IsrBlock) : s.Executes (s.setIsrBlock i b) :=
  ⟨rfl, rfl, rfl, rfl, rfl, rfl, rfl, rfl, rfl, rfl, fun h => h⟩

theorem countCall (s : State) : s.Executes { s with calls := s.calls + 1 } :=
  ⟨rfl, rfl, rfl, rfl, rfl, rfl, rfl, rfl, rfl, rfl, fun h => h⟩

theorem of_setSys (h : t = s.setSys t.sys) (hm : s.MemoryOk → t.MemoryOk) : s.Executes t := by
  refine ⟨?_, ?_, ?_, ?_, ?_, ?_, ?_, ?_, ?_, ?_, hm⟩ <;> rw [h] <;> rfl

theorem memRead {a : Word} {n : Nat} {k : AccessKind} {v : Word} (h : s.memRead a n k = some (v, t)) :
    s.Executes t := of_setSys (memRead_frame h).1 fun m => ((memRead_frame h).2 m).1

theorem memWrite {a : Word} {n : Nat} {v : Word} (h : s.memWrite a n v = some t) : s.Executes t :=
  of_setSys (memWrite_frame h).1 fun m => ((memWrite_frame h).2 m).1

theorem enterException (s : State) (e : Exc) : s.Executes (s.enterException e) := by
  rcases s.enterException_cases e with ⟨v, s1, h, h'⟩ | ⟨-, h'⟩ <;> rw [h']
  · exact (memRead h).trans ((setExc _ _).trans ((setRegs _ _).trans (setRegs _ _)))
  · exact setRegs _ _

theorem raiseException (s : State) (e : Exc) : s.Executes (s.raiseException e) := by
  rcases s.raiseException_cases e with ⟨-, h⟩ | ⟨-, -, h⟩ | ⟨-, -, h⟩ <;> rw [h]
  · exact (setRegs _ _).trans ((setRegs _ _).trans (setRegs _ _))
  · exact (setRegs _ _).trans (setRegs _ _)
  · exact (setRegs s (s.recordExc e).regs).trans (enterException _ e)

theorem enterIsr (s : State) (i : Fin 8) : s.Executes (s.enterIsr i) := by
  rcases s.enterIsr_cases i with ⟨v, s1, h, h'⟩ | ⟨-, h'⟩ <;> rw [h']
  · exact (memRead h).trans ((setIsrBlock _ _ _).trans ((setRegs _ _).trans (setRegs _ _)))
  · exact setRegs _ _

theorem storeDst {size : Size} {v : Word} (h : s.storeDst size v = .ok t) : s.Executes t := by
  rcases s.storeDst_cases size v with ⟨-, u, e, e'⟩ | ⟨-, e⟩ <;> rw [e] at h <;> cases h
  exact memWrite e'

theorem writeOperand {dst : Operand} {size : Size} {v : Word} (h : s.writeOperand dst size v = .ok t) :
    s.Executes t := by
  cases dst with
  | immediate => cases h
  | register => cases h; exact setRegs _ _
  | absolute => exact storeDst h
  | indirect => exact storeDst h

theorem push {n : Nat} {v : Word} (h : s.push n v = .ok t) : s.Executes t := by
  rcases s.push_cases n v with ⟨-, u, e, e'⟩ | ⟨-, e⟩
  · rw [e'] at h; cases h; exact (memWrite e).trans (setRegs _ _)
  · rw [e] at h; cases h

theorem sysAction {act : SysAction} (h : s.sysAction act = some t) : s.Executes t := by
  cases act with
  | setReg => cases h; exact setRegs _ _
  | setFlags => cases h; exact setRegs _ _
  | load a n =>
    simp only [State.sysAction, State.readBytes, Option.map_eq_some_iff] at h
    obtain ⟨_, ⟨⟨bs, y⟩, h1, rfl⟩, rfl⟩ := h
    exact of_setSys rfl fun hm => ⟨hm.1, hm.2.1, (mmuRead_spec hm.1 hm.2.1 hm.2.2 h1).2.2.1⟩
  | store a bs =>
    simp only [State.sysAction, State.writeBytes, Option.map_eq_some_iff] at h
    obtain ⟨y, h1, rfl⟩ := h
    exact of_setSys rfl fun hm => ⟨hm.1, hm.2.1, (mmuWrite_spec hm.1 hm.2.1 hm.2.2 h1).1⟩

theorem runSysActions (acts : List SysAction) : ∀ s, State.Executes s (runSysActions acts s) := by
  induction acts with
  | nil => exact refl
  | cons a acts ih =>
    intro s
    unfold Machine.runSysActions
    cases h : s.sysAction a with
    | none => exact raiseException s _
    | some t => exact (sysAction h).trans (ih t)

end State.Executes

/-- Every outcome that goes on differs from `s` as a meaning may. -/
def Result.Executes (s : State) (r : Result) : Prop := ∀ t, r = .next t → s.Executes t

namespace Result.Executes

variable {s t : State}

theorem next (h : s.Executes t) : Result.Executes s (.next t) := fun _ e => by cases e; exact h

theorem raised (s : State) (e : Exc) : Result.Executes s (s.raised e) := next (.raiseException s e)

theorem finish {r : Except Exc State} {k : State → State} (h : ∀ t, r = .ok t → s.Executes (k t)) :
    Result.Executes s (s.finish r k) := by
  cases r with
  | ok t => exact next (h t rfl)
  | error e => exact raised s e

theorem branch (cond : Flags → Bool) (size : Size) (op : Operand) (s : State) :
    Result.Executes s (branch cond size op s) := by
  unfold Machine.branch
  split
  · intro _ h; cases h
  · split
    · exact next (.setRegs _ _)
    · exact next (.refl _)

theorem mov (size : Size) (dst src : Operand) (s : State) :
    Result.Executes s (execMov size dst src s) := finish fun _ h => .writeOperand h

theorem writeControlReg (s : State) (i : RegIndex) (v : Word) :
    Result.Executes s (writeControlReg s i v) := by
  unfold Machine.writeControlReg
  split
  · split
    · intro _ h; cases h
    · refine next ?_
      unfold State.writeCr
      split <;> first | exact .refl _ | exact .setRegs _ _
  · exact next (.setRegs _ _)

theorem movCr (dst src : Operand) (s : State) : Result.Executes s (execMovCr dst src s) := by
  cases dst with
  | immediate => exact raised s _
  | register i => exact writeControlReg s i _
  | absolute => exact finish fun _ h => .storeDst h
  | indirect => exact finish fun _ h => .storeDst h

theorem flagged {size : Size} {dst : Operand} {v : Word} {f : State → Flags} :
    Result.Executes s (s.finish (s.writeOperand dst size v) fun t => t.setFlags (f t)) :=
  finish fun _ h => (State.Executes.writeOperand h).trans (.setRegs _ _)

theorem cmp (size : Size) (dst src : Operand) (s : State) :
    Result.Executes s (execCmp size dst src s) := by
  unfold execCmp
  split
  · exact raised s _
  · exact next (.setRegs _ _)

theorem pop (size : Size) (op : Operand) (s : State) : Result.Executes s (execPop size op s) := by
  unfold execPop
  split
  · exact raised s _
  · cases h : s.memRead s.sp size.bytes .read with
    | none => exact raised s _
    | some p =>
      obtain ⟨v, s1⟩ := p
      intro t ht
      refine (State.Executes.memRead h).trans ?_
      change popInto size op v s1 = .next t at ht
      revert t
      change Result.Executes s1 (popInto size op v s1)
      cases op with
      | immediate => exact raised s1 _
      | register => exact next ((State.Executes.setRegs _ _).trans (.setRegs _ _))
      | absolute => exact finish fun _ h => (State.Executes.storeDst h).trans (.setRegs _ _)
      | indirect => exact finish fun _ h => (State.Executes.storeDst h).trans (.setRegs _ _)

theorem ret (s : State) : Result.Executes s (execRet s) := by
  unfold execRet
  split
  · exact raised s _
  · cases h : s.memRead s.sp 8 .read with
    | none => exact raised s _
    | some p =>
      exact next ((State.Executes.memRead h).trans ((State.Executes.setRegs _ _).trans (.setRegs _ _)))

theorem rti (s : State) : Result.Executes s (execRti s) := by
  unfold execRti
  split
  · split
    · exact next ((State.Executes.setIsrBlock _ _ _).trans (.setRegs _ _))
    · exact raised s _
  · exact raised s _

theorem rte (s : State) : Result.Executes s (execRte s) := by
  unfold execRte
  split
  · exact next ((State.Executes.setExc _ _).trans (.setRegs _ _))
  · exact raised s _

theorem sys (s : State) : Result.Executes s (execSys s) := by
  unfold execSys
  dsimp only
  split
  · exact next ((State.Executes.countCall s).trans (.runSysActions _ _))
  · exact raised s _

end Result.Executes

/-- No meaning changes the configuration, the decoder, the queue, the record taken or the core's name, and
every meaning keeps the memory system coherent. -/
theorem exec_executes (i : Instr) (s : State) : Result.Executes s (exec i s) := by
  cases i with
  | brk => exact .next (.setRegs _ _)
  | nop => exact .next (.refl _)
  | mov size dst src => exact .mov size dst src s
  | movCr dst src => exact .movCr dst src s
  | add => exact .flagged
  | sub => exact .flagged
  | cmp size dst src => exact .cmp size dst src s
  | asl => exact .flagged
  | asr => exact .flagged
  | lsl => exact .flagged
  | lsr => exact .flagged
  | push => exact .finish fun _ h => .push h
  | pop size op => exact .pop size op s
  | bra size op => exact .branch (fun _ => true) size op s
  | beq size op => exact .branch (fun f => f.z) size op s
  | bne size op => exact .branch (fun f => !f.z) size op s
  | bcs size op => exact .branch (fun f => f.c) size op s
  | bcc size op => exact .branch (fun f => !f.c) size op s
  | bmi size op => exact .branch (fun f => f.n) size op s
  | bpl size op => exact .branch (fun f => !f.n) size op s
  | bvs size op => exact .branch (fun f => f.v) size op s
  | bvc size op => exact .branch (fun f => !f.v) size op s
  | call => exact .finish fun _ h => (State.Executes.push h).trans (.setRegs _ _)
  | ret => exact .ret s
  | rti => exact .rti s
  | rte => exact .rte s
  | sys => exact .sys s

end Sys2Proof.Machine
end

