-- ==== Sys2Proof/Laws/Decoder.lean ====
section
/-! SUPPORT. What the decoder phase can do (40_decode_pipeline.md R162 to R172): a transition changes IP, the
slots, the sequence ids, the queue and the memory system; a raise is RaiseException after such a
change. -/

namespace Sys2Proof.Machine

/-- The same machine but for IP, the decoder, the queue and the memory system, in which every byte reads as
it did. -/
structure State.Decodes (s t : State) : Prop where
  regs : t.core.regs = { s.core.regs with ip := t.core.regs.ip }
  cfg : t.cfg = s.cfg
  peers : t.peers = s.peers
  calls : t.calls = s.calls
  id : t.core.id = s.core.id
  initialSp : t.core.initialSp = s.core.initialSp
  isr : t.core.isr = s.core.isr
  exc : t.core.exc = s.core.exc
  exu : t.core.exu = s.core.exu
  ticked : t.core.ticked = s.core.ticked
  length : t.core.slots.length = s.core.slots.length
  memory : s.MemoryOk → t.MemoryOk ∧ s.KeepsBytes t

namespace State.Decodes

variable {s t u : State}

theorem refl (s : State) : s.Decodes s :=
  ⟨rfl, rfl, rfl, rfl, rfl, rfl, rfl, rfl, rfl, rfl, rfl, fun h => ⟨h, fun _ => rfl⟩⟩

theorem trans (h : s.Decodes t) (g : t.Decodes u) : s.Decodes u :=
  ⟨by rw [g.regs, h.regs], g.cfg.trans h.cfg, g.peers.trans h.peers, g.calls.trans h.calls,
    g.id.trans h.id, g.initialSp.trans h.initialSp, g.isr.trans h.isr, g.exc.trans h.exc,
    g.exu.trans h.exu, g.ticked.trans h.ticked, g.length.trans h.length, fun m =>
      ⟨(g.memory (h.memory m).1).1, fun x => ((g.memory (h.memory m).1).2 x).trans ((h.memory m).2 x)⟩⟩

theorem setIp (s : State) (v : Word) : s.Decodes (s.setIp v) :=
  ⟨rfl, rfl, rfl, rfl, rfl, rfl, rfl, rfl, rfl, rfl, rfl, fun h => ⟨h, fun _ => rfl⟩⟩

theorem setSlot (s : State) (j : Nat) (sl : Slot) : s.Decodes (s.setSlot j sl) :=
  ⟨rfl, rfl, rfl, rfl, rfl, rfl, rfl, rfl, rfl, rfl, List.length_set .., fun h => ⟨h, fun _ => rfl⟩⟩

theorem startSlot (s : State) (j : Nat) : s.Decodes (s.startSlot j) :=
  ⟨rfl, rfl, rfl, rfl, rfl, rfl, rfl, rfl, rfl, rfl, List.length_set .., fun h => ⟨h, fun _ => rfl⟩⟩

theorem advanceSlot (s : State) (j : Nat) (st : DecodeState) (r : Record) :
    s.Decodes (s.advanceSlot j st r) := setSlot ..

theorem tryPush (j : Nat) (s : State) : s.Decodes (tryPush j s) := by
  unfold Machine.tryPush
  dsimp only
  split
  · split
    · exact ⟨rfl, rfl, rfl, rfl, rfl, rfl, rfl, rfl, rfl, rfl, List.length_set .., fun h => ⟨h, fun _ => rfl⟩⟩
    · exact refl _
  · exact refl _

theorem memRead {a : Word} {n : Nat} {k : AccessKind} {v : Word} (h : s.memRead a n k = some (v, t)) :
    s.Decodes t := by
  obtain ⟨e, hm⟩ := memRead_frame h
  refine ⟨?_, ?_, ?_, ?_, ?_, ?_, ?_, ?_, ?_, ?_, ?_, hm⟩ <;> rw [e] <;> rfl

theorem readOperand {op o : OperandRec} {size : Size} {family : Family} {v : Word}
    (h : s.readOperand op size family = some (v, o, t)) : s.Decodes t := by
  have load : ∀ {a : Word} {n : Nat} {k : AccessKind} {f : Word × State → Word × OperandRec × State},
      (∀ p : Word × State, p.2.Decodes (f p).2.2) → (s.memRead a n k).map f = some (v, o, t) → s.Decodes t := by
    intro a n k f hf e
    rw [Option.map_eq_some_iff] at e
    obtain ⟨⟨w, u⟩, e1, e2⟩ := e
    have := hf (w, u)
    rw [e2] at this
    exact (memRead e1).trans this
  unfold State.readOperand at h
  split at h
  · exact load (fun p => setIp p.2 _) h
  · split at h <;> cases h <;> exact refl _
  · exact load (fun p => refl p.2) h
  · exact load (fun p => refl p.2) h

end State.Decodes

/-- Reads of one tick end in a state that differs as a transition may, whether they fault or not. -/
def Fetched.Decodes {α : Type} (s : State) (r : Fetched α) : Prop :=
  (∀ t, r = .error t → s.Decodes t) ∧ ∀ a t, r = .ok (a, t) → s.Decodes t

namespace Fetched.Decodes

variable {s s1 : State} {α : Type}

theorem error {t : State} (h : s.Decodes t) : Fetched.Decodes s (.error t : Fetched α) :=
  ⟨fun _ e => by cases e; exact h, fun _ _ e => by cases e⟩

theorem ok {a : α} {t : State} (h : s.Decodes t) : Fetched.Decodes s (.ok (a, t) : Fetched α) :=
  ⟨fun _ e => (by cases e), fun _ _ e => by cases e; exact h⟩

theorem trans {r : Fetched α} (h : s.Decodes s1) (g : Fetched.Decodes s1 r) : Fetched.Decodes s r :=
  ⟨fun t e => h.trans (g.1 t e), fun a t e => h.trans (g.2 a t e)⟩

theorem fetch (s : State) (a : Word) (n : Nat) : Fetched.Decodes s (s.fetch a n) := by
  unfold State.fetch
  cases h : s.memRead a n .fetch with
  | none => exact error (.refl s)
  | some p => exact ok (State.Decodes.memRead h)

theorem fetchExt (s : State) (op : OperandRec) (p : Word) : Fetched.Decodes s (s.fetchExt op p) := by
  unfold State.fetchExt
  split
  · split
    · next h => exact error ((fetch _ _ _).1 _ h)
    · next h => exact ok ((fetch _ _ _).2 _ _ h)
  · split
    · exact ok (.refl s)
    · split
      · next h => exact error ((fetch _ _ _).1 _ h)
      · next h => exact ok ((fetch _ _ _).2 _ _ h)
  · exact ok (.refl s)

theorem fetchExts (s : State) (r : Record) : Fetched.Decodes s (s.fetchExts r) := by
  unfold State.fetchExts
  split
  · next h => exact error ((fetchExt _ _ _).1 _ h)
  · next h =>
    refine trans ((fetchExt _ _ _).2 _ _ h) ?_
    split
    · split
      · next h => exact error ((fetchExt _ _ _).1 _ h)
      · next h => exact ok ((fetchExt _ _ _).2 _ _ h)
    · exact ok (.refl _)

theorem fetchHead (s : State) (form : Form) : Fetched.Decodes s (s.fetchHead form) := by
  unfold State.fetchHead
  split
  · next h => exact error ((fetch _ _ _).1 _ h)
  · next h =>
    refine trans ((fetch _ _ _).2 _ _ h) ?_
    split
    · next h => exact error ((fetch _ _ _).1 _ h)
    · next h =>
      refine trans ((fetch _ _ _).2 _ _ h) ?_
      split
      · split
        · next h => exact error ((fetch _ _ _).1 _ h)
        · next h => exact ok ((fetch _ _ _).2 _ _ h)
      · exact ok (.refl _)

end Fetched.Decodes

/-- A transition differs as `State.Decodes` says; a raise is the end of `decodeFault` on such a state. -/
def DecodeOut.Decodes (s : State) (d : DecodeOut) : Prop :=
  (∀ t, d = .moved t → s.Decodes t) ∧
  ∀ t, d = .raised t → ∃ j e u, s.Decodes u ∧ decodeFault j e u = .raised t

namespace DecodeOut.Decodes

variable {s s1 : State}

theorem moved {t : State} (h : s.Decodes t) : DecodeOut.Decodes s (.moved t) :=
  ⟨fun _ e => by cases e; exact h, fun _ e => by cases e⟩

theorem refused {r : Refusal} : DecodeOut.Decodes s (.refused r) := ⟨fun _ e => (by cases e), fun _ e => by cases e⟩

theorem fault {u : State} (j : Nat) (e : Exc) (h : s.Decodes u) :
    DecodeOut.Decodes s (decodeFault j e u) := ⟨fun _ h' => (by cases h'), fun _ h' => ⟨j, e, u, h, h'⟩⟩

theorem trans {d : DecodeOut} (h : s.Decodes s1) (g : DecodeOut.Decodes s1 d) : DecodeOut.Decodes s d :=
  ⟨fun t e => h.trans (g.1 t e), fun t e =>
    let ⟨j, x, u, hu, he⟩ := g.2 t e
    ⟨j, x, u, h.trans hu, he⟩⟩

theorem finishSlot (j : Nat) (r : Record) (s : State) : DecodeOut.Decodes s (finishSlot j r s) :=
  moved ((State.Decodes.advanceSlot ..).trans (.tryPush ..))

theorem idleTickOperands (j : Nat) (b : Byte) (op : Opcode) (s : State) :
    DecodeOut.Decodes s (idleTickOperands j b op s) := by
  unfold Machine.idleTickOperands
  split
  · next h => exact fault j _ ((Fetched.Decodes.fetchHead _ _).1 _ h)
  · next h =>
    refine trans ((Fetched.Decodes.fetchHead _ _).2 _ _ h) ?_
    dsimp only
    split
    · exact fault j _ (.setIp ..)
    · exact moved ((State.Decodes.setIp ..).trans (.advanceSlot ..))

theorem idleTickOpcode (j : Nat) (b : Byte) (s : State) : DecodeOut.Decodes s (idleTickOpcode j b s) := by
  unfold Machine.idleTickOpcode
  dsimp only
  split
  · split
    · exact refused
    · exact fault j _ (.setIp ..)
  · split
    · exact fault j _ (.setIp ..)
    · split
      · exact trans (.setIp ..) (finishSlot ..)
      · exact idleTickOperands ..
      · exact idleTickOperands ..

theorem idleTick (j : Nat) (s : State) : DecodeOut.Decodes s (idleTick j s) := by
  refine trans (.startSlot s j) ?_
  unfold Machine.idleTick
  dsimp only
  split
  · next h => exact fault j _ ((Fetched.Decodes.fetch _ _ _).1 _ h)
  · next h => exact trans ((Fetched.Decodes.fetch _ _ _).2 _ _ h) (idleTickOpcode ..)

theorem decodeAddrModeTick (j : Nat) (s : State) : DecodeOut.Decodes s (decodeAddrModeTick j s) := by
  unfold Machine.decodeAddrModeTick
  split
  · next h => exact fault j _ ((Fetched.Decodes.fetchExts _ _).1 _ h)
  · next h =>
    exact trans ((Fetched.Decodes.fetchExts _ _).2 _ _ h)
      (moved ((State.Decodes.setIp ..).trans (.advanceSlot ..)))

theorem readMemDone (j : Nat) (op : Opcode) (r : Record) (s : State) :
    DecodeOut.Decodes s (readMemDone j op r s) := by
  unfold Machine.readMemDone
  split
  · exact moved (.advanceSlot ..)
  · exact finishSlot ..

theorem readMemTick (j : Nat) (s : State) : DecodeOut.Decodes s (readMemTick j s) := by
  unfold Machine.readMemTick readMemTickOf
  split
  · split
    · exact fault j _ (.refl s)
    · next h => exact trans (.readOperand h) (readMemDone ..)
  · split
    · split
      · exact fault j _ (.refl s)
      · next h => exact trans (.readOperand h) (readMemDone ..)
    · exact readMemDone ..

theorem twoOpDstReadMemTick (j : Nat) (s : State) : DecodeOut.Decodes s (twoOpDstReadMemTick j s) := by
  unfold Machine.twoOpDstReadMemTick
  dsimp only
  split
  · exact fault j _ (.refl s)
  · next h => exact trans (.readOperand h) (finishSlot ..)

theorem advance (j : Nat) (s : State) : DecodeOut.Decodes s (advance j s) := by
  unfold Machine.advance
  split
  · exact idleTick j s
  · exact decodeAddrModeTick j s
  · exact readMemTick j s
  · exact twoOpDstReadMemTick j s
  · exact moved (.tryPush ..)
  · exact refused

end DecodeOut.Decodes

/-- What the decoder phase can do (R162, R170). -/
theorem decoderPhase_decodes (s : State) : DecodeOut.Decodes s (decoderPhase s) := by
  unfold decoderPhase
  split
  · exact .advance _ s
  · split
    · exact .idleTick _ s
    · exact .moved (.refl s)

end Sys2Proof.Machine
end

