-- ==== Sys2Proof/Laws/HostOps.lean ====
section
/-! SUPPORT. Operations on one core of several (20_memory.md R100, 60_exceptions.md R353): moving the focus, and
what a host operation on a core leaves of the machine. -/

namespace Sys2Proof.Machine

/-- Focusing on the core that ticks changes nothing. -/
@[simp] theorem focus_self (s : State) : s.focus s.core.id = s := by simp [State.focus]

/-- Where the indices are distinct, the core of an index is found by it. -/
theorem find_core_of_distinct {l : List Core} {k : Core} (hn : (l.map fun k => k.id).Nodup) (hk : k ∈ l) :
    l.find? (fun p => decide (p.id = k.id)) = some k := by
  induction l with
  | nil => cases hk
  | cons x l ih =>
    simp only [List.map_cons, List.nodup_cons] at hn
    by_cases hx : x.id = k.id
    · rcases List.mem_cons.1 hk with rfl | h
      · simp
      · exact absurd (List.mem_map.2 ⟨k, h, hx.symm⟩) hn.1
    · rcases List.mem_cons.1 hk with rfl | h
      · exact absurd rfl hx
      · simp [hx, ih hn.2 h]

/-- A core put in the place of core `k` is found there by its index, if no other core has it. -/
theorem find_core_exchanged {l : List Core} {k c : Core} (hk : k ∈ l) (hc : ∀ q ∈ l, q.id ≠ c.id) :
    (l.map fun p => if p.id = k.id then c else p).find? (fun q => decide (q.id = c.id)) = some c := by
  induction l with
  | nil => cases hk
  | cons x l ih =>
    by_cases hx : x.id = k.id
    · simp [hx]
    · have : k ∈ l := (List.mem_cons.1 hk).resolve_left fun e => hx (e ▸ rfl)
      simp [hx, hc x (by simp), ih this fun q hq => hc q (by simp [hq])]

/-- Focusing on another core. -/
theorem focus_of_mem {s : State} {k : Core} (hd : s.CoresDistinct) (hk : k ∈ s.peers) :
    s.core.id ≠ k.id ∧
      s.focus k.id =
        { s with core := k, peers := s.peers.map fun p => if p.id = k.id then s.core else p } := by
  simp only [State.CoresDistinct, List.map_cons, List.nodup_cons] at hd
  have h : s.core.id ≠ k.id := fun e => hd.1 (List.mem_map.2 ⟨k, hk, e.symm⟩)
  exact ⟨h, by simp only [State.focus, if_neg h, find_core_of_distinct hd.2 hk]⟩

/-- A host operation that changes nothing but the core it is done to changes that core alone, whichever core
ticks. -/
theorem onCore_eq_mapCore {s : State} {c : Nat} {f : State → State} (hd : s.CoresDistinct)
    (hc : s.hasCore c = true) (hf : ∀ u, f u = { u with core := (f u).core })
    (hid : ∀ u, (f u).core.id = u.core.id)
    (hloc : ∀ u v : State, u.core = v.core → (f u).core = (f v).core) :
    s.onCore c f = .done (s.mapCore c f) [] := by
  unfold State.onCore
  rw [if_pos hc]
  congr 1
  by_cases h : s.core.id = c
  · subst h
    simp only [State.CoresDistinct, List.map_cons, List.nodup_cons] at hd
    rw [focus_self, ← hid s, focus_self, hid s, hf s, State.mapCore]
    have hm : (s.peers.map fun k => if k.id = s.core.id then (f { s with core := k }).core else k) =
        s.peers := by
      conv_rhs => rw [← List.map_id s.peers]
      exact List.map_congr_left fun k hk => if_neg fun e => hd.1 (List.mem_map.2 ⟨k, hk, e⟩)
    rw [hm]
    simp
  · obtain ⟨k, hk, rfl⟩ : ∃ k ∈ s.peers, k.id = c := by simpa [State.hasCore, h] using hc
    rw [(focus_of_mem hd hk).2, hf]
    simp only [State.CoresDistinct, List.map_cons, List.nodup_cons] at hd
    have hid' := hid { s with core := k, peers := s.peers.map fun p => if p.id = k.id then s.core else p }
    have hne : ∀ q ∈ s.peers, q.id ≠ s.core.id := fun q hq e => hd.1 (List.mem_map.2 ⟨q, hq, e⟩)
    simp only [State.focus, hid', if_neg (Ne.symm h), find_core_exchanged hk hne, State.mapCore, if_neg h,
      List.map_map]
    congr 1
    refine List.map_congr_left fun q hq => ?_
    simp only [Function.comp]
    by_cases e : q.id = k.id
    · have : q = k := by
        have := find_core_of_distinct hd.2 hq
        rw [e, find_core_of_distinct hd.2 hk] at this
        exact (Option.some.inj this).symm
      subst this
      rw [if_pos rfl, if_pos rfl, if_pos rfl]
      exact hloc _ _ rfl
    · rw [if_neg e, if_neg (hne q hq), if_neg e]

end Sys2Proof.Machine
end

