-- ==== Sys2Proof/Laws/PerInstr.lean ====
section
/-! SUPPORT. A statement for every instruction: its encoding has the length that R135 says, 20 bytes at
most. -/

namespace Sys2Proof

theorem Size.bytes_le (size : Size) : size.bytes ≤ 8 := by cases size <;> decide

namespace Operand

theorem length_extBytes (cfg : Config) (o : Operand) : (o.extBytes cfg).length = o.extLength := by
  rcases o with _ | _ | ⟨_, _ | _ | _⟩ | _ <;> simp [extBytes, extLength, length_split]

theorem length_immBytes (cfg : Config) (reads : Bool) (size : Size) (o : Operand) :
    (o.immBytes cfg reads size).length = o.immLength reads size := by
  cases o <;> cases reads <;> simp [immBytes, immLength, length_split]

theorem length_bytes_le (reads : Bool) (size : Size) (o : Operand) :
    o.extLength + o.immLength reads size ≤ 8 := by
  have := size.bytes_le
  rcases o with _ | _ | ⟨_, _ | _ | _⟩ | _ <;> cases reads <;> simp [extLength, immLength, this]

end Operand

namespace Laws.EncodedLength

/-- R135. -/
def Statement (i : Instr) : Prop :=
  (∀ cfg : Config, (encode cfg i).length = i.length) ∧ 1 ≤ i.length ∧ i.length ≤ 20

/-- An instruction of two operands. -/
theorem of_two {i : Instr} {dst src : Operand} (h1 : i.first = some dst) (h2 : i.second = some src) :
    Statement i := by
  have hd := Operand.length_bytes_le i.opcode.readsDst i.size dst
  have hs := Operand.length_bytes_le true i.size src
  refine ⟨fun cfg => ?_, ?_, ?_⟩
  · simp only [encode, Instr.length, h1, h2, List.length_append, Operand.length_extBytes,
      Operand.length_immBytes, List.length_cons, List.length_nil]
    omega
  · simp only [Instr.length, h1, h2]; omega
  · simp only [Instr.length, h1, h2]; omega

/-- An instruction of one operand. -/
theorem of_one {i : Instr} {op : Operand} (h1 : i.first = some op) (h2 : i.second = none) :
    Statement i := by
  have ho := Operand.length_bytes_le i.opcode.readsOperand i.size op
  refine ⟨fun cfg => ?_, ?_, ?_⟩
  · simp only [encode, Instr.length, h1, h2, List.length_append, Operand.length_extBytes,
      Operand.length_immBytes, List.length_cons, List.length_nil]
    omega
  · simp only [Instr.length, h1, h2]; omega
  · simp only [Instr.length, h1, h2]; omega

/-- An instruction without an operand. -/
theorem of_none {i : Instr} (h1 : i.first = none) : Statement i := by
  refine ⟨fun cfg => ?_, ?_, ?_⟩ <;> simp [encode, Instr.length, h1]

theorem brk : Statement .brk := of_none rfl
theorem nop : Statement .nop := of_none rfl
theorem mov (size : Size) (dst src : Operand) : Statement (.mov size dst src) := of_two rfl rfl
theorem movCr (dst src : Operand) : Statement (.movCr dst src) := of_two rfl rfl
theorem add (size : Size) (dst src : Operand) : Statement (.add size dst src) := of_two rfl rfl
theorem sub (size : Size) (dst src : Operand) : Statement (.sub size dst src) := of_two rfl rfl
theorem cmp (size : Size) (dst src : Operand) : Statement (.cmp size dst src) := of_two rfl rfl
theorem asl (size : Size) (dst src : Operand) : Statement (.asl size dst src) := of_two rfl rfl
theorem asr (size : Size) (dst src : Operand) : Statement (.asr size dst src) := of_two rfl rfl
theorem lsl (size : Size) (dst src : Operand) : Statement (.lsl size dst src) := of_two rfl rfl
theorem lsr (size : Size) (dst src : Operand) : Statement (.lsr size dst src) := of_two rfl rfl
theorem push (size : Size) (op : Operand) : Statement (.push size op) := of_one rfl rfl
theorem pop (size : Size) (op : Operand) : Statement (.pop size op) := of_one rfl rfl
theorem bra (size : Size) (op : Operand) : Statement (.bra size op) := of_one rfl rfl
theorem beq (size : Size) (op : Operand) : Statement (.beq size op) := of_one rfl rfl
theorem bne (size : Size) (op : Operand) : Statement (.bne size op) := of_one rfl rfl
theorem bcs (size : Size) (op : Operand) : Statement (.bcs size op) := of_one rfl rfl
theorem bcc (size : Size) (op : Operand) : Statement (.bcc size op) := of_one rfl rfl
theorem bmi (size : Size) (op : Operand) : Statement (.bmi size op) := of_one rfl rfl
theorem bpl (size : Size) (op : Operand) : Statement (.bpl size op) := of_one rfl rfl
theorem bvs (size : Size) (op : Operand) : Statement (.bvs size op) := of_one rfl rfl
theorem bvc (size : Size) (op : Operand) : Statement (.bvc size op) := of_one rfl rfl
theorem call (size : Size) (op : Operand) : Statement (.call size op) := of_one rfl rfl
theorem ret : Statement .ret := of_none rfl
theorem rti : Statement .rti := of_none rfl
theorem rte : Statement .rte := of_none rfl
theorem sys : Statement .sys := of_none rfl

end Laws.EncodedLength

end Sys2Proof
end

