-- ==== Sys2Proof/Laws/Tick.lean ====
section
/-! SUPPORT. The tick and the step (40_decode_pipeline.md R190, R191): what each can do, said once, and the
induction over the ticks of a step. -/

namespace Sys2Proof.Machine

variable {s t : State}

/-- What a tick that goes on did (R190). -/
theorem tickReport_cases {u : Ticked} (h : tickReport s = .next u) :
    s.cfg.wf = true ∧ s.cfg.queueOk s.core.queue = true ∧
    ((s.halted = true ∧ u = ⟨s, true⟩) ∨
      (s.halted = false ∧ ∃ s1, executorPhase s.markTicked = .next s1 ∧
        ((s1.halted = true ∧ u = ⟨s1, true⟩) ∨
          (s1.halted = false ∧ (interruptPhase s1).halted = true ∧ u = ⟨interruptPhase s1, true⟩) ∨
          (s1.halted = false ∧ (interruptPhase s1).halted = false ∧
            ((∃ t, decoderPhase (interruptPhase s1) = .moved t ∧
                u = ⟨t, (!s.core.queue.isEmpty) || t.halted⟩) ∨
              ∃ t, decoderPhase (interruptPhase s1) = .raised t ∧ u = ⟨t, true⟩))))) := by
  unfold tickReport at h
  cases hw : s.cfg.wf with
  | false => simp [hw] at h
  | true =>
    cases hq : s.cfg.queueOk s.core.queue with
    | false => simp [hw, hq] at h
    | true =>
      refine ⟨rfl, rfl, ?_⟩
      cases hh : s.halted with
      | true => simp [hw, hq, hh] at h; exact .inl ⟨rfl, h.symm⟩
      | false =>
        simp only [hw, hq, hh, Bool.not_true, Bool.false_eq_true, if_false] at h
        refine .inr ⟨rfl, ?_⟩
        cases he : executorPhase s.markTicked with
        | fault f => simp [he] at h
        | refused f => simp [he] at h
        | next s1 =>
          refine ⟨s1, rfl, ?_⟩
          simp only [he, tickAfterExec] at h
          cases h1 : s1.halted with
          | true => simp [h1] at h; exact .inl ⟨rfl, h.symm⟩
          | false =>
            simp only [h1, Bool.false_eq_true, if_false] at h
            right
            cases h2 : (interruptPhase s1).halted with
            | true => simp [h2] at h; exact .inl ⟨rfl, rfl, h.symm⟩
            | false =>
              simp only [h2, Bool.false_eq_true, if_false, tickDecoder] at h
              refine .inr ⟨rfl, rfl, ?_⟩
              cases hd : decoderPhase (interruptPhase s1) with
              | moved t => simp only [hd, Host.Outcome.next.injEq] at h; exact .inl ⟨t, rfl, h.symm⟩
              | raised t => simp only [hd, Host.Outcome.next.injEq] at h; exact .inr ⟨t, rfl, h.symm⟩
              | refused r => simp [hd] at h

/-- What holds of every tick's end and is kept by every tick holds of a step's end. -/
theorem stepTicks_induction {P : State → Prop}
    (hP : ∀ s u, P s → tickReport s = .next u → P u.state) (fuel : Nat) :
    ∀ {s t : State}, P s → stepTicks fuel s = .next t → P t := by
  induction fuel with
  | zero => intro s t _ h; simp [stepTicks] at h
  | succ fuel ih =>
    intro s t hs h
    unfold stepTicks at h
    cases ht : tickReport s with
    | fault f => simp [ht] at h
    | refused f => simp [ht] at h
    | next u =>
      simp only [ht] at h
      cases he : u.ended with
      | true => simp [he] at h; exact h ▸ hP s u hs ht
      | false => simp only [he, Bool.false_eq_true, if_false] at h; exact ih (hP s u hs ht) h

/-- The induction over the ticks of a step. -/
theorem step_induction {P : State → Prop} (hP : ∀ s u, P s → tickReport s = .next u → P u.state)
    (hs : P s) (h : step s = .next t) : P t := stepTicks_induction hP stepFuel hs h

/-- What the executor phase can do (R178). -/
theorem executorPhase_cases (h : executorPhase s = .next t) :
    (s.core.queue = [] ∧ t = s) ∨
      ∃ e q, s.core.queue = e :: q ∧ e.tag = 0 ∧ runRecord e.record (s.latch e.record q) = .next t := by
  unfold executorPhase at h
  cases hq : s.core.queue with
  | nil => rw [hq] at h; simp [peek] at h; exact .inl ⟨rfl, h.symm⟩
  | cons e q =>
    rw [hq] at h
    simp only [peek, popEntry, if_true] at h
    by_cases ht : e.tag = 0
    · rw [if_neg (by simp [ht])] at h
      exact .inr ⟨e, q, rfl, ht, h⟩
    · rw [if_pos ht] at h; cases h

/-- What the interrupt phase can do (R333). -/
theorem interruptPhase_cases (s : State) :
    interruptPhase s = s ∨ ∃ i, s.pendingLine = some i ∧ interruptPhase s = s.enterIsr i := by
  unfold interruptPhase
  cases h : s.pendingLine with
  | none => exact .inl rfl
  | some i => exact .inr ⟨i, rfl, rfl⟩

end Sys2Proof.Machine
end

