-- ==== Sys2Proof/Tests/Slice0.lean ====
section
/-! SUPPORT. Tests: what the checks of well-formedness refuse, the decoding of words written out from
30_encoding.md, single steps whose results are worked out in 95_test_vectors.md, and for every statement
with hypotheses a state that meets them. -/

set_option Elab.async false
set_option synthInstance.maxSize 10000
set_option synthInstance.maxHeartbeats 400000
set_option maxHeartbeats 1000000

namespace Sys2Proof.Tests

open Sys2Proof.Machine

/-! ### Well-formedness: what each check refuses -/

theorem test_wf_mov_accepts :
    (Instr.mov .b (.immediate 0 0) (.immediate 0 0xFF)).wellFormed = true := by decide

theorem test_wf_mov_refuses_wide_source :
    (Instr.mov .b (.register 0) (.immediate 0 0x100)).wellFormed = false := by decide

theorem test_wf_mov_refuses_unread_destination :
    (Instr.mov .b (.immediate 0 1) (.register 0)).wellFormed = false := by decide

theorem test_wf_movCr_refuses_unread_destination :
    (Instr.movCr (.immediate 0 1) (.register 0)).wellFormed = false := by decide

theorem test_wf_add_refuses_wide_destination :
    (Instr.add .w (.immediate 0 0x10000) (.register 0)).wellFormed = false := by decide

theorem test_wf_lsr_refuses_wide_source :
    (Instr.lsr .d (.register 0) (.immediate 0 0x100000000)).wellFormed = false := by decide

theorem test_wf_pop_refuses_unread_operand :
    (Instr.pop .l (.immediate 0 5)).wellFormed = false := by decide

theorem test_wf_push_refuses_wide_operand :
    (Instr.push .b (.immediate 0 0x100)).wellFormed = false := by decide

theorem test_wf_bra_refuses_wide_operand :
    (Instr.bra .w (.immediate 0 0x10000)).wellFormed = false := by decide

/-! ### Decoding: bytes written out from the encoding rules (R121 to R136, 95_test_vectors.md) -/

theorem test_decode_brk :
    decode Config.default [0x00] =
      .ok (.brk, []) := by decide

theorem test_decode_nop :
    decode Config.default [0x01] =
      .ok (.nop, []) := by decide

theorem test_decode_mov :
    decode Config.default [0x20, 0x01, 0x13, 0x01, 0xBE, 0xEF] =
      .ok (.mov .w (.register 1) (.immediate 0 0xBEEF), []) := by decide

theorem test_decode_mov_indexed :
    decode Config.default [0x20, 0x01, 0x43, 0x86, 0x51] =
      .ok (.mov .w (.register 4) (.indirect 8 (.registerRelative 5 1)), []) := by decide

theorem test_decode_mov_displaced :
    decode Config.default [0x20, 0x01, 0x43, 0x8A, 0xFE] =
      .ok (.mov .w (.register 4) (.indirect 8 (.absoluteRelative 0xFE)), []) := by decide

theorem test_decode_movCr :
    decode Config.default [0x20, 0x13, 0x83, 0x53] =
      .ok (.movCr (.register 8) (.register 5), []) := by decide

theorem test_decode_add :
    decode Config.default [0x21, 0x00, 0x00, 0x01, 0x00, 0x00, 0x00, 0x00, 0x00, 0x00, 0x20, 0x00, 0x01] =
      .ok (.add .b (.absolute 0 0x2000) (.immediate 0 1), []) := by decide

theorem test_decode_sub :
    decode Config.default [0x22, 0x00, 0x82, 0x13] =
      .ok (.sub .b (.indirect 8 .none) (.register 1), []) := by decide

theorem test_decode_cmp :
    decode Config.default [0x23, 0x03, 0x03, 0x13] =
      .ok (.cmp .l (.register 0) (.register 1), []) := by decide

theorem test_decode_asl :
    decode Config.default [0x30, 0x00, 0x03, 0x01, 0x01] =
      .ok (.asl .b (.register 0) (.immediate 0 1), []) := by decide

theorem test_decode_asr :
    decode Config.default [0x31, 0x01, 0x03, 0x01, 0x00, 0x01] =
      .ok (.asr .w (.register 0) (.immediate 0 1), []) := by decide

theorem test_decode_lsl :
    decode Config.default [0x32, 0x02, 0x03, 0x13] =
      .ok (.lsl .d (.register 0) (.register 1), []) := by decide

theorem test_decode_lsr :
    decode Config.default [0x33, 0x03, 0x03, 0x13] =
      .ok (.lsr .l (.register 0) (.register 1), []) := by decide

theorem test_decode_push :
    decode Config.default [0x40, 0x00, 0x01, 0x07] =
      .ok (.push .b (.immediate 0 7), []) := by decide

theorem test_decode_pop :
    decode Config.default [0x41, 0x03, 0xF3] =
      .ok (.pop .l (.register 15), []) := by decide

theorem test_decode_bra :
    decode Config.default [0x50, 0x00, 0x01, 0x10] =
      .ok (.bra .b (.immediate 0 0x10), []) := by decide

theorem test_decode_beq :
    decode Config.default [0x51, 0x00, 0x03] =
      .ok (.beq .b (.register 0), []) := by decide

theorem test_decode_bne :
    decode Config.default [0x52, 0x00, 0x01, 0xF2] =
      .ok (.bne .b (.immediate 0 0xF2), []) := by decide

theorem test_decode_bcs :
    decode Config.default [0x53, 0x00, 0x01, 0x10] =
      .ok (.bcs .b (.immediate 0 0x10), []) := by decide

theorem test_decode_bcc :
    decode Config.default [0x54, 0x00, 0x01, 0x10] =
      .ok (.bcc .b (.immediate 0 0x10), []) := by decide

theorem test_decode_bmi :
    decode Config.default [0x55, 0x01, 0x01, 0x01, 0x00] =
      .ok (.bmi .w (.immediate 0 0x100), []) := by decide

theorem test_decode_bpl :
    decode Config.default [0x56, 0x00, 0x01, 0x10] =
      .ok (.bpl .b (.immediate 0 0x10), []) := by decide

theorem test_decode_bvs :
    decode Config.default [0x57, 0x00, 0x01, 0x10] =
      .ok (.bvs .b (.immediate 0 0x10), []) := by decide

theorem test_decode_bvc :
    decode Config.default [0x58, 0x03, 0x33] =
      .ok (.bvc .l (.register 3), []) := by decide

theorem test_decode_call :
    decode Config.default [0x60, 0x03, 0x01, 0x00, 0x00, 0x00, 0x00, 0x00, 0x00, 0x20, 0x00] =
      .ok (.call .l (.immediate 0 0x2000), []) := by decide

theorem test_decode_ret :
    decode Config.default [0x61] =
      .ok (.ret, []) := by decide

theorem test_decode_rti :
    decode Config.default [0x62] =
      .ok (.rti, []) := by decide

theorem test_decode_rte :
    decode Config.default [0x63] =
      .ok (.rte, []) := by decide

theorem test_decode_sys :
    decode Config.default [0x70] =
      .ok (.sys, []) := by decide

/-- The bits of two adjacent table rows: the word of MOV_CR is not read as MOV. -/
theorem test_decode_table_word :
    decodeTableWord 8 0x61 = some .ret ∧
      decodeTableWord 16 0x2013 = some (.movCr (.absolute 0 0) (.absolute 0 0)) ∧
      decodeTableWord 16 0x2001 = some (.mov .w (.absolute 0 0) (.absolute 0 0)) := by decide

theorem test_decode_refuses :
    decode Config.default [0x02] = .error (.unknownOpcode 0x02) ∧
    decode Config.default [0xF3] = .error (.unregisteredExtension 0xF3) ∧
    decode Config.default [0x20, 0x04, 0x03, 0x01] = .error .reservedMetadata ∧
    decode Config.default [0x20, 0x20, 0x03, 0x01] = .error .illegalFamily ∧
    decode Config.default [0x21, 0x13, 0x03, 0x01] = .error .controlNotMov ∧
    decode Config.default [0x20, 0x10, 0x03, 0x83] = .error .controlNotLong ∧
    decode Config.default [0x20, 0x00, 0x0E, 0x01] = .error .reservedRelative ∧
    decode Config.default [0x20, 0x00, 0x07, 0x01] = .error .relativeNotIndirect ∧
    decode Config.default [0x20, 0x00] = .error .truncated := by decide

/-! ### Steps -/

/-- The boot state of 95_test_vectors.md with its code at 0x1000: sp = initialSp = 0x8000, IP = 0x1000. -/
def boot (code : List Byte) : State :=
  let s := (State.reset.setSp 0x8000).setIp 0x1000
  { s with
    core := { s.core with initialSp := 0x8000 }
    sys := { s.sys with mem := s.sys.mem.writeRange 0x1000 code } }

/-- `boot` with bytes `data` at 0x2000. -/
def bootWith (code data : List Byte) : State :=
  let s := boot code
  s.setSys { s.sys with mem := s.sys.mem.writeRange 0x2000 data }

/-- What `f` sees in the state after a step; nothing where the step stops. -/
def after {α : Type} (s : State) (f : State → α) : Option α :=
  match step s with
  | .next t => some (f t)
  | _ => none

/-- The flags in the order C V Z N X H. -/
def fl (c v z n x h : Bool) : Flags := { c := c, v := v, z := z, n := n, x := x, h := h }

/-- V1. -/
theorem test_mov_keeps_upper_bits :
    after ((boot [0x20, 0x01, 0x13, 0x01, 0xBE, 0xEF]).setReg 1 0x1111111111111111) (fun t => (t.reg 1, t.flags)) =
      some (0x111111111111BEEF, fl false false false false false false) := by decide +kernel

/-- V11. -/
theorem test_mov_stores_big_endian :
    after ((boot [0x20, 0x02, 0x00, 0x33, 0x00, 0x00, 0x00, 0x00, 0x00, 0x00, 0x20, 0x00]).setReg 3 0xAABBCCDD11223344) (fun t => t.bytesAt 0x1FFF 6) =
      some [0, 0x11, 0x22, 0x33, 0x44, 0] := by decide +kernel

/-- V5. -/
theorem test_movCr_drops_upper_bits :
    after (boot [0x20, 0x13, 0x03, 0x01, 0x00, 0x00, 0x00, 0x00, 0x00, 0x00, 0x01, 0xFF]) (fun t => (t.cr 0, t.reg 0)) =
      some (0xFF, 0) := by decide +kernel

/-- V8. -/
theorem test_movCr_status_is_read_only :
    after ((boot [0x20, 0x13, 0x23, 0x83]).setReg 0 0xFFFF) (fun t => t.cr 2) =
      some 0 := by decide +kernel

/-- 95_test_vectors.md section 2.2, first row. -/
theorem test_add_signed_overflow :
    after ((boot [0x21, 0x00, 0x03, 0x01, 0x01]).setReg 0 0x127F) (fun t => (t.reg 0, t.flags)) =
      some (0x1280, fl false true false true false false) := by decide +kernel

/-- V23. -/
theorem test_add_memory_destination :
    after (bootWith [0x21, 0x00, 0x00, 0x01, 0x00, 0x00, 0x00, 0x00, 0x00, 0x00, 0x20, 0x00, 0x01] [0xFF]) (fun t => (t.byteAt 0x2000, t.flags)) =
      some (0x00, fl true false true false true false) := by decide +kernel

/-- V19. -/
theorem test_sub_borrow :
    after (((boot [0x22, 0x02, 0x03, 0x13]).setReg 0 1).setReg 1 2) (fun t => (t.reg 0, t.flags)) =
      some (0xFFFFFFFF, fl true false false true true false) := by decide +kernel

/-- V21. -/
theorem test_cmp_keeps_destination :
    after (((boot [0x23, 0x03, 0x03, 0x13]).setReg 0 1).setReg 1 2) (fun t => (t.reg 0, t.flags)) =
      some (1, fl true false false true true false) := by decide +kernel

/-- 95_test_vectors.md section 2.3, row 0x01 by 9. -/
theorem test_asl_sign_change :
    after ((boot [0x30, 0x00, 0x03, 0x01, 0x09]).setReg 0 0x01) (fun t => (t.reg 0, t.flags)) =
      some (0, fl false true true false false false) := by decide +kernel

/-- 95_test_vectors.md section 2.3, row 0x80 by 20. -/
theorem test_asr_past_width :
    after ((boot [0x31, 0x00, 0x03, 0x01, 0x14]).setReg 0 0x80) (fun t => (t.reg 0, t.flags)) =
      some (0xFF, fl true false false true true false) := by decide +kernel

/-- 95_test_vectors.md section 2.3, row 0x01 by 8. -/
theorem test_lsl_carry :
    after ((boot [0x32, 0x00, 0x03, 0x01, 0x08]).setReg 0 0x01) (fun t => (t.reg 0, t.flags)) =
      some (0, fl true false true false true false) := by decide +kernel

/-- V26. -/
theorem test_lsr_by_63 :
    after (((boot [0x33, 0x03, 0x03, 0x13]).setReg 0 0x8000000000000000).setReg 1 63) (fun t => (t.reg 0, t.flags)) =
      some (1, fl false false false false false false) := by decide +kernel

/-- V25, its second instruction. -/
theorem test_shift_by_zero_keeps_x :
    after (((boot [0x30, 0x00, 0x03, 0x01, 0x00]).setReg 0 0x02).setFlags (fl true true false false true false)) (fun t => (t.reg 0, t.flags)) =
      some (2, fl false false false false true false) := by decide +kernel

/-- V35. -/
theorem test_push :
    after ((boot [0x40, 0x03, 0x03]).setReg 0 0x1122334455667788) (fun t => (t.sp, t.bytesAt 0x7FF8 8)) =
      some (0x7FF8, [0x11, 0x22, 0x33, 0x44, 0x55, 0x66, 0x77, 0x88]) := by decide +kernel

/-- V40. -/
theorem test_push_faults :
    after ((boot [0x40, 0x03, 0x03]).setSp 0) (fun t => (t.sp, t.flags.h, t.cr 2)) =
      some (0, true, 0x200) := by decide +kernel

/-- V38, its second instruction. -/
theorem test_pop_into_sp :
    after ((bootWith [0x41, 0x03, 0xF3] [0x00, 0x00, 0x00, 0x00, 0x00, 0x00, 0x77, 0x77]).setSp 0x2000) (fun t => t.sp) =
      some 0x7777 := by decide +kernel

/-- V39. -/
theorem test_pop_immediate_faults :
    after (boot [0x41, 0x00, 0x01, 0x05]) (fun t => (t.sp, t.flags.h, t.cr 2, t.ip)) =
      some (0x8000, true, 0x100, 0x1003) := by decide +kernel

/-! A branch's step ends with the Idle decode tick of the next instruction, whose opcode byte, BRK, moves
IP one further. -/

/-- V29: IP = 0x1000, then the three head bytes of the branch itself. -/
theorem test_bra_back :
    after (boot [0x50, 0x00, 0x01, 0xFC]) (fun t => t.ip) =
      some 0x1003 := by decide +kernel

/-- V30. -/
theorem test_bmi_not_taken :
    after (boot [0x55, 0x01, 0x01, 0x01, 0x00]) (fun t => t.ip) =
      some 0x1006 := by decide +kernel

/-- V30 with N set. -/
theorem test_bmi_taken :
    after ((boot [0x55, 0x01, 0x01, 0x01, 0x00]).setFlags (fl false false false true false false)) (fun t => t.ip) =
      some 0x1106 := by decide +kernel

/-- R262. -/
theorem test_beq_taken :
    after ((boot [0x51, 0x00, 0x01, 0x10]).setFlags (fl false false true false false false)) (fun t => t.ip) =
      some 0x1015 := by decide +kernel

/-- V34, its second instruction. -/
theorem test_bne_not_taken :
    after ((boot [0x52, 0x00, 0x01, 0x10]).setFlags (fl false false true false false false)) (fun t => t.ip) =
      some 0x1005 := by decide +kernel

/-- V33, its second instruction. -/
theorem test_bcs_taken :
    after ((boot [0x53, 0x00, 0x01, 0x10]).setFlags (fl true false false false false false)) (fun t => t.ip) =
      some 0x1015 := by decide +kernel

/-- R265. -/
theorem test_bcc_not_taken :
    after ((boot [0x54, 0x00, 0x01, 0x10]).setFlags (fl true false false false false false)) (fun t => t.ip) =
      some 0x1005 := by decide +kernel

/-- R267. -/
theorem test_bpl_taken :
    after (boot [0x56, 0x00, 0x01, 0x10]) (fun t => t.ip) =
      some 0x1015 := by decide +kernel

/-- R268. -/
theorem test_bvs_taken :
    after ((boot [0x57, 0x00, 0x01, 0x10]).setFlags (fl false true false false false false)) (fun t => t.ip) =
      some 0x1015 := by decide +kernel

/-- R269: 0x100B + 0x4000. -/
theorem test_bvc_taken :
    after (boot [0x58, 0x03, 0x01, 0x00, 0x00, 0x00, 0x00, 0x00, 0x00, 0x40, 0x00]) (fun t => t.ip) =
      some 0x500C := by decide +kernel

/-- V44, with the opcode byte at 0x1001, NOP, decoded. -/
theorem test_call_relative :
    after (boot [0x60, 0x01, 0x01, 0xFF, 0xFC]) (fun t => (t.sp, t.ip, t.bytesAt 0x7FF8 8)) =
      some (0x7FF8, 0x1002, [0, 0, 0, 0, 0, 0, 0x10, 0x05]) := by decide +kernel

/-- V42, with the opcode byte at 0x2000 decoded. -/
theorem test_call_absolute :
    after (boot [0x60, 0x03, 0x01, 0x00, 0x00, 0x00, 0x00, 0x00, 0x00, 0x20, 0x00]) (fun t => (t.sp, t.ip, t.bytesAt 0x7FF8 8)) =
      some (0x7FF8, 0x2001, [0, 0, 0, 0, 0, 0, 0x10, 0x0B]) := by decide +kernel

/-- V45. -/
theorem test_ret_empty_stack :
    after (boot [0x61]) (fun t => (t.sp, t.flags.h, t.cr 2, t.ip)) =
      some (0x8000, true, 0x100, 0x1001) := by decide +kernel

/-- R283, with the opcode byte at 0x1004 decoded. -/
theorem test_ret :
    after ((bootWith [0x61] [0x00, 0x00, 0x00, 0x00, 0x00, 0x00, 0x10, 0x04]).setSp 0x2000) (fun t => (t.sp, t.ip)) =
      some (0x2008, 0x1005) := by decide +kernel

/-- V46, with the opcode byte at 0x1001 decoded. -/
theorem test_nop :
    after (boot [0x01]) (fun t => (t.ip, t.flags)) =
      some (0x1002, fl false false false false false false) := by decide +kernel

/-- V47. -/
theorem test_brk :
    after (boot [0x00]) (fun t => (t.ip, t.flags, t.cr 2)) =
      some (0x1001, fl false false false false false true, 0) := by decide +kernel

/-- S4. -/
theorem test_rti_without_handler :
    after ((boot [0x62]).setReg 0 3) (fun t => (t.reg 0, t.ip, t.flags.h, t.cr 2)) =
      some (3, 0x1001, true, 0x100) := by decide +kernel

/-- V48. -/
theorem test_rte_without_handler :
    after (boot [0x63]) (fun t => (t.ip, t.flags.h, t.cr 2)) =
      some (0x1001, true, 0x100) := by decide +kernel

/-- V49. -/
theorem test_sys_without_handler :
    after ((boot [0x70]).setReg 0 9) (fun t => (t.ip, t.flags.h, t.cr 2)) =
      some (0x1001, true, 0) := by decide +kernel

/-- V24. -/
theorem test_add_immediate_destination_faults :
    after (boot [0x21, 0x00, 0x01, 0x01, 0x04, 0x03]) (fun t => (t.ip, t.flags.h, t.cr 2)) =
      some (0x1006, true, 0x100) := by decide +kernel

/-- V51. -/
theorem test_unknown_opcode :
    after (boot [0x02]) (fun t => (t.ip, t.flags.h, t.cr 2)) =
      some (0x1001, true, 0) := by decide +kernel

/-- V55. -/
theorem test_malformed_encoding :
    after (boot [0x20, 0x00, 0x07, 0x01]) (fun t => (t.ip, t.flags.h, t.cr 2)) =
      some (0x1004, true, 0) := by decide +kernel

/-- V57. -/
theorem test_decode_memory_fault :
    after (boot [0x20, 0x00, 0x03, 0x00, 0x00, 0x00, 0x00, 0x00, 0x00, 0x20, 0x00, 0x00]) (fun t => (t.ip, t.flags.h, t.cr 2)) =
      some (0x100C, true, 0x200) := by decide +kernel

/-- The boot state with handlers at 0x1200 for HardFault (vector 0x18) and 0x1100 for line 2 (vector 0x50),
both enabled, RTE at the first and RTI at the second. -/
def handlers (code : List Byte) : State :=
  let s := ((boot code).writeCr 0 0x04).writeCr 1 0x02
  let mem := ((s.sys.mem.writeRange 0x18 [0, 0, 0, 0, 0, 0, 0x12, 0]).writeRange 0x50
    [0, 0, 0, 0, 0, 0, 0x11, 0]).writeRange 0x1100 [0x62]
  { s with sys := { s.sys with mem := mem.writeRange 0x1200 [0x63], caches := [List.replicate 8 (Line.invalid 64 0)] } }

/-- P5: the entry of HardFault saves IP and STATUS and goes to the vector's address, whose opcode byte the
same tick decodes. -/
theorem test_exception_entry :
    after (handlers [0x21, 0x00, 0x01, 0x01, 0x04, 0x03])
        (fun t => (t.ip, t.cr 2, t.halted, t.core.exc.phase.snapshot.map fun f => (f.ip, f.getCr 2))) =
      some (0x1201, 0x102, false, some (0x1006, 0x100)) := by decide +kernel

/-- P5: RTE restores the snapshot, with EXC_ID as recorded at the raise. -/
theorem test_rte :
    (match step (handlers [0x21, 0x00, 0x01, 0x01, 0x04, 0x03]) with
      | .next t => after (t.setReg 0 0x100) fun u => (u.reg 0, u.ip, u.cr 2, u.core.exc)
      | _ => none) =
      some (0, 0x1007, 0x100, { phase := .idle, id := 1 }) := by decide +kernel

/-- S3: RaiseInterrupt on an enabled line; the step enters the ISR and runs its first instruction, RTI. -/
theorem test_interrupt_entry :
    (interruptPhase ((handlers [0x01]).raiseLine 2)).regs =
      ((((handlers [0x01]).raiseLine 2).setIp 0x1100).setCr 2 0x21).regs ∧
    after ((handlers [0x01]).raiseLine 2) (fun t => (t.ip, t.cr 2, t.isrBlock 2)) =
      some (0x1001, 0, .waiting) := by decide +kernel

/-- S3: a raise of a disabled line is lost. -/
theorem test_interrupt_disabled : (boot []).raiseLine 2 = boot [] := by decide +kernel

/-- S2, S5: a write that crosses a line boundary is in the caches before a Flush, in RAM after it. -/
theorem test_write_across_lines :
    ((boot []).memWrite 124 8 0x0102030405060708).map (fun t =>
        (t.bytesAt 120 16, t.sys.mem.readRange 120 16, (flush 0 t.sys).mem.readRange 120 16)) =
      some ([0, 0, 0, 0, 1, 2, 3, 4, 5, 6, 7, 8, 0, 0, 0, 0], List.replicate 16 0,
        [0, 0, 0, 0, 1, 2, 3, 4, 5, 6, 7, 8, 0, 0, 0, 0]) := by decide +kernel

/-- The state after reset is the machine at power-on after ResetSystem (R373). -/
theorem test_reset_is_resetSystem :
    (State.powerOn Config.default).resetSystem = State.reset := by decide +kernel

/-- The word of a table row placed where the step fetches runs as the first instruction after reset. -/
theorem test_withFetchWord :
    (after (State.reset.withFetchWord 8 0x00) fun t => (t.halted, t.ip)) = some (true, 1) ∧
    (after (State.reset.withFetchWord 16 0x6000) fun t => (t.halted, t.cr 2)) = some (true, 0x200) := by
  decide +kernel
/-! ### States that meet the hypotheses of the statements

One theorem for every statement of Certificates/Slice0/Obligations.lean that has hypotheses, or clauses that
its states decide between, at the values where they meet. -/

/-- The outcome is a next state. -/
def goesOn (s : State) : Bool :=
  match step s with
  | .next _ => true
  | _ => false

theorem exists_of_goesOn {s : State} (h : goesOn s = true) : ∃ t, step s = .next t := by
  unfold goesOn at h
  cases e : step s with
  | next t => exact ⟨t, rfl⟩
  | fault f => rw [e] at h; cases h
  | refused r => rw [e] at h; cases h

/-- An outcome that goes on. -/
def nextOf (r : Host.Outcome State Fault Refusal) : Bool :=
  match r with
  | .next _ => true
  | _ => false

theorem exists_of_nextOf {r : Host.Outcome State Fault Refusal} (h : nextOf r = true) :
    ∃ t, r = .next t := by
  cases r with
  | next t => exact ⟨t, rfl⟩
  | fault f => cases h
  | refused x => cases h

/-! #### Encoding -/

theorem witness_DecodeOfEncode :
    Config.default.codesOk = true ∧
    (Instr.add .l (.immediate 5 0xFFFFFFFFFFFFFFFF) (.indirect 15 (.registerRelative 15 15))).wellFormed =
      true ∧
    (Instr.pop .b (.immediate 0 0)).wellFormed = true := by decide

theorem witness_EncodeOfDecode :
    Config.default.codesOk = true ∧ Config.default.opcodeMap = Config.rootOpcodes ∧
    decode Config.default [0x22, 0x00, 0x82, 0x13, 0x01] =
      .ok (.sub .b (.indirect 8 .none) (.register 1), [0x01]) := by decide

theorem witness_DecodedLength :
    decode Config.default ([0x20, 0x03, 0x00, 0x00] ++ List.replicate 17 0) =
      .ok (.mov .l (.absolute 0 0) (.absolute 0 0), [0]) := by decide

theorem witness_UnknownOpcodes :
    [0x02, 0x1F, 0x24, 0x2F, 0x34, 0x3F, 0x42, 0x4F, 0x59, 0x5F, 0x64, 0x6F, 0x71, 0xEF].all
        (fun b => decide (decode Config.default [b] = .error (.unknownOpcode b))) = true ∧
    [0x00, 0x01, 0x20, 0x23, 0x30, 0x33, 0x40, 0x41, 0x50, 0x58, 0x60, 0x63, 0x70, 0xF0, 0xFF].all
        (fun b => decide (decode Config.default [b] ≠ .error (.unknownOpcode b))) = true := by decide

theorem witness_MalformedEncodings :
    headError Config.default .mov 0x13 [0x83, 0x53] = none ∧
    headError Config.default .mov 0x04 [0x03, 0x01] = some .reservedMetadata ∧
    headError Config.default .mov 0x40 [0x03, 0x01] = some .reservedMetadata ∧
    headError Config.default .mov 0x20 [0x03, 0x01] = some .illegalFamily ∧
    headError Config.default .mov 0x30 [0x03, 0x01] = some .illegalFamily ∧
    headError Config.default .add 0x13 [0x03, 0x01] = some .controlNotMov ∧
    headError Config.default .mov 0x12 [0x03, 0x83] = some .controlNotLong ∧
    headError Config.default .mov 0x00 [0x0E, 0x01] = some .reservedRelative ∧
    headError Config.default .mov 0x00 [0x03, 0x05] = some .relativeNotIndirect := by decide

/-! #### A step -/

/-- The boot state with a record of NOP in the queue, its decode tick done. -/
def queuedNop : State :=
  let s := (boot [0x01]).setIp 0x1001
  { s with
    core := { s.core with
      nextSeq := 1
      retireSeq := 1
      queue := [{ tag := 0, size := 64, record := Record.ofN0 0x01 0x1000 }] } }

theorem witness_StepRunsQueuedRecord :
    queuedNop.cfg.wf = true ∧ queuedNop.halted = false ∧
    queuedNop.core.queue =
      [{ tag := 0, size := queuedNop.cfg.dqRecordBytes, record := Record.ofN0 0x01 0x1000 }] ∧
    (Record.ofN0 0x01 0x1000).instr queuedNop.cfg = some .nop := by decide +kernel

/-- ADD with a memory destination. -/
def addToMemory : State :=
  (bootWith [0x21, 0x00, 0x82, 0x8A, 0x01] [0x41, 0x42]).setReg 8 0x2000

theorem witness_StepRunsDecodedInstruction :
    addToMemory.Ready ∧
    decode addToMemory.cfg (addToMemory.bytesAt addToMemory.ip.toNat maxInstrBytes) =
      .ok (.add .b (.indirect 8 .none) (.indirect 8 (.absoluteRelative 1)), List.replicate 15 0) ∧
    addToMemory.cfg.check addToMemory.ip.toNat 5 .fetch = true ∧
    addToMemory.cfg.offHardwareBus addToMemory.ip.toNat 5 = true := by decide +kernel

theorem witness_StepRunsDecodedInstruction_operands :
    addToMemory.OperandsReadable
      (.add .b (.indirect 8 .none) (.indirect 8 (.absoluteRelative 1))) := by
  constructor
  · intro o h
    cases h
    decide +kernel
  · intro o h _
    cases h
    decide +kernel

theorem witness_IllegalEncodingRaises_unknown :
    (boot [0x71]).Ready ∧
    decode (boot [0x71]).cfg ((boot [0x71]).bytesAt (boot [0x71]).ip.toNat maxInstrBytes) =
      .error (.unknownOpcode 0x71) ∧
    (boot [0x71]).cfg.check (boot [0x71]).ip.toNat 1 .fetch = true ∧
    (boot [0x71]).cfg.offHardwareBus (boot [0x71]).ip.toNat 1 = true := by decide +kernel

theorem witness_IllegalEncodingRaises_extension :
    (boot [0xF0]).Ready ∧
    decode (boot [0xF0]).cfg ((boot [0xF0]).bytesAt (boot [0xF0]).ip.toNat maxInstrBytes) =
      .error (.unregisteredExtension 0xF0) ∧
    (boot [0xF0]).cfg.check (boot [0xF0]).ip.toNat 1 .fetch = true ∧
    (boot [0xF0]).cfg.offHardwareBus (boot [0xF0]).ip.toNat 1 = true := by decide +kernel

/-- A malformed encoding whose last descriptor is the last byte of RAM. -/
def malformedAtEnd : State :=
  let s := (boot []).setIp 0xFFFFC
  s.setSys { s.sys with mem := s.sys.mem.writeRange 0xFFFFC [0x20, 0x00, 0x07, 0x01] }

theorem witness_IllegalEncodingRaises_malformed :
    malformedAtEnd.Ready ∧
    decode malformedAtEnd.cfg (malformedAtEnd.bytesAt malformedAtEnd.ip.toNat maxInstrBytes) =
      .error .relativeNotIndirect ∧
    malformedAtEnd.cfg.idleBytes (malformedAtEnd.byteAt malformedAtEnd.ip.toNat) = 4 ∧
    malformedAtEnd.cfg.check malformedAtEnd.ip.toNat 4 .fetch = true ∧
    malformedAtEnd.cfg.offHardwareBus malformedAtEnd.ip.toNat 4 = true := by decide +kernel

theorem witness_DecodeMemoryFaults_opcode :
    ((boot []).setIp 0x100000).Ready ∧
    0 < ((boot []).setIp 0x100000).cfg.idleBytes
      (((boot []).setIp 0x100000).byteAt ((boot []).setIp 0x100000).ip.toNat) ∧
    ((boot []).setIp 0x100000).cfg.check ((boot []).setIp 0x100000).ip.toNat 1 .fetch = false ∧
    ((boot []).setIp 0xFFFFF).cfg.check ((boot []).setIp 0xFFFFF).ip.toNat 1 .fetch = true := by
  decide +kernel

/-- An instruction of form N2 whose last descriptor would lie past the end of RAM. -/
def headAtEnd : State :=
  let s := (boot []).setIp 0xFFFFD
  s.setSys { s.sys with mem := s.sys.mem.writeRange 0xFFFFD [0x20, 0x00, 0x03] }

theorem witness_DecodeMemoryFaults_descriptor :
    headAtEnd.Ready ∧ headAtEnd.cfg.idleBytes (headAtEnd.byteAt headAtEnd.ip.toNat) = 4 ∧
    headAtEnd.cfg.check (headAtEnd.ip + BitVec.ofNat 64 3).toNat 1 .fetch = false ∧
    (∀ i < 3, headAtEnd.cfg.check (headAtEnd.ip + BitVec.ofNat 64 i).toNat 1 .fetch = true ∧
      headAtEnd.cfg.onHardwareBus (headAtEnd.ip + BitVec.ofNat 64 i).toNat = false) := by decide +kernel

/-- The state before a later decode tick, in state `st`, of an instruction with opcode byte `b` of form N2
and these descriptors, with IP at the last byte but one of RAM. -/
def decoding (st : DecodeState) (b d0 d1 : Byte) : State :=
  let s := (boot []).setIp 0xFFFFE
  { s with
    core := { s.core with
      nextSeq := 1
      slots := [{
        state := st, seq := 0, startIp := 0xFFFFA,
        record := Record.ofHead Config.default b .n2 0x03 d0 d1 0xFFFFA }] } }

/-- V58: the state before the DecodeAddrMode tick of an Absolute source whose bytes leave RAM. -/
def decodingAtEnd : State := decoding .decodeAddrMode 0x20 0x03 0x00

/-- Each later decode tick at a fault: the source's and the destination's extra bytes, the source's and the
destination's immediate; and the ticks of Register operands, which do not fault. -/
theorem witness_DecodeMemoryFaults_later :
    [decodingAtEnd, decoding .decodeAddrMode 0x20 0x00 0x03, decoding .readMem 0x20 0x03 0x01,
        decoding .twoOpDstReadMem 0x21 0x01 0x03].all (fun s => decide (s.MemoryOk ∧ s.PipelineOk ∧
          s.halted = false ∧ 0 < s.core.slots.length ∧ s.decodeTickFaults (s.slot 0) = true)) = true ∧
    [decoding .decodeAddrMode 0x20 0x03 0x03, decoding .readMem 0x20 0x03 0x03,
        decoding .twoOpDstReadMem 0x21 0x03 0x03].all
          (fun s => decide (s.decodeTickFaults (s.slot 0) = false)) = true := by decide +kernel

/-- The boot state of a machine with the extension 0xF0 registered. -/
def withExtension : State :=
  let s := boot [0xF0]
  { s with cfg := { s.cfg with extensions := [0xF0] } }

theorem witness_RegisteredExtensionRefused :
    withExtension.Ready ∧
    decode withExtension.cfg (withExtension.bytesAt withExtension.ip.toNat maxInstrBytes) =
      .error (.registeredExtension 0xF0) ∧
    withExtension.cfg.check withExtension.ip.toNat 1 .fetch = true ∧
    withExtension.cfg.offHardwareBus withExtension.ip.toNat 1 = true := by decide +kernel

theorem witness_StepTakesInterrupt :
    ((handlers [0x01]).raiseLine 2).cfg.wf = true ∧ ((handlers [0x01]).raiseLine 2).halted = false ∧
    ((handlers [0x01]).raiseLine 2).pendingLine = some 2 := by decide +kernel

theorem witness_NoStep :
    { State.reset with cfg := { Config.default with numLines := 0 } }.cfg.wf = false ∧
    State.reset.halt.cfg.wf = true ∧
    State.reset.halt.cfg.queueOk State.reset.halt.core.queue = true ∧
    State.reset.halt.halted = true := by decide +kernel

theorem witness_StepAlwaysGoesOn :
    addToMemory.cfg.wf = true ∧ addToMemory.cfg.extensions = [] ∧
    addToMemory.cfg.refuseMmuEnable = false ∧ addToMemory.cfg.branchImmOnly = false ∧
    addToMemory.PipelineOk ∧ queuedNop.PipelineOk ∧ decodingAtEnd.PipelineOk := by decide +kernel

/-! #### Invariants -/

theorem witness_StepKeepsMemoryOk : addToMemory.MemoryOk ∧ ∃ t, step addToMemory = .next t :=
  ⟨by decide +kernel, exists_of_goesOn (by decide +kernel)⟩

theorem witness_StepKeepsPipelineOk :
    (addToMemory.PipelineOk ∧ ∃ t, step addToMemory = .next t) ∧
    (decodingAtEnd.PipelineOk ∧ ∃ t, step decodingAtEnd = .next t) :=
  ⟨⟨by decide +kernel, exists_of_goesOn (by decide +kernel)⟩,
    ⟨by decide +kernel, exists_of_goesOn (by decide +kernel)⟩⟩

/-- A core in the handler of HardFault that is in the ISR of line 2. -/
def inHandlers : State := ((handlers [0x01]).enterIsr 2).raiseException .hardFault

theorem witness_StepKeepsControlOk : inHandlers.ControlOk ∧ ∃ t, step inHandlers = .next t :=
  ⟨by decide +kernel, exists_of_goesOn (by decide +kernel)⟩

theorem witness_StepKeepsHandlersOk :
    inHandlers.HandlersOk ∧ inHandlers.excActive = true ∧ inHandlers.intActive = true ∧
    ∃ t, step inHandlers = .next t :=
  ⟨by decide +kernel, by decide +kernel, by decide +kernel, exists_of_goesOn (by decide +kernel)⟩

theorem witness_StepKeepsTheRest : ∃ t, step addToMemory = .next t :=
  exists_of_goesOn (by decide +kernel)

/-! #### Reset, registers and memory -/

theorem witness_ResetCoreEffect :
    inHandlers.MemoryOk ∧
    inHandlers.cfg.offHardwareBus inHandlers.cfg.vtBase.toNat 16 = true := by decide +kernel

theorem witness_ControlRegisterMap : (0 : BitVec 3) ≠ 7 ∧ (7 : BitVec 3) ≠ 0 := by decide

theorem witness_AccessCheck :
    ((boot []).memRead 0xFFFFD 4 .read).isNone = true ∧ ((boot []).memRead 0xFFFFC 4 .read).isNone = false ∧
    ((boot []).memRead 0xFFFFFFFFFFFFFFFF 2 .read).isNone = true ∧
    ((boot []).memWrite 0xFFFFD 4 0).isNone = true ∧
    ((boot []).memWrite 0xFFFFC 4 0).isNone = false := by decide +kernel

theorem witness_ReadIsCoherent :
    addToMemory.MemoryOk ∧ addToMemory.cfg.check (0xFFFF8 : Word).toNat 8 .read = true ∧
    addToMemory.cfg.offHardwareBus (0xFFFF8 : Word).toNat 8 = true := by decide +kernel

theorem witness_ReadAfterWrite :
    addToMemory.MemoryOk ∧ 8 ≤ 8 ∧ addToMemory.cfg.check (0xFFFF8 : Word).toNat 8 .write = true ∧
    addToMemory.cfg.check (0xFFFF8 : Word).toNat 8 .read = true ∧
    addToMemory.cfg.offHardwareBus (0xFFFF8 : Word).toNat 8 = true := by decide +kernel

/-- The default parameters with one page of devices at the start of region 1. -/
def withDevices : Config :=
  { Config.default with
    regions := Config.default.regions.set 1
      (some { Config.ramRegion 0 with
        start := 0x1000000000000000, stop := 0x1000000000001000, cacheable := false,
        hardwareMapped := true, bus := .hardware }) }

/-- A memory system with empty caches over `withDevices`. -/
def deviceSys : MemSys :=
  { caches := [List.replicate 8 (Line.invalid 64 0)], mem := [], hw := [] }

/-- A byte of the bus, its first and its last; an access that lies on it, of 8 bytes. -/
theorem witness_HardwareBus :
    (withDevices.onHardwareBus 0x1000000000000000 = true ∧
      withDevices.onHardwareBus 0x1000000000000FFF = true ∧
      withDevices.onHardwareBus 0x1000000000001000 = false) ∧
    withDevices.wf = true ∧ withDevices.Coherent deviceSys ∧ 0 < withDevices.numCores ∧
    withDevices.check 0x1000000000000FF8 8 .read = true ∧
    withDevices.check 0x1000000000000FF8 [1, 2, 3, 4, 5, 6, 7, 8].length .write = true := by decide +kernel

/-- R68, R73: a two-byte write to a device is two operations, in ascending address order. -/
theorem test_device_write_order :
    (withDevices.mmuWrite 0 0x1000000000000010 [0x12, 0x34] deviceSys).map (fun t => t.hw) =
      some [.write 0 0x1000000000000010 0x12, .write 0 0x1000000000000011 0x34] := by decide +kernel

/-- Two lines in S, of ages 3 and 3. -/
def twoLines : List Line := List.replicate 2 { Line.invalid 8 3 with mesi := .S }

theorem witness_VictimChoice :
    (twoLines ≠ [] ∧ ∀ ln ∈ twoLines, ln.mesi ≠ .I) ∧
    (twoLines ++ [Line.invalid 8 0] ≠ [] ∧ ∃ ln ∈ twoLines ++ [Line.invalid 8 0], ln.mesi = .I) := by
  decide

/-- D-MESI: two cores, with core 1's cache holding address 0x2000 if `held`. -/
def twoCores (held : Bool) : MemSys :=
  let sys : MemSys := { caches := List.replicate 2 (List.replicate 8 (Line.invalid 64 0)), mem := [], hw := [] }
  if held then (Config.cacheWrite { Config.default with numCores := 2 } 1 0x2000 [0x99] sys) else sys

theorem witness_MesiStates :
    { Config.default with numCores := 2 }.wf = true ∧
    { Config.default with numCores := 2 }.Coherent (twoCores true) ∧
    { Config.default with numCores := 2 }.Coherent (twoCores false) ∧
    { Config.default with numCores := 2 }.cacheableAt 0x203F = true ∧
    0x203F + 1 ≤ Config.default.lineAddr 0x203F + Config.default.lineSize ∧
    (∀ held : Bool, ∀ k < 8, ((twoCores held).line 0 k).holds 0x2000 = false) ∧
    (∃ i < 2, ∃ j < 8, ((twoCores true).line i j).holds 0x2000 = true) ∧
    (∀ i < 2, ∀ j < 8, ((twoCores false).line i j).holds 0x2000 = false) := by decide +kernel

theorem witness_FlushEffect :
    { Config.default with numCores := 2 }.wf = true ∧
    { Config.default with numCores := 2 }.Coherent (twoCores true) ∧ 1 < 2 ∧
    ((twoCores true).line 1 0).mesi = .M := by decide +kernel

theorem witness_HostCopies :
    addToMemory.MemoryOk ∧ (8 ≤ 8 ∧ addToMemory.cfg.backedRange 0xFFFF8 8 = true) ∧
    addToMemory.cfg.backedRange 0xFFFF9 8 = false := by decide +kernel

/-- A queue entry of the root set. -/
def nopEntry : Entry := { tag := 0, size := 64, record := Record.ofN0 0x01 0x1000 }

theorem witness_QueueLaws :
    bytesAvailable [nopEntry] ≤ Config.default.dqCapacity ∧
    (Config.default.push [nopEntry] nopEntry).isSome = true ∧
    { Config.default with dqCapacity := 136 }.push [nopEntry] nopEntry = some [nopEntry, nopEntry] ∧
    { Config.default with dqCapacity := 135 }.push [nopEntry] nopEntry = none ∧
    popEntry 64 [nopEntry] = some (nopEntry.record, []) ∧ popEntry 65 [nopEntry] = none ∧
    popEntry 63 [nopEntry] = none := by decide +kernel

/-! #### Instructions -/

/-- The boot state with the given destination address in the record that the executor holds. -/
def storingTo (ea : Word) : State :=
  let s := boot []
  { s with core := { s.core with exu := { Record.zero with dst := { OperandRec.zero with ea := ea } } } }

/-- The clauses of every statement about an instruction that stores to a memory destination. -/
theorem witness_EndsStoring :
    (storingTo 0xFFFF8).MemoryOk ∧
    (storingTo 0xFFFF8).cfg.check (storingTo 0xFFFF8).dstEa.toNat 8 .write = true ∧
    (storingTo 0xFFFF9).cfg.check (storingTo 0xFFFF9).dstEa.toNat 8 .write = false := by decide +kernel

/-- A machine that refuses to turn translation on and takes only Immediate branch operands. -/
def strict : State :=
  let s := boot []
  { s with
    cfg := { s.cfg with refuseMmuEnable := true, branchImmOnly := true }
    core := { s.core with exu := { Record.zero with primary := 1 } } }

theorem witness_MovCrEffect :
    (strict.cfg.refuseMmuEnable = true ∧ strict.core.exu.primary ≠ 0) ∧
    nextOf (exec (.movCr (.register 3) (.register 8)) strict) = false ∧
    nextOf (exec (.movCr (.register 2) (.register 8)) strict) = true ∧
    nextOf (exec (.movCr (.register 4) (.register 8)) strict) = true ∧
    nextOf (exec (.movCr (.register 7) (.register 8)) strict) = true ∧
    nextOf (exec (.movCr (.register 8) (.register 0)) strict) = true := by decide +kernel

theorem witness_CmpEffect :
    (Operand.immediate 0 0).isImmediate = true ∧ (Operand.register 0).isImmediate = false := by decide

theorem witness_OverflowMeaning : 0 < Size.b.bits ∧ 0 < 1 := by decide

theorem witness_BranchEffect :
    ((boot []).cfg.branchImmOnly = false) ∧
    (strict.cfg.branchImmOnly = true ∧ (Operand.immediate 0 0).isImmediate = true) ∧
    (strict.cfg.branchImmOnly = true ∧ (Operand.register 0).isImmediate = false) := by decide

theorem witness_PushEffect :
    ((boot []).setSp 0x100000).cfg.check (((boot []).setSp 0x100000).sp - 8).toNat 8 .write = true ∧
    ((boot []).setSp 0x7).cfg.check (((boot []).setSp 0x7).sp - 8).toNat 8 .write = false := by
  decide +kernel

theorem witness_PopEffect :
    ((boot []).setSp 0xFFFF8).MemoryOk ∧
    ((boot []).setSp 0xFFFF8).cfg.check ((boot []).setSp 0xFFFF8).sp.toNat 8 .read = true ∧
    ((boot []).setSp 0xFFFF8).cfg.offHardwareBus ((boot []).setSp 0xFFFF8).sp.toNat 8 = true ∧
    ((boot []).setSp 0xFFFF9).cfg.check ((boot []).setSp 0xFFFF9).sp.toNat 8 .read = false := by
  decide +kernel

theorem witness_RetEffect :
    (boot []).core.initialSp.toNat < ((boot []).setSp 0x7FF9).sp.toNat + 8 ∧
    ¬ (boot []).core.initialSp.toNat < ((boot []).setSp 0x7FF8).sp.toNat + 8 ∧
    ((boot []).setSp 0x7FF8).cfg.check ((boot []).setSp 0x7FF8).sp.toNat 8 .read = true ∧
    ((boot []).setSp 0x7FF8).cfg.offHardwareBus ((boot []).setSp 0x7FF8).sp.toNat 8 = true := by
  decide +kernel

/-- A RET whose slot cannot be read: `initialSp` lies outside RAM. -/
theorem witness_RetEffect_fault :
    let s : State := { (boot []).setSp 0x200000 with core := { ((boot []).setSp 0x200000).core with initialSp := 0x200008 } }
    ¬ s.core.initialSp.toNat < s.sp.toNat + 8 ∧ s.cfg.check s.sp.toNat 8 .read = false := by
  decide +kernel

theorem witness_StackRoundTrips :
    (boot []).MemoryOk ∧ (∃ t, exec (.push .l (.register 0)) (boot []) = .next t) ∧
    (∃ t, exec (.call .l (.register 0)) (boot []) = .next t) ∧
    (boot []).cfg.check ((boot []).sp - 8).toNat 8 .write = true ∧
    (boot []).cfg.check ((boot []).sp - 8).toNat 8 .read = true ∧
    (boot []).cfg.offHardwareBus ((boot []).sp - 8).toNat 8 = true ∧
    ((boot []).sp - 8).toNat + 8 ≤ (boot []).core.initialSp.toNat ∧ (14 : RegIndex) ≠ spIndex :=
  ⟨by decide +kernel, exists_of_nextOf (by decide +kernel), exists_of_nextOf (by decide +kernel),
    by decide +kernel, by decide +kernel, by decide +kernel, by decide +kernel, by decide⟩

/-- A core in the ISR of line 2. -/
def inIsr : State := (handlers [0x01]).enterIsr 2

theorem witness_RtiEffect :
    (inIsr.intActive = true ∧ inIsr.isrBlock 2 = .executing (handlers [0x01]).regs ∧
      ∀ j : Fin 8, j ≠ 2 → (inIsr.isrBlock j).snapshot = none) ∧
    ((boot []).intActive = false ∧ ∀ i : Fin 8, ((boot []).isrBlock i).snapshot = none) := by decide +kernel

theorem witness_RteEffect :
    (inHandlers.excActive = true ∧ inHandlers.core.exc.phase = .executing (inIsr.recordExc .hardFault).regs) ∧
    ((boot []).excActive = false ∧ (boot []).core.exc.phase.snapshot = none) := by decide +kernel

/-- A machine with a handler for system call 0. -/
def withSyscall : State :=
  let s := boot []
  { s with cfg := { s.cfg with syscallIds := [0] } }

theorem witness_SysEffect :
    (withSyscall.MemoryOk ∧ withSyscall.reg d0Index ∈ withSyscall.cfg.syscallIds) ∧
    (withSyscall.setReg 0 1).reg d0Index ∉ (withSyscall.setReg 0 1).cfg.syscallIds ∧
    ([] : List SysAction).all (SysAction.allowed withSyscall.cfg) = true ∧
    SysAction.allowed withSyscall.cfg (.load 0xFFFFF 1) = true ∧
    SysAction.allowed withSyscall.cfg (.load 0x100000 1) = false := by decide +kernel

/-! #### Exceptions and interrupts -/

theorem witness_RaiseHalts :
    inHandlers.core.exc.phase.snapshot.isSome = true ∧
    ((boot []).core.exc.phase.snapshot = none ∧
      ((boot []).cr 1).getLsbD Exc.memoryFault.id.val = false) := by decide +kernel

theorem witness_RaiseEnters :
    (handlers []).MemoryOk ∧ (handlers []).core.exc.phase.snapshot = none ∧
    ((handlers []).cr 1).getLsbD Exc.hardFault.id.val = true ∧
    (handlers []).cfg.offHardwareBus ((handlers []).cfg.vtBase.toNat + 0x10 + 8 * Exc.hardFault.id.val) 8 =
      true := by decide +kernel

theorem witness_IsrEntry :
    (handlers []).MemoryOk ∧
    (handlers []).cfg.offHardwareBus ((handlers []).cfg.vtBase.toNat + 0x40 + 8 * (7 : Fin 8).val) 8 =
      true := by decide +kernel

theorem witness_ReturnAfterEntry :
    ((handlers []).cfg.wf = true ∧ (handlers []).core.exc.phase.snapshot = none ∧
      ((handlers []).cr 1).getLsbD Exc.hardFault.id.val = true) ∧
    ∀ j, ((handlers []).isrBlock j).snapshot = none := by decide +kernel

/-- D-PRIO: of two lines that are Flagged and enabled the lower is entered. -/
theorem witness_LineChoice :
    ((((boot []).writeCr 0 0x82).raiseLine 7).raiseLine 1).pendingLine = some 1 ∧
    (((boot []).writeCr 0 0x80).raiseLine 7).pendingLine = some 7 ∧
    (boot []).pendingLine = none := by decide +kernel

/-- A machine of two cores right after ResetSystem. -/
def twoCoreMachine : State := (State.powerOn { Config.default with numCores := 2 }).resetSystem

theorem witness_HostSignals :
    (((boot []).writeCr 0 0x80).isrBlock 7 = .waiting ∧
      (((boot []).writeCr 0 0x80).cr 0).getLsbD (7 : Fin 8).val = true) ∧
    (inIsr.isrBlock 2 ≠ .waiting) ∧ ((boot []).cr 0).getLsbD (7 : Fin 8).val = false ∧
    (boot []).core.ticked = false ∧ (boot []).markTicked.core.ticked = true ∧
    (twoCoreMachine.CoresDistinct ∧ twoCoreMachine.hasCore 0 = true ∧ twoCoreMachine.hasCore 1 = true ∧
      twoCoreMachine.hasCore 2 = false ∧
      (∃ k ∈ twoCoreMachine.peers, k.id = 1 ∧ k.ticked = false) ∧
      ∃ k ∈ (twoCoreMachine.markTicked.focus 1).peers, k.id = 0 ∧ k.ticked = true) ∧
    (boot []).cfg.cacheableAt 0xFFFFF = true ∧ (boot []).cfg.cacheableAt 0x100000 = false := by
  decide +kernel

/-- R9, R18, R89: a host operation under an ill-formed configuration and a Touch outside the cacheable
regions are refused. -/
theorem test_host_operations_refused :
    act .resetSystem { State.reset with cfg := { Config.default with numLines := 0 } } =
      .refused .illFormedConfiguration ∧
    act (.touch 0 0x100000) State.reset = .refused .touchNotCacheable := ⟨rfl, rfl⟩

end Sys2Proof.Tests
end

/-! What is refused before any act, the host's signals, and the state after reset. -/

namespace Sys2Proof.Machine

/-! ### Ticks that do nothing -/

/-- R9: a tick of an ill-formed configuration is refused. -/
theorem tickReport_of_not_wf {s : State} (h : s.cfg.wf = false) :
    tickReport s = .refused .illFormedConfiguration := by simp [tickReport, h]

/-- R32, R190: a tick of a halted core leaves it as it was, and ends the step. -/
theorem tickReport_of_halted {s : State} (hw : s.cfg.wf = true)
    (hq : s.cfg.queueOk s.core.queue = true) (hh : s.halted = true) :
    tickReport s = .next ⟨s, true⟩ := by simp [tickReport, hw, hq, hh]

/-- A tick that ends StepInstruction is the whole step. -/
theorem step_of_tickReport_ended {s t : State} (h : tickReport s = .next ⟨t, true⟩) :
    step s = .next t := by simp [step, stepInstruction, stepFuel, stepTicks, h]

theorem step_of_tickReport_refused {s : State} {r : Refusal} (h : tickReport s = .refused r) :
    step s = .refused r := by simp [step, stepInstruction, stepFuel, stepTicks, h]

/-! ### Host operations on the core that ticks and on no core -/

@[simp] theorem State.hasCore_self (s : State) : s.hasCore s.core.id = true := by simp [State.hasCore]

theorem State.hasCore_of_mem {s : State} {k : Core} (h : k ∈ s.peers) : s.hasCore k.id = true := by
  simp only [State.hasCore, Bool.or_eq_true, List.any_eq_true, decide_eq_true_eq]
  exact .inr ⟨k, h, rfl⟩

/-- On the core that ticks, an operation that keeps the core's index is done with no change of focus. -/
theorem onCore_self {s : State} {f : State → State} (hid : (f s).core.id = s.core.id) :
    s.onCore s.core.id f = .done (f s) [] := by
  rw [State.onCore, if_pos s.hasCore_self, focus_self, ← hid, focus_self]

theorem onCore_of_not_hasCore {s : State} {c : Nat} (f : State → State) (h : s.hasCore c = false) :
    s.onCore c f = .refused .noSuchTarget := by simp [State.onCore, h]

/-! ### The lines -/

theorem raiseLine_of_waiting {s : State} {i : Fin 8} (hw : s.isrBlock i = .waiting)
    (he : s.lineEnabled i = true) : s.raiseLine i = s.setIsrBlock i .flagged := if_pos ⟨hw, he⟩

theorem raiseLine_of_not {s : State} {i : Fin 8}
    (h : s.isrBlock i ≠ .waiting ∨ s.lineEnabled i = false) : s.raiseLine i = s := by
  refine if_neg ?_
  rintro ⟨hw, he⟩
  rcases h with h | h
  · exact h hw
  · simp [h] at he

/-- What RaiseInterrupt does to its core (R330). -/
theorem raiseLine_cases (s : State) (i : Fin 8) :
    (s.isrBlock i = .waiting ∧ s.lineEnabled i = true ∧ s.raiseLine i = s.setIsrBlock i .flagged) ∨
      s.raiseLine i = s := by
  by_cases h : s.isrBlock i = .waiting ∧ s.lineEnabled i = true
  · exact .inl ⟨h.1, h.2, if_pos h⟩
  · exact .inr (if_neg h)

theorem raiseLine_core_id (s : State) (i : Fin 8) : (s.raiseLine i).core.id = s.core.id := by
  rcases raiseLine_cases s i with ⟨-, -, h⟩ | h
  · rw [h]; rfl
  · rw [h]

/-- RaiseInterrupt changes nothing but its core. -/
theorem raiseLine_eq_core (s : State) (i : Fin 8) :
    s.raiseLine i = { s with core := (s.raiseLine i).core } := by
  rcases raiseLine_cases s i with ⟨-, -, h⟩ | h
  · rw [h]; rfl
  · rw [h]

/-- What RaiseInterrupt leaves of its core, from that core alone. -/
theorem raiseLine_core (s : State) (i : Fin 8) :
    (s.raiseLine i).core =
      if s.core.isr[i] = .waiting ∧ (s.core.regs.getCr 0).getLsbD i.val = true then
        { s.core with isr := s.core.isr.set i .flagged }
      else s.core := apply_ite State.core ..

theorem raiseInterrupt_fin (s : State) (c : Nat) (i : Fin 8) :
    s.raiseInterrupt c i.val = s.onCore c fun t => t.raiseLine i := dif_pos i.isLt

/-! ### SetEntry -/

/-- SetEntry of a core that is there (R376). -/
theorem setEntry_eq {s : State} {c : Nat} (hc : s.hasCore c = true) (e : Word) :
    s.setEntry c e =
      if (s.focus c).core.ticked then .refused .setEntryTooLate
      else s.onCore c fun t => t.setIp e := by simp [State.setEntry, hc]

theorem setEntry_of_not_hasCore {s : State} {c : Nat} (h : s.hasCore c = false) (e : Word) :
    s.setEntry c e = .refused .noSuchTarget := by
  simp [State.setEntry, h, onCore_of_not_hasCore]

/-- Setting the IP of a core, whichever ticks, changes nothing else. -/
theorem onCore_setIp {s : State} {c : Nat} (hd : s.CoresDistinct) (hc : s.hasCore c = true) (e : Word) :
    (s.onCore c fun t => t.setIp e) = .done (s.mapCore c fun u => u.setIp e) [] :=
  onCore_eq_mapCore hd hc (fun _ => rfl) (fun _ => rfl) fun u v h => by simp [h]

/-! ### The state after reset -/

/-- The only line in use is line 0, which the vector reads filled (R371). -/
theorem reset_line_in_use : ∀ i < Config.default.numCores, ∀ k < Config.default.numLines,
    (State.reset.sys.line i k).mesi ≠ .I → i = 0 ∧ k = 0 := by decide

theorem reset_line_sound :
    Config.default.LineSound State.reset.sys.mem (State.reset.sys.line 0 0) := by decide +kernel

theorem reset_lines_sound : ∀ i < Config.default.numCores, ∀ k < Config.default.numLines,
    Config.default.LineSound State.reset.sys.mem (State.reset.sys.line i k) := by
  intro i hi k hk hu
  obtain ⟨rfl, rfl⟩ := reset_line_in_use i hi k hk hu
  exact reset_line_sound hu

theorem reset_exclusive : Config.default.Exclusive State.reset.sys := by
  intro i hi k hk i' hi' k' hk' hu hu' _
  obtain ⟨rfl, rfl⟩ := reset_line_in_use i hi k hk hu
  obtain ⟨rfl, rfl⟩ := reset_line_in_use i' hi' k' hk' hu'
  exact .inl ⟨rfl, rfl⟩

theorem reset_memoryOk : State.reset.MemoryOk :=
  ⟨by decide +kernel, by decide, rfl, ⟨rfl, by decide⟩, reset_lines_sound, reset_exclusive⟩

theorem reset_pipelineOk : State.reset.PipelineOk :=
  ⟨rfl, by decide, by decide, .inl ⟨by decide, by decide, by decide, rfl⟩⟩

theorem reset_ready : State.reset.Ready := ⟨reset_memoryOk, reset_pipelineOk, rfl, rfl, rfl⟩

theorem reset_controlOk : State.reset.ControlOk := by decide +kernel

theorem reset_handlersOk : State.reset.HandlersOk := by decide +kernel

theorem reset_coresDistinct : State.reset.CoresDistinct := by decide

/-! ### The obligations -/

/-- Settles O14: a tick is refused where the configuration is ill-formed and does nothing where the core is
halted; a step is that one tick. -/
theorem noStep : Obligations.NoStep := by
  refine ⟨fun s hw => ?_, fun s hw hq hh => ?_⟩
  · have ht := tickReport_of_not_wf hw
    exact ⟨by simp [tick, ht], step_of_tickReport_refused ht, fun a => by simp [act, hw]⟩
  · have ht := tickReport_of_halted hw hq hh
    exact ⟨by simp [tick, ht], step_of_tickReport_ended ht⟩

/-- Settles O21: the invariants are checked of the one state, whose fields are as written. -/
theorem resetState : Obligations.ResetState :=
  ⟨⟨reset_ready, reset_controlOk, reset_handlersOk, reset_coresDistinct⟩, rfl, by decide, rfl, by decide, rfl,
    by decide, rfl, rfl, rfl, rfl⟩

/-- Settles O60: a signal is done on its core with the focus there, and is refused where the line, the time, the
address or the core is wrong. -/
theorem hostSignals : Obligations.HostSignals := by
  refine ⟨fun s i => ⟨fun ⟨hw, he⟩ => raiseLine_of_waiting hw he, fun h => raiseLine_of_not h⟩,
    fun s i => ?_, fun s c i hd hc => ?_, fun s c i hi => ?_, fun s e => ?_, fun s k e hd hk => ?_,
    fun s c a ha => ?_, fun s c hc => ⟨fun i hi => ?_, fun e => ?_, fun a ha => ?_⟩⟩
  · rw [raiseInterrupt_fin, onCore_self (f := fun t => t.raiseLine i) (raiseLine_core_id s i)]
  · rw [raiseInterrupt_fin]
    exact onCore_eq_mapCore hd hc (raiseLine_eq_core · i) (raiseLine_core_id · i)
      fun u v h => by rw [raiseLine_core, raiseLine_core, h]
  · exact dif_neg (by omega)
  · rw [setEntry_eq s.hasCore_self, focus_self, onCore_self rfl]
    exact ⟨fun h => by simp [h], fun h => by simp [h]⟩
  · have hc := State.hasCore_of_mem hk
    rw [setEntry_eq hc, onCore_setIp hd hc, (focus_of_mem hd hk).2]
    exact ⟨fun h => by simp [h], fun h => by simp [h]⟩
  · simp [State.touch, ha]
  · rw [raiseInterrupt_fin s c ⟨i, hi⟩, onCore_of_not_hasCore _ hc]
  · exact setEntry_of_not_hasCore hc e
  · rw [State.touch, if_pos ha, onCore_of_not_hasCore _ hc]

end Sys2Proof.Machine

/-! Progress: a step always answers a next state where the configuration asks for no refusal. A meaning always
goes on; a decode tick moves its slot towards the queue or raises; so the executor runs within `stepFuel`
ticks. -/

namespace Sys2Proof.Machine

/-! ### Meanings that go on (R18, R178) -/

theorem exists_next_of_goesOn {r : Result} (h : Result.goesOn r = true) : ∃ t, r = .next t := by
  cases r with
  | next t => exact ⟨t, rfl⟩
  | fault => cases h
  | refused => cases h

@[simp] theorem goesOn_raised (s : State) (e : Exc) : Result.goesOn (s.raised e) = true := rfl

@[simp] theorem goesOn_finish (s : State) (r : Except Exc State) (k : State → State) :
    Result.goesOn (s.finish r k) = true := by cases r <;> rfl

theorem goesOn_branch {s : State} (h : s.cfg.branchImmOnly = false) (cond : Flags → Bool) (size : Size)
    (op : Operand) : Result.goesOn (branch cond size op s) = true := by
  simp only [branch, h, Bool.false_and, Bool.false_eq_true, if_false]
  split <;> rfl

theorem goesOn_writeControlReg {s : State} (h : s.cfg.refuseMmuEnable = false) (i : RegIndex) (v : Word) :
    Result.goesOn (writeControlReg s i v) = true := by
  simp only [writeControlReg, h, Bool.false_eq_true, false_and, and_false, if_false]
  split <;> rfl

theorem goesOn_movCr {s : State} (h : s.cfg.refuseMmuEnable = false) (dst src : Operand) :
    Result.goesOn (execMovCr dst src s) = true := by
  cases dst with
  | immediate => rfl
  | register i => exact goesOn_writeControlReg h i _
  | absolute => exact goesOn_finish ..
  | indirect => exact goesOn_finish ..

theorem goesOn_cmp (size : Size) (dst src : Operand) (s : State) :
    Result.goesOn (execCmp size dst src s) = true := by
  unfold execCmp
  split <;> rfl

theorem goesOn_popInto (size : Size) (op : Operand) (v : Word) (s : State) :
    Result.goesOn (popInto size op v s) = true := by
  cases op with
  | immediate => rfl
  | register => rfl
  | absolute => exact goesOn_finish ..
  | indirect => exact goesOn_finish ..

theorem goesOn_pop (size : Size) (op : Operand) (s : State) :
    Result.goesOn (execPop size op s) = true := by
  unfold execPop
  split
  · rfl
  · split
    · rfl
    · exact goesOn_popInto ..

theorem goesOn_ret (s : State) : Result.goesOn (execRet s) = true := by
  unfold execRet
  split
  · rfl
  · split <;> rfl

theorem goesOn_rti (s : State) : Result.goesOn (execRti s) = true := by
  unfold execRti
  split
  · split <;> rfl
  · rfl

theorem goesOn_rte (s : State) : Result.goesOn (execRte s) = true := by
  unfold execRte
  split <;> rfl

theorem goesOn_sys (s : State) : Result.goesOn (execSys s) = true := by
  unfold execSys
  dsimp only
  split <;> rfl

/-- With neither refusal asked for, every meaning goes on from every state. -/
theorem goesOn_exec {s : State} (hm : s.cfg.refuseMmuEnable = false) (hb : s.cfg.branchImmOnly = false)
    (i : Instr) : Result.goesOn (exec i s) = true := by
  cases i with
  | brk => rfl
  | nop => rfl
  | mov => exact goesOn_finish ..
  | movCr dst src => exact goesOn_movCr hm dst src
  | add => exact goesOn_finish ..
  | sub => exact goesOn_finish ..
  | cmp size dst src => exact goesOn_cmp size dst src s
  | asl => exact goesOn_finish ..
  | asr => exact goesOn_finish ..
  | lsl => exact goesOn_finish ..
  | lsr => exact goesOn_finish ..
  | push => exact goesOn_finish ..
  | pop size op => exact goesOn_pop size op s
  | bra size op => exact goesOn_branch hb (fun _ => true) size op
  | beq size op => exact goesOn_branch hb (fun f => f.z) size op
  | bne size op => exact goesOn_branch hb (fun f => !f.z) size op
  | bcs size op => exact goesOn_branch hb (fun f => f.c) size op
  | bcc size op => exact goesOn_branch hb (fun f => !f.c) size op
  | bmi size op => exact goesOn_branch hb (fun f => f.n) size op
  | bpl size op => exact goesOn_branch hb (fun f => !f.n) size op
  | bvs size op => exact goesOn_branch hb (fun f => f.v) size op
  | bvc size op => exact goesOn_branch hb (fun f => !f.v) size op
  | call => exact goesOn_finish ..
  | ret => exact goesOn_ret s
  | rti => exact goesOn_rti s
  | rte => exact goesOn_rte s
  | sys => exact goesOn_sys s

theorem goesOn_runRecord {s : State} (hm : s.cfg.refuseMmuEnable = false)
    (hb : s.cfg.branchImmOnly = false) (r : Record) : Result.goesOn (runRecord r s) = true := by
  unfold runRecord
  split
  · exact goesOn_exec hm hb _
  · rfl

theorem runRecord_executes (r : Record) (s : State) : Result.Executes s (runRecord r s) := by
  unfold runRecord
  split
  · exact exec_executes _ s
  · exact .raised s _

theorem interruptPhase_executes (s : State) : s.Executes (interruptPhase s) := by
  rcases interruptPhase_cases s with h | ⟨i, -, h⟩ <;> rw [h]
  · exact .refl s
  · exact .enterIsr s i

/-! ### Slots -/

theorem slot_eq_getElem {s : State} {j : Nat} (h : j < s.core.slots.length) :
    s.slot j = s.core.slots[j] := List.getD_eq_getElem _ _ h

theorem slot_mem {s : State} {j : Nat} (h : j < s.core.slots.length) : s.slot j ∈ s.core.slots := by
  rw [slot_eq_getElem h]
  exact List.getElem_mem h

theorem slot_setSlot_self {s : State} {j : Nat} (h : j < s.core.slots.length) (sl : Slot) :
    (s.setSlot j sl).slot j = sl := by simp [State.slot, State.setSlot, h]

theorem slot_setSlot_of_ne (s : State) {j k : Nat} (h : k ≠ j) (sl : Slot) :
    (s.setSlot j sl).slot k = s.slot k := by
  simp [State.slot, State.setSlot, List.getD_eq_getElem?_getD, List.getElem?_set_ne h.symm]

theorem forall_mem_setSlot {s : State} {j : Nat} {sl : Slot} {p : Slot → Prop}
    (h : ∀ x ∈ s.core.slots, p x) (hsl : p sl) : ∀ x ∈ (s.setSlot j sl).core.slots, p x := by
  intro x hx
  rcases List.mem_or_eq_of_mem_set hx with hx | rfl
  · exact h x hx
  · exact hsl

/-- What the search for a slot in flight finds (R162). -/
theorem activeSlot_some {s : State} {j : Nat} (h : s.activeSlot = some j) :
    j < s.core.slots.length ∧ (s.slot j).state ≠ .idle := by
  obtain ⟨hj, hs, -⟩ := List.findIdx?_eq_some_iff_getElem.1 h
  exact ⟨hj, by simpa [slot_eq_getElem hj] using hs⟩

theorem activeSlot_none {s : State} (h : s.activeSlot = none) :
    ∀ sl ∈ s.core.slots, sl.state = .idle := by
  intro sl hsl
  simpa using List.findIdx?_eq_none_iff.1 h sl hsl

theorem nextSlot_lt {s : State} (hw : s.cfg.wf = true) (hl : s.core.slots.length = s.cfg.numDecoderSlots) :
    s.nextSlot < s.core.slots.length := by
  have hn : 1 ≤ s.cfg.numDecoderSlots := by
    simp only [Config.wf, Bool.and_eq_true, decide_eq_true_eq] at hw
    exact hw.1.2
  rw [hl]
  exact Nat.mod_lt _ hn

end Sys2Proof.Machine

namespace Sys2Proof.Machine

/-! ### The reads of a decode tick -/

/-- The reads of a tick took `s` to `t`: the memory system and IP may differ, nothing else. -/
def State.ReadsTo (s t : State) : Prop := ∃ sys ip, t = (s.setSys sys).setIp ip

namespace State.ReadsTo

variable {s t u : State}

theorem refl (s : State) : s.ReadsTo s := ⟨s.sys, s.ip, rfl⟩

theorem trans (h : s.ReadsTo t) (g : t.ReadsTo u) : s.ReadsTo u := by
  obtain ⟨y, p, rfl⟩ := h
  obtain ⟨y', p', rfl⟩ := g
  exact ⟨y', p', rfl⟩

theorem setIp (s : State) (v : Word) : s.ReadsTo (s.setIp v) := ⟨s.sys, v, rfl⟩

theorem memRead {a : Word} {n : Nat} {k : AccessKind} {v : Word} (h : s.memRead a n k = some (v, t)) :
    s.ReadsTo t := ⟨t.sys, s.ip, (memRead_frame h).1⟩

theorem cfg (h : s.ReadsTo t) : t.cfg = s.cfg := by obtain ⟨_, _, rfl⟩ := h; rfl
theorem slots (h : s.ReadsTo t) : t.core.slots = s.core.slots := by obtain ⟨_, _, rfl⟩ := h; rfl
theorem queue (h : s.ReadsTo t) : t.core.queue = s.core.queue := by obtain ⟨_, _, rfl⟩ := h; rfl
theorem retireSeq (h : s.ReadsTo t) : t.core.retireSeq = s.core.retireSeq := by
  obtain ⟨_, _, rfl⟩ := h; rfl
theorem slot (h : s.ReadsTo t) (j : Nat) : t.slot j = s.slot j := by obtain ⟨_, _, rfl⟩ := h; rfl

theorem readOperand {op o : OperandRec} {size : Size} {family : Family} {v : Word}
    (h : s.readOperand op size family = some (v, o, t)) : s.ReadsTo t := by
  unfold State.readOperand at h
  split at h
  · obtain ⟨p, hp, e⟩ := Option.map_eq_some_iff.1 h
    cases e
    exact (memRead hp).trans (setIp _ _)
  · split at h <;> cases h <;> exact refl _
  · obtain ⟨p, hp, e⟩ := Option.map_eq_some_iff.1 h
    cases e
    exact memRead hp
  · obtain ⟨p, hp, e⟩ := Option.map_eq_some_iff.1 h
    cases e
    exact memRead hp

end State.ReadsTo

/-- The state at the end of a tick's reads, whether they fault or not. -/
def Fetched.state {α : Type} : Fetched α → State
  | .error t => t
  | .ok p => p.2

/-- Reads that end in a state the reads of a tick may lead to, whether they fault or not. -/
def Fetched.ReadsFrom {α : Type} (s : State) (r : Fetched α) : Prop := s.ReadsTo r.state

namespace Fetched.ReadsFrom

variable {s : State} {α : Type}

theorem error {r : Fetched α} {t : State} (h : Fetched.ReadsFrom s r) (e : r = .error t) : s.ReadsTo t := by
  subst e; exact h

theorem ok {r : Fetched α} {a : α} {t : State} (h : Fetched.ReadsFrom s r) (e : r = .ok (a, t)) :
    s.ReadsTo t := by subst e; exact h

theorem fetch (s : State) (a : Word) (n : Nat) : Fetched.ReadsFrom s (s.fetch a n) := by
  unfold State.fetch
  cases h : s.memRead a n .fetch with
  | none => exact State.ReadsTo.refl s
  | some p => exact State.ReadsTo.memRead h

theorem fetchExt (s : State) (op : OperandRec) (p : Word) : Fetched.ReadsFrom s (s.fetchExt op p) := by
  unfold State.fetchExt
  split
  · split
    · next h => exact (fetch ..).error h
    · next h => exact (fetch ..).ok h
  · split
    · exact State.ReadsTo.refl s
    · split
      · next h => exact (fetch ..).error h
      · next h => exact (fetch ..).ok h
  · exact State.ReadsTo.refl s

theorem fetchExts (s : State) (r : Record) : Fetched.ReadsFrom s (s.fetchExts r) := by
  unfold State.fetchExts
  split
  · next h => exact (fetchExt ..).error h
  · next h1 =>
    split
    · split
      · next h => exact ((fetchExt ..).ok h1).trans ((fetchExt ..).error h)
      · next h => exact ((fetchExt ..).ok h1).trans ((fetchExt ..).ok h)
    · exact (fetchExt ..).ok h1

theorem fetchHead (s : State) (form : Form) : Fetched.ReadsFrom s (s.fetchHead form) := by
  unfold State.fetchHead
  split
  · next h => exact (fetch ..).error h
  · next h1 =>
    split
    · next h => exact ((fetch ..).ok h1).trans ((fetch ..).error h)
    · next h2 =>
      have h12 := ((fetch ..).ok h1).trans ((fetch ..).ok h2)
      split
      · split
        · next h => exact h12.trans ((fetch ..).error h)
        · next h => exact h12.trans ((fetch ..).ok h)
      · exact h12

end Fetched.ReadsFrom

/-! ### One transition of a slot -/

/-- The most decode ticks that a slot in a state still takes (R174). -/
def DecodeState.ticksLeft : DecodeState → Nat
  | .idle => 4
  | .decodeAddrMode => 3
  | .readMem => 2
  | .twoOpDstReadMem => 1
  | .finished => 0
  | .decodeExtension => 0

/-- What a transition of slot `j` can do from `s` (R163 to R170): after its reads the slot goes on to a state
nearer to the queue, or its record is finished, or the tick raises. -/
inductive DecodeOut.Moves (j : Nat) (s : State) : DecodeOut → Prop
  | advance {t : State} (st : DecodeState) (r : Record) (h : s.ReadsTo t) (hb : st.between)
      (hi : st ≠ .idle) (hlt : st.ticksLeft < (s.slot j).state.ticksLeft) :
      Moves j s (.moved (t.advanceSlot j st r))
  | finish {t : State} (r : Record) (h : s.ReadsTo t) : Moves j s (finishSlot j r t)
  | fault {t : State} (e : Exc) (h : s.ReadsTo t) : Moves j s (decodeFault j e t)

namespace DecodeOut.Moves

variable {j : Nat} {s s1 : State} {d : DecodeOut}

theorem trans (h : s.ReadsTo s1) (g : DecodeOut.Moves j s1 d) : DecodeOut.Moves j s d := by
  cases g with
  | advance st r g hb hi hlt => exact advance st r (h.trans g) hb hi (h.slot j ▸ hlt)
  | finish r g => exact finish r (h.trans g)
  | fault e g => exact fault e (h.trans g)

theorem idleTickOperands (hst : (s.slot j).state = .idle) (b : Byte) (op : Opcode) :
    DecodeOut.Moves j s (idleTickOperands j b op s) := by
  unfold Machine.idleTickOperands
  split
  · next h => exact fault _ ((Fetched.ReadsFrom.fetchHead ..).error h)
  · next h =>
    have hr := (Fetched.ReadsFrom.fetchHead ..).ok h
    dsimp only
    split
    · exact fault _ (hr.trans (.setIp ..))
    · exact advance _ _ (hr.trans (.setIp ..)) (by decide) (by decide) (by rw [hst]; decide)

theorem idleTickOpcode (hx : s.cfg.extensions = []) (hst : (s.slot j).state = .idle) (b : Byte) :
    DecodeOut.Moves j s (idleTickOpcode j b s) := by
  unfold Machine.idleTickOpcode
  simp only [hx, List.not_mem_nil, if_false]
  split
  · exact fault _ (.setIp ..)
  · split
    · exact fault _ (.setIp ..)
    · split
      · exact finish _ (.setIp ..)
      · exact idleTickOperands hst ..
      · exact idleTickOperands hst ..

theorem idleTick (hx : s.cfg.extensions = []) (hst : ((s.startSlot j).slot j).state = .idle) :
    DecodeOut.Moves j (s.startSlot j) (idleTick j s) := by
  unfold Machine.idleTick
  dsimp only
  split
  · next h => exact fault _ ((Fetched.ReadsFrom.fetch ..).error h)
  · next h =>
    have hr := (Fetched.ReadsFrom.fetch ..).ok h
    exact trans hr (idleTickOpcode (by rw [hr.cfg]; exact hx) (by rw [hr.slot]; exact hst) _)

theorem decodeAddrModeTick (hst : (s.slot j).state = .decodeAddrMode) :
    DecodeOut.Moves j s (decodeAddrModeTick j s) := by
  unfold Machine.decodeAddrModeTick
  split
  · next h => exact fault _ ((Fetched.ReadsFrom.fetchExts ..).error h)
  · next h =>
    exact advance _ _ (((Fetched.ReadsFrom.fetchExts ..).ok h).trans (.setIp ..)) (by decide) (by decide)
      (by rw [hst]; decide)

theorem readMemDone (hst : (s.slot j).state = .readMem) (op : Opcode) (r : Record) :
    DecodeOut.Moves j s (readMemDone j op r s) := by
  unfold Machine.readMemDone
  split
  · exact advance _ _ (.refl s) (by decide) (by decide) (by rw [hst]; decide)
  · exact finish _ (.refl s)

theorem readMemTick (hst : (s.slot j).state = .readMem) : DecodeOut.Moves j s (readMemTick j s) := by
  have done : ∀ {t : State}, s.ReadsTo t → ∀ op r, DecodeOut.Moves j s (Machine.readMemDone j op r t) :=
    fun h op r => trans h (readMemDone (by rw [h.slot]; exact hst) op r)
  unfold Machine.readMemTick readMemTickOf
  split
  · split
    · exact fault _ (.refl s)
    · next h => exact done (.readOperand h) ..
  · split
    · split
      · exact fault _ (.refl s)
      · next h => exact done (.readOperand h) ..
    · exact done (.refl s) ..

theorem twoOpDstReadMemTick (j : Nat) (s : State) : DecodeOut.Moves j s (twoOpDstReadMemTick j s) := by
  unfold Machine.twoOpDstReadMemTick
  dsimp only
  split
  · exact fault _ (.refl s)
  · next h => exact finish _ (.readOperand h)

/-- A slot in flight moves (R172). -/
theorem advance_of_between (hb : (s.slot j).state.between) (hi : (s.slot j).state ≠ .idle) :
    DecodeOut.Moves j s (Machine.advance j s) := by
  unfold Machine.advance
  split
  case h_1 h => exact absurd h hi
  case h_2 h => exact decodeAddrModeTick h
  case h_3 h => exact readMemTick h
  case h_4 => exact twoOpDstReadMemTick j s
  case h_5 h => exact absurd h hb.1
  case h_6 h => exact absurd h hb.2

theorem not_refused {r : Refusal} : ¬ DecodeOut.Moves j s (.refused r) := nofun

end DecodeOut.Moves

end Sys2Proof.Machine

namespace Sys2Proof

/-- The configuration is well-formed and asks for no refusal (R9, R37, R138, R260). -/
structure Config.RefusesNothing (cfg : Config) : Prop where
  wf : cfg.wf = true
  extensions : cfg.extensions = []
  mmu : cfg.refuseMmuEnable = false
  branch : cfg.branchImmOnly = false

end Sys2Proof

namespace Sys2Proof.Machine

/-! ### The instruction in flight (R186 to R189) -/

/-- The decoder has its slots, each in a state that slots have between ticks. -/
def State.SlotsOk (s : State) : Prop :=
  s.core.slots.length = s.cfg.numDecoderSlots ∧ ∀ sl ∈ s.core.slots, sl.state.between

/-- Slot `j` alone has an instruction, which may retire next; the queue is empty. -/
def State.InFlight (s : State) (j : Nat) : Prop :=
  s.core.queue = [] ∧ j < s.core.slots.length ∧ (s.slot j).seq = s.core.retireSeq ∧
    ∀ k < s.core.slots.length, k ≠ j → (s.slot k).state = .idle

/-- The queue holds one record of the root set. -/
def State.Queued (s : State) : Prop :=
  ∃ e : Entry, s.core.queue = [e] ∧ e.tag = 0 ∧ e.size = s.cfg.dqRecordBytes

/-- Nothing is decoded or queued, and the next instruction is the one that may retire. -/
def State.AtRest (s : State) : Prop :=
  s.core.queue = [] ∧ (∀ sl ∈ s.core.slots, sl.state = .idle) ∧ s.core.nextSeq = s.core.retireSeq

/-- Within `n` ticks the executor runs: a record is queued, or a slot has less than `n` decode ticks to go, or
the next slot starts and has (R174). -/
def State.RunsWithin (s : State) (n : Nat) : Prop :=
  (s.Queued ∧ 0 < n) ∨
  (∃ j, s.InFlight j ∧ (s.slot j).state ≠ .idle ∧ (s.slot j).state.ticksLeft < n) ∨
  (s.AtRest ∧ DecodeState.idle.ticksLeft < n)

/-- The invariant of the ticks of a step: the executor runs within `n` ticks and nothing is refused. -/
structure State.Progresses (s : State) (n : Nat) : Prop where
  cfg : s.cfg.RefusesNothing
  slots : s.SlotsOk
  runs : s.RunsWithin n

theorem dqCapacity_of_wf {cfg : Config} (hw : cfg.wf = true) :
    Config.dqHeaderBytes + cfg.dqRecordBytes ≤ cfg.dqCapacity := by
  simp only [Config.wf, Bool.and_eq_true, decide_eq_true_eq] at hw
  exact hw.1.1.1.1.2

theorem queueOk_nil (cfg : Config) : cfg.queueOk [] = true := by simp [Config.queueOk, bytesAvailable]

theorem queueOk_of_queued {s : State} (hw : s.cfg.wf = true) (h : s.Queued) :
    s.cfg.queueOk s.core.queue = true := by
  obtain ⟨e, hq, -, hs⟩ := h
  simpa [Config.queueOk, bytesAvailable, hq, hs] using dqCapacity_of_wf hw

theorem push_nil {cfg : Config} (hw : cfg.wf = true) {e : Entry} (he : e.size = cfg.dqRecordBytes) :
    cfg.push [] e = some [e] := by
  have := dqCapacity_of_wf hw
  simp [Config.push, Config.canInsert, Config.bytesFree, bytesAvailable, he, this]

/-- A finished record that may retire goes to the empty queue, and its slot is Idle (R169). -/
theorem tryPush_of_inFlight {s : State} {j : Nat} (hw : s.cfg.wf = true) (h : s.InFlight j) :
    (tryPush j s).Queued ∧
      (tryPush j s).core.slots = (s.setSlot j { s.slot j with state := .idle }).core.slots := by
  obtain ⟨hq, -, hs, -⟩ := h
  unfold tryPush
  simp only [hs, hq, if_true, push_nil (e := { tag := 0, size := s.cfg.dqRecordBytes, record := _ }) hw rfl]
  exact ⟨⟨_, rfl, rfl, rfl⟩, trivial⟩

theorem inFlight_of_readsTo {s t : State} {j : Nat} (h : s.ReadsTo t) (hf : s.InFlight j) : t.InFlight j := by
  obtain ⟨_, _, rfl⟩ := h; exact hf

theorem slotsOk_of_readsTo {s t : State} (h : s.ReadsTo t) (hs : s.SlotsOk) : t.SlotsOk := by
  obtain ⟨_, _, rfl⟩ := h; exact hs

/-- The instruction in a slot stays in flight as the slot goes on. -/
theorem inFlight_advanceSlot {s : State} {j : Nat} (h : s.InFlight j) (st : DecodeState) (r : Record) :
    (s.advanceSlot j st r).InFlight j := by
  obtain ⟨hq, hj, hs, hk⟩ := h
  refine ⟨hq, by simpa [State.advanceSlot] using hj, ?_, fun k hlt hne => ?_⟩
  · rw [State.advanceSlot, slot_setSlot_self hj]; exact hs
  · rw [State.advanceSlot, slot_setSlot_of_ne s hne]
    exact hk k (by simpa [State.advanceSlot] using hlt) hne

theorem slotsOk_setSlot {s : State} (h : s.SlotsOk) (j : Nat) {sl : Slot} (hb : sl.state.between) :
    (s.setSlot j sl).SlotsOk := by
  obtain ⟨hl, ha⟩ := h
  exact ⟨by simpa using hl, forall_mem_setSlot ha hb⟩

/-- The first tick of an instruction puts it in flight in the next slot (R163). -/
theorem inFlight_startSlot {s : State} (h : s.AtRest) {j : Nat} (hj : j < s.core.slots.length) :
    (s.startSlot j).InFlight j := by
  obtain ⟨hq, hi, hn⟩ := h
  refine ⟨hq, by simpa [State.startSlot] using hj, ?_, fun k hlt hne => ?_⟩
  · exact (congrArg Slot.seq (slot_setSlot_self hj _)).trans hn
  · have hk : k < s.core.slots.length := by simpa [State.startSlot] using hlt
    exact (congrArg Slot.state (slot_setSlot_of_ne s hne _)).trans (hi _ (slot_mem hk))

theorem slot_startSlot {s : State} {j : Nat} (hj : j < s.core.slots.length) :
    (s.startSlot j).slot j = { s.slot j with seq := s.core.nextSeq, startIp := s.ip } :=
  slot_setSlot_self hj _

theorem slot_startSlot_state {s : State} {j : Nat} (hj : j < s.core.slots.length) :
    ((s.startSlot j).slot j).state = (s.slot j).state := by rw [slot_startSlot hj]

theorem slotsOk_startSlot {s : State} (h : s.SlotsOk) {j : Nat} (hj : j < s.core.slots.length) :
    (s.startSlot j).SlotsOk :=
  slotsOk_setSlot h j (sl := { s.slot j with seq := s.core.nextSeq, startIp := s.ip })
    (show (s.slot j).state.between from h.2 _ (slot_mem hj))

theorem ticksLeft_pos {st : DecodeState} (h : st.between) : 0 < st.ticksLeft := by
  cases st with
  | finished => exact absurd rfl h.1
  | decodeExtension => exact absurd rfl h.2
  | _ => decide

/-- A slot in flight that finishes leaves its record queued (R169). -/
theorem finishSlot_of_inFlight {s : State} {j : Nat} (hw : s.cfg.wf = true) (hs : s.SlotsOk)
    (hf : s.InFlight j) (r : Record) :
    ∃ t, finishSlot j r s = .moved t ∧ t.SlotsOk ∧ t.Queued := by
  obtain ⟨hq, hslots⟩ := tryPush_of_inFlight (s := s.advanceSlot j .finished r) hw
    (inFlight_advanceSlot hf .finished r)
  refine ⟨_, rfl, ?_, hq⟩
  obtain ⟨hl, hb⟩ := slotsOk_setSlot hs j (sl := { s.slot j with state := .idle, record := r })
    (show DecodeState.idle.between by decide)
  rw [State.SlotsOk, hslots, (State.Decodes.tryPush j _).cfg]
  simpa [State.advanceSlot, slot_setSlot_self hf.2.1] using And.intro hl hb

/-- A transition of the slot in flight leaves the executor one tick nearer. -/
theorem DecodeOut.Moves.progress {s t : State} {j n : Nat} (h : DecodeOut.Moves j s (.moved t))
    (hw : s.cfg.wf = true) (hs : s.SlotsOk) (hf : s.InFlight j)
    (hn : (s.slot j).state.ticksLeft ≤ n) : t.SlotsOk ∧ t.RunsWithin n := by
  generalize hd : DecodeOut.moved t = d at h
  cases h with
  | @advance u st r hr hb hi hlt =>
    cases hd
    have hf' := inFlight_of_readsTo hr hf
    have hslot : (u.advanceSlot j st r).slot j = { u.slot j with state := st, record := r } :=
      slot_setSlot_self hf'.2.1 _
    refine ⟨slotsOk_setSlot (slotsOk_of_readsTo hr hs) j hb, .inr (.inl ⟨j, inFlight_advanceSlot hf' st r, ?_⟩)⟩
    rw [hslot]
    exact ⟨hi, hlt.trans_le hn⟩
  | @finish u r hr =>
    obtain ⟨v, hv, hs', hq⟩ := finishSlot_of_inFlight (by rw [hr.cfg]; exact hw) (slotsOk_of_readsTo hr hs)
      (inFlight_of_readsTo hr hf) r
    rw [hv] at hd
    cases hd
    exact ⟨hs', .inl ⟨hq, (ticksLeft_pos (hs.2 _ (slot_mem hf.2.1))).trans_le hn⟩⟩
  | fault e => cases hd

/-! ### The decoder phase and the tick -/

theorem activeSlot_of_inFlight {s : State} {j : Nat} (hf : s.InFlight j)
    (hi : (s.slot j).state ≠ .idle) : s.activeSlot = some j := by
  obtain ⟨-, hj, -, hk⟩ := hf
  cases ha : s.activeSlot with
  | none => exact absurd (activeSlot_none ha _ (slot_mem hj)) hi
  | some k =>
    obtain ⟨hlt, hne⟩ := activeSlot_some ha
    by_contra hkj
    exact hne (hk k hlt fun e => hkj (e ▸ rfl))

theorem activeSlot_of_all_idle {s : State} (h : ∀ sl ∈ s.core.slots, sl.state = .idle) :
    s.activeSlot = none := List.findIdx?_eq_none_iff.2 fun sl hsl => by simp [h sl hsl]

/-- What the decoder phase does (R162): the slot in flight moves, the next slot starts, or a record is
queued. -/
theorem decoderPhase_moves {s : State} (hc : s.cfg.RefusesNothing) (hs : s.SlotsOk) :
    (∃ j, s.activeSlot = some j ∧ DecodeOut.Moves j s (decoderPhase s)) ∨
    (s.activeSlot = none ∧ s.core.queue = [] ∧ s.nextSlot < s.core.slots.length ∧
      DecodeOut.Moves s.nextSlot (s.startSlot s.nextSlot) (decoderPhase s)) ∨
    (s.core.queue ≠ [] ∧ decoderPhase s = .moved s) := by
  unfold decoderPhase
  cases ha : s.activeSlot with
  | some j =>
    obtain ⟨hj, hi⟩ := activeSlot_some ha
    exact .inl ⟨j, rfl, .advance_of_between (hs.2 _ (slot_mem hj)) hi⟩
  | none =>
    by_cases hq : s.core.queue = []
    · have hj := nextSlot_lt hc.wf hs.1
      have hidle := (slot_startSlot_state hj).trans (activeSlot_none ha _ (slot_mem hj))
      rw [if_pos (by simp [hq])]
      exact .inr (.inl ⟨rfl, hq, hj, .idleTick hc.extensions hidle⟩)
    · exact .inr (.inr ⟨hq, by simp [hq]⟩)

/-- Where no extension is registered and the slots are in order, the decoder phase refuses nothing (R168). -/
theorem decoderPhase_ne_refused {s : State} (hc : s.cfg.RefusesNothing) (hs : s.SlotsOk) (r : Refusal) :
    decoderPhase s ≠ .refused r := by
  intro h
  rcases decoderPhase_moves hc hs with ⟨j, -, hm⟩ | ⟨-, -, -, hm⟩ | ⟨-, hm⟩ <;> rw [h] at hm
  · exact hm.not_refused
  · exact hm.not_refused
  · cases hm

/-- With no record queued, a decoder phase that raises nothing leaves the executor one tick nearer. -/
theorem decoderPhase_progress {s t : State} {n : Nat} (hp : s.Progresses (n + 1))
    (hq : s.core.queue = []) (hd : decoderPhase s = .moved t) : t.Progresses n := by
  have hcfg : t.cfg = s.cfg := ((decoderPhase_decodes s).1 t hd).cfg
  obtain ⟨hc, hs, hr⟩ := hp
  suffices h : t.SlotsOk ∧ t.RunsWithin n from ⟨hcfg ▸ hc, h.1, h.2⟩
  have hm := decoderPhase_moves hc hs
  rw [hd] at hm
  rcases hr with ⟨⟨e, he, -⟩, -⟩ | ⟨j, hf, hi, hlt⟩ | ⟨hr, hlt⟩
  · simp [hq] at he
  · have ha := activeSlot_of_inFlight hf hi
    rcases hm with ⟨k, hk, hm⟩ | ⟨hk, -⟩ | ⟨hne, -⟩
    · obtain rfl : j = k := Option.some.inj (ha.symm.trans hk)
      exact hm.progress hc.wf hs hf (Nat.lt_succ_iff.1 hlt)
    · simp [ha] at hk
    · exact absurd hq hne
  · have ha := activeSlot_of_all_idle hr.2.1
    rcases hm with ⟨k, hk, -⟩ | ⟨-, -, hj, hm⟩ | ⟨hne, -⟩
    · simp [ha] at hk
    · refine hm.progress hc.wf (slotsOk_startSlot hs hj) (inFlight_startSlot hr hj) ?_
      rw [slot_startSlot_state hj, hr.2.1 _ (slot_mem hj)]
      exact Nat.lt_succ_iff.1 hlt
    · exact absurd hq hne

/-- The phases before the decoder's leave the way to the executor as it was. -/
theorem progresses_of_executes {s t : State} {n : Nat} (h : s.Executes t) (hp : s.Progresses n) :
    t.Progresses n := by
  obtain ⟨hc, hs, hr⟩ := hp
  refine ⟨h.cfg ▸ hc, ?_, ?_⟩
  · rw [State.SlotsOk, h.slots, h.cfg]; exact hs
  · simpa only [State.RunsWithin, State.Queued, State.InFlight, State.AtRest, State.slot, h.queue, h.slots,
      h.retireSeq, h.nextSeq, h.cfg] using hr

theorem State.Progresses.queueOk {s : State} {n : Nat} (hp : s.Progresses n) :
    s.cfg.queueOk s.core.queue = true := by
  rcases hp.runs with ⟨hq, -⟩ | ⟨j, hf, -⟩ | ⟨hr, -⟩
  · exact queueOk_of_queued hp.cfg.wf hq
  · rw [hf.1]; exact queueOk_nil _
  · rw [hr.1]; exact queueOk_nil _

theorem progresses_markTicked {s : State} {n : Nat} (hp : s.Progresses n) : s.markTicked.Progresses n :=
  ⟨hp.cfg, hp.slots, hp.runs⟩

/-- With a record of the root set queued, or none, the executor phase goes on. -/
theorem executorPhase_goesOn {s : State} {n : Nat} (hp : s.Progresses n) : ∃ t, executorPhase s = .next t := by
  have hnil : s.core.queue = [] → ∃ t, executorPhase s = .next t := fun hq =>
    ⟨s, by simp [executorPhase, hq, peek]⟩
  rcases hp.runs with ⟨⟨e, hq, ht, -⟩, -⟩ | ⟨j, hf, -⟩ | ⟨hr, -⟩
  · have hrun := goesOn_runRecord (s := s.latch e.record []) hp.cfg.mmu hp.cfg.branch e.record
    simpa [executorPhase, hq, peek, popEntry, ht] using exists_next_of_goesOn hrun
  · exact hnil hf.1
  · exact hnil hr.1

/-- The executor phase changes neither the configuration nor a slot. -/
theorem executorPhase_keeps_decoder {s t : State} (h : executorPhase s = .next t) :
    t.cfg = s.cfg ∧ t.core.slots = s.core.slots := by
  rcases executorPhase_cases h with ⟨-, rfl⟩ | ⟨e, q, -, -, hrun⟩
  · exact ⟨rfl, rfl⟩
  · have he := runRecord_executes _ _ t hrun
    exact ⟨he.cfg, he.slots⟩

theorem tickAfterExec_goesOn {s : State} (ran : Bool)
    (h : ∀ r, decoderPhase (interruptPhase s) ≠ .refused r) : ∃ u, tickAfterExec ran s = .next u := by
  unfold tickAfterExec
  split
  · exact ⟨_, rfl⟩
  · split
    · exact ⟨_, rfl⟩
    · unfold tickDecoder
      split
      · exact ⟨_, rfl⟩
      · exact ⟨_, rfl⟩
      · next r hr => exact absurd hr (h r)

/-- A tick on the way to the executor goes on. -/
theorem tickReport_goesOn {s : State} {n : Nat} (hp : s.Progresses n) : ∃ u, tickReport s = .next u := by
  cases hh : s.halted with
  | true => exact ⟨_, tickReport_of_halted hp.cfg.wf hp.queueOk hh⟩
  | false =>
    obtain ⟨t, ht⟩ := executorPhase_goesOn (progresses_markTicked hp)
    obtain ⟨hcfg, hslots⟩ := executorPhase_keeps_decoder ht
    have hi := interruptPhase_executes t
    have hc : (interruptPhase t).cfg.RefusesNothing := by rw [hi.cfg, hcfg]; exact hp.cfg
    have hs : (interruptPhase t).SlotsOk := by
      rw [State.SlotsOk, hi.slots, hi.cfg, hslots, hcfg]; exact hp.slots
    obtain ⟨u, hu⟩ := tickAfterExec_goesOn (!s.core.queue.isEmpty) (decoderPhase_ne_refused hc hs)
    exact ⟨u, by simp [tickReport, hp.cfg.wf, hp.queueOk, hh, ht, hu]⟩

/-- A tick that does not end the step found no record queued, raised nothing, and left the executor one tick
nearer. -/
theorem tickReport_progress {s : State} {n : Nat} (hp : s.Progresses (n + 1)) {u : Ticked}
    (h : tickReport s = .next u) (he : u.ended = false) : u.state.Progresses n := by
  obtain ⟨-, -, ⟨-, rfl⟩ | ⟨-, s1, hx, ⟨-, rfl⟩ | ⟨-, -, rfl⟩ | ⟨-, -, ⟨t, hd, rfl⟩ | ⟨t, -, rfl⟩⟩⟩⟩ :=
    tickReport_cases h
  · cases he
  · cases he
  · cases he
  · obtain ⟨hq, -⟩ : s.core.queue = [] ∧ t.halted = false := by simpa using he
    obtain ⟨-, rfl⟩ | ⟨e, q, hne, -⟩ := executorPhase_cases hx
    · have hi := interruptPhase_executes s.markTicked
      exact decoderPhase_progress (progresses_of_executes hi (progresses_markTicked hp))
        (hi.queue.trans hq) hd
    · simp [hq] at hne
  · cases he

/-! ### The step -/

/-- As many ticks as the executor is away end the step. -/
theorem stepTicks_goesOn (n : Nat) : ∀ {s : State}, s.Progresses n → ∃ t, stepTicks n s = .next t := by
  induction n with
  | zero =>
    intro s hp
    rcases hp.runs with ⟨-, h⟩ | ⟨j, -, -, h⟩ | ⟨-, h⟩ <;> exact absurd h (Nat.not_lt_zero _)
  | succ n ih =>
    intro s hp
    obtain ⟨u, hu⟩ := tickReport_goesOn hp
    cases he : u.ended with
    | true => exact ⟨u.state, by simp [stepTicks, hu, he]⟩
    | false =>
      obtain ⟨t, ht⟩ := ih (tickReport_progress hp hu he)
      exact ⟨t, by simp [stepTicks, hu, he, ht]⟩

/-- No state between ticks is further from the executor than an Idle slot. -/
theorem ticksLeft_lt_stepFuel (st : DecodeState) : st.ticksLeft < stepFuel := by cases st <;> decide

/-- R174: from a pipeline in order the executor runs within the ticks that one instruction takes. -/
theorem State.PipelineOk.progresses {s : State} (hp : s.PipelineOk) (hc : s.cfg.RefusesNothing) :
    s.Progresses stepFuel := by
  obtain ⟨hl, hb, -, ⟨hidle, hlen, he, hn⟩ | ⟨hq, j, hj, hi, hs, -, hk⟩⟩ := hp
  · refine ⟨hc, ⟨hl, hb⟩, ?_⟩
    cases hq : s.core.queue with
    | nil => exact .inr (.inr ⟨⟨hq, hidle, hn⟩, ticksLeft_lt_stepFuel _⟩)
    | cons e q =>
      obtain rfl : q = [] := by simpa [hq] using hlen
      obtain ⟨ht, hsz, -⟩ := he e (by simp [hq])
      exact .inl ⟨⟨e, hq, ht, hsz⟩, by decide⟩
  · exact ⟨hc, ⟨hl, hb⟩, .inr (.inl ⟨j, ⟨hq, hj, hs, hk⟩, hi, ticksLeft_lt_stepFuel _⟩)⟩

/-- Settles O15, by induction on the ticks of the step: each tick goes on, and one that does not end the step
leaves the executor nearer. -/
theorem stepAlwaysGoesOn : Obligations.StepAlwaysGoesOn := fun _ hw hx hm hb hp =>
  stepTicks_goesOn stepFuel (hp.progresses ⟨hw, hx, hm, hb⟩)

end Sys2Proof.Machine

/-! The phases of a tick as the invariants of a step see them, and what a meaning can do to the control registers
and the control blocks. -/

namespace Sys2Proof.Machine

/-! ### Invariants of the phases (R190) -/

/-- What every phase of a tick keeps. The core is not halted where a phase begins, since R190 runs no phase
then. -/
structure KeptByPhases (P : State → Prop) : Prop where
  executor : ∀ {s t}, P s → s.halted = false → executorPhase s.markTicked = .next t → P t
  interrupt : ∀ {s}, P s → s.halted = false → P (interruptPhase s)
  moved : ∀ {s t}, P s → s.halted = false → decoderPhase s = .moved t → P t
  raised : ∀ {s t}, P s → s.halted = false → decoderPhase s = .raised t → P t

/-- What every phase keeps, a tick keeps. -/
theorem KeptByPhases.tickReport {P : State → Prop} (hP : KeptByPhases P) {s : State} {u : Ticked} (hs : P s)
    (h : tickReport s = .next u) : P u.state := by
  obtain ⟨-, -, ⟨-, rfl⟩ | ⟨h0, s1, hx, hend⟩⟩ := tickReport_cases h
  · exact hs
  · have h1 : P s1 := hP.executor hs h0 hx
    rcases hend with ⟨-, rfl⟩ | ⟨hh, -, rfl⟩ | ⟨hh, hi, ⟨t, hd, rfl⟩ | ⟨t, hd, rfl⟩⟩
    · exact h1
    · exact hP.interrupt h1 hh
    · exact hP.moved (hP.interrupt h1 hh) hi hd
    · exact hP.raised (hP.interrupt h1 hh) hi hd

/-- What every phase keeps, a step keeps. -/
theorem KeptByPhases.step {P : State → Prop} (hP : KeptByPhases P) {s t : State} (hs : P s)
    (h : step s = .next t) : P t := step_induction (fun _ _ => hP.tickReport) hs h

/-- A decoder phase that raises ends in what RaiseException makes of a state that the phase's own changes led
to, but for the slots and the sequence ids (R170). -/
theorem decoderPhase_raised {s t : State} (h : decoderPhase s = .raised t) :
    ∃ e u slots retireSeq, s.Decodes u ∧
      t = { u.raiseException e with
        core := { (u.raiseException e).core with slots := slots, retireSeq := retireSeq } } := by
  obtain ⟨j, e, u, hu, hf⟩ := (decoderPhase_decodes s).2 t h
  cases hf
  exact ⟨e, u, _, _, hu, rfl⟩

/-! ### What a step never changes (R39, R42, R51, R353) -/

/-- The configuration, the other cores, the core's index and `initialSp` are as they were. -/
structure State.KeepsFixed (s t : State) : Prop where
  cfg : t.cfg = s.cfg
  peers : t.peers = s.peers
  id : t.core.id = s.core.id
  initialSp : t.core.initialSp = s.core.initialSp

namespace State.KeepsFixed

variable {s t u : State}

theorem trans (h : s.KeepsFixed t) (g : t.KeepsFixed u) : s.KeepsFixed u :=
  ⟨g.cfg.trans h.cfg, g.peers.trans h.peers, g.id.trans h.id, g.initialSp.trans h.initialSp⟩

theorem of_executes (h : s.Executes t) : s.KeepsFixed t := ⟨h.cfg, h.peers, h.id, h.initialSp⟩

theorem of_decodes (h : s.Decodes t) : s.KeepsFixed t := ⟨h.cfg, h.peers, h.id, h.initialSp⟩

theorem markTicked (s : State) : s.KeepsFixed s.markTicked := ⟨rfl, rfl, rfl, rfl⟩

theorem executorPhase (h : executorPhase s = .next t) : s.KeepsFixed t := by
  obtain ⟨-, rfl⟩ | ⟨e, q, -, -, hrun⟩ := executorPhase_cases h
  · exact ⟨rfl, rfl, rfl, rfl⟩
  · obtain ⟨hc, hp, hi, hsp⟩ := of_executes (runRecord_executes _ _ t hrun)
    exact ⟨hc, hp, hi, hsp⟩

theorem decoderPhase_raised (h : decoderPhase s = .raised t) : s.KeepsFixed t := by
  obtain ⟨e, u, _, _, hu, rfl⟩ := Machine.decoderPhase_raised h
  obtain ⟨hc, hp, hi, hsp⟩ := (of_decodes hu).trans (of_executes (.raiseException u e))
  exact ⟨hc, hp, hi, hsp⟩

theorem keptByPhases (s : State) : KeptByPhases s.KeepsFixed where
  executor h _ hx := (h.trans (markTicked _)).trans (executorPhase hx)
  interrupt h _ := h.trans (of_executes (interruptPhase_executes _))
  moved h _ hd := h.trans (of_decodes ((decoderPhase_decodes _).1 _ hd))
  raised h _ hd := h.trans (decoderPhase_raised hd)

end State.KeepsFixed

/-- Settles O20: every phase keeps the four, and the indices of the cores are among them. -/
theorem stepKeepsTheRest : Obligations.StepKeepsTheRest := by
  intro s t h
  obtain ⟨hcfg, hpeers, hid, hsp⟩ := (State.KeepsFixed.keptByPhases s).step ⟨rfl, rfl, rfl, rfl⟩ h
  exact ⟨hcfg, hpeers, hid, hsp, fun hd => by rwa [State.CoresDistinct, List.map_cons, hid, hpeers]⟩

/-! ### What a meaning can do to the control registers and the control blocks -/

/-- The control registers, the control blocks, the core's index and F.H are as they were. -/
structure State.SameControl (s t : State) : Prop where
  cr : t.regs.cr = s.regs.cr
  isr : t.core.isr = s.core.isr
  exc : t.core.exc = s.core.exc
  id : t.core.id = s.core.id
  halted : t.halted = s.halted

namespace State.SameControl

variable {s t u : State}

theorem refl (s : State) : s.SameControl s := ⟨rfl, rfl, rfl, rfl, rfl⟩

theorem trans (h : s.SameControl t) (g : t.SameControl u) : s.SameControl u :=
  ⟨g.cr.trans h.cr, g.isr.trans h.isr, g.exc.trans h.exc, g.id.trans h.id, g.halted.trans h.halted⟩

theorem setReg (s : State) (i : RegIndex) (v : Word) : s.SameControl (s.setReg i v) :=
  ⟨rfl, rfl, rfl, rfl, rfl⟩

theorem setIp (s : State) (v : Word) : s.SameControl (s.setIp v) := ⟨rfl, rfl, rfl, rfl, rfl⟩

theorem setFlags {s : State} {f : Flags} (h : f.h = s.flags.h) : s.SameControl (s.setFlags f) :=
  ⟨rfl, rfl, rfl, rfl, h⟩

theorem of_setSys (h : t = s.setSys t.sys) : s.SameControl t := by rw [h]; exact ⟨rfl, rfl, rfl, rfl, rfl⟩

theorem memRead {a : Word} {n : Nat} {k : AccessKind} {v : Word} (h : s.memRead a n k = some (v, t)) :
    s.SameControl t := of_setSys (memRead_frame h).1

theorem memWrite {a : Word} {n : Nat} {v : Word} (h : s.memWrite a n v = some t) : s.SameControl t :=
  of_setSys (memWrite_frame h).1

theorem storeDst {size : Size} {v : Word} (h : s.storeDst size v = .ok t) : s.SameControl t := by
  rcases s.storeDst_cases size v with ⟨-, u, e, e'⟩ | ⟨-, e⟩ <;> rw [e] at h <;> cases h
  exact memWrite e'

theorem writeOperand {dst : Operand} {size : Size} {v : Word} (h : s.writeOperand dst size v = .ok t) :
    s.SameControl t := by
  cases dst with
  | immediate => cases h
  | register => cases h; exact setReg ..
  | absolute => exact storeDst h
  | indirect => exact storeDst h

theorem push {n : Nat} {v : Word} (h : s.push n v = .ok t) : s.SameControl t := by
  rcases s.push_cases n v with ⟨-, u, e, e'⟩ | ⟨-, e⟩
  · rw [e'] at h; cases h; exact (memWrite e).trans (setReg ..)
  · rw [e] at h; cases h

theorem sysAction {act : SysAction} (h : s.sysAction act = some t) : s.SameControl t := by
  cases act with
  | setReg => cases h; exact setReg ..
  | setFlags => cases h; exact setFlags rfl
  | load a n =>
    simp only [State.sysAction, State.readBytes, Option.map_eq_some_iff] at h
    obtain ⟨_, ⟨_, -, rfl⟩, rfl⟩ := h
    exact of_setSys rfl
  | store a bs =>
    simp only [State.sysAction, State.writeBytes, Option.map_eq_some_iff] at h
    obtain ⟨_, -, rfl⟩ := h
    exact of_setSys rfl

theorem of_decodes (h : s.Decodes t) : s.SameControl t :=
  ⟨by rw [State.regs, h.regs], h.isr, h.exc, h.id, by rw [State.halted, h.regs, State.halted]⟩

end State.SameControl

/-- What a meaning can do to the control registers, the control blocks and F.H. A raise is made after changes to
other state, the effects of a syscall handler (R302) among them. -/
inductive State.Controls (s : State) : State → Prop where
  | same {t : State} (h : s.SameControl t) : s.Controls t
  | halt : s.Controls s.halt
  | writeCr (i : BitVec 3) (v : Word) : s.Controls (s.writeCr i v)
  | raise {u : State} (h : s.SameControl u) (e : Exc) : s.Controls (u.raiseException e)
  | endIsr {i : Fin 8} {snap : RegFile} (h : s.executingIsr = some (i, snap)) :
    s.Controls (s.returnFromInterrupt i snap)
  | endExc {snap : RegFile} (h : s.excSnapshot = some snap) : s.Controls (s.returnFromException snap)

/-- Every outcome that goes on differs from `s` as a meaning may. -/
def Result.Controls (s : State) (r : Result) : Prop := ∀ t, r = .next t → s.Controls t

namespace Result.Controls

variable {s : State}

theorem next {t : State} (h : s.Controls t) : Result.Controls s (.next t) := fun _ e => by cases e; exact h

theorem refused (x : Refusal) : Result.Controls s (.refused x) := fun _ e => by cases e

theorem raised (s : State) (e : Exc) : Result.Controls s (s.raised e) := next (.raise (.refl s) e)

theorem finish {u : State} {r : Except Exc State} {k : State → State} (hu : s.SameControl u)
    (h : ∀ t, r = .ok t → u.SameControl (k t)) : Result.Controls s (u.finish r k) := by
  cases r with
  | ok t => exact next (.same (hu.trans (h t rfl)))
  | error e => exact next (.raise hu e)

/-- A meaning that writes its destination and then flags that keep F.H. -/
theorem flagged {size : Size} {dst : Operand} {v : Word} {f : State → Flags}
    (hf : ∀ t, (f t).h = t.flags.h) :
    Result.Controls s (s.finish (s.writeOperand dst size v) fun t => t.setFlags (f t)) :=
  finish (.refl s) fun t h => (State.SameControl.writeOperand h).trans (.setFlags (hf t))

theorem writeControlReg (s : State) (i : RegIndex) (v : Word) :
    Result.Controls s (writeControlReg s i v) := by
  unfold Machine.writeControlReg
  split
  · split
    · exact refused _
    · exact next (.writeCr _ _)
  · exact next (.same (.setReg ..))

theorem movCr (dst src : Operand) (s : State) : Result.Controls s (execMovCr dst src s) := by
  cases dst with
  | immediate => exact raised s _
  | register i => exact writeControlReg s i _
  | absolute => exact finish (.refl s) fun _ h => .storeDst h
  | indirect => exact finish (.refl s) fun _ h => .storeDst h

theorem cmp (size : Size) (dst src : Operand) (s : State) :
    Result.Controls s (execCmp size dst src s) := by
  unfold execCmp
  split
  · exact raised s _
  · exact next (.same (.setFlags rfl))

theorem branch (cond : Flags → Bool) (size : Size) (op : Operand) (s : State) :
    Result.Controls s (branch cond size op s) := by
  unfold Machine.branch
  split
  · exact refused _
  · split
    · exact next (.same (.setIp ..))
    · exact next (.same (.refl s))

theorem popInto {u : State} (hu : s.SameControl u) (size : Size) (op : Operand) (v : Word) :
    Result.Controls s (popInto size op v u) := by
  cases op with
  | immediate => exact next (.raise hu _)
  | register => exact next (.same (hu.trans ((State.SameControl.setReg u _ _).trans (.setReg ..))))
  | absolute => exact finish hu fun _ h => (State.SameControl.storeDst h).trans (.setReg ..)
  | indirect => exact finish hu fun _ h => (State.SameControl.storeDst h).trans (.setReg ..)

theorem pop (size : Size) (op : Operand) (s : State) : Result.Controls s (execPop size op s) := by
  unfold execPop
  split
  · exact raised s _
  · split
    · exact raised s _
    · next h => exact popInto (.memRead h) size op _

theorem ret (s : State) : Result.Controls s (execRet s) := by
  unfold execRet
  split
  · exact raised s _
  · split
    · exact raised s _
    · next h =>
      exact next (.same ((State.SameControl.memRead h).trans
        ((State.SameControl.setReg _ _ _).trans (.setIp ..))))

theorem rti (s : State) : Result.Controls s (execRti s) := by
  unfold execRti
  split
  · split
    · next h => exact next (.endIsr h)
    · exact raised s _
  · exact raised s _

theorem rte (s : State) : Result.Controls s (execRte s) := by
  unfold execRte
  split
  · next h => exact next (.endExc h)
  · exact raised s _

/-- By induction on the handler's effects: none touches a control register, and the first that faults raises. -/
theorem runSysActions (acts : List SysAction) :
    ∀ {u : State}, s.SameControl u → s.Controls (runSysActions acts u) := by
  induction acts with
  | nil => exact .same
  | cons a acts ih =>
    intro u hu
    unfold Machine.runSysActions
    cases h : u.sysAction a with
    | none => exact .raise hu _
    | some t => exact ih (hu.trans (.sysAction h))

theorem sys (s : State) : Result.Controls s (execSys s) := by
  unfold execSys
  dsimp only
  split
  · exact next (runSysActions _ ⟨rfl, rfl, rfl, rfl, rfl⟩)
  · exact raised s _

end Result.Controls

theorem exec_controls (i : Instr) (s : State) : Result.Controls s (exec i s) := by
  cases i with
  | brk => exact .next .halt
  | nop => exact .next (.same (.refl s))
  | mov => exact .finish (.refl s) fun _ h => .writeOperand h
  | movCr dst src => exact .movCr dst src s
  | add => exact .flagged fun _ => rfl
  | sub => exact .flagged fun _ => rfl
  | cmp size dst src => exact .cmp size dst src s
  | asl => exact .flagged fun _ => rfl
  | asr => exact .flagged fun _ => rfl
  | lsl => exact .flagged fun _ => rfl
  | lsr => exact .flagged fun _ => rfl
  | push => exact .finish (.refl s) fun _ h => .push h
  | pop size op => exact .pop size op s
  | bra size op => exact .branch (fun _ => true) size op s
  | beq size op => exact .branch (fun f => f.z) size op s
  | bne size op => exact .branch (fun f => !f.z) size op s
  | bcs size op => exact .branch (fun f => f.c) size op s
  | bcc size op => exact .branch (fun f => !f.c) size op s
  | bmi size op => exact .branch (fun f => f.n) size op s
  | bpl size op => exact .branch (fun f => !f.n) size op s
  | bvs size op => exact .branch (fun f => f.v) size op s
  | bvc size op => exact .branch (fun f => !f.v) size op s
  | call => exact .finish (.refl s) fun _ h => (State.SameControl.push h).trans (.setIp ..)
  | ret => exact .ret s
  | rti => exact .rti s
  | rte => exact .rte s
  | sys => exact .sys s

/-- What the executor phase can do to the control registers and the control blocks: nothing, or what a meaning
does once its record is taken from the queue (R178). -/
theorem executorPhase_controls {s t : State} (h : executorPhase s = .next t) :
    ∃ u, s.SameControl u ∧ u.Controls t := by
  obtain ⟨-, rfl⟩ | ⟨e, q, -, -, hrun⟩ := executorPhase_cases h
  · exact ⟨t, .refl t, .same (.refl t)⟩
  · refine ⟨s.latch e.record q, ⟨rfl, rfl, rfl, rfl, rfl⟩, ?_⟩
    unfold runRecord at hrun
    split at hrun
    · exact exec_controls _ _ t hrun
    · exact Result.Controls.raised _ _ t hrun

/-! ### Legal control registers (R33 to R40) -/

/-- Whether a register file is legal is a matter of its control registers alone. -/
theorem RegFile.Legal.congr {id : Nat} {r g : RegFile} (h : r.Legal id) (e : g.cr = r.cr) : g.Legal id := by
  simpa only [RegFile.Legal, RegFile.getCr, e] using h

/-- STATUS may be given any value within its fields. -/
theorem RegFile.Legal.setStatus {id : Nat} {r : RegFile} (h : r.Legal id) {v : Word}
    (hv : v &&& ~~~ statusFields = 0) : (r.setCr statusIndex v).Legal id := by
  simp_all [RegFile.Legal, RegFile.getCr_setCr, statusIndex]

theorem RegFile.Legal.status {id : Nat} {r : RegFile} (h : r.Legal id) :
    r.getCr statusIndex &&& ~~~ statusFields = 0 := h.2.2.1

theorem or_within {m x y : Word} (hx : x &&& ~~~ m = 0) (hy : y &&& ~~~ m = 0) :
    (x ||| y) &&& ~~~ m = 0 := by rw [BitVec.and_or_distrib_right, hx, hy]; rfl

theorem and_within {m x : Word} (hx : x &&& ~~~ m = 0) (k : Word) : (x &&& k) &&& ~~~ m = 0 := by
  rw [BitVec.and_assoc, BitVec.and_comm k, ← BitVec.and_assoc, hx]; exact BitVec.zero_and

theorem statusWithExcId_within {st : Word} (h : st &&& ~~~ statusFields = 0) (e : Fin 6) :
    statusWithExcId st e &&& ~~~ statusFields = 0 :=
  or_within (and_within h _) (by revert e; decide)

theorem statusWithExcActive_within {st : Word} (h : st &&& ~~~ statusFields = 0) :
    statusWithExcActive st &&& ~~~ statusFields = 0 := or_within h (by decide)

theorem statusWithInt_within {st : Word} (h : st &&& ~~~ statusFields = 0) (i : Fin 8) :
    statusWithInt st i &&& ~~~ statusFields = 0 :=
  or_within (or_within (and_within h _) (by revert i; decide)) (by decide)

theorem State.snapshot_of_executingIsr {s : State} {i : Fin 8} {snap : RegFile}
    (h : s.executingIsr = some (i, snap)) : snap ∈ (s.isrBlock i).snapshot := by
  obtain ⟨j, -, hj⟩ := List.exists_of_findSome?_eq_some h
  obtain ⟨_, hs, he⟩ := Option.map_eq_some_iff.1 hj
  cases he
  exact hs

theorem State.snapshot_of_excSnapshot {s : State} {snap : RegFile} (h : s.excSnapshot = some snap) :
    snap ∈ s.core.exc.phase.snapshot := by
  unfold State.excSnapshot at h
  split at h
  · next hp =>
    split at h
    · cases h; rw [hp]; rfl
    · cases h
  · cases h

namespace State.ControlOk

variable {s t : State}

theorem setRegs {r : RegFile} (h : s.ControlOk) (hr : r.Legal s.core.id) : (s.setRegs r).ControlOk :=
  ⟨hr, h.2⟩

theorem setStatus {v : Word} (h : s.ControlOk) (hv : v &&& ~~~ statusFields = 0) :
    (s.setCr statusIndex v).ControlOk := h.setRegs (h.1.setStatus hv)

theorem setIp (h : s.ControlOk) (v : Word) : (s.setIp v).ControlOk := h

theorem halt (h : s.ControlOk) : s.halt.ControlOk := h

theorem sameControl (h : s.ControlOk) (hc : s.SameControl t) : t.ControlOk := by
  obtain ⟨hr, hi, he⟩ := h
  refine ⟨hc.id ▸ hr.congr hc.cr, ?_, ?_⟩
  · simpa only [State.isrBlock, hc.isr, hc.id] using hi
  · simpa only [hc.exc, hc.id] using he

theorem setExc {b : ExcBlock} (h : s.ControlOk) (hb : ∀ snap ∈ b.phase.snapshot, snap.Legal s.core.id) :
    (s.setExc b).ControlOk := ⟨h.1, h.2.1, hb⟩

theorem setIsrBlock {b : IsrBlock} (h : s.ControlOk) (i : Fin 8)
    (hb : ∀ snap ∈ b.snapshot, snap.Legal s.core.id) : (s.setIsrBlock i b).ControlOk := by
  refine ⟨h.1, fun j => ?_, h.2.2⟩
  rw [State.isrBlock_setIsrBlock]
  split
  · exact hb
  · exact h.2.1 j

/-- R41: what software writes is cut to the fields. -/
theorem writeCr (h : s.ControlOk) (i : BitVec 3) (v : Word) : (s.writeCr i v).ControlOk := by
  have hr := h.1
  unfold State.writeCr
  split
  · exact h.setRegs (by simpa [RegFile.Legal, RegFile.getCr_setCr, BitVec.and_assoc] using hr.2)
  · exact h.setRegs (by simp_all [RegFile.Legal, RegFile.getCr_setCr, BitVec.and_assoc])
  · exact h.setRegs (by simpa [RegFile.Legal, RegFile.getCr_setCr] using hr)
  · exact h.setRegs (by simpa [RegFile.Legal, RegFile.getCr_setCr] using hr)
  · exact h

theorem recordExc (h : s.ControlOk) (e : Exc) : (s.recordExc e).ControlOk :=
  h.setStatus (statusWithExcId_within h.1.status _)

theorem enterException (h : s.ControlOk) (e : Exc) : (s.enterException e).ControlOk := by
  rcases s.enterException_cases e with ⟨v, s1, hm, he⟩ | ⟨-, he⟩ <;> rw [he]
  · have hs := State.SameControl.memRead hm
    have h1 : (s1.setExc { phase := .executing s.regs, id := e.id }).ControlOk :=
      (h.sameControl hs).setExc fun snap hsnap => by cases hsnap; exact hs.id ▸ h.1
    exact (h1.setIp v).setStatus (statusWithExcActive_within h.1.status)
  · exact h.halt

theorem raiseException (h : s.ControlOk) (e : Exc) : (s.raiseException e).ControlOk := by
  rcases s.raiseException_cases e with ⟨-, he⟩ | ⟨-, -, he⟩ | ⟨-, -, he⟩ <;> rw [he]
  · exact ((h.recordExc e).recordExc .hardFault).halt
  · exact (h.recordExc e).halt
  · exact (h.recordExc e).enterException e

theorem enterIsr (h : s.ControlOk) (i : Fin 8) : (s.enterIsr i).ControlOk := by
  rcases s.enterIsr_cases i with ⟨v, s1, hm, he⟩ | ⟨-, he⟩ <;> rw [he]
  · have hs := State.SameControl.memRead hm
    have h1 : (s1.setIsrBlock i (.executing s.regs)).ControlOk :=
      (h.sameControl hs).setIsrBlock i fun snap hsnap => by cases hsnap; exact hs.id ▸ h.1
    exact (h1.setIp v).setStatus (statusWithInt_within h.1.status i)
  · exact h.halt

theorem returnFromInterrupt {i : Fin 8} {snap : RegFile} (h : s.ControlOk)
    (hi : s.executingIsr = some (i, snap)) : (s.returnFromInterrupt i snap).ControlOk :=
  (h.setIsrBlock i fun _ e => by cases e).setRegs (h.2.1 i snap (snapshot_of_executingIsr hi))

theorem returnFromException {snap : RegFile} (h : s.ControlOk) (he : s.excSnapshot = some snap) :
    (s.returnFromException snap).ControlOk :=
  (h.setExc fun _ e => by cases e).setRegs (h.2.2 snap (snapshot_of_excSnapshot he))

theorem controls (h : s.ControlOk) (hc : s.Controls t) : t.ControlOk := by
  cases hc with
  | same hc => exact h.sameControl hc
  | halt => exact h.halt
  | writeCr i v => exact h.writeCr i v
  | raise hu e => exact (h.sameControl hu).raiseException e
  | endIsr hi => exact h.returnFromInterrupt hi
  | endExc he => exact h.returnFromException he

theorem executorPhase (h : s.ControlOk) (hx : executorPhase s = .next t) : t.ControlOk := by
  obtain ⟨u, hu, hc⟩ := executorPhase_controls hx
  exact (h.sameControl hu).controls hc

theorem interruptPhase (h : s.ControlOk) : (interruptPhase s).ControlOk := by
  rcases interruptPhase_cases s with hi | ⟨i, -, hi⟩ <;> rw [hi]
  · exact h
  · exact h.enterIsr i

theorem decoderPhase_moved (h : s.ControlOk) (hd : decoderPhase s = .moved t) : t.ControlOk :=
  h.sameControl (.of_decodes ((decoderPhase_decodes s).1 t hd))

theorem decoderPhase_raised (h : s.ControlOk) (hd : decoderPhase s = .raised t) : t.ControlOk := by
  obtain ⟨e, u, _, _, hu, rfl⟩ := Machine.decoderPhase_raised hd
  exact ((h.sameControl (.of_decodes hu)).raiseException e).sameControl ⟨rfl, rfl, rfl, rfl, rfl⟩

theorem keptByPhases : KeptByPhases State.ControlOk where
  executor h _ hx := executorPhase (s := State.markTicked _) h hx
  interrupt h _ := h.interruptPhase
  moved h _ hd := h.decoderPhase_moved hd
  raised h _ hd := h.decoderPhase_raised hd

end State.ControlOk

/-- Settles O18: every phase keeps the control registers legal, those of the snapshots too, because STATUS is
written within its fields, software's writes are cut to theirs, and a return restores a legal snapshot. -/
theorem stepKeepsControlOk : Obligations.StepKeepsControlOk := fun _ _ hs h =>
  State.ControlOk.keptByPhases.step hs h

end Sys2Proof.Machine

/-! The register file: width views, the map of the control registers, and MOV to a control register. -/

namespace Sys2Proof.Machine

/-! ### Width views (R23) -/

theorem setRegAt_writesReg (s : State) (size : Size) (i : RegIndex) (v : Word) :
    s.WritesReg (s.setRegAt size i v) size i (lowBits size v) := by
  refine ⟨fun n hn => ?_, fun n hn => ?_, fun j hj => ?_⟩
  · simp [State.reg_setRegAt, getLsbD_mergeWidth, lowBits, hn]
  · simp [State.reg_setRegAt, getLsbD_mergeWidth, Nat.not_lt.2 hn]
  · rw [State.reg_setRegAt, if_neg (by simpa using hj)]

/-- Settles O23: bit by bit from `getLsbD_mergeWidth`; the write is one of the register file alone. -/
theorem widthViews : Obligations.WidthViews := fun s size i v =>
  ⟨setRegAt_writesReg s size i v, by rw [State.reg_setRegAt, if_pos rfl]; rfl, rfl, rfl, rfl, fun _ => rfl⟩

/-! ### The map of the control registers (R22, R41) -/

theorem readControlReg_cr (s : State) (i : BitVec 3) : s.readControlReg (i.setWidth 4) = s.cr i := by
  have h : (i.setWidth 4).toNat < 8 ∧ (i.setWidth 4).setWidth 3 = i := by revert i; decide
  rw [State.readControlReg, if_pos h.1, h.2]

theorem readControlReg_reg (s : State) (i : BitVec 3) :
    s.readControlReg (i.setWidth 4 + 8) = s.reg (i.setWidth 4) := by
  have h : ¬ (i.setWidth 4 + 8).toNat < 8 ∧ i.setWidth 4 + 8 - 8 = i.setWidth 4 := by revert i; decide
  rw [State.readControlReg, if_neg h.1, h.2]

/-- What software may write of `v` to control register `i`; nothing where the register is not its to write
(R41). -/
def softwareCr (i : BitVec 3) (v : Word) : Option Word :=
  match i.toNat with
  | 0 => some (v &&& 0xFF)
  | 1 => some (v &&& 0x3F)
  | 3 => some v
  | 4 => some v
  | _ => none

/-- A software write either puts the legalised value in that one register or does nothing (R41). -/
theorem writeCr_cases (s : State) (i : BitVec 3) (v : Word) :
    (∃ w, softwareCr i v = some w ∧ s.writeCr i v = s.setCr i w) ∨
      (softwareCr i v = none ∧ s.writeCr i v = s) := by
  have h : i = 0 ∨ i = 1 ∨ i = 2 ∨ i = 3 ∨ i = 4 ∨ i = 5 ∨ i = 6 ∨ i = 7 := by revert i; decide
  rcases h with rfl | rfl | rfl | rfl | rfl | rfl | rfl | rfl
  · exact .inl ⟨_, rfl, rfl⟩
  · exact .inl ⟨_, rfl, rfl⟩
  · exact .inr ⟨rfl, rfl⟩
  · exact .inl ⟨_, rfl, rfl⟩
  · exact .inl ⟨_, rfl, rfl⟩
  · exact .inr ⟨rfl, rfl⟩
  · exact .inr ⟨rfl, rfl⟩
  · exact .inr ⟨rfl, rfl⟩

theorem cr_writeCr (s : State) (i k : BitVec 3) (v : Word) :
    (s.writeCr i v).cr k = if k = i then (softwareCr i v).getD (s.cr k) else s.cr k := by
  rcases writeCr_cases s i v with ⟨w, hw, h⟩ | ⟨hw, h⟩ <;> rw [h, hw]
  · exact State.cr_setCr ..
  · exact (ite_self _).symm

/-- A software write changes the control registers and nothing else. -/
theorem writeCr_frame (s : State) (i : BitVec 3) (v : Word) :
    s.OnlyRegs (s.writeCr i v) ∧ (∀ j, (s.writeCr i v).reg j = s.reg j) ∧ (s.writeCr i v).ip = s.ip ∧
      (s.writeCr i v).flags = s.flags := by
  rcases writeCr_cases s i v with ⟨w, -, h⟩ | ⟨-, h⟩ <;> rw [h]
  · exact ⟨rfl, fun _ => rfl, rfl, rfl⟩
  · exact ⟨rfl, fun _ => rfl, rfl, rfl⟩

/-- Settles O24: a write by software is `softwareCr`'s value in one register, or nothing. -/
theorem controlRegisterMap : Obligations.ControlRegisterMap := by
  intro s v
  refine ⟨readControlReg_cr s, readControlReg_reg s, cr_writeCr s 0 0 v, cr_writeCr s 1 1 v, cr_writeCr s 3 3 v,
    cr_writeCr s 4 4 v, rfl, rfl, rfl, rfl, fun i j hij => ?_, fun i => ?_⟩
  · rw [cr_writeCr, if_neg hij.symm]
  · obtain ⟨hregs, hreg, hip, hflags⟩ := writeCr_frame s i v
    exact ⟨hregs, fun j _ => hreg j, hip, hflags⟩

/-! ### Stores to the destination (R177) -/

/-- A meaning that stores to its destination's address and then writes registers only ends as R177 says. -/
theorem endsStoring_finish_storeDst {s : State} {size : Size} {v : Word} {k : State → State}
    {regs : RegFile → Prop} (hk : ∀ t, k t = t.setRegs (k t).regs)
    (hr : ∀ t : State, t.regs = s.regs → regs (k t).regs) :
    s.EndsStoring s.dstEa size.bytes v regs (s.finish (s.storeDst size v) k) := by
  unfold State.EndsStoring
  rcases s.storeDst_cases size v with ⟨hc, t, e, hw⟩ | ⟨hc, e⟩ <;> rw [hc, e]
  · obtain ⟨ht, hm⟩ := State.memWrite_frame hw
    have hframe : s.OnlyRegsAndMemory (k t) := by
      rw [State.OnlyRegsAndMemory, hk t, ht]; rfl
    have hbytes (x : Nat) : (k t).byteAt x = t.byteAt x := by rw [hk t]; rfl
    refine ⟨k t, rfl, hframe, hr t (by rw [ht]; rfl), fun hok => ?_⟩
    obtain ⟨-, hout, hin⟩ := hm hok
    exact ⟨fun x hx => (hbytes x).trans (hout x hx), fun j hj hb => (hbytes _).trans (hin j hj hb)⟩
  · rfl

/-! ### MOV to a control register (R211) -/

/-- Where index `i` of the Control map is a control register (R22), the write is software's to that register. -/
theorem writeControlReg_of_lt {s : State} {i : RegIndex} {v : Word} (hi : i.toNat < 8)
    (hr : ¬ (i = 3 ∧ s.cfg.refuseMmuEnable = true ∧ v ≠ 0)) :
    writeControlReg s i v = .next (s.writeCr (i.setWidth 3) v) := by
  rw [writeControlReg, if_pos hi, if_neg hr]

/-- Where it is not, the write is to a data register. -/
theorem writeControlReg_of_le {s : State} {i : RegIndex} (v : Word) (hi : 8 ≤ i.toNat) :
    writeControlReg s i v = .next (s.setReg (i - 8) v) := if_neg (Nat.not_lt.2 hi)

theorem writeControlReg_refused {s : State} {v : Word} (hr : s.cfg.refuseMmuEnable = true) (hv : v ≠ 0) :
    writeControlReg s 3 v = .refused .mmuEnable := by
  rw [writeControlReg, if_pos (by decide), if_pos ⟨rfl, hr, hv⟩]

/-- Control register `k` after a software write through index `i` of the Control map, as R41's table has it. -/
theorem cr_writeCr_setWidth (s : State) {i : RegIndex} (hi : i.toNat < 8) (v : Word) (k : BitVec 3) :
    (s.writeCr (i.setWidth 3) v).cr k =
      if i = 0 ∧ k = 0 then v &&& 0xFF else if i = 1 ∧ k = 1 then v &&& 0x3F
      else if (i = 3 ∧ k = 3) ∨ (i = 4 ∧ k = 4) then v else s.cr k := by
  rw [cr_writeCr]
  have h : i = 0 ∨ i = 1 ∨ i = 2 ∨ i = 3 ∨ i = 4 ∨ i = 5 ∨ i = 6 ∨ i = 7 := by revert i; decide
  rcases h with rfl | rfl | rfl | rfl | rfl | rfl | rfl | rfl <;> simp [softwareCr]

/-- What a write through the Control map does (R22, R37, R41): refused, or software's write of a control
register, or a write of a data register. -/
theorem writeControlReg_effect (s : State) (i : RegIndex) (v : Word) :
    if i = 3 ∧ s.cfg.refuseMmuEnable = true ∧ v ≠ 0 then writeControlReg s i v = .refused .mmuEnable
    else ∃ t, writeControlReg s i v = .next t ∧ s.OnlyRegs t ∧ t.flags = s.flags ∧ t.ip = s.ip ∧
      (∀ k : BitVec 3, t.cr k =
        if i = 0 ∧ k = 0 then v &&& 0xFF else if i = 1 ∧ k = 1 then v &&& 0x3F
        else if (i = 3 ∧ k = 3) ∨ (i = 4 ∧ k = 4) then v else s.cr k) ∧
      ∀ k : RegIndex, t.reg k = if 8 ≤ i.toNat ∧ k = i - 8 then v else s.reg k := by
  split
  · next h =>
    obtain ⟨rfl, hr, hv⟩ := h
    exact writeControlReg_refused hr hv
  · next h =>
    rcases Nat.lt_or_ge i.toNat 8 with hi | hi
    · obtain ⟨hregs, hreg, hip, hflags⟩ := writeCr_frame s (i.setWidth 3) v
      refine ⟨_, writeControlReg_of_lt hi h, hregs, hflags, hip, cr_writeCr_setWidth s hi v, fun k => ?_⟩
      rw [hreg, if_neg fun e => Nat.not_le.2 hi e.1]
    · refine ⟨_, writeControlReg_of_le v hi, rfl, rfl, rfl, fun k => ?_, fun k => ?_⟩
      · obtain ⟨h0, h1, h3, h4⟩ : i ≠ 0 ∧ i ≠ 1 ∧ i ≠ 3 ∧ i ≠ 4 := by clear h; revert i; decide
        simp only [State.cr_setReg, h0, h1, h3, h4, false_and, or_self, if_false]
      · simp [State.reg_setReg, hi]

/-- Settles O36: a register destination by what a write through the Control map does, a memory destination by
what a store to the destination does. -/
theorem movCrEffect : Obligations.MovCrEffect := by
  refine ⟨⟨rfl, rfl, rfl⟩, fun s dst src => ?_⟩
  cases dst with
  | immediate => rfl
  | register i => exact writeControlReg_effect s i s.core.exu.primary
  | absolute => exact endsStoring_finish_storeDst (size := .l) (fun _ => rfl) fun _ h => h
  | indirect => exact endsStoring_finish_storeDst (size := .l) (fun _ => rfl) fun _ h => h

end Sys2Proof.Machine

/-! Memory as the core's accesses see it (20_memory.md R66 to R73): when an access faults, what a read and a
write do, the byte orders, and the operations on the hardware bus. -/

namespace Sys2Proof

open Machine

/-! ### The invariant of the memory system through a step (R91, R92) -/

/-- Every phase of a tick keeps the memory system coherent. -/
theorem Machine.State.MemoryOk.keptByPhases : KeptByPhases State.MemoryOk where
  executor {s t} h _ hx := by
    obtain ⟨-, rfl⟩ | ⟨e, q, -, -, hrun⟩ := executorPhase_cases hx
    · exact h
    · exact (runRecord_executes _ _ t hrun).memoryOk h
  interrupt h _ := (interruptPhase_executes _).memoryOk h
  moved h _ hd := (((decoderPhase_decodes _).1 _ hd).memory h).1
  raised h _ hd := by
    obtain ⟨e, u, _, _, hu, rfl⟩ := decoderPhase_raised hd
    exact (State.Executes.raiseException u e).memoryOk (hu.memory h).1

/-- Settles O16: every phase keeps the invariant, since memory changes only by the reads and writes of the MMU. -/
theorem stepKeepsMemoryOk : Obligations.StepKeepsMemoryOk := fun _ _ hs h =>
  State.MemoryOk.keptByPhases.step hs h

/-! ### When an access faults (R62, R63, R67) -/

theorem Config.byteAllowed_eq_false_iff {cfg : Config} {k : AccessKind} {x : Nat} :
    cfg.byteAllowed k x = false ↔ ∀ r, cfg.lookup x = some r → r.allows k = false := by
  unfold Config.byteAllowed
  cases cfg.lookup x <;> simp

/-- The check fails at the top of the address space or at a byte that no region allows. -/
theorem Config.check_eq_false_iff {cfg : Config} {a n : Nat} {k : AccessKind} :
    cfg.check a n k = false ↔
      2 ^ 64 < a + n ∨ ∃ j < n, ∀ r, cfg.lookup (a + j) = some r → r.allows k = false := by
  simp only [Config.check, Bool.and_eq_false_iff, decide_eq_false_iff_not, not_le, List.all_eq_false,
    List.mem_range, Bool.not_eq_true, Config.byteAllowed_eq_false_iff]

theorem Machine.State.memRead_eq_none_iff {s : State} {a : Word} {n : Nat} {k : AccessKind} :
    s.memRead a n k = none ↔ s.cfg.check a.toNat n k = false := by
  rw [← s.isSome_memRead, Option.isSome_eq_false_iff, Option.isNone_iff_eq_none]

theorem Machine.State.memWrite_eq_none_iff {s : State} {a : Word} {n : Nat} {v : Word} :
    s.memWrite a n v = none ↔ s.cfg.check a.toNat n .write = false := by
  rw [← s.isSome_memWrite a n v, Option.isSome_eq_false_iff, Option.isNone_iff_eq_none]

/-- Settles O25: an access faults exactly where its check fails. -/
theorem accessCheck : Obligations.AccessCheck :=
  ⟨fun _ _ _ _ => State.memRead_eq_none_iff.trans Config.check_eq_false_iff,
    fun _ _ _ _ => State.memWrite_eq_none_iff.trans Config.check_eq_false_iff⟩

/-! ### Reads and writes in the coherent view (R71, R92) -/

/-- Settles O26: off the hardware bus the bytes that the MMU answers are those of the coherent view. -/
theorem readIsCoherent : Obligations.ReadIsCoherent := by
  intro s a n k hm hchk hoff
  obtain ⟨v, t, hr⟩ := s.memRead_some hchk
  obtain ⟨hset, hframe⟩ := State.memRead_frame hr
  obtain ⟨hmt, hbytes⟩ := hframe hm
  obtain ⟨bs, sys, hmmu, rfl, -⟩ := State.memRead_eq_some hr
  obtain ⟨hw, hc, hco⟩ := hm
  rw [mmuRead_bytes hw hc hco hmmu hoff] at hr
  exact ⟨t, hr, hset, hbytes, hmt⟩

theorem Config.offHardwareBus_iff {cfg : Config} {a n : Nat} :
    cfg.offHardwareBus a n = true ↔ ∀ j < n, cfg.onHardwareBus (a + j) = false := by
  simp [Config.offHardwareBus]

/-- Off the hardware bus, a range that `v` was stored to has the bytes of `v`. -/
theorem Machine.State.Stores.bytesAt {s t : State} {a n : Nat} {v : Word} (h : s.Stores t a n v)
    (hoff : s.cfg.offHardwareBus a n = true) : t.bytesAt a n = split s.cfg.byteOrder n v.toNat := by
  obtain ⟨-, hin⟩ := h
  refine List.ext_getElem (by simp [State.bytesAt]) fun j hj hj' => ?_
  rw [length_split] at hj'
  simp [State.bytesAt, hin j hj' (Config.offHardwareBus_iff.1 hoff j hj'), hj']

/-- Settles O27: the store is what the frame of a write says, and reading back assembles what it split. -/
theorem readAfterWrite : Obligations.ReadAfterWrite := by
  intro s a n v hm _ hchk
  obtain ⟨t, hwr⟩ := s.memWrite_some v hchk
  obtain ⟨hset, hframe⟩ := State.memWrite_frame hwr
  obtain ⟨hmt, hst⟩ := hframe hm
  have hcfg : t.cfg = s.cfg := by rw [hset]; rfl
  refine ⟨t, hwr, hset, hmt, hst, fun hrd hoff => ?_⟩
  obtain ⟨u, hr, -⟩ := readIsCoherent t a n .read hmt (hcfg ▸ hrd) (hcfg ▸ hoff)
  rw [hcfg, hst.bytesAt hoff, assemble_split, show 256 ^ n = 2 ^ (8 * n) by rw [Nat.pow_mul]] at hr
  exact ⟨u, hr⟩

/-! ### The byte orders (R71, R130) -/

theorem leNat_append (xs ys : List Byte) : leNat (xs ++ ys) = leNat xs + 256 ^ xs.length * leNat ys := by
  induction xs with
  | nil => simp [leNat]
  | cons b xs ih => simp only [List.cons_append, leNat, ih, List.length_cons, Nat.pow_succ']; ring

/-- Each byte counts 2^8 times the one before it. -/
theorem leNat_eq_sum (bs : List Byte) :
    leNat bs = ((List.range bs.length).map fun j => (bs.getD j 0).toNat * 2 ^ (8 * j)).sum := by
  induction bs with
  | nil => rfl
  | cons b bs ih =>
    have hshift : ∀ j, (bs.getD j 0).toNat * 2 ^ (8 * (j + 1)) =
        256 * ((bs.getD j 0).toNat * 2 ^ (8 * j)) := fun j => by
      rw [Nat.mul_add, Nat.pow_add]; ring
    simp only [leNat, ih, List.length_cons, List.range_succ_eq_map, List.map_cons, List.map_map,
      Function.comp_def, List.sum_cons, List.getD_cons_zero, List.getD_cons_succ, hshift,
      List.sum_map_mul_left, Nat.mul_zero, Nat.pow_zero, Nat.mul_one]

/-- Each byte counts 2^8 times the one after it. -/
theorem leNat_reverse_eq_sum (bs : List Byte) :
    leNat bs.reverse =
      ((List.range bs.length).map fun j => (bs.getD j 0).toNat * 2 ^ (8 * (bs.length - 1 - j))).sum := by
  induction bs with
  | nil => rfl
  | cons b bs ih =>
    have hpow : 256 ^ bs.length = 2 ^ (8 * bs.length) := by rw [Nat.pow_mul]
    have htail : ∀ j : Nat, ((b :: bs).getD j.succ 0).toNat * 2 ^ (8 * (bs.length - j.succ)) =
        (bs.getD j 0).toNat * 2 ^ (8 * (bs.length - 1 - j)) := fun j => by
      rw [List.getD_cons_succ, Nat.sub_sub, Nat.add_comm 1 j]
    simp only [List.reverse_cons, leNat_append, leNat, ih, List.length_reverse, List.length_cons,
      List.range_succ_eq_map, List.map_cons, List.map_map, Function.comp_def, List.sum_cons,
      List.getD_cons_zero, hpow, Nat.add_sub_cancel, Nat.sub_zero, htail]
    ring

/-- Settles O28: little-endian assembly is `leNat`, big-endian assembly `leNat` of the bytes reversed. -/
theorem byteOrders : Obligations.ByteOrders := fun bs => ⟨leNat_reverse_eq_sum bs, leNat_eq_sum bs⟩

end Sys2Proof

namespace Sys2Proof

open Machine

variable {cfg : Config} {sys : MemSys}

/-! ### The operations on the hardware bus (R68, R70, R73) -/

/-- The pieces of a read append one operation for each byte on the bus, and the host's answer to each is given
the operations before it. -/
theorem readPieces_hw (hw : cfg.wf = true) {c : Nat} (hc : c < cfg.numCores) (ps : List (Nat × Nat))
    {a n : Nat} (hcut : cfg.Cuts a n ps) (sys : MemSys) (h : cfg.Coherent sys) :
    (cfg.readPieces c ps sys).2.hw =
        sys.hw ++ cfg.hwEvents (.read c) a (cfg.readPieces c ps sys).1 ∧
      ∀ j < n, cfg.onHardwareBus (a + j) = true → (cfg.readPieces c ps sys).1.getD j 0 =
        Config.hwRead c (a + j)
          (sys.hw ++ cfg.hwEvents (.read c) a ((cfg.readPieces c ps sys).1.take j)) := by
  induction ps generalizing a n sys with
  | nil =>
    obtain rfl : n = 0 := hcut
    exact ⟨by simp [Config.readPieces, Config.hwEvents], fun j hj => absurd hj (Nat.not_lt_zero j)⟩
  | cons p ps ih =>
    obtain ⟨rfl, hpos, -, hline, hbyte, hrest⟩ := hcut
    obtain ⟨hlen, -, hco, -, -⟩ := readPiece_spec h hw hc hline hbyte
    obtain ⟨hhw1, hval1⟩ := readPiece_hw h hw hc hline hbyte
    obtain ⟨hhw2, hval2⟩ := ih hrest _ hco
    simp only [Config.readPieces]
    refine ⟨by rw [hhw2, hhw1, hwEvents_append, hlen, List.append_assoc], fun j hj hb => ?_⟩
    by_cases hjp : j < p.2
    · -- a piece with a byte on the bus is that byte
      cases hca : cfg.cacheableAt p.1 with
      | true => rw [off_of_cacheable_piece hw hca (hline hca) hjp] at hb; cases hb
      | false =>
        obtain rfl : j = 0 := by have := hbyte hca; omega
        simp [hval1 hb, Config.hwEvents]
    · obtain ⟨i, rfl⟩ : ∃ i, j = p.2 + i := ⟨j - p.2, by omega⟩
      have := hval2 i (by omega) (by rwa [Nat.add_assoc])
      rw [hhw1, List.append_assoc, Nat.add_assoc] at this
      rw [List.take_append, List.take_of_length_le (by omega), hwEvents_append, hlen,
        Nat.add_sub_cancel_left, ← this, List.getD_append_right _ _ _ _ (by omega), hlen,
        Nat.add_sub_cancel_left]

/-- The pieces of a write append one operation for each byte on the bus. -/
theorem writePieces_hw (hw : cfg.wf = true) {c : Nat} (ps : List (Nat × Nat)) {a n : Nat}
    (hcut : cfg.Cuts a n ps) (bs : List Byte) (hbs : bs.length = n) (sys : MemSys) :
    (cfg.writePieces c ps bs sys).hw = sys.hw ++ cfg.hwEvents (.write c) a bs := by
  induction ps generalizing a n bs sys with
  | nil =>
    obtain rfl : n = 0 := hcut
    obtain rfl := List.length_eq_zero_iff.1 hbs
    simp [Config.writePieces, Config.hwEvents]
  | cons p ps ih =>
    obtain ⟨rfl, -, hle, hline, hbyte, hrest⟩ := hcut
    have hlen : (bs.take p.2).length = p.2 := by simp; omega
    have hcat := hwEvents_append (cfg := cfg) (.write c) p.1 (bs.take p.2) (bs.drop p.2)
    rw [List.take_append_drop, hlen] at hcat
    rw [Config.writePieces, ih hrest _ (by simp [hbs]),
      writePiece_hw hw (hlen.symm ▸ hline) (hlen.symm ▸ hbyte), hcat, List.append_assoc]

/-- What a read by the MMU asks the hardware bus, and the answers. -/
theorem mmuRead_hw (hw : cfg.wf = true) {c : Nat} (hc : c < cfg.numCores) {a n : Nat} {k : AccessKind}
    (h : cfg.Coherent sys) {bs : List Byte} {t : MemSys} (hr : cfg.mmuRead c a n k sys = some (bs, t)) :
    t.hw = sys.hw ++ cfg.hwEvents (.read c) a bs ∧
      ∀ j < n, cfg.onHardwareBus (a + j) = true →
        bs.getD j 0 = Config.hwRead c (a + j) (sys.hw ++ cfg.hwEvents (.read c) a (bs.take j)) := by
  unfold Config.mmuRead at hr
  split at hr
  · have := readPieces_hw hw hc (cfg.pieces a n) (cuts_pieces hw a n) sys h
    rwa [Option.some.inj hr] at this
  · cases hr

/-- What a write by the MMU tells the hardware bus. -/
theorem mmuWrite_hw (hw : cfg.wf = true) {c a : Nat} {bs : List Byte} {t : MemSys}
    (hr : cfg.mmuWrite c a bs sys = some t) : t.hw = sys.hw ++ cfg.hwEvents (.write c) a bs := by
  unfold Config.mmuWrite at hr
  split at hr
  · rw [← Option.some.inj hr]
    exact writePieces_hw hw _ (cuts_pieces hw a bs.length) bs rfl sys
  · cases hr

/-- Settles O29: a byte on the bus is one operation there, and the pieces of an access, taken in ascending order,
make those of its bytes. -/
theorem hardwareBus : Obligations.HardwareBus := by
  refine ⟨fun cfg c x b sys hx => ?_, fun cfg c a n k sys hw hco hc hchk => ?_,
    fun cfg c a bs sys hw hco hc hchk => ?_⟩
  · have hwrite : cfg.busWriteByte c x b sys = { sys with hw := sys.hw ++ [.write c x b] } := if_pos hx
    exact ⟨if_pos hx, hwrite, fun y => by rw [hwrite]; rfl⟩
  · rw [← mmuRead_isSome c a n k sys] at hchk
    obtain ⟨⟨bs, t⟩, hr⟩ := Option.isSome_iff_exists.1 hchk
    obtain ⟨hlen, hoff, -, hview, -⟩ := mmuRead_spec hw hc hco hr
    obtain ⟨hhw, hon⟩ := mmuRead_hw hw hc hco hr
    refine ⟨bs, t, hr, hlen, hhw, hview, fun j hj => ?_⟩
    split
    · next hb => exact hon j hj hb
    · next hb => exact hoff j hj (Bool.eq_false_of_not_eq_true hb)
  · rw [← mmuWrite_isSome c a bs sys] at hchk
    obtain ⟨t, hr⟩ := Option.isSome_iff_exists.1 hchk
    obtain ⟨-, hview⟩ := mmuWrite_spec hw hc hco hr
    exact ⟨t, hr, mmuWrite_hw hw hr, hview⟩

end Sys2Proof

/-! The cache controllers (20_memory.md R80 to R95): which line a miss takes, the MESI states that a miss and a
write leave, and `Flush`. -/

namespace Sys2Proof

open Machine

/-! ### The victim (R83) -/

namespace Machine

/-- Of the first `n` lines of a cache, `j` is the lowest of those with the greatest age. -/
def OldestOf (cache : List Line) (n j : Nat) : Prop :=
  j < n ∧
    (∀ k < n, (cache.getD k (Line.invalid 0 0)).age ≤ (cache.getD j (Line.invalid 0 0)).age) ∧
    ∀ k < j, (cache.getD k (Line.invalid 0 0)).age < (cache.getD j (Line.invalid 0 0)).age

/-- One more line: it is the oldest if it is strictly older, else the oldest stays. -/
theorem OldestOf.succ {cache : List Line} {n j : Nat} (h : OldestOf cache n j) :
    OldestOf cache (n + 1)
      (if (cache.getD j (Line.invalid 0 0)).age < (cache.getD n (Line.invalid 0 0)).age then n else j) := by
  obtain ⟨hj, hmax, hlow⟩ := h
  split
  · next hlt =>
    refine ⟨Nat.lt_succ_self n, fun k hk => ?_, fun k hk => (hmax k hk).trans_lt hlt⟩
    rcases Nat.lt_succ_iff_lt_or_eq.1 hk with hk | rfl
    · exact ((hmax k hk).trans_lt hlt).le
    · exact le_rfl
  · next hle =>
    refine ⟨Nat.lt_succ_of_lt hj, fun k hk => ?_, hlow⟩
    rcases Nat.lt_succ_iff_lt_or_eq.1 hk with hk | rfl
    · exact hmax k hk
    · exact Nat.le_of_not_lt hle

/-- By induction on the lines still to come. -/
theorem oldestOf_oldestFrom {cache : List Line} (rest : List Line) :
    ∀ {i best : Nat}, cache.drop i = rest → i + rest.length = cache.length → OldestOf cache i best →
      OldestOf cache cache.length
        (oldestFrom i best (cache.getD best (Line.invalid 0 0)).age rest) := by
  induction rest with
  | nil => intro i best _ hlen h; exact hlen ▸ h
  | cons ln rest ih =>
    intro i best hdrop hlen h
    have hln : cache.getD i (Line.invalid 0 0) = ln := by
      rw [List.getD_eq_getElem?_getD, ← Nat.add_zero i, ← List.getElem?_drop, hdrop]; rfl
    have hdrop' : cache.drop (i + 1) = rest := by rw [← List.drop_drop, hdrop]; rfl
    have hlen' : i + 1 + rest.length = cache.length := by rw [← hlen, List.length_cons]; omega
    have hnext := ih hdrop' hlen' h.succ
    rw [hln] at hnext
    rw [oldestFrom]
    split
    · next hlt => rwa [if_pos hlt, hln] at hnext
    · next hle => rwa [if_neg hle] at hnext

theorem oldestOf_oldest {cache : List Line} (h : cache ≠ []) : OldestOf cache cache.length (oldest cache) := by
  cases cache with
  | nil => exact absurd rfl h
  | cons ln rest =>
    have hfirst : OldestOf (ln :: rest) 1 0 :=
      ⟨Nat.zero_lt_one, fun k hk => by rw [Nat.lt_one_iff.1 hk], fun k hk => absurd hk (Nat.not_lt_zero k)⟩
    exact oldestOf_oldestFrom rest rfl (Nat.add_comm ..) hfirst

/-- With no Invalid line the victim is the oldest. -/
theorem victim_of_no_invalid {cache : List Line} (h : ∀ ln ∈ cache, ln.mesi ≠ .I) :
    victim cache = oldest cache := by
  have hnone : (cache.findIdx? fun ln => decide (ln.mesi = .I)) = none := by
    rw [List.findIdx?_eq_none_iff]; simpa using h
  rw [victim, hnone, Option.getD_none]

/-- With an Invalid line the victim is the first of them. -/
theorem victim_of_invalid {cache : List Line} (h : ∃ ln ∈ cache, ln.mesi = .I) :
    (cache.getD (victim cache) (Line.invalid 0 0)).mesi = .I ∧
      ∀ k < victim cache, (cache.getD k (Line.invalid 0 0)).mesi ≠ .I := by
  unfold victim
  cases hf : cache.findIdx? fun ln => decide (ln.mesi = .I) with
  | none =>
    obtain ⟨ln, hmem, hI⟩ := h
    rw [List.findIdx?_eq_none_iff] at hf
    simpa [hI] using hf ln hmem
  | some j =>
    obtain ⟨hj, hI, hlow⟩ := List.findIdx?_eq_some_iff_getElem.1 hf
    rw [Option.getD_some]
    refine ⟨by simpa [hj] using hI, fun k hk => ?_⟩
    have hklen : k < cache.length := hk.trans hj
    simpa [hklen] using hlow k hk

end Machine

/-- Settles O30: the first Invalid line, or the oldest by induction over the lines. -/
theorem victimChoice : Obligations.VictimChoice := by
  intro cache hne
  refine ⟨victim_lt (List.length_pos_iff.2 hne), victim_of_invalid, fun hno => ?_⟩
  obtain ⟨-, hmax, hlow⟩ := oldestOf_oldest hne
  rw [victim_of_no_invalid hno]
  exact ⟨hmax, hlow⟩

end Sys2Proof

namespace Sys2Proof

open Machine

variable {cfg : Config} {sys : MemSys}

/-! ### The MESI states after a read miss and after a write (R84 to R87) -/

/-- Another cache responds exactly where it holds the address (R85). -/
theorem otherHolder_iff (hs : cfg.CachesShaped sys) {c L : Nat} :
    otherHolder c L sys.caches = true ↔
      ∃ i < cfg.numCores, i ≠ c ∧ ∃ k < cfg.numLines, (sys.line i k).holds L = true := by
  refine ⟨fun h => ?_, fun ⟨i, hi, hic, k, hk, hh⟩ => otherHolder_of_holds hs hi hk hic hh⟩
  obtain ⟨hcores, hlines⟩ := hs
  obtain ⟨b, hmem, hb⟩ := List.any_eq_true.1 h
  obtain ⟨i, hi, rfl⟩ := List.mem_iff_getElem.1 hmem
  simp only [List.getElem_mapIdx, id, Bool.and_eq_true, decide_eq_true_eq, List.any_eq_true] at hb
  obtain ⟨hic, ln, hln, hh⟩ := hb
  obtain ⟨k, hk, rfl⟩ := List.mem_iff_getElem.1 hln
  have hi' : i < sys.caches.length := by simpa using hi
  have hcache : sys.cache i = sys.caches[i] := by simp [MemSys.cache, hi']
  have hlen := hlines i (hcores ▸ hi')
  rw [hcache] at hlen
  exact ⟨i, hcores ▸ hi', hic, k, hlen ▸ hk, by simpa [MemSys.line, hcache, hk] using hh⟩

/-- The line that a fill leaves where it fills. -/
theorem line_fillLine_self (hs : cfg.CachesShaped sys) {c j : Nat} (hc : c < cfg.numCores)
    (hj : j < cfg.numLines) (ln : Line) : ((fillLine c j ln sys).line c j).Same ln := by
  simpa using line_fillLine hs hc hj ln c j

/-- A fill leaves every other line as it was, but for its age. -/
theorem line_fillLine_of_ne (hs : cfg.CachesShaped sys) {c j i k : Nat} (hc : c < cfg.numCores)
    (hj : j < cfg.numLines) (ln : Line) (hne : ¬ (i = c ∧ k = j)) :
    ((fillLine c j ln sys).line i k).Same (sys.line i k) := by
  simpa [hne] using line_fillLine hs hc hj ln i k

/-- A read miss fills the victim with a line of the address, once the victim and the snoop have been written
back (R84). -/
theorem cacheMiss_eq_fillLine (cfg : Config) (c L : Nat) (sys : MemSys) :
    ∃ ln, cfg.cacheMiss c L sys = fillLine c (victim (sys.cache c)) ln (busRd c L (evict c sys)) ∧
      ln.mesi = (if otherHolder c L (evict c sys).caches then .S else .E) ∧ ln.tag = L :=
  ⟨_, rfl, rfl, rfl⟩

/-- After a read miss the requester has a line with the address, in S if another cache responded and in E if
not; every other holder is in S (R84, R85). -/
theorem cacheMiss_mesi (h : cfg.Coherent sys) (hp : 0 < cfg.lineSize) (hn : 0 < cfg.numLines) {c L : Nat}
    (hc : c < cfg.numCores) (hno : ∀ k < cfg.numLines, (sys.line c k).holds L = false) :
    ∃ k < cfg.numLines, ((cfg.cacheMiss c L sys).line c k).holds L = true ∧
      ((cfg.cacheMiss c L sys).line c k).mesi = (if otherHolder c L sys.caches then .S else .E) ∧
      ∀ i, ∀ j < cfg.numLines, ¬ (i = c ∧ j = k) → ((cfg.cacheMiss c L sys).line i j).holds L = true →
        ((cfg.cacheMiss c L sys).line i j).mesi = .S := by
  obtain ⟨hco, -, hcaches, -, hvictim, -⟩ := evict_spec h hp hn hc
  have hno' : ∀ k < cfg.numLines, ((evict c sys).line c k).holds L = false := fun k hk => by
    rw [MemSys.line, MemSys.cache, hcaches]; exact hno k hk
  obtain ⟨⟨-, hshaped, -, -⟩, -, -, hown, hothers⟩ := busRd_spec hco hp hno'
  obtain ⟨ln, hfill, hmesi, htag⟩ := cacheMiss_eq_fillLine cfg c L sys
  rw [hcaches] at hmesi
  rw [hfill]
  have hnew := line_fillLine_self hshaped hc hvictim ln
  have hI : ln.mesi ≠ .I := by rw [hmesi]; split <;> simp
  refine ⟨_, hvictim, (hnew.holds L).trans (Line.holds_iff.2 ⟨hI, htag⟩), hnew.1.trans hmesi,
    fun i j hj hne hh => ?_⟩
  have hold := line_fillLine_of_ne hshaped hc hvictim ln hne
  rw [hold.holds] at hh
  by_cases hic : i = c
  · subst hic
    rw [hown, hno' j hj] at hh; cases hh
  · exact hold.1.trans (hothers i hic j hh).1

/-- A write fills a line with a Modified one of the address, when no other cache has it (R86, R87). -/
theorem cacheWrite_eq_fillLine (h : cfg.Coherent sys) (hp : 0 < cfg.lineSize) (hn : 0 < cfg.numLines)
    {c pa : Nat} (hc : c < cfg.numCores) (bs : List Byte) :
    ∃ t, ∃ j < cfg.numLines, ∃ ln, cfg.cacheWrite c pa bs sys = fillLine c j ln t ∧ cfg.CachesShaped t ∧
      ln.mesi = .M ∧ ln.tag = cfg.lineAddr pa ∧
      ∀ i, i ≠ c → ∀ k, (t.line i k).holds (cfg.lineAddr pa) = false := by
  obtain ⟨hco, -, hothers⟩ := busWr_spec h hp c (cfg.lineAddr pa)
  unfold Config.cacheWrite
  dsimp only
  cases hf : findHolder ((busWr c (cfg.lineAddr pa) sys).cache c) (cfg.lineAddr pa) with
  | some j =>
    obtain ⟨hj, hh⟩ := findHolder_some hf
    obtain ⟨-, hshaped, -, -⟩ := hco
    have hj' : j < cfg.numLines := by rwa [hshaped.2 c hc] at hj
    simp only [List.getElem?_eq_getElem hj]
    rw [List.getD_eq_getElem _ _ hj] at hh
    exact ⟨_, j, hj', _, rfl, hshaped, rfl, (Line.holds_iff.1 hh).2, hothers⟩
  | none =>
    obtain ⟨⟨-, hshaped, -, -⟩, -, hcaches, -, hvictim, -⟩ := evict_spec hco hp hn hc
    refine ⟨_, _, hvictim, _, rfl, hshaped, rfl, rfl, fun i hi k => ?_⟩
    rw [MemSys.line, MemSys.cache, hcaches]
    exact hothers i hi k

/-- After a write the requester has a line with the address in M, and no other cache holds it (R86, R87). -/
theorem cacheWrite_mesi (h : cfg.Coherent sys) (hp : 0 < cfg.lineSize) (hn : 0 < cfg.numLines)
    {c pa : Nat} (hc : c < cfg.numCores) (bs : List Byte) :
    (∃ k < cfg.numLines, ((cfg.cacheWrite c pa bs sys).line c k).holds (cfg.lineAddr pa) = true ∧
      ((cfg.cacheWrite c pa bs sys).line c k).mesi = .M) ∧
    ∀ i, i ≠ c → ∀ j, ((cfg.cacheWrite c pa bs sys).line i j).holds (cfg.lineAddr pa) = false := by
  obtain ⟨t, j, hj, ln, heq, hshaped, hM, htag, hothers⟩ := cacheWrite_eq_fillLine (pa := pa) h hp hn hc bs
  rw [heq]
  have hnew := line_fillLine_self hshaped hc hj ln
  refine ⟨⟨j, hj, (hnew.holds _).trans (Line.holds_iff.2 ⟨by simp [hM], htag⟩), hnew.1.trans hM⟩,
    fun i hi k => ?_⟩
  have hold := line_fillLine_of_ne (k := k) hshaped hc hj ln fun e => hi e.1
  exact (hold.holds _).trans (hothers i hi k)

/-- A cache none of whose lines holds the address misses it. -/
theorem findHolder_eq_none (hs : cfg.CachesShaped sys) {c L : Nat} (hc : c < cfg.numCores)
    (hno : ∀ k < cfg.numLines, (sys.line c k).holds L = false) : findHolder (sys.cache c) L = none := by
  cases hf : findHolder (sys.cache c) L with
  | none => rfl
  | some j =>
    obtain ⟨hj, hh⟩ := findHolder_some hf
    rw [hs.2 c hc] at hj
    exact absurd hh (Bool.not_eq_true _ ▸ hno j hj)

/-- Settles O31: a read miss fills in S or E as another cache responds or not; a write fills in M after `BusWr`
took the address from the others. -/
theorem mesiStates : Obligations.MesiStates := by
  intro cfg sys c pa len bs hw h hc _ _ _
  have hp := Config.lineSize_pos hw
  have hn := Config.numLines_pos hw
  obtain ⟨hM, hgone⟩ := cacheWrite_mesi (pa := pa) h hp hn hc bs
  refine ⟨fun hno => ?_, hM, fun i _ hi j _ => hgone i hi j⟩
  obtain ⟨k, hk, hheld, hmesi, hS⟩ := cacheMiss_mesi h hp hn hc hno
  obtain ⟨-, hshaped, -, -⟩ := h
  have hmiss : (cfg.cacheRead c pa len sys).2 = cfg.cacheMiss c (cfg.lineAddr pa) sys := by
    simp only [Config.cacheRead, findHolder_eq_none hshaped hc hno]
  rw [hmiss]
  refine ⟨k, hk, hheld, fun ⟨i, hi, j, hj, hh⟩ i' _ j' hj' hh' => ?_, fun hnone => ?_⟩
  · have hic : i ≠ c := by rintro rfl; rw [hno j hj] at hh; cases hh
    by_cases hnew : i' = c ∧ j' = k
    · obtain ⟨rfl, rfl⟩ := hnew
      rw [hmesi, if_pos (otherHolder_of_holds hshaped hi hj hic hh)]
    · exact hS i' j' hj' hnew hh'
  · rw [hmesi, if_neg]
    rw [otherHolder_iff hshaped]
    rintro ⟨i, hi, -, j, hj, hh⟩
    rw [hnone i hi j hj] at hh; cases hh

end Sys2Proof

namespace Sys2Proof

open Machine

variable {cfg : Config} {sys : MemSys}

/-! ### Write-backs of a cache's lines (R88, R90) -/

/-- What reading after the write-back of a line gives: the line's bytes from the coherent view, and no other
byte changed. -/
theorem read_writeBack (h : cfg.Coherent sys) (hp : 0 < cfg.lineSize) {m : Memory} (hm : m.wf = true)
    {i k : Nat} (hi : i < cfg.numCores) (hk : k < cfg.numLines) (hI : (sys.line i k).mesi ≠ .I) (x : Nat) :
    (writeBack m (sys.line i k)).read x =
      if (sys.line i k).holds (cfg.lineAddr x) then cfg.coherentByte sys x else m.read x := by
  obtain ⟨-, -, hsound, -⟩ := id h
  obtain ⟨hlen, -⟩ := hsound i hi k hk hI
  rw [writeBack, Memory.read_writeRange _ hm, hlen]
  simp only [← tag_lineAddr h hp hi hk hI]
  split
  · next hh => rw [coherentByte_of_holds h hp hi hk hh, (Line.holds_iff.1 hh).2]
  · rfl

/-- The write-back of a line, if it is Modified, leaves bytes from the coherent view, among them all that the
line holds; what RAM had of the view it keeps. -/
theorem writeBackIfModified_spec (h : cfg.Coherent sys) (hp : 0 < cfg.lineSize) {m : Memory}
    (ht : cfg.Toward sys m) {i k : Nat} (hi : i < cfg.numCores) (hk : k < cfg.numLines) :
    cfg.Toward sys (writeBackIfModified m (sys.line i k)) ∧
      (∀ x, m.read x = cfg.coherentByte sys x →
        (writeBackIfModified m (sys.line i k)).read x = cfg.coherentByte sys x) ∧
      ∀ x, (sys.line i k).holds (cfg.lineAddr x) = true →
        (writeBackIfModified m (sys.line i k)).read x = cfg.coherentByte sys x := by
  unfold writeBackIfModified
  split
  · next hM =>
    have hI : (sys.line i k).mesi ≠ .I := by simp [hM]
    have hread := read_writeBack h hp ht.1 hi hk hI
    exact ⟨ht.writeBack h hp hi hk hI, fun x hx => by rw [hread, hx, ite_self],
      fun x hh => by rw [hread, if_pos hh]⟩
  · next hM => exact ⟨ht, fun _ hx => hx, fun x hh => ht.read_of_clean h hp hi hk hh hM⟩

/-- The same of the write-backs of several lines. -/
theorem foldl_writeBack_spec (h : cfg.Coherent sys) (hp : 0 < cfg.lineSize) (lines : List Line)
    (hl : ∀ ln ∈ lines, ∃ i < cfg.numCores, ∃ k < cfg.numLines, sys.line i k = ln) (m : Memory)
    (ht : cfg.Toward sys m) :
    cfg.Toward sys (lines.foldl writeBackIfModified m) ∧
      (∀ x, m.read x = cfg.coherentByte sys x →
        (lines.foldl writeBackIfModified m).read x = cfg.coherentByte sys x) ∧
      ∀ ln ∈ lines, ∀ x, ln.holds (cfg.lineAddr x) = true →
        (lines.foldl writeBackIfModified m).read x = cfg.coherentByte sys x := by
  induction lines generalizing m with
  | nil => exact ⟨ht, fun _ hx => hx, fun _ hm => absurd hm List.not_mem_nil⟩
  | cons ln rest ih =>
    obtain ⟨i, hi, k, hk, rfl⟩ := hl ln List.mem_cons_self
    obtain ⟨ht1, hkeep1, hheld1⟩ := writeBackIfModified_spec h hp ht hi hk
    obtain ⟨ht2, hkeep2, hheld2⟩ := ih (fun ln hln => hl ln (List.mem_cons_of_mem _ hln)) _ ht1
    refine ⟨ht2, fun x hx => hkeep2 x (hkeep1 x hx), fun ln hln x hh => ?_⟩
    rcases List.mem_cons.1 hln with rfl | hln
    · exact hkeep2 x (hheld1 x hh)
    · exact hheld2 ln hln x hh

/-! ### Flush (R90, R95) -/

/-- A line after a flush of its cache: Modified becomes Exclusive. -/
def Machine.Line.flushed (ln : Line) : Line := if ln.mesi = .M then { ln with mesi := .E } else ln

theorem Machine.Line.mesi_flushed_ne_M (ln : Line) : ln.flushed.mesi ≠ .M := by
  unfold Line.flushed; split
  · simp
  · assumption

theorem Machine.Line.flushed_of_ne_M {ln : Line} (h : ln.mesi ≠ .M) : ln.flushed = ln := if_neg h

@[simp] theorem Machine.Line.tag_flushed (ln : Line) : ln.flushed.tag = ln.tag := by
  unfold Line.flushed; split <;> rfl

/-- A flush takes no line to I, and none out of it. -/
theorem Machine.Line.mesi_flushed_eq_I (ln : Line) : ln.flushed.mesi = .I ↔ ln.mesi = .I := by
  unfold Line.flushed; split <;> simp_all

theorem cache_flush {c : Nat} (hc : c < sys.caches.length) (i : Nat) :
    (flush c sys).cache i = if i = c then (sys.cache c).map Line.flushed else sys.cache i :=
  MemSys.cache_setCache hc

theorem line_flush {c : Nat} (hc : c < sys.caches.length) (i k : Nat) :
    (flush c sys).line i k = if i = c then (sys.line i k).flushed else sys.line i k := by
  rw [MemSys.line, cache_flush hc]
  split
  · next e =>
    subst e
    exact List.getD_map (sys.cache i) (Line.invalid 0 0) Line.flushed
  · rfl

theorem shaped_flush (hs : cfg.CachesShaped sys) {c : Nat} (hc : c < cfg.numCores) :
    cfg.CachesShaped (flush c sys) := by
  obtain ⟨hcores, hlines⟩ := hs
  refine ⟨by simpa [flush] using hcores, fun i hi => ?_⟩
  rw [cache_flush (hcores ▸ hc)]
  split
  · rw [List.length_map]; exact hlines c hc
  · exact hlines i hi

/-- A flush leaves RAM with bytes of the view, among them all that the cache holds. -/
theorem mem_flush (h : cfg.Coherent sys) (hp : 0 < cfg.lineSize) {c : Nat} (hc : c < cfg.numCores) :
    cfg.Toward sys (flush c sys).mem ∧
      ∀ k < cfg.numLines, cfg.Clean (flush c sys).mem (sys.line c k) := by
  obtain ⟨-, ⟨-, hlines⟩, -, -⟩ := id h
  have hlen := hlines c hc
  obtain ⟨ht, -, hheld⟩ := foldl_writeBack_spec h hp (sys.cache c) (fun ln hln => by
    obtain ⟨k, hk, rfl⟩ := List.mem_iff_getElem.1 hln
    exact ⟨c, hc, k, hlen ▸ hk, by simp [MemSys.line, hk]⟩) sys.mem (.refl h)
  refine ⟨ht, fun k hk => clean_of_read h hp hc hk (hheld _ ?_)⟩
  simp [MemSys.line, hlen, hk]

/-- A flush leaves a line as it was, or a fresh one where a clean one was. -/
theorem line_flush_cases (h : cfg.Coherent sys) (hp : 0 < cfg.lineSize) {c : Nat} (hc : c < cfg.numCores)
    {i k : Nat} (hi : i < cfg.numCores) (hk : k < cfg.numLines) :
    ((flush c sys).line i k).Same (sys.line i k) ∨
      (cfg.Clean (flush c sys).mem (sys.line i k) ∧
        cfg.Fresh (flush c sys).mem ((flush c sys).line i k)) := by
  obtain ⟨-, hshaped, hsound, -⟩ := id h
  rw [line_flush (hshaped.1 ▸ hc)]
  by_cases hM : i = c ∧ (sys.line i k).mesi = .M
  · obtain ⟨rfl, hM⟩ := hM
    have hclean := (mem_flush h hp hc).2 k hk
    have hI : (sys.line i k).mesi ≠ .I := by simp [hM]
    obtain ⟨-, halign, hca, -⟩ := hsound i hi k hk hI
    rw [if_pos rfl, Line.flushed, if_pos hM]
    exact .inr ⟨hclean, .inr ⟨by simp, halign, hca, hclean hI⟩⟩
  · left
    split
    · next e => rw [Line.flushed_of_ne_M fun m => hM ⟨e, m⟩]; exact .refl _
    · exact .refl _

/-- A flush leaves the holders of a line address exclusive, since it keeps their tags and what is in S or I. -/
theorem exclusive_flush (h : cfg.Coherent sys) {c : Nat} (hc : c < cfg.numCores) :
    cfg.Exclusive (flush c sys) := by
  obtain ⟨-, ⟨hcores, -⟩, -, hexcl⟩ := h
  have hline := line_flush (sys := sys) (hcores ▸ hc)
  have hI : ∀ i k, ((flush c sys).line i k).mesi = .I ↔ (sys.line i k).mesi = .I := fun i k => by
    rw [hline]; split
    · exact Line.mesi_flushed_eq_I _
    · rfl
  have htag : ∀ i k, ((flush c sys).line i k).tag = (sys.line i k).tag := fun i k => by
    rw [hline]; split <;> simp
  have hS : ∀ i k, (sys.line i k).mesi = .S → ((flush c sys).line i k).mesi = .S := fun i k hS => by
    rw [hline, Line.flushed_of_ne_M (by simp [hS]), ite_self]; exact hS
  intro i hi k hk i' hi' k' hk' h1 h2 h3
  rw [ne_eq, hI] at h1 h2
  rw [htag, htag] at h3
  rcases hexcl i hi k hk i' hi' k' hk' h1 h2 h3 with hsame | ⟨hne, m1, m2⟩
  · exact .inl hsame
  · exact .inr ⟨hne, hS i k m1, hS i' k' m2⟩

/-- What a flush leaves: the invariant and the view. -/
theorem flush_spec (h : cfg.Coherent sys) (hp : 0 < cfg.lineSize) {c : Nat} (hc : c < cfg.numCores) :
    cfg.Coherent (flush c sys) ∧
      ∀ x, cfg.coherentByte (flush c sys) x = cfg.coherentByte sys x := by
  obtain ⟨-, hshaped, -, -⟩ := id h
  obtain ⟨hco, hview⟩ := (mem_flush h hp hc).1.coherent h hp
  obtain ⟨hco', hview'⟩ := coherent_of_fresh (sys' := flush c sys) hco hp rfl (shaped_flush hshaped hc)
    (fun _ hi _ hk => line_flush_cases h hp hc hi hk) (exclusive_flush h hc)
  exact ⟨hco', fun x => (hview' x).trans (hview x)⟩

theorem flush_cache_ne_M {c : Nat} (hc : c < sys.caches.length) :
    ∀ ln ∈ (flush c sys).cache c, ln.mesi ≠ .M := by
  rw [cache_flush hc, if_pos rfl]
  intro ln hln
  obtain ⟨ln, -, rfl⟩ := List.mem_map.1 hln
  exact ln.mesi_flushed_ne_M

/-- With no Modified line a flush changes nothing. -/
theorem flush_of_ne_M {c : Nat} (hc : c < sys.caches.length) (h : ∀ ln ∈ sys.cache c, ln.mesi ≠ .M) :
    flush c sys = sys := by
  have hmem : ∀ lines : List Line, (∀ ln ∈ lines, ln.mesi ≠ .M) →
      lines.foldl writeBackIfModified sys.mem = sys.mem := fun lines hl => by
    induction lines with
    | nil => rfl
    | cons ln rest ih =>
      rw [List.foldl_cons, writeBackIfModified, if_neg (hl ln List.mem_cons_self)]
      exact ih fun ln hln => hl ln (List.mem_cons_of_mem _ hln)
  have hmap : (sys.cache c).map Line.flushed = sys.cache c :=
    (List.map_congr_left fun ln hln => Line.flushed_of_ne_M (h ln hln)).trans (List.map_id _)
  have hset : sys.caches.set c (sys.cache c) = sys.caches := by simp [MemSys.cache, hc]
  exact congrArg₂ (fun m cs => ({ sys with mem := m, caches := cs } : MemSys)) (hmem _ h)
    ((congrArg (sys.caches.set c) hmap).trans hset)

/-- Settles O32: a flush writes the Modified lines' bytes to where they are read from, and leaves none, so that a
second one has nothing to write. -/
theorem flushEffect : Obligations.FlushEffect := by
  intro cfg sys c hw h hc
  obtain ⟨hco, hview⟩ := flush_spec h (Config.lineSize_pos hw) hc
  obtain ⟨-, hshaped, -, -⟩ := h
  have hnoM := flush_cache_ne_M (sys := sys) (hshaped.1 ▸ hc)
  exact ⟨hnoM, hco, hview, flush_of_ne_M ((shaped_flush hshaped hc).1 ▸ hc) hnoM⟩

end Sys2Proof

/-! The host's copies (20_memory.md R105, R106): every cache is flushed, so that backing storage is what a program
reads, and CopyIn takes the copies of the bytes that it writes out of the caches. -/

namespace Sys2Proof

open Machine

variable {cfg : Config} {sys : MemSys}

/-! ### Flushing every cache (R105, R106) -/

/-- The first `n` cores' caches flushed in ascending index: no line of theirs is Modified, and the invariant, the
view and the hardware bus are as before. By induction on `n`. -/
theorem flushes_spec (h : cfg.Coherent sys) (hp : 0 < cfg.lineSize) {n : Nat} (hn : n ≤ cfg.numCores) :
    cfg.Coherent ((List.range n).foldl (fun m c => flush c m) sys) ∧
      (∀ x, cfg.coherentByte ((List.range n).foldl (fun m c => flush c m) sys) x =
        cfg.coherentByte sys x) ∧
      ((List.range n).foldl (fun m c => flush c m) sys).hw = sys.hw ∧
      ∀ i < n, ∀ k, (((List.range n).foldl (fun m c => flush c m) sys).line i k).mesi ≠ .M := by
  induction n with
  | zero => exact ⟨h, fun _ => rfl, rfl, fun i hi => absurd hi (Nat.not_lt_zero i)⟩
  | succ n ih =>
    obtain ⟨hco, hview, hhw, hnoM⟩ := ih (Nat.le_of_succ_le hn)
    obtain ⟨hco', hview'⟩ := flush_spec hco hp hn
    obtain ⟨-, ⟨hcores, -⟩, -, -⟩ := hco
    rw [List.range_succ, List.foldl_append, List.foldl_cons, List.foldl_nil]
    refine ⟨hco', fun x => (hview' x).trans (hview x), hhw, fun i hi k => ?_⟩
    rw [line_flush (by rw [hcores]; exact hn)]
    split
    · exact Line.mesi_flushed_ne_M _
    · next hne => exact hnoM i (by omega) k

/-- Where no line is Modified, backing storage is the view. -/
theorem mem_read_of_ne_M (h : cfg.Coherent sys) (hp : 0 < cfg.lineSize)
    (hnoM : ∀ i < cfg.numCores, ∀ k, (sys.line i k).mesi ≠ .M) (x : Nat) :
    sys.mem.read x = cfg.coherentByte sys x :=
  (coherentByte_of_no_M h hp fun i hi k _ _ => hnoM i hi k).symm

/-- What flushing every cache leaves: the invariant, the view, in backing storage too, the hardware bus, and no
Modified line. -/
theorem flushAll_spec (h : cfg.Coherent sys) (hp : 0 < cfg.lineSize) :
    cfg.Coherent sys.flushAll ∧ (∀ x, cfg.coherentByte sys.flushAll x = cfg.coherentByte sys x) ∧
      (∀ x, sys.flushAll.mem.read x = cfg.coherentByte sys x) ∧ sys.flushAll.hw = sys.hw ∧
      ∀ i < cfg.numCores, ∀ k, (sys.flushAll.line i k).mesi ≠ .M := by
  obtain ⟨-, ⟨hcores, -⟩, -, -⟩ := id h
  obtain ⟨hco, hview, hhw, hnoM⟩ := flushes_spec h hp le_rfl
  rw [MemSys.flushAll, hcores]
  exact ⟨hco, hview, fun x => (mem_read_of_ne_M hco hp hnoM x).trans (hview x), hhw, hnoM⟩

/-! ### CopyIn (R106) -/

theorem shaped_invalidate (hs : cfg.CachesShaped sys) (a n : Nat) (m : Memory) :
    cfg.CachesShaped { sys with mem := m, caches := cfg.invalidate a n sys.caches } := by
  obtain ⟨hcores, hlines⟩ := hs
  refine ⟨by simpa [Config.invalidate] using hcores, fun i hi => ?_⟩
  have hi' : i < sys.caches.length := hcores ▸ hi
  simpa [MemSys.cache, Config.invalidate, hi'] using hlines i hi

/-- A line goes to I exactly where its bytes overlap the range. -/
theorem line_invalidate (a n i k : Nat) (m : Memory) :
    ({ sys with mem := m, caches := cfg.invalidate a n sys.caches } : MemSys).line i k =
      if 0 < n ∧ (sys.line i k).tag < a + n ∧ a < (sys.line i k).tag + cfg.lineSize
      then { sys.line i k with mesi := .I } else sys.line i k := by
  simp only [MemSys.line, MemSys.cache, Config.invalidate, List.getD_eq_getElem?_getD, List.getElem?_map]
  cases sys.caches[i]? with
  | none => simp [Line.invalid]
  | some cache => cases hk : cache[k]? <;> simp [hk, Line.invalid]

/-- A line that is not in I after CopyIn is as the flushes left it, and CopyIn writes no byte of it. -/
theorem line_copyInSys {a i k : Nat} {bs : List Byte}
    (hI : ((cfg.copyInSys a bs sys).line i k).mesi ≠ .I) :
    (cfg.copyInSys a bs sys).line i k = sys.flushAll.line i k ∧
      ¬ (0 < bs.length ∧ (sys.flushAll.line i k).tag < a + bs.length ∧
        a < (sys.flushAll.line i k).tag + cfg.lineSize) := by
  rw [Config.copyInSys, line_invalidate] at hI ⊢
  split at hI
  · exact absurd rfl hI
  · next hout => exact ⟨if_neg hout, hout⟩

/-- What CopyIn leaves (R106): the invariant, the view with the written bytes in it, and the hardware bus as
before. -/
theorem copyInSys_spec (h : cfg.Coherent sys) (hp : 0 < cfg.lineSize) (a : Nat) (bs : List Byte) :
    cfg.Coherent (cfg.copyInSys a bs sys) ∧
      (∀ x, cfg.coherentByte (cfg.copyInSys a bs sys) x =
        if a ≤ x ∧ x < a + bs.length then bs.getD (x - a) 0 else cfg.coherentByte sys x) ∧
      (cfg.copyInSys a bs sys).hw = sys.hw := by
  obtain ⟨⟨hwf, hshaped, hsound, hexcl⟩, -, hmem, hhw, hnoM⟩ := flushAll_spec h hp
  have hread : ∀ x, (cfg.copyInSys a bs sys).mem.read x =
      if a ≤ x ∧ x < a + bs.length then bs.getD (x - a) 0 else sys.flushAll.mem.read x := fun x =>
    Memory.read_writeRange bs hwf
  have hco : cfg.Coherent (cfg.copyInSys a bs sys) := by
    refine ⟨Memory.wf_writeRange bs hwf, shaped_invalidate hshaped a bs.length _, fun i hi k hk hI => ?_,
      fun i hi k hk i' hi' k' hk' hI hI' htag => ?_⟩
    · obtain ⟨heq, hout⟩ := line_copyInSys hI
      rw [heq] at hI ⊢
      obtain ⟨hlen, halign, hca, hdata⟩ := hsound i hi k hk hI
      refine ⟨hlen, halign, hca, fun hM => (hdata hM).trans (Memory.readRange_congr fun n hn => ?_).symm⟩
      rw [hread, if_neg (by omega)]
    · obtain ⟨heq, -⟩ := line_copyInSys hI
      obtain ⟨heq', -⟩ := line_copyInSys hI'
      rw [heq, heq'] at htag ⊢
      rw [heq] at hI
      rw [heq'] at hI'
      exact hexcl i hi k hk i' hi' k' hk' hI hI' htag
  refine ⟨hco, fun x => ?_, hhw⟩
  rw [← mem_read_of_ne_M hco hp (fun i hi k hM => ?_), hread, hmem]
  rw [(line_copyInSys (by simp [hM])).1] at hM
  exact hnoM i hi k hM

/-! ### The copies -/

/-- Settles O33: with every cache flushed the host reads and writes the bytes of the view. -/
theorem hostCopies : Obligations.HostCopies := by
  refine ⟨fun s a n k ⟨hw, hc, hco⟩ => ⟨fun ⟨hnk, hb⟩ => ?_, fun herr => ?_⟩,
    fun s a bs ⟨hw, hc, hco⟩ => ⟨fun hb => ?_, fun hb => ?_⟩⟩
  · obtain ⟨hco', hview, hmem, hhw, -⟩ := flushAll_spec hco (Config.lineSize_pos hw)
    have hdata : s.sys.flushAll.mem.readRange a n = s.bytesAt a n := by
      refine List.ext_getElem (by simp [State.bytesAt]) fun j _ _ => ?_
      simp [Memory.getElem_readRange, hmem, State.bytesAt, State.byteAt]
    refine ⟨s.setSys s.sys.flushAll, ?_, rfl, hhw, hview, hw, hc, hco'⟩
    rw [State.copyOut, if_neg (Nat.not_lt.2 hnk), if_pos hb, hdata]
  · rcases herr with hlt | hb
    · exact if_pos hlt
    · simp [State.copyOut, hb]
  · obtain ⟨hco', hview, hhw⟩ := copyInSys_spec hco (Config.lineSize_pos hw) a bs
    exact ⟨_, if_pos hb, rfl, hhw, ⟨hw, hc, hco'⟩, hview⟩
  · simp [State.copyIn, hb]

end Sys2Proof

/-! Encoding and decoding (30_encoding.md R120 to R140): the fields of the bytes, the operands' bytes, and the
two directions between an instruction and its bytes. -/

namespace Sys2Proof

open Machine (descriptors)

variable {cfg : Config}

/-! ### Runs of bytes (R130) -/

theorem leBytes_leNat (bs : List Byte) : leBytes bs.length (leNat bs) = bs := by
  induction bs with
  | nil => rfl
  | cons b bs ih =>
    have hdiv : (b.toNat + 256 * leNat bs) / 256 = leNat bs := by have := b.isLt; omega
    have hlow : BitVec.ofNat 8 (b.toNat + 256 * leNat bs) = b :=
      BitVec.eq_of_toNat_eq (by have := b.isLt; rw [BitVec.toNat_ofNat]; omega)
    simp only [List.length_cons, leNat, leBytes, hdiv, hlow, ih]

/-- Splitting what `assemble` read gives the bytes back, in either byte order. -/
theorem split_assemble (o : ByteOrder) (bs : List Byte) : split o bs.length (assemble o bs) = bs := by
  cases o with
  | le => exact leBytes_leNat bs
  | be =>
    have h := leBytes_leNat bs.reverse
    rw [List.length_reverse] at h
    simp only [split, assemble, h, List.reverse_reverse]

theorem leNat_lt (bs : List Byte) : leNat bs < 256 ^ bs.length := by
  rw [← leBytes_leNat bs, leNat_leBytes, length_leBytes]
  exact Nat.mod_lt _ (Nat.pow_pos (by decide))

theorem assemble_lt (o : ByteOrder) (bs : List Byte) : assemble o bs < 256 ^ bs.length := by
  cases o with
  | le => exact leNat_lt bs
  | be => simpa [assemble] using leNat_lt bs.reverse

theorem takeBytes_eq_some_iff {n : Nat} {bs xs rest : List Byte} :
    takeBytes n bs = some (xs, rest) ↔ xs.length = n ∧ bs = xs ++ rest := by
  induction n generalizing bs xs with
  | zero => cases xs <;> simp [takeBytes, eq_comm]
  | succ n ih =>
    cases bs with
    | nil => cases xs <;> simp [takeBytes]
    | cons b bs =>
      cases xs with
      | nil => simp [takeBytes]
      | cons x xs => simp [takeBytes, ih, and_left_comm]

theorem takeBytes_eq_none_iff {n : Nat} {bs : List Byte} : takeBytes n bs = none ↔ bs.length < n := by
  induction n generalizing bs with
  | zero => simp [takeBytes]
  | succ n ih => cases bs <;> simp [takeBytes, ih]

theorem Size.pow_bytes (size : Size) : 256 ^ size.bytes = 2 ^ size.bits := by cases size <;> decide

theorem Size.pow_bits_le (size : Size) : 2 ^ size.bits ≤ 2 ^ 64 := by cases size <;> decide

/-! ### The fields of a byte (R122, R125, R131) -/

theorem highNibble_append (h l : BitVec 4) : highNibble (h ++ l) = h := BitVec.extractLsb'_append_eq_left

theorem lowNibble_append (h l : BitVec 4) : lowNibble (h ++ l) = l := BitVec.extractLsb'_append_eq_right

theorem append_nibbles (b : Byte) : highNibble b ++ lowNibble b = b :=
  BitVec.extractLsb'_append_extractLsb' (w := 4) (len := 4) (x := b)

/-- The descriptor byte with register nibble `r`, relative mode `rel` and mode code `c` (R125). -/
def descOf (r : BitVec 4) (rel c : BitVec 2) : Byte := r ++ rel ++ c

theorem highNibble_descOf (r : BitVec 4) (rel c : BitVec 2) : highNibble (descOf r rel c) = r :=
  (BitVec.extractLsb'_append_eq_of_le (by decide)).trans BitVec.extractLsb'_append_eq_left

theorem descRel_descOf (r : BitVec 4) (rel c : BitVec 2) : descRel (descOf r rel c) = rel :=
  (BitVec.extractLsb'_append_eq_of_le (by decide)).trans BitVec.extractLsb'_append_eq_right

theorem descMode_descOf (r : BitVec 4) (rel c : BitVec 2) : cfg.descMode (descOf r rel c) = cfg.modeOf c :=
  congrArg cfg.modeOf BitVec.extractLsb'_append_eq_right

/-- A descriptor byte is its three fields. -/
theorem descOf_fields (d : Byte) : descOf (highNibble d) (descRel d) (d.extractLsb' 0 2) = d := by
  have hhigh : highNibble d ++ descRel d = d.extractLsb' 2 6 :=
    BitVec.extractLsb'_append_extractLsb'_eq_extractLsb' rfl
  rw [descOf, hhigh]
  exact BitVec.extractLsb'_append_extractLsb' (w := 6) (len := 2) (x := d)

theorem Size.ofCode_code (size : Size) : Size.ofCode size.code = size := by cases size <;> rfl

theorem Size.code_ofCode (c : BitVec 2) : (Size.ofCode c).code = c := by revert c; decide

theorem metaSize_metaByte (family : Family) (size : Size) : metaSize (metaByte family size) = size :=
  (congrArg Size.ofCode BitVec.extractLsb'_append_eq_right).trans size.ofCode_code

theorem metaFamilyCode_metaByte (family : Family) (size : Size) :
    metaFamilyCode (metaByte family size) = family.code :=
  (BitVec.extractLsb'_append_eq_of_le (by decide)).trans <|
    (BitVec.extractLsb'_append_eq_of_le (by decide)).trans BitVec.extractLsb'_append_eq_right

theorem metaFamily_metaByte (family : Family) (size : Size) :
    metaFamily (metaByte family size) = family := by
  rw [metaFamily, metaFamilyCode_metaByte]
  cases family <;> rfl

/-- A metadata byte is its four fields. -/
theorem meta_fields (md : Byte) :
    md.extractLsb' 6 2 ++ metaFamilyCode md ++ md.extractLsb' 2 2 ++ md.extractLsb' 0 2 = md := by
  have h64 : md.extractLsb' 6 2 ++ metaFamilyCode md = md.extractLsb' 4 4 :=
    BitVec.extractLsb'_append_extractLsb'_eq_extractLsb' rfl
  have h62 : md.extractLsb' 4 4 ++ md.extractLsb' 2 2 = md.extractLsb' 2 6 :=
    BitVec.extractLsb'_append_extractLsb'_eq_extractLsb' rfl
  rw [h64, h62]
  exact BitVec.extractLsb'_append_extractLsb' (w := 6) (len := 2) (x := md)

/-! ### Codes that spell the instruction set (R127, R136) -/

theorem Opcode.mem_all (op : Opcode) : op ∈ Opcode.all := by cases op <;> decide

theorem Config.codesOk_iff : cfg.codesOk = true ↔
    (∀ op, cfg.opcodeOf (cfg.opcodeByte op) = some op ∧ cfg.isExtension (cfg.opcodeByte op) = false) ∧
      ∀ m, cfg.modeOf (cfg.modeCode m) = m := by
  have hops : (∀ op, cfg.opcodeOf (cfg.opcodeByte op) = some op ∧
        cfg.isExtension (cfg.opcodeByte op) = false) ↔
      ∀ op ∈ Opcode.all, cfg.opcodeOf (cfg.opcodeByte op) = some op ∧
        cfg.isExtension (cfg.opcodeByte op) = false := by simp [Opcode.mem_all]
  have hmodes : (∀ m, cfg.modeOf (cfg.modeCode m) = m) ↔
      cfg.modeOf (cfg.modeCode .absolute) = .absolute ∧ cfg.modeOf (cfg.modeCode .immediate) = .immediate ∧
      cfg.modeOf (cfg.modeCode .indirect) = .indirect ∧ cfg.modeOf (cfg.modeCode .register) = .register :=
    ⟨fun h => ⟨h _, h _, h _, h _⟩, fun ⟨ha, hi, hd, hr⟩ m => by cases m <;> assumption⟩
  rw [hops, hmodes]
  simp [Config.codesOk, and_assoc]

theorem Config.modeOf_modeCode (h : cfg.codesOk = true) (m : Mode) : cfg.modeOf (cfg.modeCode m) = m :=
  (Config.codesOk_iff.1 h).2 m

/-- Four codes that stand for all four modes stand for four different ones. -/
theorem Config.modeOf_injective (h : cfg.codesOk = true) : Function.Injective cfg.modeOf := by
  have hinj : Set.InjOn cfg.modeOf (Finset.univ : Finset (BitVec 2)) :=
    Finset.injOn_of_surjOn_of_card_le (t := {.absolute, .immediate, .indirect, .register}) _
      (fun c _ => by cases cfg.modeOf c <;> simp)
      (fun m _ => ⟨cfg.modeCode m, by simp, Config.modeOf_modeCode h m⟩) (by decide)
  exact fun c c' he => hinj (by simp) (by simp) he

theorem Config.modeCode_modeOf (h : cfg.codesOk = true) (c : BitVec 2) : cfg.modeCode (cfg.modeOf c) = c :=
  Config.modeOf_injective h (Config.modeOf_modeCode h _)

/-! ### Multi-byte fields (R130, R134) -/

theorem ofNat_assemble_split (o : ByteOrder) {size : Size} {v : Word} (hv : v.toNat < 2 ^ size.bits) :
    BitVec.ofNat 64 (assemble o (split o size.bytes v.toNat)) = v := by
  rw [assemble_split, size.pow_bytes, Nat.mod_eq_of_lt hv, BitVec.ofNat_toNat, BitVec.setWidth_eq]

theorem toNat_ofNat_assemble (o : ByteOrder) {size : Size} {bs : List Byte} (hl : bs.length = size.bytes) :
    (BitVec.ofNat 64 (assemble o bs)).toNat = assemble o bs ∧ assemble o bs < 2 ^ size.bits := by
  have hlt := assemble_lt o bs
  rw [hl, size.pow_bytes] at hlt
  exact ⟨Nat.mod_eq_of_lt (hlt.trans_le size.pow_bits_le), hlt⟩

/-- What reading a field of a size's bytes answers: the values that fit the size, each from one run of
bytes. -/
theorem takeBytes_map_eq_some_iff {α : Type} (o : ByteOrder) (size : Size) (f : Word → α)
    {bs rest : List Byte} {y : α} :
    (takeBytes size.bytes bs).map (fun r => (f (BitVec.ofNat 64 (assemble o r.1)), r.2)) = some (y, rest) ↔
      ∃ v : Word, v.toNat < 2 ^ size.bits ∧ y = f v ∧ bs = split o size.bytes v.toNat ++ rest := by
  simp only [Option.map_eq_some_iff, Prod.exists, takeBytes_eq_some_iff, Prod.mk.injEq]
  constructor
  · rintro ⟨xs, _, ⟨hl, rfl⟩, rfl, rfl⟩
    obtain ⟨htoNat, hlt⟩ := toNat_ofNat_assemble o hl
    exact ⟨_, htoNat.symm ▸ hlt, rfl, by rw [htoNat, ← hl, split_assemble]⟩
  · rintro ⟨v, hv, rfl, rfl⟩
    exact ⟨_, _, ⟨length_split .., rfl⟩, by rw [ofNat_assemble_split o hv], rfl⟩

/-! ### An operand's descriptor byte (R125, R128) -/

/-- The addressing mode of an operand. -/
def Operand.mode : Operand → Mode
  | .absolute _ _ => .absolute
  | .immediate _ _ => .immediate
  | .indirect _ _ => .indirect
  | .register _ => .register

/-- The register nibble of an operand's descriptor. -/
def Operand.nibble : Operand → BitVec 4
  | .absolute spare _ => spare
  | .immediate spare _ => spare
  | .indirect base _ => base
  | .register r => r

/-- The relative mode that says an offset (R128). -/
def Offset.rel : Offset → BitVec 2
  | .none => 0
  | .registerRelative _ _ => 1
  | .absoluteRelative _ => 2

/-- The relative mode of an operand's descriptor: 0 unless it is Indirect. -/
def Operand.rel : Operand → BitVec 2
  | .indirect _ off => off.rel
  | _ => 0

theorem Operand.descByte_eq (o : Operand) : o.descByte cfg = descOf o.nibble o.rel (cfg.modeCode o.mode) := by
  rcases o with _ | _ | ⟨_, _ | _ | _⟩ | _ <;> rfl

/-- The operand is as the descriptor byte `d` says. -/
structure Operand.FitsDesc (cfg : Config) (o : Operand) (d : Byte) : Prop where
  nibble : o.nibble = highNibble d
  rel : o.rel = descRel d
  mode : o.mode = cfg.descMode d

theorem Operand.fitsDesc_descByte (h : cfg.codesOk = true) (o : Operand) : o.FitsDesc cfg (o.descByte cfg) := by
  rw [descByte_eq]
  exact ⟨(highNibble_descOf ..).symm, (descRel_descOf ..).symm,
    ((descMode_descOf ..).trans (Config.modeOf_modeCode h _)).symm⟩

theorem Operand.FitsDesc.descByte (h : cfg.codesOk = true) {o : Operand} {d : Byte} (hd : o.FitsDesc cfg d) :
    o.descByte cfg = d := by
  rw [descByte_eq, hd.nibble, hd.rel, hd.mode, Config.descMode, Config.modeCode_modeOf h, descOf_fields]

/-- The checks of R140 on one descriptor byte. -/
def Config.DescOk (cfg : Config) (d : Byte) : Prop :=
  descRel d = 0 ∨ (descRel d ≠ 3 ∧ cfg.descMode d = .indirect)

theorem Operand.FitsDesc.descOk {o : Operand} {d : Byte} (hd : o.FitsDesc cfg d) : cfg.DescOk d := by
  rw [Config.DescOk, ← hd.rel, ← hd.mode]
  rcases o with _ | _ | ⟨_, _ | _ | _⟩ | _ <;> simp [Operand.rel, Offset.rel, Operand.mode]

theorem Config.DescOk.rel_eq_zero {d : Byte} (h : cfg.DescOk d) (hm : cfg.descMode d ≠ .indirect) :
    descRel d = 0 := h.resolve_right fun hi => hm hi.2

theorem Config.DescOk.rel_eq_two {d : Byte} (h : cfg.DescOk d) (h0 : descRel d ≠ 0) (h1 : descRel d ≠ 1) :
    descRel d = 2 := by
  have h3 := (h.resolve_left h0).1
  generalize descRel d = c at *
  revert c; decide

/-! ### An operand's extra bytes (R121, R131, R132) -/

/-- The operand without its immediate, as `parseExt` answers it. -/
def Operand.withoutImm : Operand → Operand
  | .immediate spare _ => .immediate spare 0
  | o => o

@[simp] theorem Operand.withoutImm_withoutImm (o : Operand) : o.withoutImm.withoutImm = o.withoutImm := by
  cases o <;> rfl

theorem Operand.extBytes_withoutImm (o : Operand) : o.withoutImm.extBytes cfg = o.extBytes cfg := by
  cases o <;> rfl

theorem Operand.fitsDesc_withoutImm {o : Operand} {d : Byte} :
    o.withoutImm.FitsDesc cfg d ↔ o.FitsDesc cfg d := by
  cases o <;> exact ⟨fun ⟨h1, h2, h3⟩ => ⟨h1, h2, h3⟩, fun ⟨h1, h2, h3⟩ => ⟨h1, h2, h3⟩⟩

/-- The operands that a descriptor byte can say, by its mode. -/
theorem Operand.fitsDesc_iff {d : Byte} (hd : cfg.DescOk d) (o : Operand) : o.FitsDesc cfg d ↔
    match cfg.descMode d with
    | .absolute => ∃ a, o = .absolute (highNibble d) a
    | .immediate => ∃ v, o = .immediate (highNibble d) v
    | .indirect => ∃ off, off.rel = descRel d ∧ o = .indirect (highNibble d) off
    | .register => o = .register (highNibble d) := by
  have hfields : o.FitsDesc cfg d ↔
      o.nibble = highNibble d ∧ o.rel = descRel d ∧ o.mode = cfg.descMode d :=
    ⟨fun ⟨hn, hr, hm⟩ => ⟨hn, hr, hm⟩, fun ⟨hn, hr, hm⟩ => ⟨hn, hr, hm⟩⟩
  rw [hfields]
  cases hm : cfg.descMode d with
  | indirect => cases o <;> simp [mode, nibble, rel, and_comm]
  | _ =>
    have hrel := hd.rel_eq_zero (by simp [hm])
    cases o <;> simp [mode, nibble, rel, hrel]

/-- The one extra byte of an offset (R131, R132). -/
theorem takeBytes_one_eq_some_iff {bs xs rest : List Byte} :
    takeBytes 1 bs = some (xs, rest) ↔ ∃ b, xs = [b] ∧ bs = b :: rest := by
  rw [takeBytes_eq_some_iff, List.length_eq_one_iff]
  constructor
  · rintro ⟨⟨b, rfl⟩, rfl⟩; exact ⟨b, rfl, rfl⟩
  · rintro ⟨b, rfl, rfl⟩; exact ⟨⟨b, rfl⟩, rfl⟩

theorem Offset.rel_eq_zero_iff (off : Offset) : off.rel = 0 ↔ off = .none := by
  cases off <;> simp [rel]

/-- A register offset is one relative descriptor byte (R131). -/
theorem Offset.rel_eq_one_iff (off : Offset) :
    off.rel = 1 ↔ ∃ b : Byte, off = .registerRelative (highNibble b) (lowNibble b) := by
  cases off with
  | registerRelative i sh =>
    exact iff_of_true rfl ⟨i ++ sh, by rw [highNibble_append, lowNibble_append]⟩
  | _ => simp [rel]

/-- A displacement is one byte (R132). -/
theorem Offset.rel_eq_two_iff (off : Offset) : off.rel = 2 ↔ ∃ b, off = .absoluteRelative b := by
  cases off <;> simp [rel]

theorem Operand.extBytes_registerRelative (r : RegIndex) (b : Byte) :
    (Operand.indirect r (.registerRelative (highNibble b) (lowNibble b))).extBytes cfg = [b] := by
  rw [extBytes, append_nibbles]

/-- R128, R131, R132: the offsets of an Indirect descriptor that passed the checks, with their bytes. -/
theorem parseExt_indirect_eq_some_iff {d : Byte} (hd : cfg.DescOk d) (hm : cfg.descMode d = .indirect)
    {o : Operand} {bs rest : List Byte} :
    parseExt cfg d bs = some (o, rest) ↔ ∃ off : Offset,
      off.rel = descRel d ∧ o = .indirect (highNibble d) off ∧ bs = o.extBytes cfg ++ rest := by
  by_cases h0 : descRel d = 0
  · simp only [parseExt, hm, h0, if_true, Option.some.injEq, Prod.mk.injEq]
    constructor
    · rintro ⟨rfl, rfl⟩
      exact ⟨.none, rfl, rfl, rfl⟩
    · rintro ⟨off, hr, rfl, rfl⟩
      obtain rfl := off.rel_eq_zero_iff.1 hr
      exact ⟨rfl, rfl⟩
  · simp only [parseExt, hm, h0, if_false, Option.map_eq_some_iff, Prod.exists,
      takeBytes_one_eq_some_iff]
    by_cases h1 : descRel d = 1
    · simp only [h1, if_true, Prod.mk.injEq]
      constructor
      · rintro ⟨_, _, ⟨b, rfl, rfl⟩, rfl, rfl⟩
        exact ⟨_, rfl, rfl, by rw [List.headD_cons, Operand.extBytes_registerRelative]; rfl⟩
      · rintro ⟨off, hr, rfl, rfl⟩
        obtain ⟨b, rfl⟩ := off.rel_eq_one_iff.1 hr
        exact ⟨_, _, ⟨b, rfl, by rw [Operand.extBytes_registerRelative]; rfl⟩, rfl, rfl⟩
    · have h2 := hd.rel_eq_two h0 h1
      simp only [if_neg h1, Prod.mk.injEq]
      constructor
      · rintro ⟨_, _, ⟨b, rfl, rfl⟩, rfl, rfl⟩
        exact ⟨.absoluteRelative b, h2.symm, rfl, rfl⟩
      · rintro ⟨off, hr, rfl, rfl⟩
        obtain ⟨b, rfl⟩ := off.rel_eq_two_iff.1 (hr.trans h2)
        exact ⟨_, _, ⟨b, rfl, rfl⟩, rfl, rfl⟩

/-- R121: `ext(d)` of a descriptor that passed the checks is the operand that `d` says with its extra
bytes. -/
theorem parseExt_eq_some_iff {d : Byte} (hd : cfg.DescOk d) {o : Operand} {bs rest : List Byte} :
    parseExt cfg d bs = some (o, rest) ↔
      o.withoutImm = o ∧ o.FitsDesc cfg d ∧ bs = o.extBytes cfg ++ rest := by
  rw [Operand.fitsDesc_iff hd]
  cases hm : cfg.descMode d with
  | absolute =>
    simp only [parseExt, hm]
    refine (takeBytes_map_eq_some_iff cfg.byteOrder .l (Operand.absolute (highNibble d))).trans ⟨?_, ?_⟩
    · rintro ⟨a, -, rfl, rfl⟩
      exact ⟨rfl, ⟨a, rfl⟩, rfl⟩
    · rintro ⟨-, ⟨a, rfl⟩, rfl⟩
      exact ⟨a, a.isLt, rfl, rfl⟩
  | immediate =>
    simp only [parseExt, hm, Option.some.injEq, Prod.mk.injEq]
    constructor
    · rintro ⟨rfl, rfl⟩
      exact ⟨rfl, ⟨0, rfl⟩, rfl⟩
    · rintro ⟨himm, ⟨v, rfl⟩, rfl⟩
      exact ⟨himm, rfl⟩
  | register =>
    simp only [parseExt, hm, Option.some.injEq, Prod.mk.injEq]
    constructor
    · rintro ⟨rfl, rfl⟩
      exact ⟨rfl, rfl, rfl⟩
    · rintro ⟨-, rfl, rfl⟩
      exact ⟨rfl, rfl⟩
  | indirect =>
    rw [parseExt_indirect_eq_some_iff hd hm]
    constructor
    · rintro ⟨off, hr, rfl, hbs⟩
      exact ⟨rfl, ⟨off, hr, rfl⟩, hbs⟩
    · rintro ⟨-, ⟨off, hr, rfl⟩, hbs⟩
      exact ⟨off, hr, rfl, hbs⟩

/-- The longest `ext(d)` is an address (R135). -/
theorem length_lt_of_parseExt_eq_none {d : Byte} {bs : List Byte} (h : parseExt cfg d bs = none) :
    bs.length < 8 := by
  unfold parseExt at h
  split at h
  · exact takeBytes_eq_none_iff.1 (Option.map_eq_none_iff.1 h)
  · cases h
  · cases h
  · split at h
    · cases h
    · exact (takeBytes_eq_none_iff.1 (Option.map_eq_none_iff.1 h)).trans (by decide)

/-! ### An operand's immediate (R121, R129, R134) -/

/-- The immediate, if the operand has one, is a value the encoding can carry: one that fits where the
instruction reads it, 0 where it does not. -/
def Operand.carried (reads : Bool) (size : Size) (o : Operand) : Bool := if reads then o.fits size else o.unread

theorem Operand.eq_immediate_of_withoutImm {o : Operand} {spare : BitVec 4} {v : Word}
    (h : o.withoutImm = .immediate spare v) : v = 0 ∧ ∃ w, o = .immediate spare w := by
  cases o with
  | immediate => cases h; exact ⟨rfl, _, rfl⟩
  | _ => cases h

theorem Operand.eq_of_withoutImm {o p : Operand} (h : p.withoutImm = o) (ho : o.mode ≠ .immediate) : p = o := by
  cases p with
  | immediate => exact absurd (h ▸ rfl) ho
  | _ => exact h

/-- An operand that is not Immediate has no immediate to carry. -/
theorem Operand.imm_of_mode_ne {o : Operand} (ho : o.mode ≠ .immediate) (reads : Bool) (size : Size) :
    o.carried reads size = true ∧ o.immBytes cfg reads size = [] ∧
      ∀ bs, parseImm cfg reads size o bs = some (o, bs) := by
  cases o with
  | immediate => exact absurd rfl ho
  | _ => cases reads <;> exact ⟨rfl, rfl, fun _ => rfl⟩

/-- R129: `imm(d)` puts its value into the operand that `ext(d)` gave. -/
theorem parseImm_eq_some_iff {reads : Bool} {size : Size} {o p : Operand} {bs rest : List Byte}
    (ho : o.withoutImm = o) :
    parseImm cfg reads size o bs = some (p, rest) ↔
      p.withoutImm = o ∧ p.carried reads size = true ∧ bs = p.immBytes cfg reads size ++ rest := by
  by_cases hm : o.mode = .immediate
  · obtain ⟨spare, v, rfl⟩ : ∃ spare v, o = .immediate spare v := by cases o <;> simp_all [Operand.mode]
    obtain rfl : v = 0 := (Operand.eq_immediate_of_withoutImm ho).1
    cases reads with
    | true =>
      refine (takeBytes_map_eq_some_iff cfg.byteOrder size (Operand.immediate spare)).trans ⟨?_, ?_⟩
      · rintro ⟨v, hv, rfl, rfl⟩
        exact ⟨rfl, decide_eq_true hv, rfl⟩
      · rintro ⟨hp, hc, rfl⟩
        obtain ⟨-, v, rfl⟩ := Operand.eq_immediate_of_withoutImm hp
        exact ⟨v, of_decide_eq_true hc, rfl, rfl⟩
    | false =>
      simp only [parseImm, Bool.false_eq_true, if_false, Option.some.injEq, Prod.mk.injEq]
      constructor
      · rintro ⟨rfl, rfl⟩
        exact ⟨rfl, rfl, rfl⟩
      · rintro ⟨hp, hc, rfl⟩
        obtain ⟨-, v, rfl⟩ := Operand.eq_immediate_of_withoutImm hp
        obtain rfl : v = 0 := of_decide_eq_true hc
        exact ⟨rfl, rfl⟩
  · obtain ⟨hcar, himm, hparse⟩ := Operand.imm_of_mode_ne (cfg := cfg) hm reads size
    rw [hparse, Option.some.injEq, Prod.mk.injEq]
    constructor
    · rintro ⟨rfl, rfl⟩
      exact ⟨ho, hcar, by rw [himm]; rfl⟩
    · rintro ⟨hp, -, rfl⟩
      obtain rfl := Operand.eq_of_withoutImm hp hm
      exact ⟨rfl, by rw [himm]; rfl⟩

/-- Reading `imm(d)` fails only for want of bytes. -/
theorem length_lt_of_parseImm_eq_none {reads : Bool} {size : Size} {o : Operand} {bs : List Byte}
    (h : parseImm cfg reads size o bs = none) : bs.length < o.immLength reads size := by
  cases o with
  | immediate spare v =>
    cases reads with
    | true => exact takeBytes_eq_none_iff.1 (Option.map_eq_none_iff.1 h)
    | false => cases h
  | _ => cases h

theorem length_parseExt {d : Byte} (hd : cfg.DescOk d) {o : Operand} {bs rest : List Byte}
    (h : parseExt cfg d bs = some (o, rest)) : bs.length = o.extLength + rest.length := by
  obtain ⟨-, -, rfl⟩ := (parseExt_eq_some_iff hd).1 h
  rw [List.length_append, Operand.length_extBytes]

theorem Operand.immLength_withoutImm (o : Operand) (reads : Bool) (size : Size) :
    o.withoutImm.immLength reads size = o.immLength reads size := by cases o <;> rfl

theorem length_parseImm {reads : Bool} {size : Size} {o p : Operand} {bs rest : List Byte}
    (ho : o.withoutImm = o) (h : parseImm cfg reads size o bs = some (p, rest)) :
    bs.length = o.immLength reads size + rest.length := by
  obtain ⟨rfl, -, rfl⟩ := (parseImm_eq_some_iff ho).1 h
  rw [List.length_append, Operand.length_immBytes, Operand.immLength_withoutImm]

/-! ### The checks of the head (R140) -/

theorem two_le_metaFamilyCode_iff (md : Byte) :
    2 ≤ (metaFamilyCode md).toNat ↔ metaFamilyCode md = 2 ∨ metaFamilyCode md = 3 := by
  generalize metaFamilyCode md = c
  revert c; decide

theorem metaFamilyCode_le_one {md : Byte} (h2 : metaFamilyCode md ≠ 2) (h3 : metaFamilyCode md ≠ 3) :
    metaFamilyCode md = 0 ∨ metaFamilyCode md = 1 := by
  generalize metaFamilyCode md = c at *
  revert c; decide

theorem metaSize_eq_l_iff (md : Byte) : metaSize md = .l ↔ md.extractLsb' 0 2 = 3 := by
  rw [metaSize]
  generalize md.extractLsb' 0 2 = c
  revert c; decide

/-- A test that answers an error names one where it holds or a later one does. -/
theorem ite_some_ne_none_iff {α : Type} {p : Prop} [Decidable p] {e : α} {x : Option α} :
    (if p then some e else x) ≠ none ↔ p ∨ x ≠ none := by
  by_cases hp : p <;> simp [hp]

/-- Settles O5: an error is named exactly where one of the tests of `headError` holds, and these are the six
checks. -/
theorem malformedEncodings : Obligations.MalformedEncodings := by
  intro cfg op md ds
  simp only [headError, ite_some_ne_none_iff, List.any_eq_true, decide_eq_true_eq,
    two_le_metaFamilyCode_iff, ne_eq, metaSize_eq_l_iff, not_true_eq_false, or_false, or_assoc]
  rfl

/-- The head of an instruction that passes the checks of R140. -/
structure Config.HeadOk (cfg : Config) (op : Opcode) (md : Byte) (ds : List Byte) : Prop where
  reservedLow : md.extractLsb' 2 2 = 0
  reservedHigh : md.extractLsb' 6 2 = 0
  family : metaFamilyCode md = 0 ∨ (metaFamilyCode md = 1 ∧ op = .mov ∧ metaSize md = .l)
  descriptors : ∀ d ∈ ds, cfg.DescOk d

theorem headError_eq_none_iff {op : Opcode} {md : Byte} {ds : List Byte} :
    headError cfg op md ds = none ↔ cfg.HeadOk op md ds := by
  have hmal := malformedEncodings cfg op md ds
  constructor
  · intro hnone
    have hall := mt hmal.2 (not_not.2 hnone)
    simp only [ne_eq, not_or, not_and, not_not, not_exists] at hall
    obtain ⟨hlow, hhigh, h2, h3, hmov, hlong, hres, hind⟩ := hall
    refine ⟨hlow, hhigh, ?_, fun d hd => ?_⟩
    · exact (metaFamilyCode_le_one h2 h3).imp_right fun h1 =>
        ⟨h1, hmov h1, (metaSize_eq_l_iff md).2 (hlong h1)⟩
    · exact or_iff_not_imp_left.2 fun h0 => ⟨hres d hd, hind d hd h0⟩
  · intro ⟨hlow, hhigh, hfam, hdesc⟩
    have hcode : ∀ c, metaFamilyCode md = c → c = 0 ∨ (c = 1 ∧ op = .mov ∧ metaSize md = .l) :=
      fun _ hc => hc ▸ hfam
    by_contra hne
    rcases hmal.1 hne with h | h | h | h | ⟨h1, h⟩ | ⟨h1, h⟩ | ⟨d, hd, h⟩ | ⟨d, hd, h0, h⟩
    · exact h hlow
    · exact h hhigh
    · simpa using hcode 2 h
    · simpa using hcode 3 h
    · exact h (by simpa using hcode 1 h1 : op = .mov ∧ metaSize md = .l).1
    · exact h ((metaSize_eq_l_iff md).1 (by simpa using hcode 1 h1 : op = .mov ∧ metaSize md = .l).2)
    · obtain h0 | ⟨h3, -⟩ := hdesc d hd
      · exact absurd (h0.symm.trans h) (by decide)
      · exact h3 h
    · exact h ((hdesc d hd).resolve_left h0).2

theorem Config.HeadOk.metaByte {op : Opcode} {md : Byte} {ds : List Byte} (h : cfg.HeadOk op md ds) :
    metaByte (metaFamily md) (metaSize md) = md := by
  have hfam : (metaFamily md).code = metaFamilyCode md := by
    obtain h0 | ⟨h1, -⟩ := h.family
    · rw [metaFamily, h0]; rfl
    · rw [metaFamily, h1]; rfl
  conv_rhs => rw [← meta_fields md, h.reservedLow, h.reservedHigh]
  rw [Sys2Proof.metaByte, hfam, metaSize, Size.code_ofCode]

/-- R124, R140: what a head that passes the checks says of the family. -/
theorem Config.HeadOk.of_control {op : Opcode} {md : Byte} {ds : List Byte} (h : cfg.HeadOk op md ds)
    (hc : metaFamily md = .control) : op = .mov ∧ metaSize md = .l := by
  obtain h0 | ⟨-, hop⟩ := h.family
  · rw [metaFamily, h0] at hc; cases hc
  · exact hop

/-- The head that `encode` writes passes the checks. -/
theorem Config.headOk_metaByte {op : Opcode} {family : Family} {size : Size} {ds : List Byte}
    (hfam : family = .control → op = .mov ∧ size = .l) (hd : ∀ d ∈ ds, cfg.DescOk d) :
    cfg.HeadOk op (Sys2Proof.metaByte family size) ds := by
  refine ⟨?_, ?_, ?_, hd⟩
  · exact (BitVec.extractLsb'_append_eq_of_le (by decide)).trans BitVec.extractLsb'_append_eq_right
  · exact (BitVec.extractLsb'_append_eq_of_le (by decide)).trans <|
      (BitVec.extractLsb'_append_eq_of_le (by decide)).trans <| BitVec.extractLsb'_append_eq_left
  · rw [metaFamilyCode_metaByte, metaSize_metaByte]
    cases family with
    | integral => exact .inl rfl
    | control => exact .inr ⟨rfl, hfam rfl⟩

/-! ### The operands of an instruction (R120, R121) -/

theorem parseTail1_eq_bind (op : Opcode) (md d : Byte) (bs : List Byte) :
    parseTail1 cfg op md d bs =
      (parseExt cfg d bs).bind fun p =>
      (parseImm cfg op.readsOperand (metaSize md) p.1 p.2).map fun q =>
        (op.build (metaFamily md) (metaSize md) q.1 (.register 0), q.2) := by
  unfold parseTail1
  cases parseExt cfg d bs with
  | none => rfl
  | some p => cases h : parseImm cfg op.readsOperand (metaSize md) p.1 p.2 <;> simp [h]

theorem parseTail2_eq_bind (op : Opcode) (md d0 d1 : Byte) (bs : List Byte) :
    parseTail2 cfg op md d0 d1 bs =
      (parseExt cfg d0 bs).bind fun p0 =>
      (parseExt cfg d1 p0.2).bind fun p1 =>
      (parseImm cfg true (metaSize md) p1.1 p1.2).bind fun q1 =>
      (parseImm cfg op.readsDst (metaSize md) p0.1 q1.2).map fun q0 =>
        (op.build (metaFamily md) (metaSize md) q0.1 q1.1, q0.2) := by
  unfold parseTail2
  cases parseExt cfg d0 bs with
  | none => rfl
  | some p0 =>
    cases h1 : parseExt cfg d1 p0.2 with
    | none => simp [h1]
    | some p1 =>
      cases h2 : parseImm cfg true (metaSize md) p1.1 p1.2 with
      | none => simp [h1, h2]
      | some q1 => cases h3 : parseImm cfg op.readsDst (metaSize md) p0.1 q1.2 <;> simp [h1, h2, h3]

theorem parseExt_extBytes {d : Byte} {o : Operand} (ho : o.FitsDesc cfg d) (rest : List Byte) :
    parseExt cfg d (o.extBytes cfg ++ rest) = some (o.withoutImm, rest) :=
  (parseExt_eq_some_iff ho.descOk).2
    ⟨o.withoutImm_withoutImm, Operand.fitsDesc_withoutImm.2 ho, by rw [Operand.extBytes_withoutImm]⟩

theorem parseImm_immBytes {reads : Bool} {size : Size} {o : Operand} (hc : o.carried reads size = true)
    (rest : List Byte) :
    parseImm cfg reads size o.withoutImm (o.immBytes cfg reads size ++ rest) = some (o, rest) :=
  (parseImm_eq_some_iff o.withoutImm_withoutImm).2 ⟨rfl, hc, rfl⟩

/-- R121: what the bytes after a one-operand head give: `ext`, then `imm`. -/
theorem parseTail1_eq_some_iff {op : Opcode} {md d : Byte} (hd : cfg.DescOk d) {bs rest : List Byte}
    {i : Instr} :
    parseTail1 cfg op md d bs = some (i, rest) ↔ ∃ o : Operand,
      o.FitsDesc cfg d ∧ o.carried op.readsOperand (metaSize md) = true ∧
      bs = o.extBytes cfg ++ (o.immBytes cfg op.readsOperand (metaSize md) ++ rest) ∧
      i = op.build (metaFamily md) (metaSize md) o (.register 0) := by
  simp only [parseTail1_eq_bind, Option.bind_eq_some_iff, Option.map_eq_some_iff, Prod.exists, Prod.mk.injEq]
  constructor
  · rintro ⟨o', mid, hext, o, _, himm, rfl, rfl⟩
    obtain ⟨ho', hdesc, rfl⟩ := (parseExt_eq_some_iff hd).1 hext
    obtain ⟨rfl, hc, rfl⟩ := (parseImm_eq_some_iff ho').1 himm
    exact ⟨o, Operand.fitsDesc_withoutImm.1 hdesc, hc, by rw [Operand.extBytes_withoutImm], rfl⟩
  · rintro ⟨o, hdesc, hc, rfl, rfl⟩
    exact ⟨_, _, parseExt_extBytes hdesc _, o, rest, parseImm_immBytes hc rest, rfl, rfl⟩

/-- R121: what the bytes after a two-operand head give: `ext(dst)`, `ext(src)`, `imm(src)`, `imm(dst)`. -/
theorem parseTail2_eq_some_iff {op : Opcode} {md d0 d1 : Byte} (h0 : cfg.DescOk d0) (h1 : cfg.DescOk d1)
    {bs rest : List Byte} {i : Instr} :
    parseTail2 cfg op md d0 d1 bs = some (i, rest) ↔ ∃ dst src : Operand,
      (dst.FitsDesc cfg d0 ∧ dst.carried op.readsDst (metaSize md) = true) ∧
      (src.FitsDesc cfg d1 ∧ src.carried true (metaSize md) = true) ∧
      bs = dst.extBytes cfg ++ (src.extBytes cfg ++ (src.immBytes cfg true (metaSize md) ++
        (dst.immBytes cfg op.readsDst (metaSize md) ++ rest))) ∧
      i = op.build (metaFamily md) (metaSize md) dst src := by
  simp only [parseTail2_eq_bind, Option.bind_eq_some_iff, Option.map_eq_some_iff, Prod.exists, Prod.mk.injEq]
  constructor
  · rintro ⟨dst', b0, hext0, src', b1, hext1, src, b2, himm1, dst, _, himm0, rfl, rfl⟩
    obtain ⟨hdst', hdesc0, rfl⟩ := (parseExt_eq_some_iff h0).1 hext0
    obtain ⟨hsrc', hdesc1, rfl⟩ := (parseExt_eq_some_iff h1).1 hext1
    obtain ⟨rfl, hc1, rfl⟩ := (parseImm_eq_some_iff hsrc').1 himm1
    obtain ⟨rfl, hc0, rfl⟩ := (parseImm_eq_some_iff hdst').1 himm0
    exact ⟨dst, src, ⟨Operand.fitsDesc_withoutImm.1 hdesc0, hc0⟩, ⟨Operand.fitsDesc_withoutImm.1 hdesc1, hc1⟩,
      by rw [Operand.extBytes_withoutImm, Operand.extBytes_withoutImm], rfl⟩
  · rintro ⟨dst, src, ⟨hdesc0, hc0⟩, ⟨hdesc1, hc1⟩, rfl, rfl⟩
    exact ⟨_, _, parseExt_extBytes hdesc0 _, _, _, parseExt_extBytes hdesc1 _, src, _, parseImm_immBytes hc1 _,
      dst, rest, parseImm_immBytes hc0 rest, rfl, rfl⟩

/-- Eight bytes are enough for one operand (R135). -/
theorem length_lt_of_parseTail1_eq_none {op : Opcode} {md d : Byte} (hd : cfg.DescOk d) {bs : List Byte}
    (h : parseTail1 cfg op md d bs = none) : bs.length < 8 := by
  rw [parseTail1_eq_bind, Option.bind_eq_none_iff] at h
  cases hext : parseExt cfg d bs with
  | none => exact length_lt_of_parseExt_eq_none hext
  | some p =>
    have himm := length_lt_of_parseImm_eq_none (Option.map_eq_none_iff.1 (h p hext))
    have hlen := length_parseExt hd hext
    have hmax := Operand.length_bytes_le op.readsOperand (metaSize md) p.1
    omega

/-- Sixteen bytes are enough for two operands (R135). -/
theorem length_lt_of_parseTail2_eq_none {op : Opcode} {md d0 d1 : Byte} (h0 : cfg.DescOk d0)
    (h1 : cfg.DescOk d1) {bs : List Byte} (h : parseTail2 cfg op md d0 d1 bs = none) : bs.length < 16 := by
  simp only [parseTail2_eq_bind, Option.bind_eq_none_iff, Option.map_eq_none_iff] at h
  cases hext0 : parseExt cfg d0 bs with
  | none => exact (length_lt_of_parseExt_eq_none hext0).trans (by decide)
  | some p0 =>
    have hlen0 := length_parseExt h0 hext0
    have hmax0 := Operand.length_bytes_le op.readsDst (metaSize md) p0.1
    cases hext1 : parseExt cfg d1 p0.2 with
    | none => have := length_lt_of_parseExt_eq_none hext1; omega
    | some p1 =>
      have hlen1 := length_parseExt h1 hext1
      have hmax1 := Operand.length_bytes_le true (metaSize md) p1.1
      cases himm1 : parseImm cfg true (metaSize md) p1.1 p1.2 with
      | none => have := length_lt_of_parseImm_eq_none himm1; omega
      | some q1 =>
        have hlen2 := length_parseImm ((parseExt_eq_some_iff h1).1 hext1).1 himm1
        have := length_lt_of_parseImm_eq_none (h p0 hext0 p1 hext1 q1 himm1)
        omega

/-! ### Instructions by their form (R120, R136) -/

/-- Every instruction is what its opcode builds from its fields. -/
theorem Instr.build_eta (i : Instr) :
    i.opcode.build i.family i.size (i.first.getD (.register 0)) (i.second.getD (.register 0)) = i := by
  cases i <;> rfl

/-- R140: only MOV of size long has the Control family. -/
theorem Instr.mov_of_control {i : Instr} (h : i.family = .control) : i.opcode = .mov ∧ i.size = .l := by
  cases i with
  | movCr => exact ⟨rfl, rfl⟩
  | _ => cases h

section

variable {op : Opcode} (family : Family) (size : Size) (dst src : Operand)

/-- An instruction of form N0 has no operand. -/
theorem Opcode.build_n0 (hf : op.form = .n0) :
    op.build family size dst src = op.build .integral .b (.register 0) (.register 0) ∧
      (op.build family size dst src).opcode = op ∧ (op.build family size dst src).first = none ∧
      (op.build family size dst src).wellFormed = true := by
  cases op <;> cases hf <;> exact ⟨rfl, rfl, rfl, rfl⟩

/-- An instruction of form N1 has one operand, of the Integral family. -/
theorem Opcode.build_n1 (hf : op.form = .n1) :
    op.build family size dst src = op.build .integral size dst (.register 0) ∧
      (op.build family size dst src).opcode = op ∧ (op.build family size dst src).family = .integral ∧
      (op.build family size dst src).size = size ∧ (op.build family size dst src).first = some dst ∧
      (op.build family size dst src).second = none ∧
      (op.build family size dst src).wellFormed = dst.carried op.readsOperand size := by
  cases op <;> cases hf <;> exact ⟨rfl, rfl, rfl, rfl, rfl, rfl, rfl⟩

/-- An instruction of form N2 has two operands. -/
theorem Opcode.build_n2 (hf : op.form = .n2) (hfam : family = .control → op = .mov ∧ size = .l) :
    (op.build family size dst src).opcode = op ∧ (op.build family size dst src).family = family ∧
      (op.build family size dst src).size = size ∧ (op.build family size dst src).first = some dst ∧
      (op.build family size dst src).second = some src ∧
      (op.build family size dst src).wellFormed =
        (dst.carried op.readsDst size && src.carried true size) := by
  cases family with
  | control =>
    obtain ⟨rfl, rfl⟩ := hfam rfl
    exact ⟨rfl, rfl, rfl, rfl, rfl, rfl⟩
  | integral => cases op <;> cases hf <;> exact ⟨rfl, rfl, rfl, rfl, rfl, rfl⟩

theorem encode_build_n0 (hf : op.form = .n0) :
    encode cfg (op.build family size dst src) = [cfg.opcodeByte op] := by
  obtain ⟨-, hop, hfirst, -⟩ := op.build_n0 family size dst src hf
  simp only [encode, hop, hfirst]

theorem encode_build_n1 (hf : op.form = .n1) :
    encode cfg (op.build family size dst src) =
      cfg.opcodeByte op :: metaByte .integral size :: dst.descByte cfg ::
        (dst.extBytes cfg ++ dst.immBytes cfg op.readsOperand size) := by
  obtain ⟨-, hop, hfam, hsize, hfirst, hsecond, -⟩ := op.build_n1 family size dst src hf
  simp only [encode, hop, hfam, hsize, hfirst, hsecond]
  rfl

theorem encode_build_n2 (hf : op.form = .n2) (hc : family = .control → op = .mov ∧ size = .l) :
    encode cfg (op.build family size dst src) =
      cfg.opcodeByte op :: metaByte family size :: dst.descByte cfg :: src.descByte cfg ::
        (dst.extBytes cfg ++ (src.extBytes cfg ++ (src.immBytes cfg true size ++
          dst.immBytes cfg op.readsDst size))) := by
  obtain ⟨hop, hfam, hsize, hfirst, hsecond, -⟩ := op.build_n2 family size dst src hf hc
  simp only [encode, hop, hfam, hsize, hfirst, hsecond]
  rfl

end

/-! ### The decoder by the form of the opcode (R120, R121) -/

section

variable {b : Byte} {op : Opcode} (hx : cfg.isExtension b = false) (ho : cfg.opcodeOf b = some op)

include hx ho

theorem decode_n0 (hf : op.form = .n0) (bs : List Byte) :
    decode cfg (b :: bs) = .ok (op.build .integral .b (.register 0) (.register 0), bs) := by
  simp [decode, hx, ho, hf]

theorem decode_n1_eq_ok_iff (hf : op.form = .n1) {bs : List Byte} {r : Instr × List Byte} :
    decode cfg (b :: bs) = .ok r ↔ ∃ md d tl, bs = md :: d :: tl ∧
      cfg.HeadOk op md [d] ∧ parseTail1 cfg op md d tl = some r := by
  simp only [← headError_eq_none_iff]
  rcases bs with _ | ⟨md, _ | ⟨d, tl⟩⟩
  · simp [decode, hx, ho, hf]
  · simp [decode, hx, ho, hf]
  · cases hh : headError cfg op md [d] <;> cases ht : parseTail1 cfg op md d tl <;>
      simp [decode, hx, ho, hf, hh, ht]

theorem decode_n2_eq_ok_iff (hf : op.form = .n2) {bs : List Byte} {r : Instr × List Byte} :
    decode cfg (b :: bs) = .ok r ↔ ∃ md d0 d1 tl, bs = md :: d0 :: d1 :: tl ∧
      cfg.HeadOk op md [d0, d1] ∧ parseTail2 cfg op md d0 d1 tl = some r := by
  simp only [← headError_eq_none_iff]
  rcases bs with _ | ⟨md, _ | ⟨d0, _ | ⟨d1, tl⟩⟩⟩
  · simp [decode, hx, ho, hf]
  · simp [decode, hx, ho, hf]
  · simp [decode, hx, ho, hf]
  · cases hh : headError cfg op md [d0, d1] <;> cases ht : parseTail2 cfg op md d0 d1 tl <;>
      simp [decode, hx, ho, hf, hh, ht]

end

/-- Only a byte of the opcode map outside the extension space begins an instruction. -/
theorem opcodeOf_of_decode {bs : List Byte} {r : Instr × List Byte} (h : decode cfg bs = .ok r) :
    ∃ b tl op, bs = b :: tl ∧ cfg.isExtension b = false ∧ cfg.opcodeOf b = some op := by
  cases bs with
  | nil => cases h
  | cons b tl =>
    cases hx : cfg.isExtension b with
    | true => simp only [decode, hx, if_true] at h; split at h <;> cases h
    | false =>
      cases ho : cfg.opcodeOf b with
      | none => simp [decode, hx, ho] at h
      | some op => exact ⟨b, tl, op, rfl, hx, ho⟩

theorem encode_eq_cons (i : Instr) : encode cfg i = cfg.opcodeByte i.opcode :: (encode cfg i).tail := by
  unfold encode
  split <;> rfl

/-- What decodes is an instruction that an encoding can carry, written as `encode` writes it but for the codes
of its opcode and its modes: with codes that spell the set, as `encode` writes it. -/
theorem encode_of_decode {bs rest : List Byte} {i : Instr} (h : decode cfg bs = .ok (i, rest)) :
    i.wellFormed = true ∧ bs.length = (encode cfg i).length + rest.length ∧
      (cfg.codesOk = true → ∃ b, cfg.opcodeOf b = some i.opcode ∧
        bs = b :: ((encode cfg i).tail ++ rest)) := by
  obtain ⟨b, tl, op, rfl, hx, ho⟩ := opcodeOf_of_decode h
  cases hf : op.form with
  | n0 =>
    rw [decode_n0 hx ho hf, Except.ok.injEq, Prod.mk.injEq] at h
    obtain ⟨rfl, rfl⟩ := h
    obtain ⟨-, hop, -, hwf⟩ := op.build_n0 .integral .b (.register 0) (.register 0) hf
    rw [encode_build_n0 _ _ _ _ hf]
    exact ⟨hwf, by simp [Nat.add_comm], fun _ => ⟨b, hop.symm ▸ ho, rfl⟩⟩
  | n1 =>
    obtain ⟨md, d, tl, rfl, hhead, htail⟩ := (decode_n1_eq_ok_iff hx ho hf).1 h
    obtain ⟨o, hdesc, hc, rfl, rfl⟩ := (parseTail1_eq_some_iff (hhead.descriptors d (by simp))).1 htail
    obtain ⟨-, hop, -, -, -, -, hwf⟩ := op.build_n1 (metaFamily md) (metaSize md) o (.register 0) hf
    have hfam : metaFamily md = .integral := by
      cases hm : metaFamily md with
      | integral => rfl
      | control => rw [(hhead.of_control hm).1] at hf; cases hf
    have hmeta := hhead.metaByte
    rw [hfam] at hmeta
    rw [encode_build_n1 _ _ _ _ hf, hmeta]
    refine ⟨hwf.trans hc, by simp; omega, fun hcodes => ⟨b, hop.symm ▸ ho, ?_⟩⟩
    simp [hdesc.descByte hcodes]
  | n2 =>
    obtain ⟨md, d0, d1, tl, rfl, hhead, htail⟩ := (decode_n2_eq_ok_iff hx ho hf).1 h
    obtain ⟨dst, src, ⟨hdesc0, hc0⟩, ⟨hdesc1, hc1⟩, rfl, rfl⟩ := (parseTail2_eq_some_iff
      (hhead.descriptors d0 (by simp)) (hhead.descriptors d1 (by simp))).1 htail
    obtain ⟨hop, -, -, -, -, hwf⟩ :=
      op.build_n2 (metaFamily md) (metaSize md) dst src hf hhead.of_control
    rw [encode_build_n2 _ _ _ _ hf hhead.of_control, hhead.metaByte]
    refine ⟨by rw [hwf, hc0, hc1]; rfl, by simp; omega, fun hcodes => ⟨b, hop.symm ▸ ho, ?_⟩⟩
    simp [hdesc0.descByte hcodes, hdesc1.descByte hcodes]

/-! ### Decoding and encoding undo each other (R121, R139) -/

/-- The bytes that the encoder writes for an instruction decode to it (R121). -/
theorem decode_encode_build (h : cfg.codesOk = true) {op : Opcode} {family : Family} {size : Size}
    {dst src : Operand} (hfam : family = .control → op = .mov ∧ size = .l)
    (hwf : (op.build family size dst src).wellFormed = true) (rest : List Byte) :
    decode cfg (encode cfg (op.build family size dst src) ++ rest) =
      .ok (op.build family size dst src, rest) := by
  obtain ⟨ho, hx⟩ := (Config.codesOk_iff.1 h).1 op
  have hdst := dst.fitsDesc_descByte h
  have hsrc := src.fitsDesc_descByte h
  cases hf : op.form with
  | n0 =>
    rw [encode_build_n0 _ _ _ _ hf, (op.build_n0 family size dst src hf).1]
    exact decode_n0 hx ho hf rest
  | n1 =>
    obtain ⟨hbuild, -, -, -, -, -, hcar⟩ := op.build_n1 family size dst src hf
    rw [encode_build_n1 _ _ _ _ hf, hbuild]
    refine (decode_n1_eq_ok_iff hx ho hf).2 ⟨_, _, _, rfl, Config.headOk_metaByte nofun
      (by simpa using hdst.descOk), (parseTail1_eq_some_iff hdst.descOk).2 ⟨dst, hdst, ?_⟩⟩
    rw [metaSize_metaByte, metaFamily_metaByte]
    exact ⟨hcar ▸ hwf, List.append_assoc .., rfl⟩
  | n2 =>
    obtain ⟨-, -, -, -, -, hcar⟩ := op.build_n2 family size dst src hf hfam
    rw [hcar, Bool.and_eq_true] at hwf
    rw [encode_build_n2 _ _ _ _ hf hfam]
    refine (decode_n2_eq_ok_iff hx ho hf).2 ⟨_, _, _, _, rfl, Config.headOk_metaByte hfam
      (by simpa using ⟨hdst.descOk, hsrc.descOk⟩),
      (parseTail2_eq_some_iff hdst.descOk hsrc.descOk).2 ⟨dst, src, ?_⟩⟩
    rw [metaSize_metaByte, metaFamily_metaByte]
    exact ⟨⟨hdst, hwf.1⟩, ⟨hsrc, hwf.2⟩, by simp, rfl⟩

/-- Settles O1: every instruction is what its opcode builds from its fields. -/
theorem decodeOfEncode : Obligations.DecodeOfEncode := by
  intro cfg i rest hcodes hwf
  have h := decode_encode_build (op := i.opcode) (family := i.family) (size := i.size) hcodes
    Instr.mov_of_control (i.build_eta.symm ▸ hwf) rest
  rwa [i.build_eta] at h

/-- In the default map each opcode has the one byte that `encode` writes (R136). -/
theorem opcodeByte_of_opcodeOf {b : Byte} {op : Opcode} (hmap : cfg.opcodeMap = Config.rootOpcodes)
    (h : cfg.opcodeOf b = some op) : cfg.opcodeByte op = b := by
  have hall : ∀ e ∈ Config.rootOpcodes, Config.default.opcodeByte e.2 = e.1 := by decide
  rw [Config.opcodeOf, hmap, Option.map_eq_some_iff] at h
  obtain ⟨e, hfind, rfl⟩ := h
  have hb : e.1 = b := by simpa using List.find?_some hfind
  rw [← hb, ← hall e (List.mem_of_find?_eq_some hfind), Config.opcodeByte, Config.opcodeByte, hmap]
  rfl

/-- Settles O2: what decodes is written as `encode` writes it, and in the default map that holds of the opcode's
byte too. -/
theorem encodeOfDecode : Obligations.EncodeOfDecode := by
  intro cfg bs rest i hcodes hmap hdec
  obtain ⟨hwf, -, hbytes⟩ := encode_of_decode hdec
  obtain ⟨b, ho, rfl⟩ := hbytes hcodes
  refine ⟨hwf, ?_⟩
  rw [encode_eq_cons, opcodeByte_of_opcodeOf hmap ho]
  rfl

/-- R135, for every instruction. -/
theorem encodedLength (i : Instr) : Laws.EncodedLength.Statement i := by
  cases h1 : i.first with
  | none => exact Laws.EncodedLength.of_none h1
  | some dst =>
    cases h2 : i.second with
    | none => exact Laws.EncodedLength.of_one h1 h2
    | some src => exact Laws.EncodedLength.of_two h1 h2

/-- Settles O3: an instruction takes as many bytes as its encoding has, and that is the length R135 says. -/
theorem decodedLength : Obligations.DecodedLength := by
  refine ⟨fun cfg bs rest i hdec => ?_, .mov .l (.absolute 0 0) (.absolute 0 0), rfl, rfl⟩
  obtain ⟨-, hlen, -⟩ := encode_of_decode hdec
  obtain ⟨henc, hmin, hmax⟩ := encodedLength i
  exact ⟨henc cfg ▸ hlen, hmin, hmax⟩

/-! ### Errors of the decoder (R138 to R140) -/

/-- The errors of R140's checks are none of the other errors. -/
theorem headError_ne_unknownOpcode (op : Opcode) (md : Byte) (ds : List Byte) (b : Byte) :
    headError cfg op md ds ≠ some (.unknownOpcode b) := by
  unfold headError
  split_ifs <;> simp

section

variable {b : Byte} {op : Opcode} (hx : cfg.isExtension b = false) (ho : cfg.opcodeOf b = some op)

include hx ho

/-- The bytes of an instruction in the opcode map are too few or malformed where they do not decode. -/
theorem decode_error_cases {bs : List Byte} {e : DecodeError} (h : decode cfg (b :: bs) = .error e) :
    e = .truncated ∨ ∃ md ds, headError cfg op md ds = some e := by
  simp only [decode, hx, ho, Bool.false_eq_true, if_false] at h
  split at h
  · cases h
  · split at h
    · next hh => cases h; exact .inr ⟨_, _, hh⟩
    · split at h <;> cases h; exact .inl rfl
  · split at h
    · next hh => cases h; exact .inr ⟨_, _, hh⟩
    · split at h <;> cases h; exact .inl rfl
  · cases h; exact .inl rfl
  · cases h; exact .inl rfl

/-- Where there are bytes enough for the longest instruction, those that do not decode have a malformed head. -/
theorem headError_of_decode_error {md d0 d1 : Byte} {tl : List Byte} (hl : 16 ≤ tl.length) {e : DecodeError}
    (h : decode cfg (b :: md :: d0 :: d1 :: tl) = .error e) :
    op.form ≠ .n0 ∧ headError cfg op md (descriptors op.form d0 d1) ≠ none := by
  cases hf : op.form with
  | n0 => rw [decode_n0 hx ho hf] at h; cases h
  | n1 =>
    refine ⟨nofun, fun hnone => ?_⟩
    have hhead := headError_eq_none_iff.1 hnone
    cases ht : parseTail1 cfg op md d0 (d1 :: tl) with
    | none =>
      have := length_lt_of_parseTail1_eq_none (hhead.descriptors d0 (by simp [descriptors])) ht
      simp only [List.length_cons] at this
      omega
    | some r =>
      rw [(decode_n1_eq_ok_iff hx ho hf).2 ⟨md, d0, _, rfl, hhead, ht⟩] at h
      cases h
  | n2 =>
    refine ⟨nofun, fun hnone => ?_⟩
    have hhead := headError_eq_none_iff.1 hnone
    cases ht : parseTail2 cfg op md d0 d1 tl with
    | none =>
      have := length_lt_of_parseTail2_eq_none (hhead.descriptors d0 (by simp [descriptors]))
        (hhead.descriptors d1 (by simp [descriptors])) ht
      omega
    | some r =>
      rw [(decode_n2_eq_ok_iff hx ho hf).2 ⟨md, d0, d1, _, rfl, hhead, ht⟩] at h
      cases h

end

/-- R139: a byte is an unknown opcode where it is neither in the extension space nor in the opcode map. -/
theorem decode_eq_unknownOpcode_iff {b : Byte} {bs : List Byte} :
    decode cfg (b :: bs) = .error (.unknownOpcode b) ↔ cfg.isExtension b = false ∧ cfg.opcodeOf b = none := by
  cases hx : cfg.isExtension b with
  | true =>
    simp only [decode, hx, if_true]
    split <;> simp
  | false =>
    cases ho : cfg.opcodeOf b with
    | none => simp [decode, hx, ho]
    | some op =>
      refine iff_of_false (fun h => ?_) (by simp)
      obtain h | ⟨md, ds, h⟩ := decode_error_cases hx ho h
      · cases h
      · exact headError_ne_unknownOpcode op md ds b h

/-- The bytes outside the extension space and the default map are those of R139's ranges. -/
theorem default_unknown_iff : ∀ b : Byte,
    (Config.default.isExtension b = false ∧ Config.default.opcodeOf b = none) ↔
      (0x02 ≤ b.toNat ∧ b.toNat ≤ 0x1F) ∨ (0x24 ≤ b.toNat ∧ b.toNat ≤ 0x2F) ∨
      (0x34 ≤ b.toNat ∧ b.toNat ≤ 0x3F) ∨ (0x42 ≤ b.toNat ∧ b.toNat ≤ 0x4F) ∨
      (0x59 ≤ b.toNat ∧ b.toNat ≤ 0x5F) ∨ (0x64 ≤ b.toNat ∧ b.toNat ≤ 0x6F) ∨
      (0x71 ≤ b.toNat ∧ b.toNat ≤ 0xEF) := by decide

/-- Settles O4: of the 256 bytes, those with neither an opcode nor the extension nibble are the listed ones. -/
theorem unknownOpcodes : Obligations.UnknownOpcodes := fun b _ =>
  decode_eq_unknownOpcode_iff.trans (default_unknown_iff b)

/-- Settles O6: the decoder runs on each word. -/
theorem writtenWords : Obligations.WrittenWords := by
  unfold Obligations.WrittenWords
  decide

/-! ### Effective addresses (R133) -/

theorem toNat_signExtend_byte (d : Byte) : ((d.signExtend 64).toNat : Int) = d.toInt % 2 ^ 64 := by
  rw [BitVec.signExtend, BitVec.toNat_ofInt]
  omega

/-- Settles O7: 64-bit addition is modulo 2^64, and the sign-extended displacement is congruent to its signed
value. -/
theorem Operand.effectiveAddress : Obligations.EffectiveAddress := by
  intro r spare a base i sh d
  refine ⟨rfl, BitVec.add_zero _, ?_, ?_⟩
  · simp [Machine.effectiveAddress, Machine.Offset.value, Nat.shiftLeft_eq]
  · have hd := toNat_signExtend_byte d
    simp only [Machine.effectiveAddress, Machine.Offset.value, BitVec.toNat_add]
    omega

end Sys2Proof
/-! Decode ticks that raise (40_decode_pipeline.md R163, R164, R170, R171): fetching the head of an instruction off
the hardware bus, and the step that the exception ends. -/

namespace Sys2Proof.Machine

/-! ### Fetching bytes off the hardware bus (R73, R92) -/

/-- The byte at `a` may be fetched, and the host does not answer for it. -/
def State.Fetchable (s : State) (a : Word) : Prop :=
  s.cfg.check a.toNat 1 .fetch = true ∧ s.cfg.onHardwareBus a.toNat = false

/-- Reads off the hardware bus took `s` to `t`: only what the caches hold may differ. -/
structure State.ReadsOffBus (s t : State) : Prop where
  eq : t = s.setSys t.sys
  memoryOk : t.MemoryOk
  bytes : s.KeepsBytes t
  hw : t.sys.hw = s.sys.hw

namespace State.ReadsOffBus

variable {s t u : State}

theorem trans (h : s.ReadsOffBus t) (g : t.ReadsOffBus u) : s.ReadsOffBus u where
  eq := by rw [g.eq, h.eq]; rfl
  memoryOk := g.memoryOk
  bytes := fun x => (g.bytes x).trans (h.bytes x)
  hw := g.hw.trans h.hw

theorem cfg (h : s.ReadsOffBus t) : t.cfg = s.cfg := by rw [h.eq]; rfl
theorem ip (h : s.ReadsOffBus t) : t.ip = s.ip := by rw [h.eq]; rfl

theorem fetchable (h : s.ReadsOffBus t) {a : Word} (hf : s.Fetchable a) : t.Fetchable a := by
  rw [State.Fetchable, h.cfg]; exact hf

end State.ReadsOffBus

/-- A byte that may be fetched off the hardware bus is that of the coherent view. -/
theorem fetch_byte {s : State} {a : Word} (hm : s.MemoryOk) (hf : s.Fetchable a) :
    ∃ t, s.fetch a 1 = .ok ((s.byteAt a.toNat).setWidth 64, t) ∧ s.ReadsOffBus t := by
  obtain ⟨hchk, hbus⟩ := hf
  have hoff : s.cfg.offHardwareBus a.toNat 1 = true := by simpa [Config.offHardwareBus] using hbus
  obtain ⟨t, hread, hset, hbytes, hmt⟩ := readIsCoherent s a 1 .fetch hm hchk hoff
  obtain ⟨bs, sys, hmmu, -, rfl⟩ := State.memRead_eq_some hread
  obtain ⟨-, -, -, -, hhw⟩ := mmuRead_spec hm.1 hm.2.1 hm.2.2 hmmu
  have hval : BitVec.ofNat 64 (assemble s.cfg.byteOrder (s.bytesAt a.toNat 1)) =
      (s.byteAt a.toNat).setWidth 64 := by
    cases s.cfg.byteOrder <;> simp [assemble, State.bytesAt, leNat]
  refine ⟨_, by rw [State.fetch, hread, hval], hset, hmt, hbytes, hhw (Config.offHardwareBus_iff.1 hoff)⟩

theorem setWidth_byte (b : Byte) : (b.setWidth 64).setWidth 8 = b := by simp

/-- R164: the metadata and descriptor bytes are those of the coherent view from IP + 1. -/
theorem fetchHead_bytes {s : State} {form : Form} (hm : s.MemoryOk) (hn : form ≠ .n0)
    (hf : ∀ k < headBytes form, s.Fetchable (s.ip + BitVec.ofNat 64 k)) :
    ∃ d1 t, s.fetchHead form = .ok ((s.byteAt (s.ip + 1).toNat, s.byteAt (s.ip + 2).toNat, d1), t) ∧
      descriptors form (s.byteAt (s.ip + 2).toNat) d1 =
        descriptors form (s.byteAt (s.ip + 2).toNat) (s.byteAt (s.ip + 3).toNat) ∧
      s.ReadsOffBus t := by
  have hhead : 3 ≤ headBytes form := by
    cases form with
    | n0 => exact absurd rfl hn
    | n1 => decide
    | n2 => decide
  obtain ⟨s1, e1, r1⟩ := fetch_byte (a := s.ip + 1) hm (hf 1 (by omega))
  obtain ⟨s2, e2, r2⟩ := fetch_byte (a := s.ip + 2) r1.memoryOk (r1.fetchable (hf 2 (by omega)))
  have r12 := r1.trans r2
  rw [r1.bytes] at e2
  cases form with
  | n0 => exact absurd rfl hn
  | n1 =>
    refine ⟨0, s2, ?_, rfl, r12⟩
    simp only [State.fetchHead, e1, e2, setWidth_byte]
  | n2 =>
    obtain ⟨s3, e3, r3⟩ := fetch_byte (a := s.ip + 3) r12.memoryOk (r12.fetchable (hf 3 (by decide)))
    rw [r12.bytes] at e3
    refine ⟨_, s3, ?_, rfl, r12.trans r3⟩
    simp only [State.fetchHead, e1, e2, e3, setWidth_byte]

/-! ### The Idle tick of an encoding that does not decode (R163, R164) -/

/-- The head of an instruction that can be fetched off the hardware bus, byte by byte. -/
theorem fetchable_of_check {s : State} {n : Nat} (hchk : s.cfg.check s.ip.toNat n .fetch = true)
    (hoff : s.cfg.offHardwareBus s.ip.toNat n = true) {k : Nat} (hk : k < n) :
    (s.ip + BitVec.ofNat 64 k).toNat = s.ip.toNat + k ∧ s.Fetchable (s.ip + BitVec.ofNat 64 k) := by
  simp only [Config.check, Bool.and_eq_true, decide_eq_true_eq, List.all_eq_true, List.mem_range] at hchk
  obtain ⟨htop, hall⟩ := hchk
  have haddr : (s.ip + BitVec.ofNat 64 k).toNat = s.ip.toNat + k := by
    rw [BitVec.toNat_add, BitVec.toNat_ofNat]; omega
  refine ⟨haddr, ?_, ?_⟩
  · rw [haddr]
    simp only [Config.check, Bool.and_eq_true, decide_eq_true_eq, List.all_eq_true, List.mem_range]
    refine ⟨by omega, fun j hj => ?_⟩
    obtain rfl : j = 0 := by omega
    exact hall k hk
  · rw [haddr]
    exact Config.offHardwareBus_iff.1 hoff k hk

/-- The bytes at an address, the first four apart. -/
theorem bytesAt_maxInstrBytes (s : State) (a : Nat) : s.bytesAt a maxInstrBytes =
    s.byteAt a :: s.byteAt (a + 1) :: s.byteAt (a + 2) :: s.byteAt (a + 3) :: s.bytesAt (a + 4) 16 := by
  simp [State.bytesAt, maxInstrBytes, List.range_succ]

/-- R163: the Idle tick reads the opcode byte of the coherent view. -/
theorem idleTick_fetched {s : State} (j : Nat) (hm : s.MemoryOk) (hf : s.Fetchable s.ip) :
    ∃ t, (s.startSlot j).ReadsOffBus t ∧ idleTick j s = idleTickOpcode j (s.byteAt s.ip.toNat) t := by
  obtain ⟨t, hfetch, hreads⟩ := fetch_byte (s := s.startSlot j) (a := s.ip) hm hf
  refine ⟨t, hreads, ?_⟩
  have hip : (s.startSlot j).ip = s.ip := rfl
  simp only [idleTick, hip, hfetch, setWidth_byte]
  rfl

/-- The byte is an unregistered extension or an unknown opcode (R138, R139). -/
def BeginsNothing (cfg : Config) (b : Byte) : Prop :=
  (cfg.isExtension b = true ∧ b ∉ cfg.extensions) ∨ (cfg.isExtension b = false ∧ cfg.opcodeOf b = none)

/-- R163, R168: a byte that begins nothing raises. -/
theorem idleTickOpcode_of_beginsNothing {s : State} {b : Byte} (j : Nat) (h : BeginsNothing s.cfg b) :
    idleTickOpcode j b s = decodeFault j .illegalInstruction (s.setIp (s.ip + 1)) := by
  obtain ⟨hx, hmem⟩ | ⟨hx, ho⟩ := h
  · simp [idleTickOpcode, hx, hmem]
  · simp [idleTickOpcode, hx, ho]

/-- R164: an opcode byte with operands goes on to its head. -/
theorem idleTickOpcode_operands {s : State} {b : Byte} {op : Opcode} (j : Nat)
    (hx : s.cfg.isExtension b = false) (ho : s.cfg.opcodeOf b = some op) (hn : op.form ≠ .n0) :
    idleTickOpcode j b s = idleTickOperands j b op s := by
  simp only [idleTickOpcode, hx, ho, Bool.false_eq_true, if_false]
  split
  · next hf => exact absurd hf hn
  · rfl
  · rfl

/-- R164: a malformed head raises, with IP past the head. -/
theorem idleTickOperands_malformed {s : State} {op : Opcode} (j : Nat) (b : Byte) (hm : s.MemoryOk)
    (hn : op.form ≠ .n0) (hf : ∀ k < headBytes op.form, s.Fetchable (s.ip + BitVec.ofNat 64 k))
    (hmal : headError s.cfg op (s.byteAt (s.ip + 1).toNat)
      (descriptors op.form (s.byteAt (s.ip + 2).toNat) (s.byteAt (s.ip + 3).toNat)) ≠ none) :
    ∃ t, s.ReadsOffBus t ∧ idleTickOperands j b op s = decodeFault j .illegalInstruction
      (t.setIp (s.ip + BitVec.ofNat 64 (headBytes op.form))) := by
  obtain ⟨d1, t, hhead, hdesc, hreads⟩ := fetchHead_bytes hm hn hf
  obtain ⟨err, herr⟩ := Option.ne_none_iff_exists'.1 hmal
  rw [← hdesc] at herr
  refine ⟨t, hreads, ?_⟩
  simp only [idleTickOperands, hhead, herr, hreads.ip]

/-- A head that does not run past the top of the address space has its bytes in a row. -/
theorem head_in_row {s : State} {form : Form} (hn : form ≠ .n0)
    (haddr : ∀ k < headBytes form, (s.ip + BitVec.ofNat 64 k).toNat = s.ip.toNat + k) :
    s.byteAt (s.ip + 1).toNat = s.byteAt (s.ip.toNat + 1) ∧
      descriptors form (s.byteAt (s.ip + 2).toNat) (s.byteAt (s.ip + 3).toNat) =
        descriptors form (s.byteAt (s.ip.toNat + 2)) (s.byteAt (s.ip.toNat + 3)) := by
  have hbyte : ∀ k < headBytes form, s.byteAt (s.ip + BitVec.ofNat 64 k).toNat = s.byteAt (s.ip.toNat + k) :=
    fun k hk => by rw [haddr k hk]
  cases form with
  | n0 => exact absurd rfl hn
  | n1 => exact ⟨hbyte 1 (by decide), congrArg (descriptors .n1 · 0) (hbyte 2 (by decide))⟩
  | n2 =>
    exact ⟨hbyte 1 (by decide), congrArg₂ (descriptors .n2) (hbyte 2 (by decide)) (hbyte 3 (by decide))⟩

theorem idleBytes_of_opcode {cfg : Config} {b : Byte} {op : Opcode} (hx : cfg.isExtension b = false)
    (ho : cfg.opcodeOf b = some op) : cfg.idleBytes b = headBytes op.form := by
  simp [Config.idleBytes, hx, ho]

theorem idleBytes_of_beginsNothing {cfg : Config} {b : Byte} (h : BeginsNothing cfg b) :
    cfg.idleBytes b = 1 := by
  obtain ⟨hx, -⟩ | ⟨hx, ho⟩ := h
  · simp [Config.idleBytes, hx]
  · simp [Config.idleBytes, hx, ho, headBytes]

theorem idleBytes_pos (cfg : Config) (b : Byte) : 0 < cfg.idleBytes b := by
  unfold Config.idleBytes
  split
  · decide
  · generalize ((cfg.opcodeOf b).map Opcode.form).getD .n0 = form
    cases form <;> decide

/-- Bytes enough for the longest instruction that do not decode begin nothing, or have a malformed head
(R139, R140). -/
theorem illegal_cases {cfg : Config} {b md d0 d1 : Byte} {tl : List Byte} {e : DecodeError}
    (hl : 16 ≤ tl.length) (hdec : decode cfg (b :: md :: d0 :: d1 :: tl) = .error e)
    (hreg : ∀ b, e ≠ .registeredExtension b) :
    BeginsNothing cfg b ∨
      ∃ op, cfg.isExtension b = false ∧ cfg.opcodeOf b = some op ∧ op.form ≠ .n0 ∧
        headError cfg op md (descriptors op.form d0 d1) ≠ none := by
  cases hx : cfg.isExtension b with
  | true =>
    refine .inl (.inl ⟨hx, fun hmem => ?_⟩)
    simp only [decode, hx, if_true, hmem, Except.error.injEq] at hdec
    exact hreg b hdec.symm
  | false =>
    cases ho : cfg.opcodeOf b with
    | none => exact .inl (.inr ⟨hx, ho⟩)
    | some op => exact .inr ⟨op, rfl, rfl, headError_of_decode_error hx ho hl hdec⟩

/-- R163, R164: the Idle tick of an encoding that does not decode reads its bytes and raises
IllegalInstruction, with IP past them. -/
theorem idleTick_illegal {s : State} {e : DecodeError} (j : Nat) (hm : s.MemoryOk)
    (hdec : decode s.cfg (s.bytesAt s.ip.toNat maxInstrBytes) = .error e)
    (hreg : ∀ b, e ≠ .registeredExtension b)
    (hchk : s.cfg.check s.ip.toNat (s.cfg.idleBytes (s.byteAt s.ip.toNat)) .fetch = true)
    (hoff : s.cfg.offHardwareBus s.ip.toNat (s.cfg.idleBytes (s.byteAt s.ip.toNat)) = true) :
    ∃ u, (s.startSlot j).ReadsOffBus u ∧ idleTick j s = decodeFault j .illegalInstruction
      (u.setIp (s.ip + BitVec.ofNat 64 (s.cfg.idleBytes (s.byteAt s.ip.toNat)))) := by
  rw [bytesAt_maxInstrBytes] at hdec
  have hbyte := fun {k} => fetchable_of_check (k := k) hchk hoff
  obtain ⟨t, hreads, htick⟩ := idleTick_fetched j hm (by simpa using (hbyte (idleBytes_pos ..)).2)
  have hcfg : t.cfg = s.cfg := hreads.cfg
  have hip : t.ip = s.ip := hreads.ip
  rw [htick]
  obtain hun | ⟨op, hx, ho, hn, hmal⟩ := illegal_cases (by simp [State.bytesAt]) hdec hreg
  · refine ⟨t, hreads, ?_⟩
    rw [idleTickOpcode_of_beginsNothing j (hcfg ▸ hun), hip, idleBytes_of_beginsNothing hun]
    rfl
  · rw [idleBytes_of_opcode hx ho] at hbyte ⊢
    rw [idleTickOpcode_operands j (hcfg ▸ hx) (hcfg ▸ ho) hn]
    have hhead : headError t.cfg op (t.byteAt (t.ip + 1).toNat)
        (descriptors op.form (t.byteAt (t.ip + 2).toNat) (t.byteAt (t.ip + 3).toNat)) ≠ none := by
      obtain ⟨hmd, hdesc⟩ := head_in_row hn fun k hk => (hbyte hk).1
      rw [hcfg, hip, hreads.bytes, hreads.bytes, hreads.bytes]
      rw [← hmd, ← hdesc] at hmal
      exact hmal
    obtain ⟨u, hu, hop⟩ := idleTickOperands_malformed j (s.byteAt s.ip.toNat) hreads.memoryOk hn
      (fun k hk => hip.symm ▸ hreads.fetchable (hbyte hk).2) hhead
    exact ⟨u, hreads.trans hu, hip ▸ hop⟩

/-! ### The step that a decode tick's exception ends (R170, R190, R191) -/

/-- With no record queued and no interrupt to take, a decoder phase that raises ends the step. -/
theorem step_of_decoderPhase_raised {s t : State} (hw : s.cfg.wf = true) (hq : s.core.queue = [])
    (hh : s.halted = false) (hp : s.pendingLine = none) (hd : decoderPhase s.markTicked = .raised t) :
    step s = .next t := by
  have hexec : executorPhase s.markTicked = .next s.markTicked := by simp [executorPhase, hq, peek]
  have hint : interruptPhase s.markTicked = s.markTicked := by
    have : s.markTicked.pendingLine = none := hp
    simp [interruptPhase, this]
  have hh' : s.markTicked.halted = false := hh
  refine step_of_tickReport_ended ?_
  simp [tickReport, hw, hq, queueOk_nil, hh, hexec, tickAfterExec, hint, hh', tickDecoder, hd]

/-- What the decoder's bookkeeping holds is nothing that `SameOutsideDecoder` speaks of. -/
theorem sameOutsideDecoder_of_slots {s : State} (ht : s.core.ticked = true) (slots : List Slot)
    (retireSeq : BitVec 64) :
    s.SameOutsideDecoder { s with core := { s.core with slots := slots, retireSeq := retireSeq } } s.regs :=
  ⟨⟨s.sys, slots, s.core.nextSeq, retireSeq, s.core.queue, s.core.exu, by rw [← ht]⟩, fun _ => rfl, id, rfl⟩

/-- Every slot is Idle and the queue empty where the one slot in flight returns to Idle. -/
theorem atBoundary_of_slots {s t : State} {j : Nat} (hf : s.InFlight j)
    (hslots : t.core.slots = (s.setSlot j { s.slot j with state := .idle }).core.slots)
    (hq : t.core.queue = s.core.queue) : t.atBoundary = true := by
  obtain ⟨hempty, hj, -, hidle⟩ := hf
  have hall : ∀ sl ∈ t.core.slots, sl.state = .idle := by
    rw [hslots]
    intro sl hsl
    obtain ⟨k, hk, rfl⟩ := List.mem_iff_getElem.1 hsl
    rw [← slot_eq_getElem hk]
    by_cases hkj : k = j
    · rw [hkj, slot_setSlot_self hj]
    · rw [slot_setSlot_of_ne s hkj]
      exact hidle k (by simpa using hk) hkj
  rw [State.atBoundary, activeSlot_of_all_idle hall, hq, hempty]
  rfl

/-- R170: what `decodeFault` leaves of the instruction in flight: the exception, every slot Idle, nothing queued
and the next instruction the one that may retire. -/
theorem decodeFault_raised {u : State} {j : Nat} (e : Exc) (hf : u.InFlight j)
    (hn : u.core.nextSeq = u.core.retireSeq + 1) (ht : u.core.ticked = true) :
    ∃ t, decodeFault j e u = .raised t ∧
      (u.raiseException e).SameOutsideDecoder t (u.raiseException e).regs ∧
      t.atBoundary = true ∧ t.core.retireSeq = t.core.nextSeq := by
  have hx := State.Executes.raiseException u e
  have hbound := fun t => atBoundary_of_slots (t := t) hf
  obtain ⟨-, hj, hseq, -⟩ := hf
  have hslot : (u.raiseException e).slot j = u.slot j := by rw [State.slot, hx.slots]; rfl
  have hlen : j < (u.raiseException e).core.slots.length := by rw [hx.slots]; exact hj
  refine ⟨_, rfl, sameOutsideDecoder_of_slots (hx.ticked.trans ht) _ _, hbound _ ?_ hx.queue, ?_⟩
  · simp only [State.core_setSlot, hslot, hx.slots]
  · simp only [hslot, slot_setSlot_self hlen, State.core_setSlot, hseq, hx.nextSeq, hn]

theorem State.Ready.atRest {s : State} (h : s.Ready) : s.AtRest := by
  obtain ⟨-, ⟨-, -, -, hrest⟩, hb, -, -⟩ := h
  simp only [State.atBoundary, Bool.and_eq_true, Option.isNone_iff_eq_none, List.isEmpty_iff] at hb
  obtain ⟨hactive, hq⟩ := hb
  have hidle := activeSlot_none hactive
  obtain ⟨-, -, -, hn⟩ | ⟨-, j, hj, hne, -⟩ := hrest
  · exact ⟨hq, hidle, hn⟩
  · exact absurd (hidle _ (slot_mem hj)) hne

/-- R162: between two instructions the decoder phase is the Idle tick of the next slot. -/
theorem decoderPhase_of_atRest {s : State} (h : s.AtRest) : decoderPhase s = idleTick s.nextSlot s := by
  obtain ⟨hq, hidle, -⟩ := h
  simp [decoderPhase, activeSlot_of_all_idle hidle, hq]

/-- R170, R191: an Idle tick that raises after reads off the hardware bus ends the step so, `p` being the IP that
the tick left. -/
theorem decodeRaises_of_idleTick {s v : State} {e : Exc} {p : Word} (hr : s.Ready)
    (hv : (s.markTicked.startSlot s.nextSlot).ReadsOffBus v)
    (htick : idleTick s.nextSlot s.markTicked = decodeFault s.nextSlot e (v.setIp p)) :
    s.DecodeRaises e { s.regs with ip := p } (step s) := by
  have hrest : s.markTicked.AtRest := hr.atRest
  have ⟨hq, _, hn⟩ := hrest
  obtain ⟨⟨hw, -⟩, ⟨hl, -⟩, -, hh, hpend⟩ := hr
  have hj : s.nextSlot < s.markTicked.core.slots.length := nextSlot_lt (s := s) hw hl
  have hreads : (s.markTicked.startSlot s.nextSlot).ReadsTo (v.setIp p) := ⟨v.sys, p, by rw [hv.eq]; rfl⟩
  have hnext : (v.setIp p).core.nextSeq = (v.setIp p).core.retireSeq + 1 := by
    rw [hv.eq]
    exact congrArg (· + 1) hn
  obtain ⟨t, hfault, hsame, hbound, hseq⟩ := decodeFault_raised e
    (inFlight_of_readsTo hreads (inFlight_startSlot hrest hj)) hnext (by rw [hv.eq]; rfl)
  have hstep : step s = .next t := step_of_decoderPhase_raised hw hq hh hpend
    ((decoderPhase_of_atRest hrest).trans (htick.trans hfault))
  have hregs : (v.setIp p).regs = { s.regs with ip := p } := by rw [hv.eq]; rfl
  refine ⟨v.setIp p, t, ⟨⟨v.sys, v.core.slots, v.core.nextSeq, v.core.retireSeq, v.core.queue, v.core.exu, ?_⟩,
    hv.bytes, fun _ => hv.memoryOk, hv.hw⟩, hstep, hsame, hbound, hseq⟩
  rw [hv.eq]
  rfl

/-- Settles O10: the Idle tick reads the head off the hardware bus, and what does not decode is then an unknown
byte or a malformed head, on which that tick raises. -/
theorem illegalEncodingRaises : Obligations.IllegalEncodingRaises := by
  intro s e hr hdec hreg n hchk hoff
  obtain ⟨v, hv, htick⟩ := idleTick_illegal (s := s.markTicked) s.nextSlot hr.1 hdec hreg hchk hoff
  exact decodeRaises_of_idleTick hr hv htick

end Sys2Proof.Machine

/-! The pipeline's invariant (40_decode_pipeline.md R186 to R189) through the phases of a tick, the queue's laws
(R181 to R185), and the tick that takes a record from the queue (R178). -/

namespace Sys2Proof.Machine

/-! ### The record of a slot in flight (R161 to R167) -/

/-- What a transition of slot `j` can do from `s`, its record staying as the opcode allows (R137, R163 to R170):
the slot goes on to a state it has between ticks, its record is finished, the tick raises, or the opcode byte is
refused. -/
inductive DecodeOut.KeepsSound (j : Nat) (s : State) : DecodeOut → Prop
  | advance {t : State} (st : DecodeState) {r : Record} (h : s.ReadsTo t) (hb : st.between) (hi : st ≠ .idle)
      (hr : r.Sound s.cfg) : KeepsSound j s (.moved (t.advanceSlot j st r))
  | finish {t : State} {r : Record} (h : s.ReadsTo t) (hr : r.Sound s.cfg) : KeepsSound j s (finishSlot j r t)
  | fault {t : State} (e : Exc) (h : s.ReadsTo t) : KeepsSound j s (decodeFault j e t)
  | refused (r : Refusal) : KeepsSound j s (.refused r)

namespace DecodeOut.KeepsSound

variable {j : Nat} {s s1 : State} {d : DecodeOut} {r : Record}

theorem trans (h : s.ReadsTo s1) (g : DecodeOut.KeepsSound j s1 d) : DecodeOut.KeepsSound j s d := by
  cases g with
  | advance st g hb hi hr => exact advance st (h.trans g) hb hi (h.cfg ▸ hr)
  | finish g hr => exact finish (h.trans g) (h.cfg ▸ hr)
  | fault e g => exact fault e (h.trans g)
  | refused r => exact refused r

/-- R163: the record of an instruction without operands. -/
theorem sound_ofN0 {b : Byte} {op : Opcode} (ho : s.cfg.opcodeOf b = some op) (hf : op.form = .n0)
    (startIp : Word) : (Record.ofN0 b startIp).Sound s.cfg :=
  ⟨op, ho, hf.symm, nofun⟩

/-- R140, R164: the record of a head that passed the checks. -/
theorem sound_ofHead {b md d0 d1 : Byte} {op : Opcode} (ho : s.cfg.opcodeOf b = some op)
    (hh : headError s.cfg op md (descriptors op.form d0 d1) = none) (startIp : Word) :
    (Record.ofHead s.cfg b op.form md d0 d1 startIp).Sound s.cfg :=
  ⟨op, ho, rfl, (headError_eq_none_iff.1 hh).of_control⟩

theorem idleTickOperands {b : Byte} {op : Opcode} (ho : s.cfg.opcodeOf b = some op) :
    DecodeOut.KeepsSound j s (idleTickOperands j b op s) := by
  unfold Machine.idleTickOperands
  split
  · next h => exact fault _ ((Fetched.ReadsFrom.fetchHead ..).error h)
  · next h =>
    have hr := (Fetched.ReadsFrom.fetchHead ..).ok h
    dsimp only
    split
    · exact fault _ (hr.trans (.setIp ..))
    · next hh => exact advance _ (hr.trans (.setIp ..)) (by decide) (by decide) (sound_ofHead ho hh _)

theorem idleTickOpcode (b : Byte) : DecodeOut.KeepsSound j s (idleTickOpcode j b s) := by
  unfold Machine.idleTickOpcode
  dsimp only
  split
  · split
    · exact refused _
    · exact fault _ (.setIp ..)
  · split
    · exact fault _ (.setIp ..)
    · next op ho =>
      split
      · next hf => exact finish (.setIp ..) (sound_ofN0 ho hf _)
      · exact idleTickOperands ho
      · exact idleTickOperands ho

theorem idleTick : DecodeOut.KeepsSound j (s.startSlot j) (idleTick j s) := by
  unfold Machine.idleTick
  dsimp only
  split
  · next h => exact fault _ ((Fetched.ReadsFrom.fetch ..).error h)
  · next h => exact trans ((Fetched.ReadsFrom.fetch ..).ok h) (idleTickOpcode _)

/-- R165: reading the extra bytes changes the operands alone. -/
theorem sound_of_fetchExts {r' : Record} {p : Word} (h : s.fetchExts r = .ok ((r', p), s1))
    (hr : r.Sound s.cfg) : r'.Sound s.cfg := by
  unfold State.fetchExts at h
  split at h
  · cases h
  · split at h
    · split at h
      · cases h
      · cases h; exact hr
    · cases h; exact hr

theorem decodeAddrModeTick (hr : (s.slot j).record.Sound s.cfg) :
    DecodeOut.KeepsSound j s (decodeAddrModeTick j s) := by
  unfold Machine.decodeAddrModeTick
  split
  · next h => exact fault _ ((Fetched.ReadsFrom.fetchExts ..).error h)
  · next h =>
    have hr' : Record.Sound s.cfg _ := sound_of_fetchExts h hr
    exact advance _ (((Fetched.ReadsFrom.fetchExts ..).ok h).trans (.setIp ..)) (by decide) (by decide) hr'

theorem readMemDone (op : Opcode) (hr : r.Sound s.cfg) : DecodeOut.KeepsSound j s (readMemDone j op r s) := by
  unfold Machine.readMemDone
  split
  · exact advance _ (.refl s) (by decide) (by decide) hr
  · exact finish (.refl s) hr

theorem readMemTickOf (op : Opcode) (hr : r.Sound s.cfg) : DecodeOut.KeepsSound j s (readMemTickOf j op r s) := by
  have done : ∀ {t : State} (_ : s.ReadsTo t) {r' : Record}, r'.Sound s.cfg →
      DecodeOut.KeepsSound j s (Machine.readMemDone j op r' t) :=
    fun h _ hr' => trans h (readMemDone op (h.cfg.symm ▸ hr'))
  unfold Machine.readMemTickOf
  split
  · split
    · exact fault _ (.refl s)
    · next h => exact done (.readOperand h) hr
  · split
    · split
      · exact fault _ (.refl s)
      · next h => exact done (.readOperand h) hr
    · exact done (.refl s) hr

theorem twoOpDstReadMemTick (hr : (s.slot j).record.Sound s.cfg) :
    DecodeOut.KeepsSound j s (twoOpDstReadMemTick j s) := by
  unfold Machine.twoOpDstReadMemTick
  dsimp only
  split
  · exact fault _ (.refl s)
  · next h => exact finish (.readOperand h) hr

/-- A slot in flight moves on with a record as its opcode allows (R172). -/
theorem advance_of_between (hb : (s.slot j).state.between) (hi : (s.slot j).state ≠ .idle)
    (hr : (s.slot j).record.Sound s.cfg) : DecodeOut.KeepsSound j s (Machine.advance j s) := by
  unfold Machine.advance
  split
  case h_1 h => exact absurd h hi
  case h_2 => exact decodeAddrModeTick hr
  case h_3 => exact readMemTickOf _ hr
  case h_4 => exact twoOpDstReadMemTick hr
  case h_5 h => exact absurd h hb.1
  case h_6 h => exact absurd h hb.2

end DecodeOut.KeepsSound

/-! ### One instruction between its first decode tick and its execution (R186 to R189) -/

theorem State.InFlight.lt {s : State} {j : Nat} (h : s.InFlight j) : j < s.core.slots.length := h.2.1

/-- Slot `j` alone has an instruction, the last one that was begun and the one that may retire next. -/
structure State.Carries (s : State) (j : Nat) : Prop where
  slots : s.SlotsOk
  inFlight : s.InFlight j
  nextSeq : s.core.nextSeq = s.core.retireSeq + 1

theorem State.Carries.readsTo {s t : State} {j : Nat} (hs : s.Carries j) (h : s.ReadsTo t) : t.Carries j := by
  obtain ⟨_, _, rfl⟩ := h
  exact ⟨hs.slots, hs.inFlight, hs.nextSeq⟩

theorem State.Carries.advanceSlot {s : State} {j : Nat} (hs : s.Carries j) {st : DecodeState} (hb : st.between)
    (r : Record) : (s.advanceSlot j st r).Carries j :=
  ⟨slotsOk_setSlot hs.slots j hb, inFlight_advanceSlot hs.inFlight st r, hs.nextSeq⟩

/-- The first tick of an instruction puts it in the next slot (R163, R189). -/
theorem State.AtRest.carries_startSlot {s : State} (h : s.AtRest) (hs : s.SlotsOk) {j : Nat}
    (hj : j < s.core.slots.length) : (s.startSlot j).Carries j :=
  ⟨slotsOk_startSlot hs hj, inFlight_startSlot h hj, congrArg (· + 1) h.2.2⟩

theorem State.PipelineOk.slotsOk {s : State} (h : s.PipelineOk) : s.SlotsOk := ⟨h.1, h.2.1⟩

/-- A slot that is not Idle carries the one instruction. -/
theorem State.PipelineOk.carries {s : State} (h : s.PipelineOk) {j : Nat} (hj : j < s.core.slots.length)
    (hi : (s.slot j).state ≠ .idle) : s.Carries j ∧ (s.slot j).record.Sound s.cfg := by
  have hs := h.slotsOk
  obtain ⟨-, -, hsound, ⟨hidle, -⟩ | ⟨hq, k, -, -, hseq, hn, hk⟩⟩ := h
  · exact absurd (hidle _ (slot_mem hj)) hi
  · obtain rfl : j = k := by
      by_contra hne
      exact hi (hk j hj hne)
    exact ⟨⟨hs, ⟨hq, hj, hseq, hk⟩, hn⟩, hsound _ (slot_mem hj) hi⟩

/-- With every slot Idle, an empty queue means that the pipeline is at rest. -/
theorem State.PipelineOk.atRest {s : State} (h : s.PipelineOk) (hidle : ∀ sl ∈ s.core.slots, sl.state = .idle)
    (hq : s.core.queue = []) : s.AtRest := by
  obtain ⟨-, -, -, ⟨-, -, -, hn⟩ | ⟨-, j, hj, hne, -⟩⟩ := h
  · exact ⟨hq, hidle, hn⟩
  · exact absurd (hidle _ (slot_mem hj)) hne

/-- A pipeline whose one instruction is in a slot is in order. -/
theorem State.Carries.pipelineOk {s : State} {j : Nat} (hs : s.Carries j) (hi : (s.slot j).state ≠ .idle)
    (hr : (s.slot j).record.Sound s.cfg) : s.PipelineOk := by
  obtain ⟨⟨hl, hb⟩, ⟨hq, hj, hseq, hk⟩, hn⟩ := hs
  refine ⟨hl, hb, fun sl hsl hne => ?_, .inr ⟨hq, j, hj, hi, hseq, hn, hk⟩⟩
  obtain ⟨k, hk', rfl⟩ := List.mem_iff_getElem.1 hsl
  rw [← slot_eq_getElem hk'] at hne ⊢
  obtain rfl : k = j := by
    by_contra hkj
    exact hne (hk k hk' hkj)
  exact hr

/-- A pipeline with every slot Idle and at most one sound record queued is in order. -/
theorem pipelineOk_of_idle {s : State} (hl : s.core.slots.length = s.cfg.numDecoderSlots)
    (hidle : ∀ sl ∈ s.core.slots, sl.state = .idle) (hlen : s.core.queue.length ≤ 1)
    (hq : ∀ e ∈ s.core.queue, e.tag = 0 ∧ e.size = s.cfg.dqRecordBytes ∧ e.record.Sound s.cfg)
    (hn : s.core.nextSeq = s.core.retireSeq) : s.PipelineOk :=
  ⟨hl, fun sl hsl => by rw [hidle sl hsl]; decide, fun sl hsl hne => absurd (hidle sl hsl) hne,
    .inl ⟨hidle, hlen, hq, hn⟩⟩

theorem State.AtRest.pipelineOk {s : State} (h : s.AtRest) (hl : s.core.slots.length = s.cfg.numDecoderSlots) :
    s.PipelineOk := by
  obtain ⟨hq, hidle, hn⟩ := h
  exact pipelineOk_of_idle hl hidle (by simp [hq]) (by simp [hq]) hn

/-- The slots after the one in flight returned to Idle. -/
theorem State.InFlight.all_idle {s : State} {j : Nat} (hf : s.InFlight j) :
    ∀ sl ∈ (s.setSlot j { s.slot j with state := .idle }).core.slots, sl.state = .idle := by
  have hb := atBoundary_of_slots (t := s.setSlot j { s.slot j with state := .idle }) hf rfl rfl
  simp only [State.atBoundary, Bool.and_eq_true, Option.isNone_iff_eq_none] at hb
  exact activeSlot_none hb.1

/-! ### The pipeline through the phases of a tick (R190) -/

/-- R169: the record of the instruction in flight goes to the queue, since there is room. -/
theorem tryPush_eq_of_inFlight {s : State} {j : Nat} (hw : s.cfg.wf = true) (hf : s.InFlight j) :
    tryPush j s = { s with
      core := { s.core with
        slots := (s.setSlot j { s.slot j with state := .idle }).core.slots
        queue := [{ tag := 0, size := s.cfg.dqRecordBytes, record := (s.slot j).record }]
        retireSeq := s.core.retireSeq + 1 } } := by
  obtain ⟨hq, -, hseq, -⟩ := hf
  simp only [tryPush, hseq, hq, if_true,
    push_nil (e := { tag := 0, size := s.cfg.dqRecordBytes, record := _ }) hw rfl]
  rfl

/-- R169: what a slot in flight that finishes with record `r` leaves: the record queued and every slot Idle. -/
theorem finishSlot_eq_of_inFlight {s : State} {j : Nat} (hw : s.cfg.wf = true) (hf : s.InFlight j) (r : Record) :
    ∃ slots : List Slot, slots.length = s.core.slots.length ∧ (∀ sl ∈ slots, sl.state = .idle) ∧
      finishSlot j r s = .moved { s with
        core := { s.core with
          slots := slots
          queue := [{ tag := 0, size := s.cfg.dqRecordBytes, record := r }]
          retireSeq := s.core.retireSeq + 1 } } := by
  have hf' := inFlight_advanceSlot hf .finished r
  have hslot : ((s.advanceSlot j .finished r).slot j).record = r :=
    congrArg Slot.record (slot_setSlot_self hf.lt _)
  refine ⟨_, ?_, hf'.all_idle, ?_⟩
  · simp [State.advanceSlot]
  · rw [finishSlot, tryPush_eq_of_inFlight (s := s.advanceSlot j .finished r) hw hf', hslot]
    rfl

theorem pipelineOk_of_finishSlot {s t : State} {j : Nat} {r : Record} (hw : s.cfg.wf = true) (hs : s.Carries j)
    (hr : r.Sound s.cfg) (h : finishSlot j r s = .moved t) : t.PipelineOk := by
  obtain ⟨slots, hl, hidle, hf⟩ := finishSlot_eq_of_inFlight hw hs.inFlight r
  obtain rfl := DecodeOut.moved.inj (hf.symm.trans h)
  exact pipelineOk_of_idle (hl.trans hs.slots.1) hidle (le_refl 1) (by simpa using hr) hs.nextSeq

/-- R170: a raise leaves the pipeline at rest. -/
theorem pipelineOk_of_decodeFault {s t : State} {j : Nat} {e : Exc} (hs : s.Carries j)
    (h : decodeFault j e s = .raised t) : t.PipelineOk := by
  obtain ⟨⟨hl, -⟩, hf, hn⟩ := hs
  have ⟨hq, hj, hseq, _⟩ := hf
  have hx := State.Executes.raiseException s e
  have hslot : (s.raiseException e).slot j = s.slot j := by rw [State.slot, hx.slots]; rfl
  obtain rfl := DecodeOut.raised.inj h
  refine State.AtRest.pipelineOk ⟨hx.queue.trans hq, ?_, ?_⟩ ?_
  · simpa only [State.core_setSlot, hslot, hx.slots] using hf.all_idle
  · have hlen : j < (s.raiseException e).core.slots.length := by rw [hx.slots]; exact hj
    simp only [hslot, slot_setSlot_self hlen, State.core_setSlot, hseq, hx.nextSeq, hn]
  · simpa [hx.slots, hx.cfg] using hl

/-- What the transition of a slot leaves of a pipeline whose one instruction is in it (R169, R170). -/
theorem DecodeOut.KeepsSound.pipelineOk {s : State} {j : Nat} {d : DecodeOut} (h : d.KeepsSound j s)
    (hw : s.cfg.wf = true) (hs : s.Carries j) {t : State} (hd : d = .moved t ∨ d = .raised t) :
    t.PipelineOk := by
  cases h with
  | @advance u st r h hb hi hr =>
    obtain rfl := DecodeOut.moved.inj (hd.resolve_right nofun)
    have hu := hs.readsTo h
    have hslot : (u.advanceSlot j st r).slot j = { u.slot j with state := st, record := r } :=
      slot_setSlot_self hu.inFlight.lt _
    exact (hu.advanceSlot hb r).pipelineOk (hslot ▸ hi) (by rw [hslot]; exact h.cfg ▸ hr)
  | finish h hr =>
    exact pipelineOk_of_finishSlot (h.cfg ▸ hw) (hs.readsTo h) (h.cfg ▸ hr) (hd.resolve_right nofun)
  | fault e h => exact pipelineOk_of_decodeFault (hs.readsTo h) (hd.resolve_left nofun)
  | refused r => exact (hd.elim nofun nofun)

/-- The decoder phase keeps the pipeline in order (R162). -/
theorem pipelineOk_of_decoderPhase {s t : State} (hw : s.cfg.wf = true) (hs : s.PipelineOk)
    (hd : decoderPhase s = .moved t ∨ decoderPhase s = .raised t) : t.PipelineOk := by
  unfold decoderPhase at hd
  cases ha : s.activeSlot with
  | some j =>
    simp only [ha] at hd
    obtain ⟨hj, hi⟩ := activeSlot_some ha
    obtain ⟨hc, hr⟩ := hs.carries hj hi
    exact (DecodeOut.KeepsSound.advance_of_between (hs.slotsOk.2 _ (slot_mem hj)) hi hr).pipelineOk hw hc hd
  | none =>
    simp only [ha] at hd
    by_cases hq : s.core.queue = []
    · rw [if_pos (by simp [hq])] at hd
      have hc := (hs.atRest (activeSlot_none ha) hq).carries_startSlot hs.slotsOk (nextSlot_lt hw hs.1)
      exact DecodeOut.KeepsSound.idleTick.pipelineOk hw hc hd
    · rw [if_neg (by simp [hq])] at hd
      obtain rfl := DecodeOut.moved.inj (hd.resolve_right nofun)
      exact hs

theorem pipelineOk_of_executes {s t : State} (h : s.Executes t) (hs : s.PipelineOk) : t.PipelineOk := by
  simpa only [State.PipelineOk, State.slot, h.cfg, h.slots, h.queue, h.nextSeq, h.retireSeq] using hs

/-- The executor takes the one record queued, and the pipeline is then at rest (R178, R186). -/
theorem State.PipelineOk.latch {s : State} (hs : s.PipelineOk) {e : Entry} {q : List Entry}
    (hq : s.core.queue = e :: q) (r : Record) : (s.latch r q).PipelineOk := by
  obtain ⟨hl, -, -, ⟨hidle, hlen, -, hn⟩ | ⟨hnil, -⟩⟩ := hs
  · obtain rfl : q = [] := by simpa [hq] using hlen
    exact State.AtRest.pipelineOk ⟨rfl, hidle, hn⟩ hl
  · simp [hnil] at hq

theorem pipelineOk_of_executorPhase {s t : State} (hs : s.PipelineOk) (h : executorPhase s = .next t) :
    t.PipelineOk := by
  obtain ⟨-, rfl⟩ | ⟨e, q, hq, -, hrun⟩ := executorPhase_cases h
  · exact hs
  · exact pipelineOk_of_executes (runRecord_executes _ _ t hrun) (hs.latch hq _)

/-- Every phase keeps a pipeline that is in order in a well-formed configuration. -/
theorem State.PipelineOk.keptByPhases : KeptByPhases fun s => s.cfg.wf = true ∧ s.PipelineOk where
  executor {s _} h _ hx :=
    ⟨(executorPhase_keeps_decoder hx).1 ▸ h.1, pipelineOk_of_executorPhase (s := s.markTicked) h.2 hx⟩
  interrupt {s} h _ :=
    have hi := interruptPhase_executes s
    ⟨hi.cfg ▸ h.1, pipelineOk_of_executes hi h.2⟩
  moved {s t} h _ hd := ⟨((decoderPhase_decodes s).1 t hd).cfg ▸ h.1, pipelineOk_of_decoderPhase h.1 h.2 (.inl hd)⟩
  raised h _ hd := ⟨(State.KeepsFixed.decoderPhase_raised hd).cfg ▸ h.1, pipelineOk_of_decoderPhase h.1 h.2 (.inr hd)⟩

/-- A step that goes on is one of a well-formed configuration (R9). -/
theorem wf_of_step {s t : State} (h : step s = .next t) : s.cfg.wf = true := by
  by_contra hw
  rw [((noStep.1 s (by simpa using hw)).2).1] at h
  cases h

/-- Settles O17: every phase of every tick keeps the pipeline in order, since the transition of the slot in flight
keeps its record as the opcode allows and a finished record finds room in the queue. -/
theorem stepKeepsPipelineOk : Obligations.StepKeepsPipelineOk := fun _ _ hs h =>
  (State.PipelineOk.keptByPhases.step ⟨wf_of_step h, hs⟩ h).2

end Sys2Proof.Machine

/-! The dispatch queue (40_decode_pipeline.md R180 to R185), and the tick that takes a record from it (R178,
R190). -/

namespace Sys2Proof

open Machine

/-! ### The queue (R181 to R185) -/

@[simp] theorem bytesAvailable_nil : bytesAvailable [] = 0 := rfl

@[simp] theorem bytesAvailable_cons (e : Entry) (q : List Entry) :
    bytesAvailable (e :: q) = Config.dqHeaderBytes + e.size + bytesAvailable q := by simp [bytesAvailable]

@[simp] theorem bytesAvailable_append (p q : List Entry) :
    bytesAvailable (p ++ q) = bytesAvailable p + bytesAvailable q := by simp [bytesAvailable]

/-- Within the capacity, used and free bytes make it up (R180). -/
theorem bytesAvailable_add_bytesFree {cfg : Config} {q : List Entry} (h : bytesAvailable q ≤ cfg.dqCapacity) :
    bytesAvailable q + cfg.bytesFree q = cfg.dqCapacity := Nat.add_sub_cancel' h

theorem canInsert_iff {cfg : Config} {q : List Entry} {n : Nat} (h : bytesAvailable q ≤ cfg.dqCapacity) :
    cfg.canInsert q n = true ↔ bytesAvailable q + 4 + n ≤ cfg.dqCapacity := by
  have := bytesAvailable_add_bytesFree h
  rw [Config.canInsert, decide_eq_true_iff, Config.dqHeaderBytes]
  omega

/-- Settles O34: the queue is a list with pushes at one end and pops at the other, and the bytes of its entries
add up. -/
theorem queueLaws : Obligations.QueueLaws := by
  intro cfg q e hq
  have hroom := canInsert_iff (n := e.size) hq
  refine ⟨?_, fun q' hpush => ?_, bytesAvailable_add_bytesFree hq, fun n r q' hpop => ?_, ?_, ?_⟩
  · rw [← Nat.not_le, ← hroom]
    simp [Config.push]
  · obtain ⟨hins, rfl⟩ : cfg.canInsert q e.size = true ∧ q ++ [e] = q' := by simpa [Config.push] using hpush
    refine ⟨rfl, bytesAvailable_add_bytesFree ?_⟩
    have := hroom.1 hins
    simp only [bytesAvailable_append, bytesAvailable_cons, bytesAvailable_nil, Config.dqHeaderBytes]
    omega
  · cases q with
    | nil => cases hpop
    | cons h tl =>
      obtain ⟨rfl, rfl, rfl⟩ : h.size = n ∧ h.record = r ∧ tl = q' := by simpa [popEntry] using hpop
      rw [bytesAvailable_cons] at hq
      exact ⟨h, rfl, rfl, rfl, rfl, bytesAvailable_add_bytesFree (by omega)⟩
  · rintro h q' rfl
    exact ⟨by simp [popEntry], fun n hn => by simp [popEntry, hn.symm]⟩
  · rintro rfl
    exact ⟨rfl, fun _ => rfl⟩

end Sys2Proof

namespace Sys2Proof.Machine

/-! ### The tick that runs a record (R178, R190) -/

/-- A tick that ran an instruction ends the step (R191). -/
theorem ended_of_tickAfterExec {t : State} {u : Ticked} (h : tickAfterExec true t = .next u) : u.ended = true := by
  unfold tickAfterExec tickDecoder at h
  split at h
  · cases h; rfl
  · split at h
    · cases h; rfl
    · split at h <;> cases h <;> rfl

/-- R178, R190: with a record of instruction `i` queued, the next tick is the step's last and is `exec` of `i` with
the phases after it. -/
theorem stepTicks_of_queued {s : State} {r : Record} {i : Instr} (n : Nat) (hw : s.cfg.wf = true)
    (hh : s.halted = false)
    (hq : s.core.queue = [{ tag := 0, size := s.cfg.dqRecordBytes, record := r }])
    (hi : r.instr s.cfg = some i) :
    stepTicks (n + 1) s = afterExec (exec i (s.markTicked.latch r [])) := by
  have hok : s.cfg.queueOk s.core.queue = true := queueOk_of_queued hw ⟨_, hq, rfl, rfl⟩
  have hexec : executorPhase s.markTicked = exec i (s.markTicked.latch r []) := by
    have hrun : runRecord r (s.markTicked.latch r []) = exec i (s.markTicked.latch r []) := by
      rw [runRecord, show r.instr (s.markTicked.latch r []).cfg = some i from hi]
    simp [executorPhase, hq, peek, popEntry, hrun]
  have hran : (!s.core.queue.isEmpty) = true := by simp [hq]
  simp only [stepTicks, tickReport, hw, hok, hh, hexec, hran, Bool.not_true, Bool.false_eq_true, if_false]
  cases hx : exec i (s.markTicked.latch r []) with
  | fault f => rfl
  | refused x => rfl
  | next t =>
    cases ht : tickAfterExec true t with
    | fault f => simp [afterExec, ht]
    | refused x => simp [afterExec, ht]
    | next u => simp [afterExec, ht, ended_of_tickAfterExec ht]

/-- Settles O8: the first tick of the step takes the record. -/
theorem stepRunsQueuedRecord : Obligations.StepRunsQueuedRecord := fun _ _ _ hw hh hq hi =>
  stepTicks_of_queued 4 hw hh hq hi

end Sys2Proof.Machine

/-! Decode ticks that fault or are refused (40_decode_pipeline.md R163 to R171): what a tick without a record does,
the reads of a tick off the hardware bus, and the step that such a tick ends. -/

namespace Sys2Proof

open Machine

/-! ### Registered extensions (R138, R305) -/

theorem headError_ne_registeredExtension (cfg : Config) (op : Opcode) (md : Byte) (ds : List Byte) (b : Byte) :
    headError cfg op md ds ≠ some (.registeredExtension b) := by
  unfold headError
  split_ifs <;> simp

/-- Only the byte of a registered extension is refused as one. -/
theorem registered_of_decode {cfg : Config} {b c : Byte} {bs : List Byte}
    (h : decode cfg (b :: bs) = .error (.registeredExtension c)) :
    b = c ∧ cfg.isExtension b = true ∧ b ∈ cfg.extensions := by
  cases hx : cfg.isExtension b with
  | true =>
    simp only [decode, hx, if_true] at h
    split at h
    · next hmem => cases h; exact ⟨rfl, rfl, hmem⟩
    · cases h
  | false =>
    cases ho : cfg.opcodeOf b with
    | none => simp [decode, hx, ho] at h
    | some op =>
      obtain h | ⟨md, ds, h⟩ := decode_error_cases hx ho h
      · cases h
      · exact absurd h (headError_ne_registeredExtension cfg op md ds c)

end Sys2Proof

namespace Sys2Proof.Machine

/-! ### A tick with no record queued (R190) -/

/-- With no record queued and no interrupt to take, a tick is its decoder phase. -/
theorem tickReport_of_no_record {s : State} (hw : s.cfg.wf = true) (hq : s.core.queue = [])
    (hh : s.halted = false) (hp : s.pendingLine = none) : tickReport s = tickDecoder false s.markTicked := by
  have hexec : executorPhase s.markTicked = .next s.markTicked := by simp [executorPhase, hq, peek]
  have hint : interruptPhase s.markTicked = s.markTicked := by
    have : s.markTicked.pendingLine = none := hp
    simp [interruptPhase, this]
  have hh' : s.markTicked.halted = false := hh
  simp [tickReport, hw, hq, queueOk_nil, hh, hexec, tickAfterExec, hint, hh']

/-- No interrupt is taken while an instruction is in a slot (R333). -/
theorem pendingLine_of_activeSlot {s : State} {j : Nat} (h : s.activeSlot = some j) : s.pendingLine = none := by
  simp [State.pendingLine, State.atBoundary, h]

/-- With an instruction in slot `j`, a tick is the slot's transition. -/
theorem tickReport_of_carries {s : State} {j : Nat} (hw : s.cfg.wf = true) (hh : s.halted = false)
    (hf : s.InFlight j) (hi : (s.slot j).state ≠ .idle) :
    tickReport s = tickDecoder false s.markTicked ∧ decoderPhase s.markTicked = advance j s.markTicked := by
  have ha := activeSlot_of_inFlight hf hi
  have ha' : s.markTicked.activeSlot = some j := ha
  exact ⟨tickReport_of_no_record hw hf.1 hh (pendingLine_of_activeSlot ha), by simp [decoderPhase, ha']⟩

theorem State.Ready.memoryOk {s : State} (h : s.Ready) : s.MemoryOk := h.1

theorem State.Ready.wf {s : State} (h : s.Ready) : s.cfg.wf = true := h.1.1

theorem State.Ready.not_halted {s : State} (h : s.Ready) : s.halted = false := by
  obtain ⟨-, -, -, hh, -⟩ := h
  exact hh

theorem State.Ready.nextSlot_lt {s : State} (h : s.Ready) : s.nextSlot < s.core.slots.length := by
  obtain ⟨⟨hw, -⟩, ⟨hl, -⟩, -⟩ := h
  exact Machine.nextSlot_lt hw hl

/-- Between two instructions a tick is the Idle tick of the next slot (R162). -/
theorem State.Ready.tickReport {s : State} (h : s.Ready) :
    tickReport s = tickDecoder false s.markTicked ∧
      decoderPhase s.markTicked = idleTick s.nextSlot s.markTicked := by
  have hrest := h.atRest
  have hrest' : s.markTicked.AtRest := hrest
  obtain ⟨⟨hw, -⟩, -, -, hh, hp⟩ := h
  exact ⟨tickReport_of_no_record hw hrest.1 hh hp, decoderPhase_of_atRest hrest'⟩

/-- Settles O12: the Idle tick reads the byte and refuses it. -/
theorem registeredExtensionRefused : Obligations.RegisteredExtensionRefused := by
  intro s b hr hdec hchk hoff
  rw [bytesAt_maxInstrBytes] at hdec
  obtain ⟨hb, hx, hmem⟩ := registered_of_decode hdec
  have hf : s.Fetchable s.ip := by simpa using (fetchable_of_check (k := 0) hchk hoff (by decide)).2
  obtain ⟨t, hreads, htick⟩ := idleTick_fetched (s := s.markTicked) s.nextSlot hr.memoryOk hf
  have hcfg : t.cfg = s.cfg := hreads.cfg
  have hrefused : idleTickOpcode s.nextSlot b t = .refused (.extensionInstruction b) := by
    rw [hb] at hx hmem
    simp [idleTickOpcode, hcfg, hx, hmem]
  obtain ⟨ht, hd⟩ := hr.tickReport
  refine step_of_tickReport_refused ?_
  rw [ht, tickDecoder, hd, htick, show s.markTicked.byteAt s.markTicked.ip.toNat = b from hb, hrefused]

/-! ### Reads of a tick off the hardware bus (R73, R92) -/

theorem State.ReadsOffBus.refl {s : State} (hm : s.MemoryOk) : s.ReadsOffBus s := ⟨rfl, hm, fun _ => rfl, rfl⟩

/-- A read that is allowed, off the hardware bus, answers the bytes of the coherent view. -/
theorem memRead_offBus {s : State} {a : Word} {n : Nat} {k : AccessKind} (hm : s.MemoryOk)
    (hchk : s.cfg.check a.toNat n k = true) (hoff : s.cfg.offHardwareBus a.toNat n = true) :
    ∃ t, s.memRead a n k = some (BitVec.ofNat 64 (assemble s.cfg.byteOrder (s.bytesAt a.toNat n)), t) ∧
      s.ReadsOffBus t := by
  obtain ⟨t, hread, hset, hbytes, hmt⟩ := readIsCoherent s a n k hm hchk hoff
  obtain ⟨bs, sys, hmmu, -, rfl⟩ := State.memRead_eq_some hread
  obtain ⟨-, -, -, -, hhw⟩ := mmuRead_spec hm.1 hm.2.1 hm.2.2 hmmu
  exact ⟨_, hread, hset, hmt, hbytes, hhw (Config.offHardwareBus_iff.1 hoff)⟩

theorem fetch_offBus {s : State} {a : Word} {n : Nat} (hm : s.MemoryOk)
    (hchk : s.cfg.check a.toNat n .fetch = true) (hoff : s.cfg.offHardwareBus a.toNat n = true) :
    ∃ t, s.fetch a n = .ok (BitVec.ofNat 64 (assemble s.cfg.byteOrder (s.bytesAt a.toNat n)), t) ∧
      s.ReadsOffBus t := by
  obtain ⟨t, hread, hr⟩ := memRead_offBus hm hchk hoff
  exact ⟨t, by rw [State.fetch, hread], hr⟩

theorem fetch_of_not_check {s : State} {a : Word} {n : Nat} (h : s.cfg.check a.toNat n .fetch = false) :
    s.fetch a n = .error s := by rw [State.fetch, s.memRead_none h]

/-- An access to no byte faults nowhere. -/
theorem check_zero (cfg : Config) (a : Word) (k : AccessKind) : cfg.check a.toNat 0 k = true := by
  have := a.isLt
  simp only [Config.check, List.range_zero, List.all_nil, Bool.and_true, decide_eq_true_eq]
  omega

/-- The operand with its extra bytes `bs` (R165). -/
def OperandRec.withExt (order : ByteOrder) (op : OperandRec) (bs : List Byte) : OperandRec :=
  match op.mode with
  | .absolute => { op with abs := BitVec.ofNat 64 (assemble order bs) }
  | .indirect => if op.rel = 0 then op else { op with reldesc := bs.headD 0 }
  | .immediate | .register => op

/-- How many extra bytes an operand has, by its mode and its relative mode (R121). -/
theorem OperandRec.extLength_toOperand (op : OperandRec) :
    op.toOperand.extLength = match op.mode with
      | .absolute => 8
      | .indirect => if op.rel = 0 then 0 else 1
      | .immediate | .register => 0 := by
  unfold OperandRec.toOperand
  cases op.mode with
  | indirect =>
    unfold OperandRec.offset
    split_ifs <;> rfl
  | _ => rfl

/-- R165: the extra bytes of an operand, off the hardware bus, are those of the coherent view. -/
theorem fetchExt_offBus {s : State} {op : OperandRec} {p : Word} {n : Nat} (hm : s.MemoryOk)
    (hn : op.toOperand.extLength = n) (hchk : s.cfg.check p.toNat n .fetch = true)
    (hoff : s.cfg.offHardwareBus p.toNat n = true) :
    ∃ t, s.fetchExt op p =
        .ok ((op.withExt s.cfg.byteOrder (s.bytesAt p.toNat n), p + BitVec.ofNat 64 n), t) ∧
      s.ReadsOffBus t := by
  rw [op.extLength_toOperand] at hn
  unfold State.fetchExt OperandRec.withExt
  cases hmode : op.mode with
  | absolute =>
    obtain rfl : 8 = n := by simpa [hmode] using hn
    obtain ⟨t, hfetch, hr⟩ := fetch_offBus hm hchk hoff
    exact ⟨t, by simp [hfetch], hr⟩
  | indirect =>
    by_cases h0 : op.rel = 0
    · obtain rfl : 0 = n := by simpa only [hmode, if_pos h0] using hn
      exact ⟨s, by simp [h0], .refl hm⟩
    · obtain rfl : 1 = n := by simpa only [hmode, if_neg h0] using hn
      obtain ⟨t, hfetch, hr⟩ :=
        fetch_byte (a := p) hm ⟨hchk, by simpa using Config.offHardwareBus_iff.1 hoff 0 Nat.one_pos⟩
      exact ⟨t, by simp only [if_neg h0, hfetch, setWidth_byte]; rfl, hr⟩
  | _ =>
    obtain rfl : 0 = n := by simpa [hmode] using hn
    exact ⟨s, by simp, .refl hm⟩

/-- R165: extra bytes that cannot be fetched fault before anything is read. -/
theorem fetchExt_of_not_check {s : State} {op : OperandRec} {p : Word}
    (h : s.cfg.check p.toNat op.toOperand.extLength .fetch = false) : s.fetchExt op p = .error s := by
  rw [op.extLength_toOperand] at h
  unfold State.fetchExt
  cases hmode : op.mode with
  | absolute =>
    rw [hmode] at h
    simp [fetch_of_not_check h]
  | indirect =>
    by_cases h0 : op.rel = 0
    · simp [hmode, h0, check_zero] at h
    · simp only [hmode, if_neg h0] at h
      simp only [if_neg h0, fetch_of_not_check h]
  | _ => simp [hmode, check_zero] at h

/-- R176: an operand that faults has no value. -/
theorem readOperand_of_operandFaults {s : State} {op : OperandRec} {size : Size}
    (h : s.operandFaults op size = true) (family : Family) : s.readOperand op size family = none := by
  unfold State.operandFaults at h
  unfold State.readOperand
  cases hmode : op.mode <;> simp only [hmode, Bool.not_eq_true', Bool.false_eq_true] at h
  all_goals simp [s.memRead_none h]

/-! ### Decode ticks that cannot read (R163 to R167, R171) -/

/-- R164: metadata or descriptor byte `k` that cannot be fetched, those before it having been read. -/
theorem fetchHead_of_not_check {s : State} {form : Form} {k : Nat} (hm : s.MemoryOk) (h0 : 0 < k)
    (hk : k < headBytes form) (hf : ∀ i < k, s.Fetchable (s.ip + BitVec.ofNat 64 i))
    (hchk : s.cfg.check (s.ip + BitVec.ofNat 64 k).toNat 1 .fetch = false) :
    ∃ t, s.fetchHead form = .error t ∧ s.ReadsOffBus t := by
  have hk3 : k = 1 ∨ k = 2 ∨ (k = 3 ∧ form = .n2) := by
    cases form with
    | n0 => simp only [headBytes] at hk; omega
    | n1 => simp only [headBytes] at hk; omega
    | n2 => simp only [headBytes] at hk; simp only [and_true]; omega
  have first : 1 < k → ∃ t, s.fetch (s.ip + 1) 1 = .ok ((s.byteAt (s.ip + 1).toNat).setWidth 64, t) ∧
      s.ReadsOffBus t := fun h1 => fetch_byte hm (hf 1 h1)
  have fails : ∀ {t : State}, s.ReadsOffBus t → t.fetch (s.ip + BitVec.ofNat 64 k) 1 = .error t :=
    fun hr => fetch_of_not_check (hr.cfg.symm ▸ hchk)
  obtain rfl | rfl | ⟨rfl, rfl⟩ := hk3
  · exact ⟨s, by simp only [State.fetchHead, show s.fetch (s.ip + 1) 1 = .error s from fails (.refl hm)],
      .refl hm⟩
  · obtain ⟨t, e, hr⟩ := first (by decide)
    have e2 : t.fetch (s.ip + 2) 1 = .error t := fails hr
    exact ⟨t, by simp only [State.fetchHead, e, e2], hr⟩
  · obtain ⟨t, e, hr⟩ := first (by decide)
    obtain ⟨u, e2, hr2⟩ := fetch_byte (a := s.ip + 2) hr.memoryOk (hr.fetchable (hf 2 (by decide)))
    have e3 : u.fetch (s.ip + 3) 1 = .error u := fails (hr.trans hr2)
    exact ⟨u, by simp only [State.fetchHead, e, e2, e3], hr.trans hr2⟩

/-- R163, R164: an instruction of which the Idle tick reads more than a byte is of the opcode map and has
operands. -/
theorem opcode_of_one_lt_idleBytes {cfg : Config} {b : Byte} (h : 1 < cfg.idleBytes b) :
    ∃ op, cfg.isExtension b = false ∧ cfg.opcodeOf b = some op ∧ op.form ≠ .n0 := by
  unfold Config.idleBytes at h
  cases hx : cfg.isExtension b with
  | true => simp [hx] at h
  | false =>
    cases ho : cfg.opcodeOf b with
    | none => simp [hx, ho, headBytes] at h
    | some op => exact ⟨op, rfl, rfl, fun hf => by simp [hx, ho, hf, headBytes] at h⟩

/-- R163, R164, R171: the Idle tick that cannot fetch its byte `k` raises MemoryFault with IP as it was. -/
theorem idleTick_of_not_check {s : State} {k : Nat} (j : Nat) (hm : s.MemoryOk)
    (hk : k < s.cfg.idleBytes (s.byteAt s.ip.toNat))
    (hchk : s.cfg.check (s.ip + BitVec.ofNat 64 k).toNat 1 .fetch = false)
    (hf : ∀ i < k, s.Fetchable (s.ip + BitVec.ofNat 64 i)) :
    ∃ v, (s.startSlot j).ReadsOffBus v ∧ v.ip = s.ip ∧ idleTick j s = decodeFault j .memoryFault v := by
  obtain rfl | h0 := Nat.eq_zero_or_pos k
  · refine ⟨s.startSlot j, .refl hm, rfl, ?_⟩
    have hfetch : (s.startSlot j).fetch (s.startSlot j).ip 1 = .error (s.startSlot j) :=
      fetch_of_not_check (s.ip.add_zero ▸ hchk)
    simp only [idleTick, hfetch]
  · obtain ⟨op, hx, ho, hn⟩ := opcode_of_one_lt_idleBytes (lt_of_le_of_lt h0 hk)
    rw [idleBytes_of_opcode hx ho] at hk
    obtain ⟨t, hreads, htick⟩ := idleTick_fetched j hm (by simpa using hf 0 h0)
    have hcfg : t.cfg = s.cfg := hreads.cfg
    have hip : t.ip = s.ip := hreads.ip
    obtain ⟨u, hhead, hu⟩ := fetchHead_of_not_check hreads.memoryOk h0 hk
      (fun i hi => hip.symm ▸ hreads.fetchable (hf i hi)) (by rw [hcfg, hip]; exact hchk)
    refine ⟨u, hreads.trans hu, hu.ip.trans hip, ?_⟩
    rw [htick, idleTickOpcode_operands j (hcfg ▸ hx) (hcfg ▸ ho) hn]
    simp only [idleTickOperands, hhead]

/-- R165, R171: the DecodeAddrMode tick that cannot fetch the extra bytes of an operand. -/
theorem fetchExts_of_extsFault {s : State} {r : Record} (hm : s.MemoryOk) (h : s.extsFault r = true) :
    ∃ v, s.fetchExts r = .error v ∧ s.ReadsOffBus v := by
  unfold State.extsFault at h
  unfold State.fetchExts
  cases hdst : s.cfg.check s.ip.toNat r.dst.toOperand.extLength .fetch with
  | false => exact ⟨s, by rw [fetchExt_of_not_check hdst], .refl hm⟩
  | true =>
    simp only [hdst, Bool.not_true, Bool.false_or, Bool.and_eq_true, decide_eq_true_eq,
      Bool.not_eq_true'] at h
    obtain ⟨⟨hform, hoff⟩, hsrc⟩ := h
    obtain ⟨t, hfetch, hr⟩ := fetchExt_offBus hm rfl hdst hoff
    have hfails := fetchExt_of_not_check (s := t) (hr.cfg.symm ▸ hsrc)
    exact ⟨t, by simp only [hfetch, hform, hfails], hr⟩

/-- R165 to R167: a later decode tick that cannot read raises MemoryFault after reads off the hardware bus. -/
theorem advance_of_decodeTickFaults {s : State} {j : Nat} (hm : s.MemoryOk)
    (h : s.decodeTickFaults (s.slot j) = true) :
    ∃ v, s.ReadsOffBus v ∧ advance j s = decodeFault j .memoryFault v := by
  unfold State.decodeTickFaults at h
  unfold advance
  cases hst : (s.slot j).state with
  | decodeAddrMode =>
    obtain ⟨v, hv, hr⟩ := fetchExts_of_extsFault hm (by simpa [hst] using h)
    exact ⟨v, hr, by simp only [decodeAddrModeTick, hv]⟩
  | readMem =>
    refine ⟨s, .refl hm, ?_⟩
    simp only [hst] at h
    simp only [readMemTick, readMemTickOf]
    cases hform : (s.slot j).record.form with
    | n2 => simp only [hform] at h; simp only [readOperand_of_operandFaults h]
    | _ =>
      simp only [hform, Bool.and_eq_true] at h
      obtain ⟨hreads, hfaults⟩ := h
      simp only [hreads, if_true, readOperand_of_operandFaults hfaults]
  | twoOpDstReadMem =>
    refine ⟨s, .refl hm, ?_⟩
    simp only [hst] at h
    simp only [twoOpDstReadMemTick, readOperand_of_operandFaults h]
  | _ => simp [hst] at h

/-- R170, R191: a transition of the slot in flight that raises after reads off the hardware bus ends the step. -/
theorem decodeRaises_of_advance {s v : State} {j : Nat} {e : Exc} (hw : s.cfg.wf = true) (hh : s.halted = false)
    (hc : s.Carries j) (hi : (s.slot j).state ≠ .idle) (hv : s.markTicked.ReadsOffBus v)
    (htick : advance j s.markTicked = decodeFault j e v) : s.DecodeRaises e s.regs (step s) := by
  have hcv : v.Carries j := State.Carries.readsTo (s := s.markTicked) ⟨hc.slots, hc.inFlight, hc.nextSeq⟩
    ⟨v.sys, s.ip, hv.eq⟩
  obtain ⟨t, hfault, hsame, hbound, hseq⟩ := decodeFault_raised e hcv.inFlight hcv.nextSeq (by rw [hv.eq]; rfl)
  obtain ⟨ht, hd⟩ := tickReport_of_carries hw hh hc.inFlight hi
  have hstep : step s = .next t := step_of_tickReport_ended (by simp [ht, tickDecoder, hd, htick, hfault])
  refine ⟨v, t, ⟨⟨v.sys, v.core.slots, v.core.nextSeq, v.core.retireSeq, v.core.queue, v.core.exu, ?_⟩,
    hv.bytes, fun _ => hv.memoryOk, hv.hw⟩, hstep, hsame, hbound, hseq⟩
  rw [hv.eq]
  rfl

theorem not_idle_of_decodeTickFaults {s : State} {sl : Slot} (h : s.decodeTickFaults sl = true) :
    sl.state ≠ .idle := fun hi => by simp [State.decodeTickFaults, hi] at h

/-- Settles O11: the tick raises where its first unreadable byte or operand stands, and the raise ends the
step. -/
theorem decodeMemoryFaults : Obligations.DecodeMemoryFaults := by
  refine ⟨fun s k hr hk hchk hf => ?_, fun s j hm hp hh hj hfault => ?_⟩
  · obtain ⟨v, hv, hip, htick⟩ := idleTick_of_not_check (s := s.markTicked) s.nextSlot hr.memoryOk hk hchk hf
    have hself : v.setIp s.ip = v := congrArg v.setIp (show s.ip = v.ip from hip.symm)
    exact decodeRaises_of_idleTick (p := s.ip) hr hv (hself.symm ▸ htick)
  · have hi := not_idle_of_decodeTickFaults hfault
    obtain ⟨v, hv, htick⟩ := advance_of_decodeTickFaults (s := s.markTicked) hm hfault
    exact decodeRaises_of_advance hm.1 hh (hp.carries hj hi).1 hi hv htick

end Sys2Proof.Machine

/-! The decoder of the machine and `decode` (40_decode_pipeline.md R163 to R167, 30_encoding.md R121): off the
hardware bus the ticks of an instruction read what `decode` reads, and the executor then runs it. -/

namespace Sys2Proof

open Machine

variable {cfg : Config}

/-! ### Code that spells an instruction (R120, R121) -/

/-- The bytes spell the instruction. -/
inductive Config.Spells (cfg : Config) : List Byte → Instr → Prop
  | n0 {b : Byte} {op : Opcode} (hx : cfg.isExtension b = false) (ho : cfg.opcodeOf b = some op)
      (hf : op.form = .n0) : Spells cfg [b] (op.build .integral .b (.register 0) (.register 0))
  | n1 {b md d : Byte} {op : Opcode} {o : Operand} (hx : cfg.isExtension b = false)
      (ho : cfg.opcodeOf b = some op) (hf : op.form = .n1) (hh : cfg.HeadOk op md [d])
      (hd : o.FitsDesc cfg d) (hc : o.carried op.readsOperand (metaSize md) = true) :
      Spells cfg ([b, md, d] ++ (o.extBytes cfg ++ o.immBytes cfg op.readsOperand (metaSize md)))
        (op.build (metaFamily md) (metaSize md) o (.register 0))
  | n2 {b md d0 d1 : Byte} {op : Opcode} {dst src : Operand} (hx : cfg.isExtension b = false)
      (ho : cfg.opcodeOf b = some op) (hf : op.form = .n2) (hh : cfg.HeadOk op md [d0, d1])
      (hd0 : dst.FitsDesc cfg d0) (hc0 : dst.carried op.readsDst (metaSize md) = true)
      (hd1 : src.FitsDesc cfg d1) (hc1 : src.carried true (metaSize md) = true) :
      Spells cfg ([b, md, d0, d1] ++ (dst.extBytes cfg ++ (src.extBytes cfg ++
          (src.immBytes cfg true (metaSize md) ++ dst.immBytes cfg op.readsDst (metaSize md)))))
        (op.build (metaFamily md) (metaSize md) dst src)

/-- What decodes begins with bytes that spell the instruction, as many as R135 says. -/
theorem spells_of_decode {bs rest : List Byte} {i : Instr} (h : decode cfg bs = .ok (i, rest)) :
    ∃ code, cfg.Spells code i ∧ bs = code ++ rest ∧ code.length = i.length := by
  have hlen := (decodedLength.1 cfg bs rest i h).1
  suffices hs : ∃ code, cfg.Spells code i ∧ bs = code ++ rest by
    obtain ⟨code, hspell, rfl⟩ := hs
    exact ⟨code, hspell, rfl, by simpa using hlen⟩
  obtain ⟨b, tl, op, rfl, hx, ho⟩ := opcodeOf_of_decode h
  cases hf : op.form with
  | n0 =>
    rw [decode_n0 hx ho hf, Except.ok.injEq, Prod.mk.injEq] at h
    obtain ⟨rfl, rfl⟩ := h
    exact ⟨[b], .n0 hx ho hf, rfl⟩
  | n1 =>
    obtain ⟨md, d, tl, rfl, hh, htail⟩ := (decode_n1_eq_ok_iff hx ho hf).1 h
    obtain ⟨o, hd, hc, rfl, rfl⟩ := (parseTail1_eq_some_iff (hh.descriptors d (by simp))).1 htail
    exact ⟨_, .n1 hx ho hf hh hd hc, by simp⟩
  | n2 =>
    obtain ⟨md, d0, d1, tl, rfl, hh, htail⟩ := (decode_n2_eq_ok_iff hx ho hf).1 h
    obtain ⟨dst, src, ⟨hd0, hc0⟩, ⟨hd1, hc1⟩, rfl, rfl⟩ := (parseTail2_eq_some_iff
      (hh.descriptors d0 (by simp)) (hh.descriptors d1 (by simp))).1 htail
    exact ⟨_, .n2 hx ho hf hh hd0 hc0 hd1 hc1, by simp⟩

theorem Opcode.readsDst_of_n1 {op : Opcode} (hf : op.form = .n1) : op.readsDst = false := by
  revert hf
  cases op <;> decide

/-- R140: the one-operand forms are of the Integral family. -/
theorem metaFamily_of_n1 {op : Opcode} {md : Byte} {ds : List Byte} (hh : cfg.HeadOk op md ds)
    (hf : op.form = .n1) : metaFamily md = .integral := by
  cases hm : metaFamily md with
  | integral => rfl
  | control =>
    rw [(hh.of_control hm).1] at hf
    cases hf

/-! ### Code in memory (R73, R92) -/

theorem Config.check_add {a m n : Nat} {k : AccessKind} (h : cfg.check a (m + n) k = true) :
    cfg.check a m k = true ∧ cfg.check (a + m) n k = true := by
  simp only [Config.check, Bool.and_eq_true, decide_eq_true_eq, List.all_eq_true, List.mem_range] at *
  obtain ⟨htop, hall⟩ := h
  exact ⟨⟨by omega, fun j hj => hall j (by omega)⟩,
    by omega, fun j hj => by rw [Nat.add_assoc]; exact hall (m + j) (by omega)⟩

theorem Config.offHardwareBus_add {a m n : Nat} (h : cfg.offHardwareBus a (m + n) = true) :
    cfg.offHardwareBus a m = true ∧ cfg.offHardwareBus (a + m) n = true := by
  rw [Config.offHardwareBus_iff] at h
  exact ⟨Config.offHardwareBus_iff.2 fun j hj => h j (by omega),
    Config.offHardwareBus_iff.2 fun j hj => by rw [Nat.add_assoc]; exact h (m + j) (by omega)⟩

namespace Machine

theorem State.bytesAt_add (s : State) (a m n : Nat) : s.bytesAt a (m + n) = s.bytesAt a m ++ s.bytesAt (a + m) n := by
  simp [State.bytesAt, List.range_add, Nat.add_assoc]

@[simp] theorem State.length_bytesAt (s : State) (a n : Nat) : (s.bytesAt a n).length = n := by
  simp [State.bytesAt]

theorem State.KeepsBytes.bytesAt {s t : State} (h : s.KeepsBytes t) (a n : Nat) : t.bytesAt a n = s.bytesAt a n := by
  simp only [State.bytesAt, h _]

/-- The bytes `bs` stand at `p` in the coherent view, and may be fetched off the hardware bus. -/
structure State.HoldsCode (s : State) (p : Word) (bs : List Byte) : Prop where
  check : s.cfg.check p.toNat bs.length .fetch = true
  offBus : s.cfg.offHardwareBus p.toNat bs.length = true
  bytes : s.bytesAt p.toNat bs.length = bs

namespace State.HoldsCode

variable {s t : State} {p : Word} {xs ys : List Byte}

theorem nil (s : State) (p : Word) : s.HoldsCode p [] := ⟨check_zero s.cfg p .fetch, rfl, rfl⟩

theorem left (h : s.HoldsCode p (xs ++ ys)) : s.HoldsCode p xs := by
  obtain ⟨hc, ho, hb⟩ := h
  rw [List.length_append] at hc ho hb
  rw [State.bytesAt_add] at hb
  exact ⟨(Config.check_add hc).1, (Config.offHardwareBus_add ho).1, (List.append_inj hb (by simp)).1⟩

/-- What follows a run of code stands after it; nothing does at the top of the address space. -/
theorem right (h : s.HoldsCode p (xs ++ ys)) : s.HoldsCode (p + BitVec.ofNat 64 xs.length) ys := by
  obtain rfl | hne := eq_or_ne ys []
  · exact nil ..
  obtain ⟨hc, ho, hb⟩ := h
  rw [List.length_append] at hc ho hb
  rw [State.bytesAt_add] at hb
  have haddr : (p + BitVec.ofNat 64 xs.length).toNat = p.toNat + xs.length := by
    have hpos := List.length_pos_iff.2 hne
    simp only [Config.check, Bool.and_eq_true, decide_eq_true_eq] at hc
    rw [BitVec.toNat_add, BitVec.toNat_ofNat]
    omega
  exact ⟨haddr ▸ (Config.check_add hc).2, haddr ▸ (Config.offHardwareBus_add ho).2,
    haddr ▸ (List.append_inj hb (by simp)).2⟩

theorem of_keepsBytes (h : s.HoldsCode p xs) (hcfg : t.cfg = s.cfg) (hb : s.KeepsBytes t) : t.HoldsCode p xs := by
  obtain ⟨hc, ho, hbytes⟩ := h
  exact ⟨hcfg ▸ hc, hcfg ▸ ho, (hb.bytesAt ..).trans hbytes⟩

/-- The bytes of the code one by one. -/
theorem byte {k : Nat} {b : Byte} (h : s.HoldsCode s.ip xs) (hk : xs[k]? = some b) :
    s.Fetchable (s.ip + BitVec.ofNat 64 k) ∧ s.byteAt (s.ip + BitVec.ofNat 64 k).toNat = b := by
  obtain ⟨hlt, rfl⟩ := List.getElem?_eq_some_iff.1 hk
  obtain ⟨haddr, hf⟩ := fetchable_of_check h.check h.offBus hlt
  refine ⟨hf, ?_⟩
  have hb := List.getElem_of_eq h.bytes (i := k) (by simpa using hlt)
  rw [haddr, ← hb]
  simp [State.bytesAt]

end State.HoldsCode

/-! ### The fields of an operand (R126, R131 to R133) -/

/-- The record `op` stands for operand `o`, its effective address resolved with the registers `r`. -/
structure OperandRec.Stands (op : OperandRec) (r : RegFile) (o : Operand) : Prop where
  toOperand : op.toOperand = o
  ea : op.ea = effectiveAddress r o

theorem OperandRec.mode_toOperand (op : OperandRec) : op.toOperand.mode = op.mode := by
  unfold toOperand
  cases op.mode <;> rfl

theorem OperandRec.nibble_toOperand (op : OperandRec) : op.toOperand.nibble = op.reg := by
  unfold toOperand
  cases op.mode <;> rfl

theorem OperandRec.extLength_ofDescriptor {d : Byte} {o : Operand} (hd : o.FitsDesc cfg d) :
    (OperandRec.ofDescriptor cfg d).toOperand.extLength = o.extLength := by
  obtain ⟨-, hrel, hmode⟩ := hd
  rw [extLength_toOperand, ofDescriptor, ← hrel, ← hmode]
  rcases o with _ | _ | ⟨_, _ | _ | _⟩ | _ <;> rfl

/-- R165: a descriptor and its extra bytes are the operand without its immediate. -/
theorem OperandRec.toOperand_withExt {d : Byte} {o : Operand} (hd : o.FitsDesc cfg d) :
    ((OperandRec.ofDescriptor cfg d).withExt cfg.byteOrder (o.extBytes cfg)).toOperand = o.withoutImm := by
  obtain ⟨hnibble, hrel, hmode⟩ := hd
  rw [ofDescriptor, ← hnibble, ← hrel, ← hmode]
  rcases o with ⟨_, a⟩ | _ | ⟨_, _ | ⟨i, sh⟩ | _⟩ | _
  · exact congrArg (Operand.absolute _) (ofNat_assemble_split (size := .l) cfg.byteOrder a.isLt)
  · rfl
  · rfl
  · simp [withExt, Operand.mode, Operand.rel, Offset.rel, Operand.extBytes, toOperand, OperandRec.offset,
      highNibble_append, lowNibble_append, Operand.withoutImm, Operand.nibble]
  · rfl
  · rfl

theorem effectiveAddress_withoutImm (r : RegFile) (o : Operand) :
    effectiveAddress r o.withoutImm = effectiveAddress r o := by cases o <;> rfl

/-- IP takes no part in an effective address. -/
theorem effectiveAddress_ip (r : RegFile) (p : Word) (o : Operand) :
    effectiveAddress { r with ip := p } o = effectiveAddress r o := by
  rcases o with _ | _ | ⟨_, _ | _ | _⟩ | _ <;> rfl

/-- R133, R165: the operand resolved. -/
theorem OperandRec.stands_resolve {d : Byte} {o : Operand} (hd : o.FitsDesc cfg d) (r : RegFile) :
    (((OperandRec.ofDescriptor cfg d).withExt cfg.byteOrder (o.extBytes cfg)).resolve r).Stands r o.withoutImm where
  toOperand := toOperand_withExt hd
  ea := congrArg (effectiveAddress r) (toOperand_withExt hd)

/-- An immediate that the instruction does not carry is 0 (R129). -/
theorem withoutImm_of_not_read {o : Operand} {size : Size} (h : o.carried false size = true) : o.withoutImm = o := by
  cases o with
  | immediate spare v => exact congrArg (Operand.immediate spare) (of_decide_eq_true h).symm
  | _ => rfl

/-- An operand that is not read has no immediate among the bytes (R129). -/
theorem add_immLength_of_not_read (p : Word) (o : Operand) (size : Size) :
    p + BitVec.ofNat 64 (o.immLength false size) = p := by cases o <;> exact BitVec.add_zero p

/-! ### The reads of a decode tick (R164 to R167, R176) -/

/-- R165: the extra bytes of an operand. -/
theorem fetchExt_code {s : State} {p : Word} {d : Byte} {o : Operand} (hm : s.MemoryOk)
    (hd : o.FitsDesc s.cfg d) (hcode : s.HoldsCode p (o.extBytes s.cfg)) :
    ∃ v, s.ReadsOffBus v ∧ s.fetchExt (OperandRec.ofDescriptor s.cfg d) p =
      .ok (((OperandRec.ofDescriptor s.cfg d).withExt s.cfg.byteOrder (o.extBytes s.cfg),
        p + BitVec.ofNat 64 o.extLength), v) := by
  obtain ⟨hc, ho, hb⟩ := hcode
  rw [o.length_extBytes] at hc ho hb
  obtain ⟨v, hfetch, hr⟩ := fetchExt_offBus hm (OperandRec.extLength_ofDescriptor hd) hc ho
  exact ⟨v, hr, hb ▸ hfetch⟩

/-- R176: an operand in memory has the value that the coherent view has at its effective address. -/
theorem memRead_operandValue {s : State} {op : OperandRec} {o : Operand} {size : Size} (family : Family)
    (hm : s.MemoryOk) (hea : op.ea = effectiveAddress s.regs o) (hmem : o.mode = .absolute ∨ o.mode = .indirect)
    (hread : s.readable size o = true) :
    ∃ v, s.ReadsOffBus v ∧ s.memRead op.ea size.bytes .read = some (s.operandValue family size o, v) := by
  have hcheck : s.cfg.check op.ea.toNat size.bytes .read = true ∧
      s.cfg.offHardwareBus op.ea.toNat size.bytes = true := by
    rw [hea, ← Bool.and_eq_true]
    cases o with
    | absolute => exact hread
    | indirect => exact hread
    | _ => simp [Operand.mode] at hmem
  obtain ⟨v, hv, hr⟩ := memRead_offBus hm hcheck.1 hcheck.2
  refine ⟨v, hr, hv.trans ?_⟩
  rw [hea]
  cases o with
  | absolute => rfl
  | indirect => rfl
  | _ => simp [Operand.mode] at hmem

/-- R127, R176: the operand's value, and the operand with its immediate. -/
theorem readOperand_code {s : State} {op : OperandRec} {o : Operand} {size : Size} (family : Family)
    (hm : s.MemoryOk) (hop : op.Stands s.regs o.withoutImm) (hc : o.carried true size = true)
    (hcode : s.HoldsCode s.ip (o.immBytes s.cfg true size)) (hread : s.readable size o = true) :
    ∃ v op', s.ReadsOffBus v ∧ op'.Stands s.regs o ∧ s.readOperand op size family =
      some (s.operandValue family size o, op', v.setIp (s.ip + BitVec.ofNat 64 (o.immLength true size))) := by
  have hmode := op.mode_toOperand.symm.trans (congrArg Operand.mode hop.toOperand)
  have hreg := op.nibble_toOperand.symm.trans (congrArg Operand.nibble hop.toOperand)
  have hea := hop.ea.trans (effectiveAddress_withoutImm s.regs o)
  have hself : ∀ {v : State}, s.ReadsOffBus v → v.setIp (s.ip + BitVec.ofNat 64 0) = v := fun {v} hr =>
    congrArg v.setIp ((BitVec.add_zero _).trans hr.ip.symm)
  cases o with
  | immediate spare value =>
    obtain ⟨hchk, hoff, hbytes⟩ := hcode
    simp only [Operand.immBytes, if_true, length_split] at hchk hoff hbytes
    obtain ⟨v, hv, hr⟩ := memRead_offBus hm hchk hoff
    have hvalue := ofNat_assemble_split s.cfg.byteOrder (of_decide_eq_true hc : value.toNat < 2 ^ size.bits)
    rw [hbytes, hvalue] at hv
    refine ⟨v, { op with imm := value }, hr, ⟨?_, hea⟩, ?_⟩
    · simp only [OperandRec.toOperand, hmode, Operand.withoutImm, Operand.mode, hreg, Operand.nibble]
    · simp only [State.readOperand, hmode, Operand.withoutImm, Operand.mode, hv]
      rfl
  | register r =>
    refine ⟨s, op, .refl hm, hop, ?_⟩
    have hr : op.reg = r := hreg
    simp only [State.readOperand, hmode, Operand.withoutImm, Operand.mode, hr, Operand.immLength,
      hself (.refl hm), State.operandValue]
    cases family <;> rfl
  | absolute spare a =>
    obtain ⟨v, hr, hv⟩ := memRead_operandValue family hm hea (.inl rfl) hread
    refine ⟨v, op, hr, hop, ?_⟩
    simp only [State.readOperand, hmode, Operand.withoutImm, Operand.mode, hv, Operand.immLength, hself hr]
    rfl
  | indirect base off =>
    obtain ⟨v, hr, hv⟩ := memRead_operandValue family hm hea (.inr rfl) hread
    refine ⟨v, op, hr, hop, ?_⟩
    simp only [State.readOperand, hmode, Operand.withoutImm, Operand.mode, hv, Operand.immLength, hself hr]
    rfl

end Machine

end Sys2Proof

/-! The ticks of one instruction (40_decode_pipeline.md R163 to R169, R174): each decode tick leaves the machine as
it was but for IP, the decoder and the caches, and the last of them leaves the record queued. -/

namespace Sys2Proof.Machine

/-! ### The machine while an instruction is decoded -/

/-- Reads off the hardware bus, IP, the slots, the queue and `retireSeq` are nothing that `SameOutsideDecoder`
speaks of but for IP. -/
theorem State.SameOutsideDecoder.reads {s t v : State} {regs : RegFile} (h : s.SameOutsideDecoder t regs)
    (hv : t.ReadsOffBus v) (p : Word) (slots : List Slot) (retireSeq : BitVec 64) (queue : List Entry) :
    s.SameOutsideDecoder { v.setIp p with
      core := { (v.setIp p).core with slots := slots, retireSeq := retireSeq, queue := queue } }
      { regs with ip := p } := by
  obtain ⟨⟨sys, slots', nextSeq, retireSeq', queue', exu, rfl⟩, hbytes, -, hhw⟩ := h
  refine ⟨⟨v.sys, slots, nextSeq, retireSeq, queue, exu, ?_⟩, fun x => (hv.bytes x).trans (hbytes x),
    fun _ => hv.memoryOk, hv.hw.trans hhw⟩
  rw [hv.eq]
  rfl

theorem State.SameOutsideDecoder.cfg {s t : State} {regs : RegFile} (h : s.SameOutsideDecoder t regs) :
    t.cfg = s.cfg := by obtain ⟨⟨_, _, _, _, _, _, rfl⟩, -⟩ := h; rfl

theorem State.SameOutsideDecoder.regs {s t : State} {regs : RegFile} (h : s.SameOutsideDecoder t regs) :
    t.regs = regs := by obtain ⟨⟨_, _, _, _, _, _, rfl⟩, -⟩ := h; rfl

theorem State.SameOutsideDecoder.ticked {s t : State} {regs : RegFile} (h : s.SameOutsideDecoder t regs) :
    t.core.ticked = true := by obtain ⟨⟨_, _, _, _, _, _, rfl⟩, -⟩ := h; rfl

theorem State.SameOutsideDecoder.keepsBytes {s t : State} {regs : RegFile} (h : s.SameOutsideDecoder t regs) :
    s.KeepsBytes t := h.2.1

theorem State.SameOutsideDecoder.not_halted {s t : State} {p : Word}
    (h : s.SameOutsideDecoder t { s.regs with ip := p }) (hh : s.halted = false) : t.halted = false :=
  (congrArg (fun g => g.flags.h) h.regs).trans hh

/-- A tick that is a transition of the decoder alone is not the step's last (R191). -/
theorem stepTicks_of_moved {s t : State} (htick : tickReport s = tickDecoder false s.markTicked)
    (hd : decoderPhase s.markTicked = .moved t) (hh : t.halted = false) (n : Nat) :
    stepTicks (n + 1) s = stepTicks n t := by simp [stepTicks, htick, tickDecoder, hd, hh]

/-- An operand has the same value where nothing but IP and the decoder's bookkeeping differs. -/
theorem State.SameOutsideDecoder.operandValue {s t : State} {p : Word}
    (h : s.SameOutsideDecoder t { s.regs with ip := p }) (family : Family) (size : Size) (o : Operand) :
    t.operandValue family size o = s.operandValue family size o := by
  cases o with
  | immediate => rfl
  | register =>
    obtain ⟨⟨_, _, _, _, _, _, rfl⟩, -⟩ := h
    rfl
  | _ => simp only [State.operandValue, h.regs, h.cfg, effectiveAddress_ip, h.keepsBytes.bytesAt]

theorem State.SameOutsideDecoder.readable {s t : State} {p : Word}
    (h : s.SameOutsideDecoder t { s.regs with ip := p }) (size : Size) (o : Operand) :
    t.readable size o = s.readable size o := by
  cases o with
  | immediate => rfl
  | register => rfl
  | _ => simp only [State.readable, h.regs, h.cfg, effectiveAddress_ip]

theorem State.SameOutsideDecoder.stands {s t : State} {p : Word}
    (h : s.SameOutsideDecoder t { s.regs with ip := p }) {op : OperandRec} {o : Operand} :
    op.Stands t.regs o ↔ op.Stands s.regs o := by
  rw [h.regs]
  exact ⟨fun ⟨h1, h2⟩ => ⟨h1, effectiveAddress_ip s.regs p o ▸ h2⟩,
    fun ⟨h1, h2⟩ => ⟨h1, effectiveAddress_ip s.regs p o ▸ h2⟩⟩

/-- `t` is `s` with the code up to `p` read for the instruction in slot `j`, which is in state `st` with record
`r`. -/
structure State.Decoding (s : State) (j : Nat) (p : Word) (st : DecodeState) (r : Record) (t : State) : Prop where
  outside : s.SameOutsideDecoder t { s.regs with ip := p }
  memoryOk : t.MemoryOk
  inFlight : t.InFlight j
  state : (t.slot j).state = st
  record : (t.slot j).record = r

/-- `t` is `s` with the code up to `p` decoded to the record `r`, which is queued. -/
structure State.Decoded (s : State) (p : Word) (r : Record) (t : State) : Prop where
  outside : s.SameOutsideDecoder t { s.regs with ip := p }
  queue : t.core.queue = [{ tag := 0, size := s.cfg.dqRecordBytes, record := r }]
  idle : ∀ sl ∈ t.core.slots, sl.state = .idle

namespace State.Decoding

variable {s t v : State} {j : Nat} {p : Word} {st : DecodeState} {r : Record}

theorem cfg (h : s.Decoding j p st r t) : t.cfg = s.cfg := h.outside.cfg

theorem ip (h : s.Decoding j p st r t) : t.ip = p := congrArg RegFile.ip h.outside.regs

theorem holdsCode (h : s.Decoding j p st r t) {a : Word} {bs : List Byte} (hc : s.HoldsCode a bs) :
    t.HoldsCode a bs := hc.of_keepsBytes h.cfg h.outside.keepsBytes

/-- After a tick's reads the slot goes on. -/
theorem advanceSlot (h : s.Decoding j p st r t) (hv : t.ReadsOffBus v) (p' : Word) (st' : DecodeState)
    (r' : Record) : s.Decoding j p' st' r' ((v.setIp p').advanceSlot j st' r') := by
  have hf : (v.setIp p').InFlight j := inFlight_of_readsTo ⟨v.sys, p', by rw [hv.eq]; rfl⟩ h.inFlight
  have hslot : ((v.setIp p').advanceSlot j st' r').slot j = { (v.setIp p').slot j with state := st', record := r' } :=
    slot_setSlot_self hf.lt _
  exact ⟨h.outside.reads hv p' _ v.core.retireSeq v.core.queue, hv.memoryOk, inFlight_advanceSlot hf st' r',
    by rw [hslot], by rw [hslot]⟩

/-- After a tick's reads the record is finished and queued (R169). -/
theorem finishSlot (h : s.Decoding j p st r t) (hv : t.ReadsOffBus v) (p' : Word) (r' : Record) :
    ∃ u, finishSlot j r' (v.setIp p') = .moved u ∧ s.Decoded p' r' u := by
  have hf : (v.setIp p').InFlight j := inFlight_of_readsTo ⟨v.sys, p', by rw [hv.eq]; rfl⟩ h.inFlight
  obtain ⟨slots, -, hidle, hu⟩ := finishSlot_eq_of_inFlight (s := v.setIp p') hv.memoryOk.1 hf r'
  have hcfg : v.cfg = s.cfg := hv.cfg.trans h.cfg
  exact ⟨_, hu, h.outside.reads hv p' slots _ _, by rw [← hcfg]; rfl, hidle⟩

/-- R176: an operand is read as `s` has it. -/
theorem readOperand (h : s.Decoding j p st r t) {op : OperandRec} {o : Operand} {size : Size} (family : Family)
    (hop : op.Stands s.regs o.withoutImm) (hc : o.carried true size = true)
    (hcode : s.HoldsCode p (o.immBytes s.cfg true size)) (hread : s.readable size o = true) :
    ∃ v op', t.ReadsOffBus v ∧ op'.Stands s.regs o ∧ t.readOperand op size family =
      some (s.operandValue family size o, op', v.setIp (p + BitVec.ofNat 64 (o.immLength true size))) := by
  obtain ⟨v, op', hv, hop', hval⟩ := readOperand_code (s := t) family h.memoryOk (h.outside.stands.2 hop) hc
    (h.ip.symm ▸ h.cfg.symm ▸ h.holdsCode hcode) ((h.outside.readable size o).trans hread)
  rw [h.outside.operandValue, h.ip] at hval
  exact ⟨v, op', hv, h.outside.stands.1 hop', hval⟩

/-- A decode tick that does not raise is not the step's last (R191). -/
theorem stepTicks_moved (h : s.Decoding j p st r t) (hh : s.halted = false) (hi : st ≠ .idle) {u : State} {q : Word}
    (hu : s.SameOutsideDecoder u { s.regs with ip := q }) (hadv : advance j t = .moved u) (n : Nat) :
    stepTicks (n + 1) t = stepTicks n u := by
  have hself : t.markTicked = t := by rw [State.markTicked, ← h.outside.ticked]
  have ht := h.outside.not_halted hh
  obtain ⟨htick, hd⟩ := tickReport_of_carries h.memoryOk.1 ht h.inFlight (h.state ▸ hi)
  exact stepTicks_of_moved htick (hd.trans (hself.symm ▸ hadv)) (hu.not_halted hh) n

end State.Decoding

/-- The record that is queued runs in the next tick (R178). -/
theorem State.Decoded.runs {s t : State} {p : Word} {r : Record} {i : Instr} (h : s.Decoded p r t)
    (hw : s.cfg.wf = true) (hh : s.halted = false) (hi : r.instr s.cfg = some i) (n : Nat) :
    ∃ u, s.SameOutsideDecoder u { s.regs with ip := p } ∧ u.atBoundary = true ∧ u.core.exu = r ∧
      stepTicks (n + 1) t = afterExec (exec i u) := by
  have hcfg := h.outside.cfg
  have ht := h.outside.not_halted hh
  refine ⟨t.markTicked.latch r [], ?_, ?_, rfl, ?_⟩
  · obtain ⟨⟨sys, slots, nextSeq, retireSeq, queue, exu, rfl⟩, hframe⟩ := h.outside
    exact ⟨⟨sys, slots, nextSeq, retireSeq, [], r, rfl⟩, hframe⟩
  · have hactive : (t.markTicked.latch r []).activeSlot = none := activeSlot_of_all_idle h.idle
    rw [State.atBoundary, hactive]
    rfl
  · exact stepTicks_of_queued n (hcfg ▸ hw) ht (hcfg ▸ h.queue) (hcfg ▸ hi)

/-! ### The ticks -/

section

variable {s t : State}

/-- The Idle tick begins with the instruction in the next slot (R163). -/
theorem State.Ready.decoding (h : s.Ready) :
    s.Decoding s.nextSlot s.ip .idle ((s.markTicked.startSlot s.nextSlot).slot s.nextSlot).record
      (s.markTicked.startSlot s.nextSlot) := by
  have hrest : s.markTicked.AtRest := h.atRest
  have ⟨_, hidle, _⟩ := hrest
  have hj : s.nextSlot < s.markTicked.core.slots.length := h.nextSlot_lt
  refine ⟨⟨⟨s.sys, _, s.core.nextSeq + 1, s.core.retireSeq, s.core.queue, s.core.exu, rfl⟩, fun _ => rfl, id, rfl⟩,
    h.memoryOk, inFlight_startSlot hrest hj, ?_, rfl⟩
  rw [slot_startSlot_state hj]
  exact hidle _ (slot_mem hj)

/-- The record of a head is made of the descriptors that the form has. -/
theorem Record.ofHead_congr {cfg : Config} {b md d0 d1 d0' d1' : Byte} {form : Form} {startIp : Word}
    (hn : form ≠ .n0) (h : descriptors form d0' d1' = descriptors form d0 d1) :
    Record.ofHead cfg b form md d0' d1' startIp = Record.ofHead cfg b form md d0 d1 startIp := by
  cases form with
  | n0 => exact absurd rfl hn
  | n1 =>
    obtain rfl : d0' = d0 := by simpa [descriptors] using h
    rfl
  | n2 =>
    obtain ⟨rfl, rfl⟩ : d0' = d0 ∧ d1' = d1 := by simpa [descriptors] using h
    rfl

/-- The first tick of an instruction is the Idle tick of the next slot (R162). -/
theorem State.Ready.stepTicks_moved (h : s.Ready) {q : Word} (hu : s.SameOutsideDecoder t { s.regs with ip := q })
    (hidle : idleTick s.nextSlot s.markTicked = .moved t) (n : Nat) : stepTicks (n + 1) s = stepTicks n t :=
  stepTicks_of_moved h.tickReport.1 (h.tickReport.2.trans hidle) (hu.not_halted h.not_halted) n

/-- The code of an instruction with operands holds the bytes of its head. -/
theorem State.HoldsCode.head {b md d0 d1 : Byte} {form : Form} (hn : form ≠ .n0)
    (h : s.HoldsCode s.ip (b :: md :: descriptors form d0 d1)) :
    (∀ k < headBytes form, s.Fetchable (s.ip + BitVec.ofNat 64 k)) ∧ s.byteAt s.ip.toNat = b ∧
      s.byteAt (s.ip + 1).toNat = md ∧
      descriptors form (s.byteAt (s.ip + 2).toNat) (s.byteAt (s.ip + 3).toNat) = descriptors form d0 d1 := by
  have hlen : (b :: md :: descriptors form d0 d1).length = headBytes form := by
    cases form with
    | n0 => exact absurd rfl hn
    | _ => rfl
  refine ⟨fun k hk => (h.byte (List.getElem?_eq_getElem (hlen.symm ▸ hk))).1, ?_, (h.byte (k := 1) rfl).2, ?_⟩
  · simpa using (h.byte (k := 0) rfl).2
  · cases form with
    | n0 => rfl
    | n1 => exact congrArg (descriptors .n1 · d1) (h.byte (k := 2) rfl).2
    | n2 => exact congrArg₂ (descriptors .n2) (h.byte (k := 2) rfl).2 (h.byte (k := 3) rfl).2

/-- R163: the first tick of an instruction without operands finishes it. -/
theorem State.Ready.idleTick_n0 (h : s.Ready) {b : Byte} {op : Opcode} (hx : s.cfg.isExtension b = false)
    (ho : s.cfg.opcodeOf b = some op) (hf : op.form = .n0) (hcode : s.HoldsCode s.ip [b]) :
    ∃ t startIp, idleTick s.nextSlot s.markTicked = .moved t ∧
      s.Decoded (s.ip + BitVec.ofNat 64 1) (Record.ofN0 b startIp) t := by
  have hd := h.decoding
  obtain ⟨hfetch, hbyte⟩ : s.Fetchable s.ip ∧ s.byteAt s.ip.toNat = b := by
    simpa using hcode.byte (k := 0) rfl
  obtain ⟨v, hv, htick⟩ := idleTick_fetched (s := s.markTicked) s.nextSlot h.memoryOk hfetch
  have hcfg : v.cfg = s.cfg := hv.cfg
  have hip : v.ip = s.ip := hv.ip
  obtain ⟨u, hu, hdec⟩ := hd.finishSlot hv (s.ip + 1) (Record.ofN0 b (v.slot s.nextSlot).startIp)
  refine ⟨u, _, htick.trans ?_, hdec⟩
  rw [show s.markTicked.byteAt s.markTicked.ip.toNat = b from hbyte, ← hu, ← hip]
  simp only [idleTickOpcode, hcfg, hx, ho, hf, Bool.false_eq_true, if_false]
  rfl

/-- R163, R164: the first tick of an instruction with operands reads its head. -/
theorem State.Ready.idleTick_head (h : s.Ready) {b md d0 d1 : Byte} {op : Opcode}
    (hx : s.cfg.isExtension b = false) (ho : s.cfg.opcodeOf b = some op) (hn : op.form ≠ .n0)
    (hcode : s.HoldsCode s.ip (b :: md :: descriptors op.form d0 d1))
    (hh : s.cfg.HeadOk op md (descriptors op.form d0 d1)) :
    ∃ t startIp, idleTick s.nextSlot s.markTicked = .moved t ∧
      s.Decoding s.nextSlot (s.ip + BitVec.ofNat 64 (headBytes op.form)) .decodeAddrMode
        (Record.ofHead s.cfg b op.form md d0 d1 startIp) t := by
  have hd := h.decoding
  obtain ⟨hfetch, hb, hmd, hdesc⟩ := hcode.head hn
  have hpos : 0 < headBytes op.form := by cases op.form <;> decide
  have hfirst : s.Fetchable s.ip := by simpa using hfetch 0 hpos
  obtain ⟨v, hv, htick⟩ := idleTick_fetched (s := s.markTicked) s.nextSlot h.memoryOk hfirst
  have hcfg : v.cfg = s.cfg := hv.cfg
  have hip : v.ip = s.ip := hv.ip
  have hbytes : s.KeepsBytes v := hv.bytes
  obtain ⟨d1', w, hhead, hdesc', hw⟩ := fetchHead_bytes hv.memoryOk hn
    fun k hk => hip.symm ▸ hv.fetchable (hfetch k hk)
  rw [hip, hbytes, hbytes] at hdesc'
  rw [hip, hbytes, hbytes, hmd] at hhead
  have hall := hdesc'.trans hdesc
  refine ⟨_, (w.slot s.nextSlot).startIp, htick.trans ?_, hd.advanceSlot (hv.trans hw) _ _ _⟩
  rw [show s.markTicked.byteAt s.markTicked.ip.toNat = b from hb,
    idleTickOpcode_operands _ (hcfg ▸ hx) (hcfg ▸ ho) hn]
  simp only [idleTickOperands, hhead, hall, hcfg, headError_eq_none_iff.2 hh, Record.ofHead_congr hn hall,
    hw.ip, hip]
  rfl

/-! ### The later ticks (R165 to R167) -/

end

namespace State.Decoding

variable {s t v : State} {j : Nat} {p : Word} {st : DecodeState} {r : Record}

/-- IP takes no part in what a tick resolves (R133). -/
theorem resolve_setIp (h : s.Decoding j p st r t) (hv : t.ReadsOffBus v) (q : Word) (op : OperandRec) :
    op.resolve (v.setIp q).regs = op.resolve s.regs := by
  have hregs : (v.setIp q).regs = { s.regs with ip := q } := (h.advanceSlot hv q st r).outside.regs
  rw [hregs, OperandRec.resolve, effectiveAddress_ip]
  rfl

/-- R165: the extra bytes of an operand, from `t` or after further reads. -/
theorem fetchExt (h : s.Decoding j p st r t) (hv : t.ReadsOffBus v) {a : Word} {d : Byte} {o : Operand}
    (hd : o.FitsDesc s.cfg d) (hcode : s.HoldsCode a (o.extBytes s.cfg)) :
    ∃ w op, t.ReadsOffBus w ∧ (op.resolve s.regs).Stands s.regs o.withoutImm ∧
      v.fetchExt (.ofDescriptor s.cfg d) a = .ok ((op, a + BitVec.ofNat 64 o.extLength), w) := by
  have hcfg := hv.cfg.trans h.cfg
  obtain ⟨w, hw, hfetch⟩ := fetchExt_code (s := v) hv.memoryOk (hcfg.symm ▸ hd)
    (hcfg.symm ▸ (h.holdsCode hcode).of_keepsBytes hv.cfg hv.bytes)
  rw [hcfg] at hfetch
  exact ⟨w, _, hv.trans hw, OperandRec.stands_resolve hd s.regs, hfetch⟩

/-- R165: the DecodeAddrMode tick of the one operand. -/
theorem addrMode_n1 (h : s.Decoding j p .decodeAddrMode r t) (hf : r.form = .n1) {d : Byte} {o : Operand}
    (hdst : r.dst = .ofDescriptor s.cfg d) (hd : o.FitsDesc s.cfg d) (hcode : s.HoldsCode p (o.extBytes s.cfg)) :
    ∃ u dst, advance j t = .moved u ∧ dst.Stands s.regs o.withoutImm ∧
      s.Decoding j (p + BitVec.ofNat 64 o.extLength) .readMem { r with dst := dst } u := by
  obtain ⟨v, op, hv, hop, hfetch⟩ := h.fetchExt (.refl h.memoryOk) hd hcode
  refine ⟨_, _, ?_, hop, h.advanceSlot hv _ _ _⟩
  simp only [advance, h.state, decodeAddrModeTick, h.record, State.fetchExts, hdst, h.ip, hfetch, hf,
    h.resolve_setIp hv]

/-- R165: the DecodeAddrMode tick of two operands. -/
theorem addrMode_n2 (h : s.Decoding j p .decodeAddrMode r t) (hf : r.form = .n2) {d0 d1 : Byte}
    {dst src : Operand} (hdst : r.dst = .ofDescriptor s.cfg d0) (hsrc : r.src = .ofDescriptor s.cfg d1)
    (hd0 : dst.FitsDesc s.cfg d0) (hd1 : src.FitsDesc s.cfg d1)
    (hcode : s.HoldsCode p (dst.extBytes s.cfg ++ src.extBytes s.cfg)) :
    ∃ u dst' src', advance j t = .moved u ∧ dst'.Stands s.regs dst.withoutImm ∧
      src'.Stands s.regs src.withoutImm ∧
      s.Decoding j (p + BitVec.ofNat 64 dst.extLength + BitVec.ofNat 64 src.extLength) .readMem
        { r with dst := dst', src := src' } u := by
  obtain ⟨v, op0, hv, hop0, hfetch0⟩ := h.fetchExt (.refl h.memoryOk) hd0 hcode.left
  obtain ⟨w, op1, hw, hop1, hfetch1⟩ := h.fetchExt hv hd1 (dst.length_extBytes s.cfg ▸ hcode.right)
  refine ⟨_, _, _, ?_, hop0, hop1, h.advanceSlot hw _ _ _⟩
  simp only [advance, h.state, decodeAddrModeTick, h.record, State.fetchExts, hdst, hsrc, h.ip, hfetch0, hfetch1,
    hf, h.resolve_setIp hw]

/-- A record of opcode `op` in state ReadMem. -/
theorem advance_readMem (h : s.Decoding j p .readMem r t) {op : Opcode} (ho : s.cfg.opcodeOf r.opcode = some op) :
    advance j t = readMemTickOf j op r t := by
  simp only [advance, h.state, readMemTick, h.record, h.cfg, ho, Option.getD_some]

/-- R166: the ReadMem tick of the one operand, which is read where the opcode reads it. -/
theorem readMem_n1 (h : s.Decoding j p .readMem r t) {op : Opcode} (ho : s.cfg.opcodeOf r.opcode = some op)
    (hf : r.form = .n1) (hnd : op.readsDst = false) {o : Operand} (hst : r.dst.Stands s.regs o.withoutImm)
    (hc : o.carried op.readsOperand r.size = true)
    (hcode : s.HoldsCode p (o.immBytes s.cfg op.readsOperand r.size))
    (hread : op.readsOperand = true → s.readable r.size o = true) :
    ∃ u dst len, advance j t = .moved u ∧ dst.Stands s.regs o ∧
      s.Decoded (p + BitVec.ofNat 64 (o.immLength op.readsOperand r.size))
        { r with
          dst := dst
          primary := if op.readsOperand then s.operandValue r.family r.size o else 0
          length := len } u := by
  rw [h.advance_readMem ho]
  cases hreads : op.readsOperand with
  | true =>
    rw [hreads] at hc hcode
    obtain ⟨v, dst, hv, hdst, hval⟩ := h.readOperand r.family hst hc hcode (hread hreads)
    obtain ⟨u, hu, hdec⟩ := h.finishSlot hv (p + BitVec.ofNat 64 (o.immLength true r.size))
      ({ r with dst := dst, primary := s.operandValue r.family r.size o }.withLength
        (p + BitVec.ofNat 64 (o.immLength true r.size)))
    refine ⟨u, dst, _, Eq.trans ?_ hu, hdst, hdec⟩
    simp only [readMemTickOf, hf, hreads, if_true, hval, readMemDone, hnd, Bool.false_eq_true, if_false,
      State.ip_setIp]
  | false =>
    rw [hreads] at hc
    have hself : t.setIp p = t := congrArg t.setIp h.ip.symm
    have hlen := add_immLength_of_not_read p o r.size
    obtain ⟨u, hu, hdec⟩ := h.finishSlot (.refl h.memoryOk) p ({ r with primary := 0 }.withLength t.ip)
    refine ⟨u, r.dst, _, Eq.trans ?_ hu, withoutImm_of_not_read hc ▸ hst, hlen.symm ▸ hdec⟩
    simp only [readMemTickOf, hf, hreads, Bool.false_eq_true, if_false, readMemDone, hnd, hself]

/-- R166: the ReadMem tick of two operands reads the source. -/
theorem readMem_n2 (h : s.Decoding j p .readMem r t) {op : Opcode} (ho : s.cfg.opcodeOf r.opcode = some op)
    (hf : r.form = .n2) {src : Operand} (hst : r.src.Stands s.regs src.withoutImm)
    (hc : src.carried true r.size = true) (hcode : s.HoldsCode p (src.immBytes s.cfg true r.size))
    (hread : s.readable r.size src = true) :
    ∃ v src', t.ReadsOffBus v ∧ src'.Stands s.regs src ∧ advance j t =
      readMemDone j op { r with src := src', primary := s.operandValue r.family r.size src }
        (v.setIp (p + BitVec.ofNat 64 (src.immLength true r.size))) := by
  obtain ⟨v, src', hv, hsrc, hval⟩ := h.readOperand r.family hst hc hcode hread
  refine ⟨v, src', hv, hsrc, ?_⟩
  rw [h.advance_readMem ho]
  simp only [readMemTickOf, hf, hval]

/-- R166: where the opcode reads its destination too, that is for the next tick. -/
theorem readMem_n2_of_readsDst (h : s.Decoding j p .readMem r t) {op : Opcode}
    (ho : s.cfg.opcodeOf r.opcode = some op) (hf : r.form = .n2) (hreads : op.readsDst = true) {src : Operand}
    (hst : r.src.Stands s.regs src.withoutImm) (hc : src.carried true r.size = true)
    (hcode : s.HoldsCode p (src.immBytes s.cfg true r.size)) (hread : s.readable r.size src = true) :
    ∃ u src', advance j t = .moved u ∧ src'.Stands s.regs src ∧
      s.Decoding j (p + BitVec.ofNat 64 (src.immLength true r.size)) .twoOpDstReadMem
        { r with src := src', primary := s.operandValue r.family r.size src } u := by
  obtain ⟨v, src', hv, hsrc, htick⟩ := h.readMem_n2 ho hf hst hc hcode hread
  exact ⟨_, src', htick.trans (if_pos hreads), hsrc, h.advanceSlot hv _ _ _⟩

/-- R166: where the opcode does not read its destination, the record is finished. -/
theorem readMem_n2_of_not_readsDst (h : s.Decoding j p .readMem r t) {op : Opcode}
    (ho : s.cfg.opcodeOf r.opcode = some op) (hf : r.form = .n2) (hreads : op.readsDst = false) {src : Operand}
    (hst : r.src.Stands s.regs src.withoutImm) (hc : src.carried true r.size = true)
    (hcode : s.HoldsCode p (src.immBytes s.cfg true r.size)) (hread : s.readable r.size src = true) :
    ∃ u src' len, advance j t = .moved u ∧ src'.Stands s.regs src ∧
      s.Decoded (p + BitVec.ofNat 64 (src.immLength true r.size))
        { r with src := src', primary := s.operandValue r.family r.size src, length := len } u := by
  obtain ⟨v, src', hv, hsrc, htick⟩ := h.readMem_n2 ho hf hst hc hcode hread
  obtain ⟨u, hu, hdec⟩ := h.finishSlot hv (p + BitVec.ofNat 64 (src.immLength true r.size))
    ({ r with src := src', primary := s.operandValue r.family r.size src }.withLength
      (p + BitVec.ofNat 64 (src.immLength true r.size)))
  exact ⟨u, src', _, (htick.trans (if_neg (by simp [hreads]))).trans hu, hsrc, hdec⟩

/-- R167: the TwoOpDstReadMem tick reads the destination. -/
theorem twoOpDstReadMem (h : s.Decoding j p .twoOpDstReadMem r t) {dst : Operand}
    (hst : r.dst.Stands s.regs dst.withoutImm) (hc : dst.carried true r.size = true)
    (hcode : s.HoldsCode p (dst.immBytes s.cfg true r.size)) (hread : s.readable r.size dst = true) :
    ∃ u dst' len, advance j t = .moved u ∧ dst'.Stands s.regs dst ∧
      s.Decoded (p + BitVec.ofNat 64 (dst.immLength true r.size))
        { r with dst := dst', secondary := s.operandValue r.family r.size dst, length := len } u := by
  obtain ⟨v, dst', hv, hdst, hval⟩ := h.readOperand r.family hst hc hcode hread
  obtain ⟨u, hu, hdec⟩ := h.finishSlot hv (p + BitVec.ofNat 64 (dst.immLength true r.size))
    ({ r with dst := dst', secondary := s.operandValue r.family r.size dst }.withLength
      (p + BitVec.ofNat 64 (dst.immLength true r.size)))
  refine ⟨u, dst', _, Eq.trans ?_ hu, hdst, hdec⟩
  simp only [advance, h.state, twoOpDstReadMemTick, h.record, hval, State.ip_setIp]

end State.Decoding

/-! ### The step of a decoded instruction -/

/-- The step runs instruction `i` with the values that its operands have in `s`, past its bytes. -/
def State.RunsDecoded (s : State) (i : Instr) : Prop :=
  ∃ u : State, s.SameOutsideDecoder u { s.regs with ip := s.ip + BitVec.ofNat 64 i.length } ∧
    u.atBoundary = true ∧ s.Captured i u ∧ step s = afterExec (exec i u)

section

variable {s t : State} {i : Instr}

/-- The step of an instruction whose record is queued with ticks to spare. -/
theorem State.Decoded.runsDecoded {p : Word} {r : Record} {n : Nat} (h : s.Decoded p r t) (hr : s.Ready)
    (hstep : step s = stepTicks (n + 1) t) (hp : p = s.ip + BitVec.ofNat 64 i.length)
    (hi : r.instr s.cfg = some i)
    (hcap : ∀ u : State, u.core.exu = r → u.core.exu.instr u.cfg = some i → s.Captured i u) :
    s.RunsDecoded i := by
  obtain ⟨u, hout, hb, hexu, hrun⟩ := h.runs hr.wf hr.not_halted hi n
  exact ⟨u, hp ▸ hout, hb, hcap u hexu (by rw [hexu, hout.cfg]; exact hi), hstep.trans hrun⟩

/-- The step of an instruction without operands. -/
theorem runsDecoded_n0 (hr : s.Ready) {b : Byte} {op : Opcode} (hx : s.cfg.isExtension b = false)
    (ho : s.cfg.opcodeOf b = some op) (hf : op.form = .n0)
    (hi : i = op.build .integral .b (.register 0) (.register 0)) (hlen : [b].length = i.length)
    (hcode : s.HoldsCode s.ip [b]) : s.RunsDecoded i := by
  obtain ⟨t, startIp, htick, hdec⟩ := hr.idleTick_n0 hx ho hf hcode
  obtain ⟨-, -, hfirst, -⟩ := op.build_n0 .integral .b (.register 0) (.register 0) hf
  refine hdec.runsDecoded (n := 3) hr (hr.stepTicks_moved hdec.outside htick 4) (hlen ▸ rfl) ?_ fun u hexu hu => ?_
  · rw [hi, Record.instr, show s.cfg.opcodeOf (Record.ofN0 b startIp).opcode = some op from ho, Option.map_some,
      (op.build_n0 _ _ _ _ hf).1]
  · subst hi
    refine ⟨hu, ?_⟩
    rw [hfirst, hexu]
    exact ⟨rfl, rfl⟩

section

variable {b md d : Byte} {op : Opcode} {o : Operand} (hr : s.Ready) (hx : s.cfg.isExtension b = false)
  (ho : s.cfg.opcodeOf b = some op) (hf : op.form = .n1) (hh : s.cfg.HeadOk op md [d]) (hd : o.FitsDesc s.cfg d)
  (hc : o.carried op.readsOperand (metaSize md) = true)
  (hcode : s.HoldsCode s.ip ([b, md, d] ++ (o.extBytes s.cfg ++ o.immBytes s.cfg op.readsOperand (metaSize md))))

include hr hx ho hf hh hd hc hcode

/-- R164 to R166: three ticks leave the record of a one-operand instruction queued. -/
theorem decoded_n1 (hread : op.readsOperand = true → s.readable (metaSize md) o = true) :
    ∃ r t, step s = stepTicks 2 t ∧
      s.Decoded (s.ip + BitVec.ofNat 64 3 + BitVec.ofNat 64 o.extLength +
        BitVec.ofNat 64 (o.immLength op.readsOperand (metaSize md))) r t ∧
      r.opcode = b ∧ r.family = metaFamily md ∧ r.size = metaSize md ∧ r.dst.Stands s.regs o ∧
      r.primary = (if op.readsOperand then s.operandValue (metaFamily md) (metaSize md) o else 0) ∧
      r.secondary = 0 := by
  have hh0 := hr.not_halted
  have hhead : s.HoldsCode s.ip (b :: md :: descriptors op.form d 0) := by rw [hf]; exact hcode.left
  have himm := hcode.right.right
  rw [o.length_extBytes] at himm
  obtain ⟨t1, startIp, h1, hd1⟩ := hr.idleTick_head hx ho (by rw [hf]; nofun) hhead (by rw [hf]; exact hh)
  rw [hf] at hd1
  obtain ⟨t2, dst, h2, hst, hd2⟩ := hd1.addrMode_n1 rfl rfl hd hcode.right.left
  obtain ⟨t3, dst', len, h3, hst', hdec⟩ := hd2.readMem_n1 ho rfl (Opcode.readsDst_of_n1 hf) hst hc himm hread
  refine ⟨_, t3, ?_, hdec, rfl, rfl, rfl, hst', rfl, rfl⟩
  calc step s = stepTicks 4 t1 := hr.stepTicks_moved hd1.outside h1 4
    _ = stepTicks 3 t2 := hd1.stepTicks_moved hh0 nofun hd2.outside h2 3
    _ = stepTicks 2 t3 := hd2.stepTicks_moved hh0 nofun hdec.outside h3 2

/-- The step of a one-operand instruction. -/
theorem runsDecoded_n1 (hi : i = op.build (metaFamily md) (metaSize md) o (.register 0))
    (hlen : ([b, md, d] ++ (o.extBytes s.cfg ++ o.immBytes s.cfg op.readsOperand (metaSize md))).length = i.length)
    (hread : s.OperandsReadable i) : s.RunsDecoded i := by
  obtain ⟨-, hop, hfam, hsize, hfirst, hsecond, -⟩ := op.build_n1 (metaFamily md) (metaSize md) o (.register 0) hf
  rw [← hi] at hop hfam hsize hfirst hsecond
  have hreadable : op.readsOperand = true → s.readable (metaSize md) o = true := fun hreads =>
    hsize ▸ hread.2 o hfirst (.inr ⟨hsecond, hop.symm ▸ hreads⟩)
  obtain ⟨r, t, hstep, hdec, hb, hrfam, hrsize, hst, hprim, hsec⟩ := decoded_n1 hr hx ho hf hh hd hc hcode hreadable
  refine hdec.runsDecoded hr hstep ?_ ?_ fun u hexu hu => ⟨hu, ?_⟩
  · simp only [← hlen, List.length_append, o.length_extBytes, o.length_immBytes, BitVec.ofNat_add, BitVec.add_assoc]
    rfl
  · rw [Record.instr, hb, ho, Option.map_some, hrfam, hrsize, hst.toOperand, hi, (op.build_n1 _ _ _ _ hf).1,
      (op.build_n1 (metaFamily md) _ _ _ hf).1]
  · simp only [hfirst, hsecond, hexu, hop, hfam, hsize, ← metaFamily_of_n1 hh hf]
    exact ⟨hprim, hsec, by rw [State.dstEa, hexu, hst.ea]⟩

end

section

variable {b md d0 d1 : Byte} {op : Opcode} {dst src : Operand} (hr : s.Ready) (hx : s.cfg.isExtension b = false)
  (ho : s.cfg.opcodeOf b = some op) (hf : op.form = .n2) (hh : s.cfg.HeadOk op md [d0, d1])
  (hdst : dst.FitsDesc s.cfg d0) (hcdst : dst.carried op.readsDst (metaSize md) = true)
  (hsrc : src.FitsDesc s.cfg d1) (hcsrc : src.carried true (metaSize md) = true)
  (hcode : s.HoldsCode s.ip ([b, md, d0, d1] ++ (dst.extBytes s.cfg ++ (src.extBytes s.cfg ++
    (src.immBytes s.cfg true (metaSize md) ++ dst.immBytes s.cfg op.readsDst (metaSize md))))))

include hr hx ho hf hh hdst hcdst hsrc hcsrc hcode

/-- R164 to R167: three ticks leave the record of a two-operand instruction queued, or four where its opcode reads
the destination. -/
theorem decoded_n2 (hrsrc : s.readable (metaSize md) src = true)
    (hrdst : op.readsDst = true → s.readable (metaSize md) dst = true) :
    ∃ n r t, step s = stepTicks (n + 1) t ∧
      s.Decoded (s.ip + BitVec.ofNat 64 4 + BitVec.ofNat 64 dst.extLength + BitVec.ofNat 64 src.extLength +
        BitVec.ofNat 64 (src.immLength true (metaSize md)) +
        BitVec.ofNat 64 (dst.immLength op.readsDst (metaSize md))) r t ∧
      r.opcode = b ∧ r.family = metaFamily md ∧ r.size = metaSize md ∧ r.dst.Stands s.regs dst ∧
      r.src.Stands s.regs src ∧ r.primary = s.operandValue (metaFamily md) (metaSize md) src ∧
      r.secondary = (if op.readsDst then s.operandValue (metaFamily md) (metaSize md) dst else 0) := by
  have hh0 := hr.not_halted
  have hhead : s.HoldsCode s.ip (b :: md :: descriptors op.form d0 d1) := by rw [hf]; exact hcode.left
  have hops : s.HoldsCode (s.ip + BitVec.ofNat 64 4) ((dst.extBytes s.cfg ++ src.extBytes s.cfg) ++
      (src.immBytes s.cfg true (metaSize md) ++ dst.immBytes s.cfg op.readsDst (metaSize md))) := by
    rw [List.append_assoc]; exact hcode.right
  have himms := hops.right
  rw [List.length_append, dst.length_extBytes, src.length_extBytes, BitVec.ofNat_add, ← BitVec.add_assoc] at himms
  have himm := himms.right
  rw [src.length_immBytes] at himm
  obtain ⟨t1, startIp, h1, hd1⟩ := hr.idleTick_head hx ho (by rw [hf]; nofun) hhead (by rw [hf]; exact hh)
  rw [hf] at hd1
  obtain ⟨t2, dst', src', h2, hst0, hst1, hd2⟩ := hd1.addrMode_n2 rfl rfl rfl hdst hsrc hops.left
  have hsteps : step s = stepTicks 3 t2 :=
    calc step s = stepTicks 4 t1 := hr.stepTicks_moved hd1.outside h1 4
      _ = stepTicks 3 t2 := hd1.stepTicks_moved hh0 nofun hd2.outside h2 3
  cases hreads : op.readsDst with
  | true =>
    rw [hreads] at hcdst himm
    obtain ⟨t3, src'', h3, hst1', hd3⟩ := hd2.readMem_n2_of_readsDst ho rfl hreads hst1 hcsrc himms.left hrsrc
    obtain ⟨t4, dst'', len, h4, hst0', hdec⟩ := hd3.twoOpDstReadMem hst0 hcdst himm (hrdst hreads)
    refine ⟨0, _, t4, ?_, hdec, rfl, rfl, rfl, hst0', hst1', rfl, rfl⟩
    calc step s = stepTicks 3 t2 := hsteps
      _ = stepTicks 2 t3 := hd2.stepTicks_moved hh0 nofun hd3.outside h3 2
      _ = stepTicks 1 t4 := hd3.stepTicks_moved hh0 nofun hdec.outside h4 1
  | false =>
    rw [hreads] at hcdst
    obtain ⟨t3, src'', len, h3, hst1', hdec⟩ :=
      hd2.readMem_n2_of_not_readsDst ho rfl hreads hst1 hcsrc himms.left hrsrc
    rw [add_immLength_of_not_read _ dst]
    refine ⟨1, _, t3, ?_, hdec, rfl, rfl, rfl, withoutImm_of_not_read hcdst ▸ hst0, hst1', rfl, rfl⟩
    calc step s = stepTicks 3 t2 := hsteps
      _ = stepTicks 2 t3 := hd2.stepTicks_moved hh0 nofun hdec.outside h3 2

/-- The step of a two-operand instruction. -/
theorem runsDecoded_n2 (hi : i = op.build (metaFamily md) (metaSize md) dst src)
    (hlen : ([b, md, d0, d1] ++ (dst.extBytes s.cfg ++ (src.extBytes s.cfg ++
      (src.immBytes s.cfg true (metaSize md) ++
        dst.immBytes s.cfg op.readsDst (metaSize md))))).length = i.length)
    (hread : s.OperandsReadable i) : s.RunsDecoded i := by
  obtain ⟨hop, hfam, hsize, hfirst, hsecond, -⟩ := op.build_n2 (metaFamily md) (metaSize md) dst src hf hh.of_control
  rw [← hi] at hop hfam hsize hfirst hsecond
  have hrsrc : s.readable (metaSize md) src = true := hsize ▸ hread.1 src hsecond
  have hrdst : op.readsDst = true → s.readable (metaSize md) dst = true := fun hreads =>
    hsize ▸ hread.2 dst hfirst (.inl (hop.symm ▸ hreads))
  obtain ⟨n, r, t, hstep, hdec, hb, hrfam, hrsize, hst0, hst1, hprim, hsec⟩ :=
    decoded_n2 hr hx ho hf hh hdst hcdst hsrc hcsrc hcode hrsrc hrdst
  refine hdec.runsDecoded hr hstep ?_ ?_ fun u hexu hu => ⟨hu, ?_⟩
  · simp only [← hlen, List.length_append, dst.length_extBytes, src.length_extBytes, dst.length_immBytes,
      src.length_immBytes, BitVec.ofNat_add, BitVec.add_assoc]
    rfl
  · rw [Record.instr, hb, ho, Option.map_some, hrfam, hrsize, hst0.toOperand, hst1.toOperand, hi]
  · simp only [hfirst, hsecond, hexu, hop, hfam, hsize]
    exact ⟨hprim, hsec, by rw [State.dstEa, hexu, hst0.ea]⟩

end

end

/-- Settles O9: the bytes that decode spell the instruction; the ticks of its form read them and leave its record
queued, and the next tick runs it. -/
theorem stepRunsDecodedInstruction : Obligations.StepRunsDecodedInstruction := by
  intro s i rest hr hdec hchk hoff hread
  obtain ⟨code, hspell, hbytes, hlen⟩ := spells_of_decode hdec
  have hcode : s.HoldsCode s.ip code := by
    have hall := congrArg List.length hbytes
    rw [State.length_bytesAt, List.length_append] at hall
    refine ⟨hlen ▸ hchk, hlen ▸ hoff, ?_⟩
    rw [hall, State.bytesAt_add] at hbytes
    exact (List.append_inj hbytes (by simp)).1
  suffices h : s.RunsDecoded i from h
  cases hspell with
  | n0 hx ho hf => exact runsDecoded_n0 hr hx ho hf rfl hlen hcode
  | n1 hx ho hf hh hd hc => exact runsDecoded_n1 hr hx ho hf hh hd hc hcode rfl hlen hread
  | n2 hx ho hf hh hd0 hc0 hd1 hc1 =>
    exact runsDecoded_n2 hr hx ho hf hh hd0 hc0 hd1 hc1 hcode rfl hlen hread

end Sys2Proof.Machine

/-! Instructions that write their destination and then the flags (30_encoding.md R141, 40_decode_pipeline.md R177,
R179), and the MOV of the Integral family (41_move.md R210). -/

namespace Sys2Proof.Machine

/-! ### Writes of a result to the destination (R141, R177, R179) -/

theorem size_bits_le (size : Size) : size.bits ≤ 64 := by cases size <;> decide

/-- A value of the operand size survives its passage through a 64-bit word. -/
theorem lowBits_setWidth (size : Size) (v : BitVec size.bits) : lowBits size (v.setWidth 64) = v :=
  (BitVec.setWidth_setWidth_of_le v (size_bits_le size)).trans (BitVec.setWidth_eq v)

/-- A store to the destination's address, and then the flags: no other register changes. -/
theorem endsStoring_finish_setFlags {s : State} {size : Size} {v : Word} {flags : Flags → Prop} (g : Flags → Flags)
    (hg : flags (g s.flags)) :
    s.EndsStoring s.dstEa size.bytes v (fun r => flags r.flags ∧ r = { s.regs with flags := r.flags })
      (s.finish (s.storeDst size v) fun t => t.setFlags (g t.flags)) := by
  refine endsStoring_finish_storeDst (fun _ => rfl) fun t ht => ?_
  have hregs : (t.setFlags (g t.flags)).regs = { s.regs with flags := g s.flags } :=
    congrArg (fun r : RegFile => { r with flags := g r.flags }) ht
  rw [hregs]
  exact ⟨hg, rfl⟩

/-- A meaning that writes its result to its destination and then the flags ends as R177 and R179 say, on every
destination form. -/
theorem endsWriting_finish_writeOperand {s : State} {dst : Operand} {size : Size} {v : BitVec size.bits}
    {flags : Flags → Prop} (g : Flags → Flags) (hg : flags (g s.flags)) :
    s.EndsWriting dst size v flags
      (s.finish (s.writeOperand dst size (v.setWidth 64)) fun t => t.setFlags (g t.flags)) := by
  cases dst with
  | immediate => rfl
  | register i =>
    have hwrites := setRegAt_writesReg s size i (v.setWidth 64)
    rw [lowBits_setWidth] at hwrites
    exact ⟨_, rfl, rfl, hwrites, hg, rfl, fun _ => rfl⟩
  | absolute | indirect => exact endsStoring_finish_setFlags g hg

/-! ### MOV (R210) -/

/-- MOV is an instruction that writes the captured source value and leaves the flags at the value they have. -/
theorem execMov_eq_setFlags (s : State) (size : Size) (dst src : Operand) :
    execMov size dst src s =
      s.finish (s.writeOperand dst size ((s.primary size).setWidth 64)) fun t => t.setFlags t.flags := rfl

/-- Settles O35: MOV's write of its destination, with flags that stay. -/
theorem movEffect : Obligations.MovEffect := by
  refine ⟨⟨rfl, rfl, rfl⟩, fun s size dst src => ?_⟩
  rw [exec_mov, execMov_eq_setFlags]
  exact endsWriting_finish_writeOperand id rfl

end Sys2Proof.Machine

/-! Addition, subtraction and comparison (42_arith.md): V is signed overflow (R223, R224), and what ADD, SUB and CMP
leave behind (R220 to R222). -/

namespace Sys2Proof.Machine

/-! ### Signed overflow (R223, R224) -/

/-- The V of an addition by R224's table: the result's sign differs from both operands' signs, which so agree. -/
theorem addFlags_v_iff_msb {w : Nat} (f : Flags) (a b : BitVec w) :
    (addFlags f a b).v = true ↔ a.msb = b.msb ∧ (a + b).msb ≠ a.msb := by
  have htable : ∀ sa sb sr : Bool, ((sa ^^ sr) && (sb ^^ sr)) = true ↔ sa = sb ∧ sr ≠ sa := by decide
  rw [addFlags, BitVec.msb_and, BitVec.msb_xor, BitVec.msb_xor, htable]

/-- The V of a subtraction by R224's table. -/
theorem subFlags_v_iff_msb {w : Nat} (f : Flags) (a b : BitVec w) :
    (subFlags f a b).v = true ↔ a.msb ≠ b.msb ∧ (a - b).msb ≠ a.msb := by
  have htable : ∀ sa sb sr : Bool, ((sa ^^ sb) && (sa ^^ sr)) = true ↔ sa ≠ sb ∧ sr ≠ sa := by decide
  rw [subFlags, BitVec.msb_and, BitVec.msb_xor, BitVec.msb_xor, htable]

theorem addFlags_v_eq_saddOverflow {w : Nat} (f : Flags) (a b : BitVec w) :
    (addFlags f a b).v = a.saddOverflow b := by
  rw [Bool.eq_iff_iff, addFlags_v_iff_msb, BitVec.saddOverflow_eq]
  simp

theorem subFlags_v_eq_ssubOverflow {w : Nat} (f : Flags) (a b : BitVec w) :
    (subFlags f a b).v = a.ssubOverflow b := by
  have htable : ∀ sa sb sr : Bool,
      sa ≠ sb ∧ sr ≠ sa ↔ (!sa && sb && sr || sa && !sb && !sr) = true := by decide
  rw [Bool.eq_iff_iff, subFlags_v_iff_msb, BitVec.ssubOverflow_eq, htable]

/-- The V of an addition by R223: the signed sum is out of the range of `w` bits. -/
theorem addFlags_v_iff_toInt {w : Nat} (f : Flags) (a b : BitVec w) :
    (addFlags f a b).v = true ↔
      a.toInt + b.toInt < -(2 ^ (w - 1) : Int) ∨ (2 ^ (w - 1) : Int) ≤ a.toInt + b.toInt := by
  rw [addFlags_v_eq_saddOverflow, BitVec.saddOverflow, Bool.or_eq_true, decide_eq_true_iff, decide_eq_true_iff,
    or_comm]

/-- The V of a subtraction by R223: the signed difference is out of the range of `w` bits. -/
theorem subFlags_v_iff_toInt {w : Nat} (f : Flags) (a b : BitVec w) :
    (subFlags f a b).v = true ↔
      a.toInt - b.toInt < -(2 ^ (w - 1) : Int) ∨ (2 ^ (w - 1) : Int) ≤ a.toInt - b.toInt := by
  rw [subFlags_v_eq_ssubOverflow, BitVec.ssubOverflow, Bool.or_eq_true, decide_eq_true_iff, decide_eq_true_iff,
    or_comm]

/-- Settles O40: the sign table gives V, and the library's signed overflow joins the table to the range. -/
theorem overflowMeaning : Obligations.OverflowMeaning := fun _ f a b _ =>
  ⟨addFlags_v_iff_msb f a b, subFlags_v_iff_msb f a b, addFlags_v_iff_toInt f a b, subFlags_v_iff_toInt f a b⟩

/-! ### ADD, SUB and CMP (R220 to R222) -/

/-- Settles O37: ADD writes its sum and then the addition's flags. -/
theorem addEffect : Obligations.AddEffect := by
  refine ⟨⟨rfl, rfl, rfl⟩, fun s size dst src => ?_⟩
  rw [exec_add, execAdd]
  exact endsWriting_finish_writeOperand (addFlags · _ _) ⟨rfl, rfl, rfl, rfl, rfl, rfl⟩

/-- Settles O38: SUB writes its difference and then the subtraction's flags. -/
theorem subEffect : Obligations.SubEffect := by
  refine ⟨⟨rfl, rfl, rfl⟩, fun s size dst src => ?_⟩
  rw [exec_sub, execSub]
  exact endsWriting_finish_writeOperand (subFlags · _ _) ⟨rfl, rfl, rfl, rfl, rfl, rfl⟩

/-- CMP on an Immediate destination (R141, R222). -/
theorem execCmp_immediate {s : State} {size : Size} {dst src : Operand} (h : dst.isImmediate = true) :
    execCmp size dst src s = .next (s.raiseException .hardFault) := if_pos h

/-- CMP on any other destination writes the subtraction's flags alone (R222). -/
theorem execCmp_not_immediate {s : State} {size : Size} {dst src : Operand} (h : ¬ dst.isImmediate = true) :
    execCmp size dst src s = .next (s.setFlags (subFlags s.flags (s.secondary size) (s.primary size))) := if_neg h

/-- Settles O39: CMP raises on an Immediate destination and else writes the flags of SUB, with no destination
written. -/
theorem cmpEffect : Obligations.CmpEffect := by
  refine ⟨⟨rfl, rfl, rfl⟩, fun s size dst src => ?_⟩
  rw [exec_cmp]
  split
  next himm => exact execCmp_immediate himm
  next himm => exact ⟨_, execCmp_not_immediate himm, rfl, rfl, rfl, rfl, rfl, rfl, rfl⟩

end Sys2Proof.Machine

/-! The four shifts (43_shift.md): results and carries as R241 to R244 give them, ASL's V as a sign change at some
step of the shift (R241), and what the shifts leave behind (R240 to R244). -/

namespace Sys2Proof.Machine

/-! ### The common end of the shifts (R240) -/

/-- The flags that a shift sets are R240's for any result, last bit out and sign change its output agrees with; a
count of 0 asks nothing of the last two. -/
theorem shiftFlags_meets {w n : Nat} {o : ShiftOut w} {r : BitVec w} {c : Bool} {v : Prop} (s : State)
    (hr : o.result = r) (hc : n ≠ 0 → o.carry = c) (hv : o.overflow = true ↔ v) :
    s.ShiftFlags n r c v (shiftFlags s.flags n o) := by
  subst hr
  rcases eq_or_ne n 0 with rfl | hn
  · exact ⟨rfl, by simp [shiftFlags], rfl, rfl, rfl, rfl⟩
  · rw [← hc hn]
    exact ⟨rfl, by simp [shiftFlags, hn, hv], rfl, rfl, rfl, rfl⟩

/-- A shift ends as R240 says, on every destination form, with what its output agrees with. -/
theorem endsWriting_finishShift {s : State} {size : Size} {dst : Operand} {n : Nat} {o : ShiftOut size.bits}
    {r : BitVec size.bits} {c : Bool} {v : Prop} (hr : o.result = r) (hc : n ≠ 0 → o.carry = c)
    (hv : o.overflow = true ↔ v) :
    s.EndsWriting dst size r (s.ShiftFlags n r c v) (finishShift size dst n o s) := by
  have hflags := shiftFlags_meets s hr hc hv
  subst hr
  exact endsWriting_finish_writeOperand (shiftFlags · n o) hflags

/-! ### Results (R241 to R244) -/

/-- The case past the width is what the shift of a bit vector gives anyway. -/
theorem shiftLeft_eq_ofNat {w : Nat} (a : BitVec w) (n : Nat) :
    shiftLeft a n = BitVec.ofNat w (a.toNat * 2 ^ n) := by
  have hwide : shiftLeft a n = a <<< n := ite_eq_right_iff.2 fun h => (BitVec.shiftLeft_eq_zero h).symm
  rw [hwide]
  apply BitVec.eq_of_toNat_eq
  rw [BitVec.toNat_shiftLeft, BitVec.toNat_ofNat, Nat.shiftLeft_eq]

theorem lsrOut_result_eq_ofNat {w : Nat} (a : BitVec w) (n : Nat) :
    (lsrOut a n).result = BitVec.ofNat w (a.toNat / 2 ^ n) := by
  have hwide : (lsrOut a n).result = a >>> n := ite_eq_right_iff.2 fun h => (BitVec.ushiftRight_eq_zero h).symm
  have hlt : a.toNat / 2 ^ n < 2 ^ w := Nat.lt_of_le_of_lt (Nat.div_le_self ..) a.isLt
  rw [hwide]
  apply BitVec.eq_of_toNat_eq
  rw [BitVec.toNat_ushiftRight, BitVec.toNat_ofNat, Nat.shiftRight_eq_div_pow, Nat.mod_eq_of_lt hlt]

/-- Past the width, the quotient rounded toward minus infinity is the sign: -1 or 0 (R242). -/
theorem toInt_ediv_two_pow_of_le {w n : Nat} (a : BitVec w) (h : w ≤ n) :
    a.toInt / 2 ^ n = if a.msb then -1 else 0 := by
  have hpow : (2 : Int) ^ w ≤ 2 ^ n := pow_le_pow_right₀ (by decide) h
  have hlow := BitVec.le_two_mul_toInt (x := a)
  have hhigh := BitVec.two_mul_toInt_lt (x := a)
  split
  next hs => exact Int.ediv_eq_neg_one_of_neg_of_le (BitVec.toInt_neg_of_msb_true hs) (by omega)
  next hs => exact Int.ediv_eq_zero_of_lt (BitVec.toInt_nonneg_of_msb_false (Bool.eq_false_iff.2 hs)) (by omega)

theorem asrOut_result_eq_ofInt {w : Nat} (a : BitVec w) (n : Nat) :
    (asrOut a n).result = BitVec.ofInt w (a.toInt / 2 ^ n) := by
  dsimp only [asrOut]
  split
  next h =>
    rw [toInt_ediv_two_pow_of_le a h]
    cases a.msb with
    | true => exact BitVec.neg_one_eq_allOnes.symm.trans (BitVec.ofInt_neg (n := 1)).symm
    | false => rfl
  next => rfl

/-! ### The V of ASL (R241) -/

/-- A sequence of bits changes before place `n` exactly where its first `n + 1` bits are not all equal. -/
theorem exists_change_iff (p : Nat → Bool) (n : Nat) :
    (∃ k, k < n ∧ p (k + 1) ≠ p k) ↔ ¬ ∃ b, ∀ k ≤ n, p k = b := by
  constructor
  · rintro ⟨k, hk, hne⟩ ⟨b, hb⟩
    exact hne ((hb (k + 1) hk).trans (hb k hk.le).symm)
  · intro h
    by_contra hsteps
    refine h ⟨p 0, fun k hk => ?_⟩
    induction k with
    | zero => rfl
    | succ k ih =>
      have hstep : p (k + 1) = p k := by_contra fun hne => hsteps ⟨k, hk, hne⟩
      exact hstep.trans (ih (by omega))

/-- The sign after `k` steps of a left shift is the bit `k` places below the sign. -/
theorem msb_shiftLeft_eq_getMsbD {w : Nat} (a : BitVec w) (k : Nat) : (a <<< k).msb = a.getMsbD k := by
  rw [BitVec.msb, BitVec.getMsbD_shiftLeft, Nat.zero_add]

/-- The top `n + 1` bits of `a`, as a number, are 2^(n+1) - 1 where all are 1, and 0 where all are 0. -/
theorem toNat_ushiftRight_eq_iff {w n : Nat} (a : BitVec w) (h : n < w) (b : Bool) :
    (a >>> (w - 1 - n)).toNat = (if b then 2 ^ (n + 1) - 1 else 0) ↔ ∀ k ≤ n, a.getMsbD k = b := by
  have hbit (j : Nat) : (a >>> (w - 1 - n)).toNat.testBit j = a.getLsbD (w - 1 - n + j) := by
    rw [BitVec.testBit_toNat, BitVec.getLsbD_ushiftRight]
  have hmask (j : Nat) : (if b then 2 ^ (n + 1) - 1 else 0).testBit j = (decide (j < n + 1) && b) := by
    cases b <;> simp [Nat.testBit_two_pow_sub_one]
  constructor
  · intro he k hk
    have hj := hbit (n - k)
    rw [he, hmask] at hj
    rw [BitVec.getMsbD_eq_getLsbD, show w - 1 - k = w - 1 - n + (n - k) by omega, ← hj]
    simp only [show k < w by omega, show n - k < n + 1 by omega, decide_true, Bool.true_and]
  · intro hall
    refine Nat.eq_of_testBit_eq fun j => ?_
    rw [hbit, hmask]
    by_cases hj : j < n + 1
    · have hk := hall (n - j) (by omega)
      rw [BitVec.getMsbD_eq_getLsbD, show w - 1 - (n - j) = w - 1 - n + j by omega] at hk
      simpa [hj, show n - j < w by omega] using hk
    · rw [BitVec.getLsbD_of_ge _ _ (by omega), decide_eq_false hj, Bool.false_and]

/-- Where the shift reaches past the width, zeros come in below the bits of `a`, and all bits are equal for
`a = 0` alone. -/
theorem exists_forall_getMsbD_eq_iff_of_le {w n : Nat} (a : BitVec w) (h : w ≤ n) :
    (∃ b, ∀ k ≤ n, a.getMsbD k = b) ↔ a = 0 := by
  constructor
  · rintro ⟨b, hb⟩
    have hzero : b = false := (hb w h).symm.trans (BitVec.getMsbD_of_ge _ _ le_rfl)
    subst hzero
    refine BitVec.eq_of_getMsbD_eq fun k hk => ?_
    rw [hb k (by omega), BitVec.ofNat_eq_ofNat, BitVec.getMsbD_zero]
  · rintro rfl
    exact ⟨false, fun k _ => BitVec.getMsbD_zero⟩

/-- The model's V, which looks at the top bits of `a` alone, says that the sign changed at some step. -/
theorem aslOverflow_iff {w : Nat} (a : BitVec w) (n : Nat) :
    aslOverflow a n = true ↔ ∃ k, k < n ∧ (a <<< (k + 1)).msb ≠ (a <<< k).msb := by
  simp only [msb_shiftLeft_eq_getMsbD]
  rw [exists_change_iff a.getMsbD, aslOverflow]
  split
  next h => rw [exists_forall_getMsbD_eq_iff_of_le a h, decide_eq_true_iff]
  next h =>
    simp only [← toNat_ushiftRight_eq_iff a (Nat.lt_of_not_le h), Bool.exists_bool, Bool.false_eq_true, if_false,
      if_true, not_or, decide_eq_true_iff, ne_eq]

/-! ### The four shifts (R241 to R244) -/

/-- Settles O41: ASL's V says that the sign changed at some step, by `aslOverflow_iff`. -/
theorem aslEffect : Obligations.AslEffect := by
  refine ⟨⟨rfl, rfl, rfl⟩, fun s size dst src => ?_⟩
  rw [exec_asl, execAsl]
  exact endsWriting_finishShift (shiftLeft_eq_ofNat _ _) (fun _ => rfl) (aslOverflow_iff _ _)

/-- Settles O42: ASR's result is the floor division for every count; its carry matters for a count other than 0. -/
theorem asrEffect : Obligations.AsrEffect := by
  refine ⟨⟨rfl, rfl, rfl⟩, fun s size dst src => ?_⟩
  rw [exec_asr, execAsr]
  exact endsWriting_finishShift (asrOut_result_eq_ofInt _ _) (fun hn => if_neg hn) Bool.false_eq_true.to_iff

/-- Settles O43: LSL's result and carry are ASL's. -/
theorem lslEffect : Obligations.LslEffect := by
  refine ⟨⟨rfl, rfl, rfl⟩, fun s size dst src => ?_⟩
  rw [exec_lsl, execLsl]
  exact endsWriting_finishShift (shiftLeft_eq_ofNat _ _) (fun _ => rfl) Bool.false_eq_true.to_iff

/-- Settles O44: LSR's result is the division for every count. -/
theorem lsrEffect : Obligations.LsrEffect := by
  refine ⟨⟨rfl, rfl, rfl⟩, fun s size dst src => ?_⟩
  rw [exec_lsr, execLsr]
  exact endsWriting_finishShift (lsrOut_result_eq_ofNat _ _) (fun _ => rfl) Bool.false_eq_true.to_iff

end Sys2Proof.Machine

/-! The nine branches (44_branch.md): the one rule `BRANCH(cond)` of R260, and what each branch leaves behind (R261 to
R269). -/

namespace Sys2Proof.Machine

/-! ### `BRANCH(cond)` (R260) -/

theorem branch_eq_refused {s : State} {op : Operand} (cond : Flags → Bool) (size : Size)
    (hcfg : s.cfg.branchImmOnly = true) (hop : op.isImmediate = false) :
    branch cond size op s = .refused .branchOperandNotImmediate :=
  if_pos (by rw [hcfg, hop]; rfl)

/-- A branch that is not refused changes nothing but IP, and IP only where its condition holds. -/
theorem branch_eq_next {s : State} {op : Operand} (cond : Flags → Bool) (size : Size)
    (h : s.cfg.branchImmOnly = false ∨ op.isImmediate = true) :
    branch cond size op s = .next (if cond s.flags = true then s.setIp (s.relativeTarget size) else s) := by
  have hallowed : (s.cfg.branchImmOnly && !op.isImmediate) = false := by
    rcases h with hcfg | hop
    · rw [hcfg, Bool.false_and]
    · rw [hop, Bool.not_true, Bool.and_false]
  rw [branch, hallowed, if_neg Bool.false_ne_true]
  exact (apply_ite _ _ _ _).symm

/-- A branch on a clear flag, with its condition said of the flag. -/
theorem branch_not_eq_next {s : State} {op : Operand} (flag : Flags → Bool) (size : Size)
    (h : s.cfg.branchImmOnly = false ∨ op.isImmediate = true) :
    branch (fun f => !flag f) size op s =
      .next (if flag s.flags = false then s.setIp (s.relativeTarget size) else s) := by
  simp only [branch_eq_next _ size h, Bool.not_eq_true']

/-! ### The nine branches (R261 to R269) -/

/-- Settles O45: one rule for the branches on a set flag, one for those on a clear flag, and one refusal for all. -/
theorem branchEffect : Obligations.BranchEffect := by
  refine ⟨⟨⟨rfl, rfl, rfl⟩, ⟨rfl, rfl, rfl⟩, ⟨rfl, rfl, rfl⟩, ⟨rfl, rfl, rfl⟩, ⟨rfl, rfl, rfl⟩, ⟨rfl, rfl, rfl⟩,
    ⟨rfl, rfl, rfl⟩, ⟨rfl, rfl, rfl⟩, ⟨rfl, rfl, rfl⟩⟩, fun s size op => ⟨fun h => ?_, fun hcfg hop => ?_⟩⟩
  · rw [exec_bra, exec_beq, exec_bne, exec_bcs, exec_bcc, exec_bmi, exec_bpl, exec_bvs, exec_bvc]
    exact ⟨branch_eq_next (fun _ => true) size h,
      branch_eq_next (·.z) size h, branch_not_eq_next (·.z) size h,
      branch_eq_next (·.c) size h, branch_not_eq_next (·.c) size h,
      branch_eq_next (·.n) size h, branch_not_eq_next (·.n) size h,
      branch_eq_next (·.v) size h, branch_not_eq_next (·.v) size h⟩
  · have hrefused (cond : Flags → Bool) := branch_eq_refused cond size hcfg hop
    simp only [List.forall_mem_cons]
    exact ⟨hrefused fun _ => true, hrefused (·.z), hrefused (!·.z), hrefused (·.c), hrefused (!·.c),
      hrefused (·.n), hrefused (!·.n), hrefused (·.v), hrefused (!·.v), List.forall_mem_nil _⟩

end Sys2Proof.Machine

/-! The stack, call and return (45_stack_call.md): what a push and a read of the stack do, said once, then PUSH,
POP, CALL and RET (R280 to R283), and that POP undoes PUSH and RET undoes CALL. -/

namespace Sys2Proof.Machine

/-! ### The slot of a push (R280, R282) -/

/-- A push, and then what `f` does to the registers, stores to the slot before SP moves to it. -/
theorem endsStoring_finish_push (s : State) (n : Nat) (v : Word) (f : RegFile → RegFile) :
    s.EndsStoring (s.pushAddress n) n v (fun g => g = f (s.regs.set spIndex (s.pushAddress n)))
      (s.finish (s.push n v) fun t => t.setRegs (f t.regs)) := by
  unfold State.EndsStoring
  rcases s.push_cases n v with ⟨hc, t, hw, e⟩ | ⟨hc, e⟩ <;> rw [hc, e]
  · obtain ⟨-, hm⟩ := State.memWrite_frame hw
    obtain ⟨sys, -, rfl⟩ := State.memWrite_eq_some hw
    exact ⟨_, rfl, rfl, rfl, fun hok => (hm hok).2⟩
  · rfl

/-- Where a store was allowed, off the hardware bus, the registers are as stated and the slot holds the value, if
its bytes are enough for it. -/
theorem State.EndsStoring.regs_and_slot {s t : State} {a : Word} {n : Nat} {v : Word} {regs : RegFile → Prop}
    (h : s.EndsStoring a n v regs (.next t)) (hm : s.MemoryOk) (hc : s.cfg.check a.toNat n .write = true)
    (hoff : s.cfg.offHardwareBus a.toNat n = true) (hv : v.toNat < 256 ^ n) :
    regs t.regs ∧ BitVec.ofNat 64 (assemble s.cfg.byteOrder (t.bytesAt a.toNat n)) = v := by
  rw [State.EndsStoring, if_pos hc] at h
  obtain ⟨t', heq, -, hregs, hst⟩ := h
  cases heq
  rw [(hst hm).bytesAt hoff, assemble_split, Nat.mod_eq_of_lt hv, BitVec.ofNat_toNat, BitVec.setWidth_eq]
  exact ⟨hregs, rfl⟩

/-! ### Reads of the stack (R281, R283) -/

/-- A read changes no byte of the view, and off the hardware bus its value is that of the bytes in it. -/
theorem State.memRead_view {s t : State} {a : Word} {n : Nat} {k : AccessKind} {v : Word}
    (h : s.memRead a n k = some (v, t)) (hm : s.MemoryOk) :
    t.MemoryOk ∧ s.KeepsBytes t ∧ (s.cfg.offHardwareBus a.toNat n = true →
      v = BitVec.ofNat 64 (assemble s.cfg.byteOrder (s.bytesAt a.toNat n))) := by
  obtain ⟨-, hframe⟩ := State.memRead_frame h
  obtain ⟨hmt, hbytes⟩ := hframe hm
  refine ⟨hmt, hbytes, fun hoff => ?_⟩
  obtain ⟨u, hread, -⟩ := memRead_offBus hm (by rw [← s.isSome_memRead, h]; rfl) hoff
  rw [h] at hread
  cases hread
  rfl

/-! ### PUSH (R280) -/

/-- Settles O46: a push with nothing after it. -/
theorem pushEffect : Obligations.PushEffect :=
  ⟨⟨rfl, rfl, rfl⟩, fun s size _ => endsStoring_finish_push s size.bytes _ id⟩

/-! ### POP (R281) -/

theorem execPop_immediate {s : State} {size : Size} {op : Operand} (h : op.isImmediate = true) :
    execPop size op s = .next (s.raiseException .hardFault) := if_pos h

theorem execPop_of_not_check {s : State} {size : Size} {op : Operand} (h : ¬ op.isImmediate = true)
    (hc : s.cfg.check s.sp.toNat size.bytes .read = false) :
    execPop size op s = .next (s.raiseException .memoryFault) := by
  rw [execPop, if_neg h, s.memRead_none hc]
  rfl

theorem execPop_of_memRead {s t : State} {size : Size} {op : Operand} {v : Word} (h : ¬ op.isImmediate = true)
    (hr : s.memRead s.sp size.bytes .read = some (v, t)) : execPop size op s = popInto size op v t := by
  rw [execPop, if_neg h, hr]

/-- Settles O47: the two faults of the stack's operand and of its read; then a register is written after SP, and a
memory operand is stored to before SP moves. -/
theorem popEffect : Obligations.PopEffect := by
  refine ⟨⟨rfl, rfl, rfl⟩, fun s size op => ?_⟩
  dsimp only
  rw [exec_pop]
  split_ifs with himm hc
  · exact execPop_immediate himm
  · exact execPop_of_not_check himm hc
  · obtain ⟨v, s1, hr⟩ := s.memRead_some (eq_true_of_ne_false hc)
    have hview := State.memRead_view hr
    rw [execPop_of_memRead himm hr]
    obtain ⟨-, sys, -, -, rfl⟩ := State.memRead_eq_some hr
    refine ⟨_, v, rfl, hview, ?_⟩
    cases op with
    | immediate => exact absurd rfl himm
    | register i => exact ⟨_, rfl, rfl, setRegAt_writesReg _ size i v, rfl, rfl, fun _ => rfl⟩
    | absolute | indirect =>
      exact endsStoring_finish_storeDst (fun _ => rfl) fun t ht =>
        congrArg (fun r : RegFile => r.set spIndex (s.sp + BitVec.ofNat 64 size.bytes)) ht

/-! ### CALL (R282) -/

theorem callTarget_eq (s : State) (size : Size) :
    s.callTarget size = if size = .l then s.core.exu.primary
      else s.ip + (lowBits size s.core.exu.primary).signExtend 64 := by
  cases size <;> rfl

/-- Settles O48: a push of the next instruction's address, and then the write of IP. -/
theorem callEffect : Obligations.CallEffect := by
  refine ⟨⟨rfl, rfl, rfl⟩, fun s size op => ?_⟩
  dsimp only
  rw [← callTarget_eq]
  exact endsStoring_finish_push s 8 s.ip fun g => { g with ip := s.callTarget size }

/-! ### RET (R283) -/

theorem execRet_empty {s : State} (h : s.core.initialSp.toNat < s.sp.toNat + 8) :
    execRet s = .next (s.raiseException .hardFault) := if_pos h

theorem execRet_of_not_check {s : State} (h : ¬ s.core.initialSp.toNat < s.sp.toNat + 8)
    (hc : s.cfg.check s.sp.toNat 8 .read = false) : execRet s = .next (s.raiseException .memoryFault) := by
  rw [execRet, if_neg h, s.memRead_none hc]
  rfl

theorem execRet_of_memRead {s t : State} {v : Word} (h : ¬ s.core.initialSp.toNat < s.sp.toNat + 8)
    (hr : s.memRead s.sp 8 .read = some (v, t)) : execRet s = .next ((t.setSp (s.sp + 8)).setIp v) := by
  rw [execRet, if_neg h, hr]

/-- Settles O49: the two faults of RET; then what it pops is what the read of the stack answers. -/
theorem retEffect : Obligations.RetEffect := by
  refine ⟨⟨rfl, rfl, rfl⟩, fun s => ?_⟩
  rw [exec_ret]
  split_ifs with hempty hc
  · exact execRet_empty hempty
  · exact execRet_of_not_check hempty hc
  · obtain ⟨v, s1, hr⟩ := s.memRead_some (eq_true_of_ne_false hc)
    have hview := State.memRead_view hr
    rw [execRet_of_memRead hempty hr]
    obtain ⟨-, sys, -, -, rfl⟩ := State.memRead_eq_some hr
    exact ⟨_, rfl, rfl, rfl, hview⟩

/-! ### Round trips (R280 to R283) -/

/-- A register written at a width reads back at that width (R23). -/
theorem State.WritesReg.lowBits_eq {s t : State} {size : Size} {i : RegIndex} {v : BitVec size.bits}
    (h : s.WritesReg t size i v) : lowBits size (t.reg i) = v := by
  obtain ⟨hlow, -, -⟩ := h
  refine BitVec.eq_of_getLsbD_eq fun n hn => ?_
  rw [lowBits, BitVec.getLsbD_setWidth, hlow n hn, decide_eq_true hn, Bool.true_and]

/-- A POP to a register other than sp, off the hardware bus: the value at sp, and sp past it. -/
theorem pop_register_offBus {s : State} {size : Size} {i : RegIndex} (hm : s.MemoryOk)
    (hc : s.cfg.check s.sp.toNat size.bytes .read = true)
    (hoff : s.cfg.offHardwareBus s.sp.toNat size.bytes = true) (hi : i ≠ spIndex) :
    ∃ u, exec (.pop size (.register i)) s = .next u ∧ u.sp = s.sp + BitVec.ofNat 64 size.bytes ∧
      lowBits size (u.reg i) =
        lowBits size (BitVec.ofNat 64 (assemble s.cfg.byteOrder (s.bytesAt s.sp.toNat size.bytes))) := by
  have hpop := popEffect.2 s size (.register i)
  dsimp only at hpop
  have himm : ¬ (Operand.register i).isImmediate = true := Bool.false_ne_true
  rw [if_neg himm, if_neg (ne_false_of_eq_true hc)] at hpop
  obtain ⟨s1, v, -, hview, u, hu, -, hwrites, -⟩ := hpop
  obtain ⟨-, -, hv⟩ := hview hm
  obtain ⟨-, -, hkeeps⟩ := id hwrites
  refine ⟨u, hu, ?_, by rw [hwrites.lowBits_eq, hv hoff]⟩
  rw [State.sp, hkeeps spIndex (by simpa using hi.symm)]
  exact s1.sp_setSp _

/-- A RET off the hardware bus, with a return stack that is not empty: to the address at sp, and sp past it. -/
theorem ret_offBus {s : State} (hm : s.MemoryOk) (hc : s.cfg.check s.sp.toNat 8 .read = true)
    (hoff : s.cfg.offHardwareBus s.sp.toNat 8 = true) (hsp : s.sp.toNat + 8 ≤ s.core.initialSp.toNat) :
    ∃ u, exec .ret s = .next u ∧ u.sp = s.sp + 8 ∧
      u.ip = BitVec.ofNat 64 (assemble s.cfg.byteOrder (s.bytesAt s.sp.toNat 8)) := by
  have hret := retEffect.2 s
  rw [if_neg (Nat.not_lt.2 hsp), if_neg (ne_false_of_eq_true hc)] at hret
  obtain ⟨u, hu, -, hregs, hview⟩ := hret
  obtain ⟨-, -, hip⟩ := hview hm
  exact ⟨u, hu, (congrArg (fun g => g.get spIndex) hregs).trans (RegFile.get_set_self ..), hip hoff⟩

/-- The value of an operand of a size fits in the bytes of that size. -/
theorem toNat_setWidth_lt (size : Size) (v : BitVec size.bits) : (v.setWidth 64).toNat < 256 ^ size.bytes := by
  rw [Size.pow_bytes, BitVec.toNat_setWidth]
  exact Nat.lt_of_le_of_lt (Nat.mod_le ..) v.isLt

/-- POP undoes PUSH: the slot that PUSH stored to is the one that POP reads. -/
theorem pop_after_push {s t : State} {size : Size} {op : Operand} {i : RegIndex} (hm : s.MemoryOk)
    (hpush : exec (.push size op) s = .next t)
    (hw : s.cfg.check (s.sp - BitVec.ofNat 64 size.bytes).toNat size.bytes .write = true)
    (hr : s.cfg.check (s.sp - BitVec.ofNat 64 size.bytes).toNat size.bytes .read = true)
    (hoff : s.cfg.offHardwareBus (s.sp - BitVec.ofNat 64 size.bytes).toNat size.bytes = true)
    (hi : i ≠ spIndex) :
    ∃ u, exec (.pop size (.register i)) t = .next u ∧ u.sp = s.sp ∧ lowBits size (u.reg i) = s.primary size := by
  have hx := exec_executes _ s t hpush
  have hends := pushEffect.2 s size op
  rw [hpush] at hends
  obtain ⟨hregs, hslot⟩ := hends.regs_and_slot hm hw hoff (toNat_setWidth_lt size _)
  have hsp : t.sp = s.sp - BitVec.ofNat 64 size.bytes :=
    (congrArg (fun g => g.get spIndex) hregs).trans (RegFile.get_set_self ..)
  rw [← hsp, ← hx.cfg] at hr hoff hslot
  obtain ⟨u, hu, husp, hval⟩ := pop_register_offBus (hx.memoryOk hm) hr hoff hi
  exact ⟨u, hu, by rw [husp, hsp, BitVec.sub_add_cancel], by rw [hval, hslot, lowBits_setWidth]⟩

/-- RET undoes CALL: the slot that CALL stored to is the one that RET reads. -/
theorem ret_after_call {s t : State} {size : Size} {op : Operand} (hm : s.MemoryOk)
    (hcall : exec (.call size op) s = .next t) (hw : s.cfg.check (s.sp - 8).toNat 8 .write = true)
    (hr : s.cfg.check (s.sp - 8).toNat 8 .read = true) (hoff : s.cfg.offHardwareBus (s.sp - 8).toNat 8 = true)
    (hstack : (s.sp - 8).toNat + 8 ≤ s.core.initialSp.toNat) :
    ∃ u, exec .ret t = .next u ∧ u.sp = s.sp ∧ u.ip = s.ip := by
  have hx := exec_executes _ s t hcall
  have hends := callEffect.2 s size op
  rw [hcall] at hends
  obtain ⟨hregs, hslot⟩ := hends.regs_and_slot hm hw hoff s.ip.isLt
  have hsp : t.sp = s.sp - 8 := (congrArg (fun g => g.get spIndex) hregs).trans (RegFile.get_set_self ..)
  rw [← hsp, ← hx.cfg] at hr hoff hslot
  rw [← hsp, ← hx.initialSp] at hstack
  obtain ⟨u, hu, husp, hip⟩ := ret_offBus (hx.memoryOk hm) hr hoff hstack
  exact ⟨u, hu, by rw [husp, hsp, BitVec.sub_add_cancel], hip.trans hslot⟩

/-- Settles O50: `pop_after_push` and `ret_after_call`. -/
theorem stackRoundTrips : Obligations.StackRoundTrips := fun _ _ _ _ hm =>
  ⟨fun hpush hw hr hoff _ hi => pop_after_push hm hpush hw hr hoff hi,
    fun hcall hw hr hoff hstack => ret_after_call hm hcall hw hr hoff hstack⟩

end Sys2Proof.Machine

/-! The control blocks and their invariant (R336), then the system instructions (46_system.md), and that a return
undoes an entry. -/

namespace Sys2Proof.Machine

/-! ### The executing block (R300, R301) -/

theorem mem_intLines (i : Fin 8) : i ∈ intLines := by revert i; decide

/-- No line is found exactly where no block is Executing. -/
theorem State.executingIsr_eq_none_iff {s : State} :
    s.executingIsr = none ↔ ∀ i, (s.isrBlock i).snapshot = none := by
  simp [State.executingIsr, mem_intLines]

/-- Where one block alone is Executing, its line is the one found. -/
theorem State.executingIsr_eq_some {s : State} {i : Fin 8} {snap : RegFile} (hi : s.isrBlock i = .executing snap)
    (hother : ∀ j, j ≠ i → (s.isrBlock j).snapshot = none) : s.executingIsr = some (i, snap) := by
  cases h : s.executingIsr with
  | none =>
    have hnone := State.executingIsr_eq_none_iff.1 h i
    rw [hi] at hnone
    cases hnone
  | some p =>
    obtain ⟨j, snap'⟩ := p
    have hj := State.snapshot_of_executingIsr h
    by_cases hji : j = i
    · subst hji
      rw [hi] at hj
      cases hj
      rfl
    · rw [hother j hji] at hj
      cases hj

/-- A line is entered only where no ISR is active (R333). -/
theorem State.no_isr_of_pendingLine {s : State} {i : Fin 8} (h : s.pendingLine = some i) :
    s.intActive = false ∧ ∀ j, (s.isrBlock j).snapshot = none := by
  unfold State.pendingLine at h
  split at h
  · next hc =>
    simp only [Bool.and_eq_true, Bool.not_eq_true', Option.isNone_iff_eq_none] at hc
    obtain ⟨⟨-, hint⟩, hexec⟩ := hc
    exact ⟨hint, State.executingIsr_eq_none_iff.1 hexec⟩
  · cases h

/-- The exception snapshot that RTE restores is the one of an Executing block with EXC_ACTIVE set. -/
theorem State.excSnapshot_eq_some {s : State} {snap : RegFile} (ha : s.excActive = true)
    (hp : s.core.exc.phase = .executing snap) : s.excSnapshot = some snap := by
  simp [State.excSnapshot, hp, ha]

theorem State.excSnapshot_eq_none {s : State} (h : s.excActive = false ∨ s.core.exc.phase.snapshot = none) :
    s.excSnapshot = none := by
  rcases h with ha | hp
  · cases hp : s.core.exc.phase <;> simp [State.excSnapshot, hp, ha]
  · refine Option.eq_none_iff_forall_ne_some.2 fun snap hs => ?_
    have hmem := State.snapshot_of_excSnapshot hs
    rw [hp] at hmem
    cases hmem

/-! ### The invariant of the control blocks (R300, R336) -/

namespace State.HandlersOk

variable {s t : State}

/-- The invariant speaks of the control blocks alone. -/
theorem of_blocks (h : s.HandlersOk) (hisr : t.core.isr = s.core.isr) (hexc : t.core.exc = s.core.exc) :
    t.HandlersOk := by
  simpa only [State.HandlersOk, State.AllSnapshots, State.isrBlock, hisr, hexc] using h

theorem setExc {b : ExcBlock} (h : s.HandlersOk) (hb : b.phase ≠ .raised)
    (hsnap : ∀ snap ∈ b.phase.snapshot, snap.flags.h = false) : (s.setExc b).HandlersOk := by
  obtain ⟨hone, -, hint, hisr, -⟩ := h
  exact ⟨hone, hb, hint, hisr, hsnap⟩

/-- A block that ends Executing must be the only one, and its snapshot that of a core which no ISR had and which
was not halted. -/
theorem setIsrBlock {i : Fin 8} {b : IsrBlock} (h : s.HandlersOk)
    (hother : b.snapshot.isSome = true → ∀ j, (s.isrBlock j).snapshot = none)
    (hsnap : ∀ snap ∈ b.snapshot, (snap.getCr statusIndex).getLsbD 0 = false ∧ snap.flags.h = false) :
    (s.setIsrBlock i b).HandlersOk := by
  obtain ⟨hone, hexc, hint, hisr, hhalt⟩ := h
  refine ⟨fun j k => ?_, hexc, fun j => ?_, fun j => ?_, hhalt⟩
  · rw [State.isrBlock_setIsrBlock, State.isrBlock_setIsrBlock]
    split_ifs with hj hk hk
    · exact fun _ _ => hj.trans hk.symm
    · intro hb hsome
      rw [hother hb k] at hsome
      cases hsome
    · intro hsome hb
      rw [hother hb j] at hsome
      cases hsome
    · exact hone j k
  · rw [State.isrBlock_setIsrBlock]
    split
    · exact fun snap hm => (hsnap snap hm).1
    · exact hint j
  · rw [State.isrBlock_setIsrBlock]
    split
    · exact fun snap hm => (hsnap snap hm).2
    · exact hisr j

theorem enterException (h : s.HandlersOk) (hh : s.halted = false) (e : Exc) : (s.enterException e).HandlersOk := by
  rcases s.enterException_cases e with ⟨v, s1, hm, he⟩ | ⟨-, he⟩ <;> rw [he]
  · have hs := State.SameControl.memRead hm
    have h1 : (s1.setExc { phase := .executing s.regs, id := e.id }).HandlersOk :=
      (h.of_blocks hs.isr hs.exc).setExc (fun hp => by cases hp) fun snap hsnap => by cases hsnap; exact hh
    exact h1.of_blocks rfl rfl
  · exact h.of_blocks rfl rfl

theorem raiseException (h : s.HandlersOk) (hh : s.halted = false) (e : Exc) : (s.raiseException e).HandlersOk := by
  have hrec : (s.recordExc e).HandlersOk := h.of_blocks rfl rfl
  rcases s.raiseException_cases e with ⟨-, he⟩ | ⟨-, -, he⟩ | ⟨-, -, he⟩ <;> rw [he]
  · exact hrec.of_blocks rfl rfl
  · exact hrec.of_blocks rfl rfl
  · exact hrec.enterException hh e

theorem enterIsr (h : s.HandlersOk) (hh : s.halted = false) (hint : s.intActive = false)
    (hnone : ∀ j, (s.isrBlock j).snapshot = none) (i : Fin 8) : (s.enterIsr i).HandlersOk := by
  rcases s.enterIsr_cases i with ⟨v, s1, hm, he⟩ | ⟨-, he⟩ <;> rw [he]
  · have hs := State.SameControl.memRead hm
    have hnone1 : ∀ j, (s1.isrBlock j).snapshot = none := by simpa only [State.isrBlock, hs.isr] using hnone
    have h1 : (s1.setIsrBlock i (.executing s.regs)).HandlersOk :=
      (h.of_blocks hs.isr hs.exc).setIsrBlock (fun _ => hnone1) fun snap hsnap => by
        cases hsnap; exact ⟨hint, hh⟩
    exact h1.of_blocks rfl rfl
  · exact h.of_blocks rfl rfl

theorem writeCr (h : s.HandlersOk) (i : BitVec 3) (v : Word) : (s.writeCr i v).HandlersOk := by
  rcases writeCr_cases s i v with ⟨w, -, hw⟩ | ⟨-, hw⟩ <;> rw [hw]
  · exact h.of_blocks rfl rfl
  · exact h

theorem returnFromInterrupt (h : s.HandlersOk) (i : Fin 8) (snap : RegFile) :
    (s.returnFromInterrupt i snap).HandlersOk := by
  have h1 : (s.setIsrBlock i .waiting).HandlersOk :=
    h.setIsrBlock (fun hsome => by cases hsome) fun _ hsnap => by cases hsnap
  exact h1.of_blocks rfl rfl

theorem returnFromException (h : s.HandlersOk) (snap : RegFile) : (s.returnFromException snap).HandlersOk := by
  have h1 : (s.setExc { s.core.exc with phase := .idle }).HandlersOk :=
    h.setExc (fun hp => by cases hp) fun _ hsnap => by cases hsnap
  exact h1.of_blocks rfl rfl

theorem controls (h : s.HandlersOk) (hh : s.halted = false) (hc : s.Controls t) : t.HandlersOk := by
  cases hc with
  | same hs => exact h.of_blocks hs.isr hs.exc
  | halt => exact h.of_blocks rfl rfl
  | writeCr i v => exact h.writeCr i v
  | raise hu e => exact (h.of_blocks hu.isr hu.exc).raiseException (hu.halted.trans hh) e
  | endIsr => exact h.returnFromInterrupt _ _
  | endExc => exact h.returnFromException _

theorem executorPhase (h : s.HandlersOk) (hh : s.halted = false) (hx : executorPhase s = .next t) :
    t.HandlersOk := by
  obtain ⟨u, hu, hc⟩ := executorPhase_controls hx
  exact (h.of_blocks hu.isr hu.exc).controls (hu.halted.trans hh) hc

theorem interruptPhase (h : s.HandlersOk) (hh : s.halted = false) : (interruptPhase s).HandlersOk := by
  rcases interruptPhase_cases s with hi | ⟨i, hp, hi⟩ <;> rw [hi]
  · exact h
  · obtain ⟨hint, hnone⟩ := State.no_isr_of_pendingLine hp
    exact h.enterIsr hh hint hnone i

theorem decoderPhase_raised (h : s.HandlersOk) (hh : s.halted = false) (hd : decoderPhase s = .raised t) :
    t.HandlersOk := by
  obtain ⟨e, u, _, _, hu, rfl⟩ := Machine.decoderPhase_raised hd
  have hs := State.SameControl.of_decodes hu
  exact ((h.of_blocks hs.isr hs.exc).raiseException (hs.halted.trans hh) e).of_blocks rfl rfl

theorem keptByPhases : KeptByPhases State.HandlersOk where
  executor h hh hx := executorPhase (s := State.markTicked _) (h.of_blocks rfl rfl) hh hx
  interrupt h hh := h.interruptPhase hh
  moved h _ hd :=
    have hu := (decoderPhase_decodes _).1 _ hd
    h.of_blocks hu.isr hu.exc
  raised h hh hd := h.decoderPhase_raised hh hd

end State.HandlersOk

/-- Settles O19: a snapshot is saved only in a phase, so by a core that is not halted, and one of an ISR only where
no ISR is active; a return frees its block, and nothing else changes a control block. -/
theorem stepKeepsHandlersOk : Obligations.StepKeepsHandlersOk := fun _ _ hs h =>
  State.HandlersOk.keptByPhases.step hs h

/-! ### RTI and RTE (R300, R301) -/

theorem execRti_of_executingIsr {s : State} {i : Fin 8} {snap : RegFile} (ha : s.intActive = true)
    (he : s.executingIsr = some (i, snap)) : execRti s = .next (s.returnFromInterrupt i snap) := by
  rw [execRti, if_pos ha, he]

theorem execRti_of_no_isr {s : State} (h : s.intActive = false ∨ s.executingIsr = none) :
    execRti s = .next (s.raiseException .hardFault) := by
  unfold execRti
  split_ifs with ha
  · rw [h.resolve_left (by simp [ha])]
    rfl
  · rfl

/-- Settles O51: the executing block is found where it is the only one, and none is found where there is none. -/
theorem rtiEffect : Obligations.RtiEffect :=
  ⟨⟨rfl, rfl, rfl⟩, fun _ =>
    ⟨fun _ _ ha hi hother => execRti_of_executingIsr ha (State.executingIsr_eq_some hi hother),
      fun h => execRti_of_no_isr (h.imp_right State.executingIsr_eq_none_iff.2)⟩⟩

theorem execRte_of_excSnapshot {s : State} {snap : RegFile} (h : s.excSnapshot = some snap) :
    execRte s = .next (s.returnFromException snap) := by rw [execRte, h]

theorem execRte_of_no_snapshot {s : State} (h : s.excSnapshot = none) :
    execRte s = .next (s.raiseException .hardFault) := by
  rw [execRte, h]
  rfl

/-- Settles O52: there is a snapshot to restore exactly inside an active exception handler. -/
theorem rteEffect : Obligations.RteEffect :=
  ⟨⟨rfl, rfl, rfl⟩, fun _ =>
    ⟨fun _ ha hp => execRte_of_excSnapshot (State.excSnapshot_eq_some ha hp),
      fun h => execRte_of_no_snapshot (State.excSnapshot_eq_none h)⟩⟩

/-! ### NOP and BRK (R303, R304) -/

/-- Settles O54: NOP answers its state, and BRK halts, which is a write of the flags. -/
theorem nopAndBrk : Obligations.NopAndBrk := by
  refine ⟨⟨rfl, rfl, rfl⟩, ⟨rfl, rfl, rfl⟩, fun s => ⟨?_, ?_⟩⟩
  · rw [exec_nop, execNop]
  · rw [exec_brk, execBrk, State.halt]

/-! ### SYS (R302) -/

/-- What the effects of a syscall handler can change: integral registers, flags but for H, and memory. -/
structure State.SysChanges (s t : State) : Prop where
  frame : ∃ gpr flags sys, t = { s with
    core := { s.core with regs := { s.regs with gpr := gpr, flags := flags } }
    sys := sys }
  halted : t.flags.h = s.flags.h
  memoryOk : s.MemoryOk → t.MemoryOk

namespace State.SysChanges

variable {s t u : State}

theorem refl (s : State) : s.SysChanges s := ⟨⟨_, _, _, rfl⟩, rfl, id⟩

theorem trans (h : s.SysChanges t) (g : t.SysChanges u) : s.SysChanges u := by
  refine ⟨?_, g.halted.trans h.halted, g.memoryOk ∘ h.memoryOk⟩
  obtain ⟨_, _, _, rfl⟩ := h.frame
  obtain ⟨_, _, _, rfl⟩ := g.frame
  exact ⟨_, _, _, rfl⟩

theorem cfg (h : s.SysChanges t) : t.cfg = s.cfg := by
  obtain ⟨_, _, _, rfl⟩ := h.frame
  rfl

theorem sysAction {act : SysAction} (h : s.sysAction act = some t) : s.SysChanges t := by
  refine ⟨?_, (State.SameControl.sysAction h).halted, (State.Executes.sysAction h).memoryOk⟩
  cases act with
  | setReg => cases h; exact ⟨_, _, _, rfl⟩
  | setFlags => cases h; exact ⟨_, _, _, rfl⟩
  | load a n =>
    simp only [State.sysAction, State.readBytes, Option.map_eq_some_iff] at h
    obtain ⟨_, ⟨_, -, rfl⟩, rfl⟩ := h
    exact ⟨_, _, _, rfl⟩
  | store a bs =>
    simp only [State.sysAction, State.writeBytes, Option.map_eq_some_iff] at h
    obtain ⟨_, -, rfl⟩ := h
    exact ⟨_, _, _, rfl⟩

end State.SysChanges

/-- Whether an effect of a handler faults is a matter of the region table alone (R67). -/
theorem State.isSome_sysAction (s : State) (act : SysAction) :
    (s.sysAction act).isSome = SysAction.allowed s.cfg act := by
  cases act with
  | setReg => rfl
  | setFlags => rfl
  | load a n => simp [State.sysAction, State.readBytes, SysAction.allowed, mmuRead_isSome]
  | store a bs => simp [State.sysAction, State.writeBytes, SysAction.allowed, mmuWrite_isSome]

/-- By induction on the effects: those before the first that is not allowed are done, and it raises. -/
theorem runSysActions_eq (acts : List SysAction) : ∀ s : State, ∃ u, s.SysChanges u ∧
    runSysActions acts s =
      if acts.all (SysAction.allowed s.cfg) then u else u.raiseException .memoryFault := by
  induction acts with
  | nil => exact fun s => ⟨s, .refl s, rfl⟩
  | cons act acts ih =>
    intro s
    have hallowed := s.isSome_sysAction act
    unfold runSysActions
    cases h : s.sysAction act with
    | none =>
      rw [h] at hallowed
      exact ⟨s, .refl s, by simp [← hallowed]⟩
    | some t =>
      rw [h] at hallowed
      have ht := State.SysChanges.sysAction h
      obtain ⟨u, hu, hrun⟩ := ih t
      exact ⟨u, ht.trans hu, by simp [← hallowed, hrun, ht.cfg]⟩

theorem execSys_of_mem {s : State} (h : s.reg d0Index ∈ s.cfg.syscallIds) :
    execSys s = .next (runSysActions (Config.syscallActions s) { s with calls := s.calls + 1 }) := if_pos h

theorem execSys_of_not_mem {s : State} (h : s.reg d0Index ∉ s.cfg.syscallIds) :
    execSys s = .next (s.raiseException .illegalInstruction) := if_neg h

/-- Settles O53: what the handler's effects change is `State.SysChanges`, from the state with the call counted. -/
theorem sysEffect : Obligations.SysEffect := by
  refine ⟨⟨rfl, rfl, rfl⟩, fun s => ?_⟩
  rw [exec_sys]
  split
  · next hid =>
    obtain ⟨u, hu, hrun⟩ := runSysActions_eq (Config.syscallActions s) { s with calls := s.calls + 1 }
    refine ⟨u, hu.frame, hu.halted, hu.memoryOk, ?_⟩
    rw [execSys_of_mem hid, hrun]
    split_ifs <;> rfl
  · next hid => exact execSys_of_not_mem hid

/-! ### A return right after an entry (R300, R301, R334, R342, R343) -/

theorem excActive_statusWithExcActive (st : Word) : (statusWithExcActive st).getLsbD 1 = true := by
  simp [statusWithExcActive]

theorem intActive_statusWithInt (st : Word) (i : Fin 8) : (statusWithInt st i).getLsbD 0 = true := by
  simp [statusWithInt]

/-- Every vector is readable in a well-formed configuration (R9), so no entry halts for its vector's sake. -/
theorem State.memRead_excVector_ne_none {s : State} (hw : s.cfg.wf = true) (e : Exc) :
    s.memRead (s.excVector e) 8 .read ≠ none := by
  rw [Ne, State.memRead_eq_none_iff, s.excVector_eq, (check_vector hw (by omega)).1]
  simp

theorem State.memRead_intVector_ne_none {s : State} (hw : s.cfg.wf = true) (i : Fin 8) :
    s.memRead (s.intVector i) 8 .read ≠ none := by
  rw [Ne, State.memRead_eq_none_iff, s.intVector_eq, (check_vector hw (by omega)).1]
  simp

/-- A raise that enters saves the registers with the id recorded, and sets EXC_ACTIVE (R340, R342). -/
theorem State.raiseException_enters {s : State} {e : Exc} (hw : s.cfg.wf = true)
    (hp : s.core.exc.phase.snapshot = none) (he : (s.cr 1).getLsbD e.id.val = true) :
    (s.raiseException e).core.exc.phase = .executing (s.recordExc e).regs ∧
      (s.raiseException e).excActive = true := by
  have hx : s.excExecuting = false := by
    cases hph : s.core.exc.phase with
    | executing => rw [hph] at hp; cases hp
    | idle | raised => simp [State.excExecuting, hph]
  rcases s.raiseException_cases e with ⟨h, -⟩ | ⟨-, h, -⟩ | ⟨-, -, h⟩
  · rw [hx] at h; cases h
  · rw [State.excEnabled, he] at h; cases h
  · rw [h]
    rcases (s.recordExc e).enterException_cases e with ⟨_, _, -, h'⟩ | ⟨hnone, -⟩
    · rw [h']
      exact ⟨rfl, by rw [State.excActive, State.cr_setCr_self, excActive_statusWithExcActive]⟩
    · exact absurd hnone (State.memRead_excVector_ne_none (s := s.recordExc e) hw e)

/-- An interrupt entry saves the registers in its block alone, and sets INT_ACTIVE (R334). -/
theorem State.enterIsr_enters {s : State} (hw : s.cfg.wf = true) (i : Fin 8) :
    (s.enterIsr i).isrBlock i = .executing s.regs ∧
      (∀ j, j ≠ i → (s.enterIsr i).isrBlock j = s.isrBlock j) ∧
      (s.enterIsr i).intActive = true ∧ (s.enterIsr i).core.exc = s.core.exc := by
  rcases s.enterIsr_cases i with ⟨v, s1, hm, h⟩ | ⟨hnone, -⟩
  · rw [h]
    have hs := State.SameControl.memRead hm
    have hblock (j : Fin 8) : s1.isrBlock j = s.isrBlock j := by rw [State.isrBlock, hs.isr, State.isrBlock]
    refine ⟨(s1.isrBlock_setIsrBlock i i _).trans (if_pos rfl),
      fun j hj => ((s1.isrBlock_setIsrBlock i j _).trans (if_neg hj)).trans (hblock j), ?_, hs.exc⟩
    rw [State.intActive, State.cr_setCr_self, intActive_statusWithInt]
  · exact absurd hnone (State.memRead_intVector_ne_none hw i)

/-- Settles O58: each entry meets the condition of its return, with the saved registers as the snapshot. -/
theorem returnAfterEntry : Obligations.ReturnAfterEntry := by
  refine ⟨fun s e hw hp he => ?_, fun s i hw hnone => ?_⟩
  · obtain ⟨hphase, hactive⟩ := State.raiseException_enters hw hp he
    exact ⟨_, execRte_of_excSnapshot (State.excSnapshot_eq_some hactive hphase), rfl, rfl⟩
  · obtain ⟨hblock, hother, hactive, hexc⟩ := State.enterIsr_enters hw i
    have hexec := State.executingIsr_eq_some hblock fun j hj => by rw [hother j hj, hnone j]
    exact ⟨_, execRti_of_executingIsr hactive hexec, rfl,
      (State.isrBlock_setIsrBlock _ i i _).trans (if_pos rfl), hexc⟩

end Sys2Proof.Machine

/-! Taking an exception or an interrupt (60_exceptions.md R333 to R346): the fields of STATUS, the vectors, the two
entries, and which line is entered and when. -/

namespace Sys2Proof.Machine

/-! ### The fields of STATUS (R36) -/

/-- Bits that are set inside a mask are nothing outside it. -/
theorem or_and_not_of_within {m y : Word} (x : Word) (hy : y &&& ~~~ m = 0) :
    (x ||| y) &&& ~~~ m = x &&& ~~~ m := by
  rw [BitVec.and_or_distrib_right, hy]; exact BitVec.or_zero

/-- Clearing bits inside a mask changes nothing outside it. -/
theorem and_not_and_not_of_within {k m : Word} (x : Word) (h : ~~~ k &&& ~~~ m = ~~~ m) :
    (x &&& ~~~ k) &&& ~~~ m = x &&& ~~~ m := by rw [BitVec.and_assoc, h]

/-- Setting bits outside a field leaves the field. -/
theorem extractLsb'_or_of_outside {lo len : Nat} {y : Word} (x : Word) (hy : y.extractLsb' lo len = 0#len) :
    (x ||| y).extractLsb' lo len = x.extractLsb' lo len := by
  rw [BitVec.extractLsb'_or, hy, BitVec.or_zero]

/-- A field that is cleared and then set has what it was set to. -/
theorem extractLsb'_cleared_or {lo len : Nat} {k : Word} (x y : Word) (hk : (~~~ k).extractLsb' lo len = 0#len) :
    (x &&& ~~~ k ||| y).extractLsb' lo len = y.extractLsb' lo len := by
  rw [BitVec.extractLsb'_or, BitVec.extractLsb'_and, hk, BitVec.and_zero, BitVec.zero_or]

theorem statusWithExcId_and_not (st : Word) (e : Fin 6) :
    statusWithExcId st e &&& ~~~ (0x700 : Word) = st &&& ~~~ (0x700 : Word) := by
  rw [statusWithExcId, or_and_not_of_within _ (by revert e; decide), and_not_and_not_of_within _ (by decide)]

theorem excId_statusWithExcId (st : Word) (e : Fin 6) :
    ((statusWithExcId st e).extractLsb' 8 3).toNat = e.val := by
  rw [statusWithExcId, extractLsb'_cleared_or _ _ (by decide)]
  revert e; decide

theorem statusWithExcId_statusWithExcId (st : Word) (e e' : Fin 6) :
    statusWithExcId (statusWithExcId st e) e' = statusWithExcId st e' := by
  rw [statusWithExcId, statusWithExcId_and_not, statusWithExcId]

theorem statusWithExcActive_and_not (st : Word) :
    statusWithExcActive st &&& ~~~ (0x702 : Word) = st &&& ~~~ (0x702 : Word) :=
  or_and_not_of_within _ (by decide)

theorem excId_statusWithExcActive (st : Word) :
    (statusWithExcActive st).extractLsb' 8 3 = st.extractLsb' 8 3 :=
  extractLsb'_or_of_outside _ (by decide)

theorem statusWithInt_and_not (st : Word) (i : Fin 8) :
    statusWithInt st i &&& ~~~ (0x71 : Word) = st &&& ~~~ (0x71 : Word) := by
  rw [statusWithInt, or_and_not_of_within _ (by decide), or_and_not_of_within _ (by revert i; decide),
    and_not_and_not_of_within _ (by decide)]

theorem intId_statusWithInt (st : Word) (i : Fin 8) :
    ((statusWithInt st i).extractLsb' 4 3).toNat = i.val := by
  rw [statusWithInt, extractLsb'_or_of_outside _ (by decide), extractLsb'_cleared_or _ _ (by decide)]
  revert i; decide

/-! ### A raise that halts (R340, R346) -/

theorem State.cr_setCr_of_ne {s : State} {i k : BitVec 3} (h : k ≠ i) (v : Word) : (s.setCr i v).cr k = s.cr k :=
  (s.cr_setCr i k v).trans (if_neg h)

/-- Recording an id takes the place of the one recorded before (R340). -/
theorem State.recordExc_recordExc (s : State) (e e' : Exc) : (s.recordExc e).recordExc e' = s.recordExc e' := by
  have hset (v w : Word) : (s.setCr statusIndex v).setCr statusIndex w = s.setCr statusIndex w := by
    simp [State.setCr, State.setRegs, RegFile.setCr]
  rw [State.recordExc, State.recordExc, State.cr_setCr_self, statusWithExcId_statusWithExcId, hset, State.recordExc]

theorem State.haltsWith_recordExc_halt (s : State) (e : Exc) : s.HaltsWith (s.recordExc e).halt e.id.val := by
  have hstatus : (s.recordExc e).halt.cr statusIndex = statusWithExcId (s.cr statusIndex) e.id :=
    s.cr_setCr_self statusIndex _
  refine ⟨rfl, fun _ => rfl, rfl, rfl, fun i hi => s.cr_setCr_of_ne hi _, ?_, ?_⟩
  · rw [hstatus, statusWithExcId_and_not]
  · rw [hstatus, excId_statusWithExcId]

theorem State.excExecuting_eq_isSome_snapshot (s : State) :
    s.excExecuting = s.core.exc.phase.snapshot.isSome := by
  unfold State.excExecuting ExcPhase.snapshot
  cases s.core.exc.phase <;> rfl

/-- Settles O55: of the two ids that a nested raise records the second, HardFault's, stays. -/
theorem raiseHalts : Obligations.RaiseHalts := by
  refine fun s e => ⟨fun hsome => ?_, fun hnone hdis => ?_⟩
  · have hx : s.excExecuting = true := s.excExecuting_eq_isSome_snapshot.trans hsome
    rcases s.raiseException_cases e with ⟨-, h⟩ | ⟨h, -⟩ | ⟨h, -⟩
    · rw [h, State.recordExc_recordExc]
      exact s.haltsWith_recordExc_halt .hardFault
    · rw [hx] at h; cases h
    · rw [hx] at h; cases h
  · have hx : s.excExecuting = false := by rw [s.excExecuting_eq_isSome_snapshot, hnone]; rfl
    rcases s.raiseException_cases e with ⟨h, -⟩ | ⟨-, -, h⟩ | ⟨-, h, -⟩
    · rw [hx] at h; cases h
    · rw [h]
      exact s.haltsWith_recordExc_halt e
    · rw [State.excEnabled, hdis] at h; cases h

/-! ### The vectors (R342, R352, R371) -/

/-- The eight bytes at `a` in the coherent view, as the word that they spell. -/
def State.wordAt (s : State) (a : Nat) : Word := BitVec.ofNat 64 (assemble s.cfg.byteOrder (s.bytesAt a 8))

theorem State.KeepsBytes.wordAt {s t : State} (h : s.KeepsBytes t) (hcfg : t.cfg = s.cfg) (a : Nat) :
    t.wordAt a = s.wordAt a := by
  rw [State.wordAt, State.wordAt, h.bytesAt, hcfg]

/-- A read of the vector table, off the hardware bus, answers the vector in the coherent view. -/
theorem State.memRead_vector {s : State} (hm : s.MemoryOk) {k : Nat} (hk : k + 8 ≤ 0x80)
    (hoff : s.cfg.offHardwareBus (s.cfg.vtBase.toNat + k) 8 = true) :
    ∃ t, s.memRead (s.cfg.vtBase + BitVec.ofNat 64 k) 8 .read = some (s.wordAt (s.cfg.vtBase.toNat + k), t) ∧
      s.ReadsOffBus t := by
  obtain ⟨hchk, hnat⟩ := check_vector hm.1 hk
  rw [← hnat] at hoff ⊢
  exact memRead_offBus hm hchk hoff

/-! ### The handler of an exception (R340, R342) -/

/-- What entering an exception handler leaves, its vector off the hardware bus. -/
theorem State.enterException_offBus {s : State} (e : Exc) (hm : s.MemoryOk)
    (hoff : s.cfg.offHardwareBus (s.cfg.vtBase.toNat + 0x10 + 8 * e.id.val) 8 = true) :
    ∃ s1, s.ReadsOffBus s1 ∧ s.enterException e =
      ((s1.setExc { phase := .executing s.regs, id := e.id }).setIp
        (s.wordAt (s.cfg.vtBase.toNat + 0x10 + 8 * e.id.val))).setCr
          statusIndex (statusWithExcActive (s.cr statusIndex)) := by
  rw [Nat.add_assoc] at hoff ⊢
  obtain ⟨s1, hread, hreads⟩ := State.memRead_vector hm (by omega) hoff
  rw [← s.excVector_eq] at hread
  refine ⟨s1, hreads, ?_⟩
  rcases s.enterException_cases e with ⟨v, s2, hread', he⟩ | ⟨hnone, -⟩
  · rw [hread] at hread'
    cases hread'
    exact he
  · rw [hread] at hnone; cases hnone

theorem State.raiseException_of_enabled {s : State} {e : Exc} (hnone : s.core.exc.phase.snapshot = none)
    (hen : (s.cr 1).getLsbD e.id.val = true) : s.raiseException e = (s.recordExc e).enterException e := by
  have hx : s.excExecuting = false := by rw [s.excExecuting_eq_isSome_snapshot, hnone]; rfl
  rcases s.raiseException_cases e with ⟨h, -⟩ | ⟨-, h, -⟩ | ⟨-, -, h⟩
  · rw [hx] at h; cases h
  · rw [State.excEnabled, hen] at h; cases h
  · exact h

/-- Settles O56: the handler is entered from the state with the id recorded, which differs from `s` in STATUS
alone. -/
theorem raiseEnters : Obligations.RaiseEnters := by
  intro s e hm hnone hen hoff
  obtain ⟨s1, hreads, he⟩ := State.enterException_offBus (s := s.recordExc e) e hm hoff
  obtain ⟨heq, hm1, hbytes, hhw⟩ := hreads
  rw [State.raiseException_of_enabled hnone hen, he]
  have hrecorded : (s.recordExc e).cr statusIndex = statusWithExcId (s.cr statusIndex) e.id :=
    s.cr_setCr_self statusIndex _
  refine ⟨_, rfl, hm1, hbytes, ⟨_, rfl, rfl⟩, rfl, fun i => ?_, ?_, fun i hi => ?_, ?_, ?_, ?_, ?_, hhw⟩
  · rw [heq]; rfl
  · rw [heq]; rfl
  · rw [State.cr_setCr_of_ne hi, heq]
    exact s.cr_setCr_of_ne hi _
  · rw [State.excActive, State.cr_setCr_self, excActive_statusWithExcActive]
  · rw [State.cr_setCr_self, excId_statusWithExcActive, hrecorded, excId_statusWithExcId]
  · rw [State.cr_setCr_self, statusWithExcActive_and_not, hrecorded, statusWithExcId,
      or_and_not_of_within _ (by cases e <;> decide), and_not_and_not_of_within _ (by decide)]
  · rw [heq]; rfl

/-! ### The handler of an interrupt (R334) -/

/-- What entering an ISR leaves, its vector off the hardware bus. -/
theorem State.enterIsr_offBus {s : State} (i : Fin 8) (hm : s.MemoryOk)
    (hoff : s.cfg.offHardwareBus (s.cfg.vtBase.toNat + 0x40 + 8 * i.val) 8 = true) :
    ∃ s1, s.ReadsOffBus s1 ∧ s.enterIsr i =
      ((s1.setIsrBlock i (.executing s.regs)).setIp
        (s.wordAt (s.cfg.vtBase.toNat + 0x40 + 8 * i.val))).setCr
          statusIndex (statusWithInt (s.cr statusIndex) i) := by
  rw [Nat.add_assoc] at hoff ⊢
  obtain ⟨s1, hread, hreads⟩ := State.memRead_vector hm (by omega) hoff
  rw [← s.intVector_eq] at hread
  refine ⟨s1, hreads, ?_⟩
  rcases s.enterIsr_cases i with ⟨v, s2, hread', he⟩ | ⟨hnone, -⟩
  · rw [hread] at hread'
    cases hread'
    exact he
  · rw [hread] at hnone; cases hnone

/-- Settles O57: the entry is a read of the vector, which changes no more than the caches, and then writes of the
line's block, of IP and of STATUS. -/
theorem isrEntry : Obligations.IsrEntry := by
  intro s i hm hoff
  obtain ⟨hblock, hother, hactive, -⟩ := State.enterIsr_enters hm.1 i
  obtain ⟨s1, hreads, he⟩ := State.enterIsr_offBus i hm hoff
  obtain ⟨heq, hm1, hbytes, hhw⟩ := hreads
  refine ⟨_, rfl, ?_, ?_, hblock, hother, ?_⟩
  · rw [he]; exact hm1
  · rw [he]; exact hbytes
  rw [he] at hactive ⊢
  refine ⟨rfl, fun k => ?_, ?_, fun k hk => ?_, hactive, ?_, ?_, ?_, hhw⟩
  · rw [heq]; rfl
  · rw [heq]; rfl
  · rw [State.cr_setCr_of_ne hk, heq]; rfl
  · rw [State.cr_setCr_self, intId_statusWithInt]
  · rw [State.cr_setCr_self, statusWithInt_and_not]
  · rw [heq]; rfl

/-! ### Which line is entered (R333, R335) -/

theorem State.atBoundary_iff {s : State} :
    s.atBoundary = true ↔ (∀ sl ∈ s.core.slots, sl.state = .idle) ∧ s.core.queue = [] := by
  rw [State.atBoundary, Bool.and_eq_true, Option.isNone_iff_eq_none, List.isEmpty_iff]
  exact and_congr_left' ⟨activeSlot_none, activeSlot_of_all_idle⟩

theorem State.deliverable_iff {s : State} {i : Fin 8} :
    s.deliverable i = true ↔ s.isrBlock i = .flagged ∧ (s.cr 0).getLsbD i.val = true := by
  rw [State.deliverable, Bool.and_eq_true, decide_eq_true_iff, State.lineEnabled]

/-- The search over the lines finds the lowest (R335). -/
theorem find?_intLines_eq_some_iff {p : Fin 8 → Bool} {i : Fin 8} :
    intLines.find? p = some i ↔ p i = true ∧ ∀ j, j < i → ¬ p j = true := by
  have hlines : intLines = List.finRange 8 := by decide
  rw [hlines, List.find?_eq_some_iff_getElem]
  refine and_congr_right fun _ => ⟨?_, fun h => ⟨i.val, by simp, by simp, fun j hj => ?_⟩⟩
  · rintro ⟨n, hn, rfl, hlow⟩ j hj
    simpa using hlow j.val (by simpa [Fin.lt_def] using hj)
  · simpa using h ⟨j, by omega⟩ hj

theorem State.pendingLine_eq_some_iff {s : State} {i : Fin 8} :
    s.pendingLine = some i ↔
      s.atBoundary = true ∧ s.intActive = false ∧ s.executingIsr = none ∧ s.deliverable i = true ∧
        ∀ j, j < i → ¬ s.deliverable j = true := by
  unfold State.pendingLine
  split
  · next hc =>
    simp only [Bool.and_eq_true, Bool.not_eq_true', Option.isNone_iff_eq_none] at hc
    obtain ⟨⟨hb, hint⟩, hexec⟩ := hc
    simp only [find?_intLines_eq_some_iff, hb, hint, hexec, true_and]
  · next hc =>
    refine iff_of_false (by simp) ?_
    rintro ⟨hb, hint, hexec, -⟩
    exact hc (by simp [hb, hint, hexec])

/-- Settles O59: the condition of the interrupt phase, and the first line that the search over the lines finds. -/
theorem lineChoice : Obligations.LineChoice := fun s i => by
  simp only [State.pendingLine_eq_some_iff, State.atBoundary_iff, State.executingIsr_eq_none_iff,
    State.deliverable_iff, State.intActive, and_assoc]

/-! ### The interrupt is taken before the next instruction (R333, R337) -/

theorem State.markTicked_enterIsr (s : State) (i : Fin 8) : s.markTicked.enterIsr i = (s.enterIsr i).markTicked := by
  have hread : s.markTicked.memRead (s.intVector i) 8 .read =
      (s.memRead (s.intVector i) 8 .read).map fun r => (r.1, r.2.markTicked) := by
    simp only [State.memRead, State.readBytes, Option.map_map]
    rfl
  have hvector : s.markTicked.intVector i = s.intVector i := rfl
  rw [State.enterIsr, hvector, hread, State.enterIsr]
  cases s.memRead (s.intVector i) 8 .read <;> rfl

theorem State.halted_enterIsr {s : State} (hw : s.cfg.wf = true) (i : Fin 8) :
    (s.enterIsr i).halted = s.halted := by
  rcases s.enterIsr_cases i with ⟨v, s1, hm, h⟩ | ⟨hnone, -⟩
  · rw [h]
    exact (State.SameControl.memRead hm).halted
  · exact absurd hnone (State.memRead_intVector_ne_none hw i)

/-- With a line to enter, a tick is its decoder phase after the entry. -/
theorem tickReport_of_pendingLine {s : State} {i : Fin 8} (hw : s.cfg.wf = true) (hh : s.halted = false)
    (hp : s.pendingLine = some i) : tickReport s = tickDecoder false (s.enterIsr i).markTicked := by
  obtain ⟨-, hq⟩ := State.atBoundary_iff.1 (State.pendingLine_eq_some_iff.1 hp).1
  have hexec : executorPhase s.markTicked = .next s.markTicked := by simp [executorPhase, hq, peek]
  have hint : interruptPhase s.markTicked = (s.enterIsr i).markTicked := by
    have : s.markTicked.pendingLine = some i := hp
    simp [interruptPhase, this, State.markTicked_enterIsr]
  have hh' : s.markTicked.halted = false := hh
  have hentered : (s.enterIsr i).markTicked.halted = false := (State.halted_enterIsr hw i).trans hh
  simp [tickReport, hw, hq, queueOk_nil, hh, hexec, tickAfterExec, hint, hh', hentered]

/-- Settles O13: the tick that enters the ISR and the tick from the state after the entry are the same decoder
phase, since no line is entered while INT_ACTIVE is set. -/
theorem stepTakesInterrupt : Obligations.StepTakesInterrupt := by
  intro s i hw hh hp
  obtain ⟨-, hq⟩ := State.atBoundary_iff.1 (State.pendingLine_eq_some_iff.1 hp).1
  obtain ⟨-, -, hactive, -⟩ := State.enterIsr_enters hw i
  have hx := State.Executes.enterIsr s i
  have hnone : (s.enterIsr i).pendingLine = none := by
    refine Option.eq_none_iff_forall_ne_some.2 fun j hj => ?_
    rw [(State.no_isr_of_pendingLine hj).1] at hactive
    cases hactive
  have htick : tickReport s = tickReport (s.enterIsr i) :=
    (tickReport_of_pendingLine hw hh hp).trans
      (tickReport_of_no_record (hx.cfg ▸ hw) (hx.queue.trans hq) ((State.halted_enterIsr hw i).trans hh)
        hnone).symm
  simp only [step, stepInstruction, stepFuel, stepTicks, htick]

end Sys2Proof.Machine

/-! ResetCore (70_reset_and_hazards.md R370 to R372): the cache is flushed and emptied, the core is cleared, and two
vectors are read. -/

namespace Sys2Proof

open Machine

variable {cfg : Config} {sys : MemSys}

/-! ### Emptying a flushed cache (R372) -/

/-- A line as a reset leaves it before the vector reads. -/
def Machine.Line.emptied (ln : Line) : Line := { ln with mesi := .I, age := 0 }

/-- The memory system with every line of core `c`'s cache put into I. -/
def Machine.MemSys.empty (sys : MemSys) (c : Nat) : MemSys := sys.setCache c ((sys.cache c).map Line.emptied)

theorem line_empty {c : Nat} (hc : c < sys.caches.length) (i k : Nat) :
    (sys.empty c).line i k = if i = c then (sys.line i k).emptied else sys.line i k := by
  rw [MemSys.empty, MemSys.line_setCache hc]
  split
  · next e =>
    subst e
    exact List.getD_map (sys.cache i) (Line.invalid 0 0) Line.emptied
  · rfl

theorem line_empty_of_ne_I {c : Nat} (hc : c < sys.caches.length) {i k : Nat}
    (hI : ((sys.empty c).line i k).mesi ≠ .I) : (sys.empty c).line i k = sys.line i k := by
  rw [line_empty hc] at hI ⊢
  split at hI
  · exact absurd rfl hI
  · next hne => exact if_neg hne

theorem shaped_empty (hs : cfg.CachesShaped sys) {c : Nat} (hc : c < cfg.numCores) :
    cfg.CachesShaped (sys.empty c) := by
  obtain ⟨hcores, hlines⟩ := hs
  refine ⟨by simpa [MemSys.empty, MemSys.setCache] using hcores, fun i hi => ?_⟩
  rw [MemSys.empty, MemSys.cache_setCache (hcores ▸ hc)]
  split
  · rw [List.length_map]; exact hlines c hc
  · exact hlines i hi

/-- Emptying a cache that has no Modified line keeps the invariant and the view: RAM has what its lines held. -/
theorem empty_spec (h : cfg.Coherent sys) (hp : 0 < cfg.lineSize) {c : Nat} (hc : c < cfg.numCores)
    (hnoM : ∀ k, (sys.line c k).mesi ≠ .M) :
    cfg.Coherent (sys.empty c) ∧ ∀ x, cfg.coherentByte (sys.empty c) x = cfg.coherentByte sys x := by
  obtain ⟨-, hshaped, hsound, hexcl⟩ := id h
  have hc' : c < sys.caches.length := hshaped.1 ▸ hc
  refine coherent_of_fresh h hp rfl (shaped_empty hshaped hc) (fun i hi k hk => ?_)
    fun i hi k hk i' hi' k' hk' hI hI' htag => ?_
  · rw [line_empty hc']
    split
    · next e =>
      subst e
      refine .inr ⟨fun hI => ?_, .inl rfl⟩
      obtain ⟨-, -, -, hdata⟩ := hsound i hi k hk hI
      exact hdata (hnoM k)
    · exact .inl (.refl _)
  · have heq := line_empty_of_ne_I hc' hI
    have heq' := line_empty_of_ne_I hc' hI'
    rw [heq] at hI htag ⊢
    rw [heq'] at hI' htag ⊢
    exact hexcl i hi k hk i' hi' k' hk' hI hI' htag

/-- A cache flushed and emptied: the invariant and the view are as before. -/
theorem empty_flush_spec (h : cfg.Coherent sys) (hp : 0 < cfg.lineSize) {c : Nat} (hc : c < cfg.numCores) :
    cfg.Coherent ((flush c sys).empty c) ∧
      ∀ x, cfg.coherentByte ((flush c sys).empty c) x = cfg.coherentByte sys x := by
  obtain ⟨hco, hview⟩ := flush_spec h hp hc
  obtain ⟨-, ⟨hcores, -⟩, -, -⟩ := h
  obtain ⟨hco', hview'⟩ := empty_spec hco hp hc fun k => by
    rw [line_flush (hcores ▸ hc), if_pos rfl]
    exact Line.mesi_flushed_ne_M _
  exact ⟨hco', fun x => (hview' x).trans (hview x)⟩

end Sys2Proof

namespace Sys2Proof.Machine

/-! ### The vector reads and the reset (R370 to R372) -/

/-- The core with its stack at `v` (R371): sp and `initialSp`. -/
def State.setStack (s : State) (v : Word) : State :=
  { s.setSp v with core := { (s.setSp v).core with initialSp := v } }

theorem State.readResetVectors_of_memRead {s t u : State} {v w : Word}
    (hv : s.memRead s.cfg.vtBase 8 .read = some (v, t))
    (hw : (t.setStack v).memRead ((t.setStack v).cfg.vtBase + 8) 8 .read = some (w, u)) :
    s.readResetVectors = u.setIp w := by
  unfold State.setStack at hw
  simp only [State.readResetVectors, hv, hw]

/-- What the reset vector reads leave, the two entries off the hardware bus (R371). -/
theorem State.readResetVectors_offBus {s : State} (hm : s.MemoryOk)
    (hoff : s.cfg.offHardwareBus s.cfg.vtBase.toNat 16 = true) :
    ∃ t, s.ReadsOffBus t ∧ s.readResetVectors =
      (t.setStack (s.wordAt s.cfg.vtBase.toNat)).setIp (s.wordAt (s.cfg.vtBase.toNat + 8)) := by
  obtain ⟨hoff0, hoff8⟩ := Config.offHardwareBus_add (m := 8) (n := 8) hoff
  obtain ⟨t, hread0, hr0⟩ := State.memRead_vector (k := 0) hm (by decide) hoff0
  rw [BitVec.add_zero, Nat.add_zero] at hread0
  obtain ⟨heq0, hm0, hbytes0, hhw0⟩ := hr0
  rw [heq0] at hread0 hm0 hbytes0
  obtain ⟨u, hread8, hr8⟩ := State.memRead_vector (s := (s.setSys t.sys).setStack (s.wordAt s.cfg.vtBase.toNat))
    (k := 8) hm0 (by decide) hoff8
  obtain ⟨heq8, hm8, hbytes8, hhw8⟩ := hr8
  rw [State.readResetVectors_of_memRead hread0 hread8, heq8]
  rw [heq8] at hm8 hbytes8
  refine ⟨s.setSys u.sys, ⟨rfl, hm8, fun x => (hbytes8 x).trans (hbytes0 x), hhw8.trans hhw0⟩, ?_⟩
  exact congrArg (State.setIp _) (hbytes0.wordAt rfl _)

/-- The state that ResetCore reads the vectors from: the cache flushed and emptied, and the core cleared (R372). -/
def State.cleared (s : State) : State :=
  { s with core := Core.cleared s.cfg s.core.id, sys := (flush s.core.id s.sys).empty s.core.id }

theorem State.resetHere_eq (s : State) : s.resetHere = s.cleared.readResetVectors := rfl

theorem State.cleared_memoryOk {s : State} (hm : s.MemoryOk) : s.cleared.MemoryOk ∧ s.KeepsBytes s.cleared := by
  obtain ⟨hw, hc, hco⟩ := hm
  obtain ⟨hco', hview⟩ := empty_flush_spec hco (Config.lineSize_pos hw) hc
  exact ⟨⟨hw, hc, hco'⟩, hview⟩

/-- A cleared core has every control register 0 but cr5, its index (R39, R370). -/
theorem State.cr_cleared (s : State) (i : BitVec 3) :
    s.cleared.cr i = if i = 5 then BitVec.ofNat 64 s.core.id else 0 := by
  refine (RegFile.getCr_setCr RegFile.zero 5 i _).trans ?_
  simp [RegFile.zero, RegFile.getCr]

/-- Settles O22: the cleared core has the same memory in view, so the vectors that it reads are those of `s`, and
the reads and the writes of sp, `initialSp` and IP leave the rest cleared. -/
theorem resetCoreEffect : Obligations.ResetCoreEffect := by
  intro s hm hoff
  obtain ⟨hmc, hbytesc⟩ := State.cleared_memoryOk hm
  obtain ⟨t, ⟨heq, hmt, hbytes, -⟩, hreset⟩ := State.readResetVectors_offBus hmc hoff
  rw [s.resetHere_eq, hreset, hbytesc.wordAt rfl, hbytesc.wordAt rfl]
  refine ⟨hmt, fun x => (hbytes x).trans (hbytesc x), ?_⟩
  rw [heq]
  refine ⟨rfl, rfl, rfl, State.sp_setSp _ _, (State.sp_setSp _ _).symm, rfl, rfl, s.cr_cleared,
    fun i => Vector.getElem_replicate .., rfl, fun sl hsl => ?_, rfl, rfl, rfl⟩
  rw [List.eq_of_mem_replicate hsl]; rfl

end Sys2Proof.Machine
